-- ==== Sys2Proof/Word.lean ====
section
/-! DEFINITION. The word types of the machine, and nothing else. -/

namespace Sys2Proof

/-- A 32-bit register word (01 R22). -/
abbrev Word := BitVec 32

/-- A 64-bit value: a pair of words, an address, a counter (01 R22). -/
abbrev DWord := BitVec 64

/-- A byte of memory. -/
abbrev Byte := BitVec 8

/-- A set of lanes of one warp, bit l for lane l (01 R9). -/
abbrev Mask := BitVec 32

/-- One 96-bit instruction (03 R86). -/
abbrev IWord := BitVec 96

end Sys2Proof
end

