-- ==== Sys2Proof/Syntax.lean ====
section
/-! DEFINITION. The syntax of one step: an inductive with one constructor for each row of spec/opcode_table.json. The rows of
majors 0x00 to 0xD2 are instructions of a warp; the other rows are the steps of the machine's other agents. -/

namespace Sys2Proof

/-- Rounding-mode field (02 R57). -/
inductive RM where | rne | rtz | rdn | rup | rna | rdyn
  deriving DecidableEq, Repr

/-- A type named by a type code (02 R55). `b8 ext signed p` is the binary8 format with precision P = p + 1. -/
inductive Ty where
  | f32 | f16 | bf16 | f64 | s8 | n8 | s16 | n16 | s32 | n32 | s64 | n64
  | b8 (ext signed : Bool) (p : Fin 7)
  deriving DecidableEq, Repr

/-- Overflow policy (02 R59). -/
inductive Ovp where | sat | inf | nan | trap
  deriving DecidableEq, Repr

/-- Permutation code of a source (03 R96); `rot k` and `bfly k` move by 2^k. -/
inductive Perm where
  | none | rot (k : Fin 5) | bfly (k : Fin 5) | mirror | bcf | bcl | up1
  deriving DecidableEq, Repr

/-- KIND and NUM of a source field (03 R94). -/
inductive SrcBase where
  | vec (n : BitVec 8) | scal (n : BitVec 8) | latch (n : BitVec 8) | imm (n : BitVec 8)
  deriving DecidableEq, Repr

/-- A source field (03 R94). -/
structure Src where
  base : SrcBase
  perm : Perm
  neg : Bool
  abs : Bool
  deriving DecidableEq, Repr

/-- A predicate named with a negation: a guard, a select or combining predicate (03 R91, R104). -/
structure PRef where
  neg : Bool
  num : BitVec 3
  deriving DecidableEq, Repr

/-- Destination kind and number (03 R93). -/
inductive Dst where
  | none | vec (n : BitVec 8) | scal (n : BitVec 8) | pred (n : BitVec 8)
  deriving DecidableEq, Repr

/-- The fields that every instruction but REGN shares (03 R90). -/
structure Hdr where
  guard : PRef
  u : Bool
  ws : Bool
  dst : Dst
  deriving DecidableEq, Repr

/-- Comparison conditions (03 R105). -/
inductive Cond where | eq | ne | lt | le | gt | ge | num | nan
  deriving DecidableEq, Repr

/-- Combining operation of a comparison (03 R104). -/
inductive Comb where | and | or | xor
  deriving DecidableEq, Repr

/-- Operation of a lane reduction or scan (03 R104). -/
inductive RedOp where | add | min | max | and | or | xor
  deriving DecidableEq, Repr

/-- EXT of MOVI (03 R106). -/
inductive Ext where | w32 | sx | zx
  deriving DecidableEq, Repr

/-- MODE of POLL (03 R108). -/
inductive PollMode where | all | any | mask | same
  deriving DecidableEq, Repr

/-- MODE of LXCH (03 R108). -/
inductive LxchMode where | src | below | above | flip
  deriving DecidableEq, Repr

/-- MODE of RTE (03 R107). -/
inductive RteMode where | retry | skip | region
  deriving DecidableEq, Repr

/-- SIZE of MF (03 R100). -/
inductive MSize where | n8 | s8 | n16 | s16 | w32 | w64 | w128
  deriving DecidableEq, Repr

/-- SPACE of MF (03 R100). -/
inductive Space where | generic | global | localw | groupw
  deriving DecidableEq, Repr

/-- ORD of MF (03 R100). -/
inductive MOrd where | plain | acq | rel | acqrel
  deriving DecidableEq, Repr

/-- Scope codes (03 R100, 09 R263). -/
inductive Scope where | warp | team | group | slice | dev | sys
  deriving DecidableEq, Repr

/-- Path codes (03 R100, 09 R262). -/
inductive Path where | c | x | m | g | e | a | f | h
  deriving DecidableEq, Repr

/-- Cache policy (03 R100). -/
inductive CachePol where | dflt | stream | keep | nol1
  deriving DecidableEq, Repr

/-- The memory function MF (03 R100). -/
structure MemFn where
  size : MSize
  space : Space
  ord : MOrd
  scope : Scope
  cp : CachePol
  mp : Path
  deriving DecidableEq, Repr

/-- OP of an atomic (03 R111, 06 R178). -/
inductive AtomOp where | add | min | max | and | or | xor | exch | inc | dec | fadd
  deriving DecidableEq, Repr

/-- AT of an atomic (03 R111, 06 R178). -/
inductive AtomTy where | n32 | s32 | n64 | s64 | f32 | f64 | f16x2 | bf16x2
  deriving DecidableEq, Repr

/-- COND of WATCH (03 R111). -/
inductive WCond where | eq | ne | lt | ge
  deriving DecidableEq, Repr

/-- KIND of FENCE (06 R182). -/
inductive FKind where | full | acq | rel
  deriving DecidableEq, Repr

/-- ITEM of GQRY (06 R194). -/
inductive GItem where | count | idx | masklo | maskhi
  deriving DecidableEq, Repr

/-- MODE of TEX (07 R219). -/
inductive TexMode where | implicit | lod | grad | cone
  deriving DecidableEq, Repr

/-- DIM of a texture (07 R217). -/
inductive TexDim where | d2 | d3 | cube | d2arr
  deriving DecidableEq, Repr

/-- ITEM of TQRY (07 R225). -/
inductive TqItem where | size | levels | fmt
  deriving DecidableEq, Repr

/-- ITEM of THIT (07 R233). -/
inductive ThItem where | u | v | prim | inst | leaf
  deriving DecidableEq, Repr

/-- ITEM of VRD (07 R238). -/
inductive VrdItem where | prim | bary | deriv | depth
  deriving DecidableEq, Repr

/-- WHAT of GRD (07 R254). -/
inductive GrdWhat where | spins | counts | both
  deriving DecidableEq, Repr

/-- One range of REGN (03 R103). -/
structure Rng where
  start : BitVec 8
  len : BitVec 6
  deriving DecidableEq, Repr

/-- A warp of a team of a slice. -/
structure WarpRef where
  slice : Nat
  team : Nat
  warp : Nat
  deriving DecidableEq, Repr

/-- A split, named by its lowest lane. -/
structure SplitRef where
  slice : Nat
  team : Nat
  warp : Nat
  lane : Nat
  deriving DecidableEq, Repr

/-- Answers to an escalation (07 R259). -/
inductive EscAnswer where | retry | skip | region | next | kill
  deriving DecidableEq, Repr

/-- Causes of a slice error (20 R422). -/
inductive ErrCause where
  | poison (addr : Nat) | hbm (addr : Nat) | hangCopy (eng ch : Nat) | hangTask (task : Nat) | hangSweep | hangSave (team : Nat) | firmware
  /-- a command of the radiance engine, or a Gibbs load, clamp or read -/
  | hangRadiance | hangGibbs
  deriving DecidableEq, Repr

/-- Fields of a lease entry that software writes (18 R370). -/
inductive LeaseField where | lender | borrower | engs | meter | expiry
  deriving DecidableEq, Repr

/-- Registers whose writes have no behaviour of their own (00 R5; 20 R405, R417, R426; 19 R398; 18 R370; 21 R434, R435, R438). -/
inductive RegName where
  | slctl | wdog | hyst | rgtim
  | counter (k : Nat)
  | encctl | encsize | encfps | encbr | enckint | encqpm | encslc | encring | encrsz
  | xlroot (vf : Nat) | xlctl (vf : Nat)
  | queueMiss (q : Nat)
  deriving DecidableEq, Repr

/-- Requests that the management interface serves (21 R441). -/
inductive MgmtReq where
  | sysWindow (i : Nat) (v : DWord)
  | importEntry (i : Nat) (valid wr : Bool) (peer base size : Nat)
  | flowEntry (i : Nat) (valid : Bool) (port limit mac : Nat) (ip6 : Bool) (src dst sport dport dscp : Nat)
  | accessEntry (slice i : Nat) (v : BitVec 128)
  | deviceId (id : Nat)
  | powerCap (watts : Nat)
  | rollback (version : Nat)
  | read (what : Nat)
  | fences
  | windowRead (i : Nat)
  | capRead
  | sensor (slice : Nat)
  | saveArea (slice vf off len : Nat)
  deriving DecidableEq, Repr

/-- The kind of an access that arrives over the fabric (21 R435): an atomic brings its operand, or its compare and new values. -/
inductive FabricOp where
  | read
  | write
  | atom (op : AtomOp) (ty : AtomTy)
  | atomc (ty : AtomTy)
  deriving DecidableEq, Repr

/-- One step of the machine: one constructor for each row of spec/opcode_table.json. -/
inductive Instr where
  -- moves and integers (04 R121-R127)
  | nop (h : Hdr)
  | mov (h : Hdr) (w64 : Bool) (a : Src)
  | movi (h : Hdr) (ext : Ext) (imm : Word)
  | sel (h : Hdr) (w64 : Bool) (sp : PRef) (a b : Src)
  | iadd (h : Hdr) (a b : Src)
  | isub (h : Hdr) (a b : Src)
  | iadd64 (h : Hdr) (a b : Src)
  | isub64 (h : Hdr) (a b : Src)
  | imul (h : Hdr) (a b : Src)
  | imulh (h : Hdr) (ty : Ty) (a b : Src)
  | imad (h : Hdr) (a b c : Src)
  | imad64 (h : Hdr) (ty : Ty) (a b c : Src)
  | idiv (h : Hdr) (ty : Ty) (a b : Src)
  | irem (h : Hdr) (ty : Ty) (a b : Src)
  | imin (h : Hdr) (ty : Ty) (a b : Src)
  | imax (h : Hdr) (ty : Ty) (a b : Src)
  | iabs (h : Hdr) (ty : Ty) (a : Src)
  | ineg (h : Hdr) (ty : Ty) (a : Src)
  | iadds (h : Hdr) (ty : Ty) (a b : Src)
  | idot4 (h : Hdr) (aty bty : Ty) (sat : Bool) (a b c : Src)
  | and (h : Hdr) (w64 : Bool) (a b : Src)
  | or (h : Hdr) (w64 : Bool) (a b : Src)
  | xor (h : Hdr) (w64 : Bool) (a b : Src)
  | not (h : Hdr) (w64 : Bool) (a : Src)
  | bool3 (h : Hdr) (w64 : Bool) (lut : BitVec 8) (a b c : Src)
  | shl (h : Hdr) (w64 : Bool) (a b : Src)
  | shr (h : Hdr) (w64 : Bool) (a b : Src)
  | sar (h : Hdr) (w64 : Bool) (a b : Src)
  | rot (h : Hdr) (w64 : Bool) (a b : Src)
  | fshl (h : Hdr) (a b c : Src)
  | fshr (h : Hdr) (a b c : Src)
  | bfe (h : Hdr) (ty : Ty) (a b c : Src)
  | bfi (h : Hdr) (a b c : Src)
  | popc (h : Hdr) (w64 : Bool) (a : Src)
  | clz (h : Hdr) (w64 : Bool) (a : Src)
  | ctz (h : Hdr) (w64 : Bool) (a : Src)
  | brev (h : Hdr) (w64 : Bool) (a : Src)
  | bperm (h : Hdr) (a b c : Src)
  | ipred (h : Hdr) (cond : Cond) (comb : Comb) (ty : Ty) (cp : PRef) (a b : Src)
  | icmp (h : Hdr) (cond : Cond) (ty : Ty) (a b : Src)
  | lea (h : Hdr) (sh : BitVec 6) (bsx : Bool) (a b : Src)
  | sxt (h : Hdr) (width : BitVec 6) (a : Src)
  | zxt (h : Hdr) (width : BitVec 6) (a : Src)
  -- control (04 R128-R137)
  | bra (h : Hdr) (loff : BitVec 29) (slot : BitVec 3)
  | brx (h : Hdr) (count : BitVec 16) (a b : Src)
  | jmp (h : Hdr) (a : Src)
  | call (h : Hdr) (loff : BitVec 29) (slot : BitVec 3)
  | callx (h : Hdr) (a : Src)
  | ret (h : Hdr) (a : Src)
  | exit (h : Hdr)
  | regn (r0 r1 r2 r3 : Rng) (ch : Bool)
  | yield (h : Hdr)
  | sleep (h : Hdr) (a : Src)
  | wait (h : Hdr) (a : Option Src)
  | rcall (h : Hdr) (nlive : BitVec 4) (loff : BitVec 29) (slot : BitVec 3) (a : Src)
  | rret (h : Hdr) (nlive : BitVec 4)
  | bkpt (h : Hdr) (imm : Word)
  | trap (h : Hdr) (imm : Word)
  | rte (h : Hdr) (mode : RteMode)
  -- predicates and lanes (04 R138-R144)
  | pbool (h : Hdr) (pa pb pc : PRef) (lut : BitVec 8)
  | pmov (h : Hdr) (mask : BitVec 7) (a : Option Src)
  | poll (h : Hdr) (mode : PollMode) (vp : PRef)
  | lxch (h : Hdr) (mode : LxchMode) (w64 : Bool) (a b : Src)
  | lred (h : Hdr) (ty : Ty) (rm : RM) (op : RedOp) (a : Src)
  | lscan (h : Hdr) (ty : Ty) (rm : RM) (excl : Bool) (op : RedOp) (a : Src)
  | peers (h : Hdr) (all w64 : Bool) (a : Src)
  | lead (h : Hdr)
  | partset (h : Hdr) (a : Src)
  | lperm (h : Hdr) (w64 : Bool) (a b : Src)
  | had (h : Hdr) (size32 sideB : Bool) (a : Src)
  -- floating point (05 R147-R155)
  | fadd (h : Hdr) (rm : RM) (a b : Src)
  | fsub (h : Hdr) (rm : RM) (a b : Src)
  | fmul (h : Hdr) (rm : RM) (a b : Src)
  | ffma (h : Hdr) (rm : RM) (a b c : Src)
  | fscale (h : Hdr) (rm : RM) (a b : Src)
  | fmin (h : Hdr) (a b : Src)
  | fmax (h : Hdr) (a b : Src)
  | fminn (h : Hdr) (a b : Src)
  | fmaxn (h : Hdr) (a b : Src)
  | fpred (h : Hdr) (cond : Cond) (comb : Comb) (cp : PRef) (a b : Src)
  | fcmp (h : Hdr) (cond : Cond) (a b : Src)
  | fclass (h : Hdr) (a : Src)
  | frnd (h : Hdr) (rm : RM) (a : Src)
  | fexp (h : Hdr) (a : Src)
  | fcopysign (h : Hdr) (a b : Src)
  | pkaddh (h : Hdr) (rm : RM) (a b : Src)
  | pkmulh (h : Hdr) (rm : RM) (a b : Src)
  | pkfmah (h : Hdr) (rm : RM) (a b c : Src)
  | pkfmab (h : Hdr) (rm : RM) (a b c : Src)
  | pkdoth (h : Hdr) (rm : RM) (bf : Bool) (a b c : Src)
  | b8dot4 (h : Hdr) (aty bty : Ty) (rm : RM) (a b c : Src)
  | dadd (h : Hdr) (rm : RM) (a b : Src)
  | dmul (h : Hdr) (rm : RM) (a b : Src)
  | dfma (h : Hdr) (rm : RM) (a b c : Src)
  | dpred (h : Hdr) (cond : Cond) (comb : Comb) (cp : PRef) (a b : Src)
  -- conversion and special functions (05 R156-R167)
  | cvt (h : Hdr) (dty sty : Ty) (rm : RM) (ovp : Ovp) (a : Src)
  | cvtc (h : Hdr) (dty sty : Ty) (rm : RM) (ovp : Ovp) (inv : Bool) (tabl : BitVec 3) (a : Src)
  | pack8 (h : Hdr) (dty : Ty) (rm : RM) (ovp : Ovp) (hi : Bool) (a b c : Src)
  | unpack8 (h : Hdr) (sty : Ty) (elem : BitVec 2) (a : Src)
  | rcp (h : Hdr) (a : Src)
  | rsq (h : Hdr) (a : Src)
  | sqrt (h : Hdr) (rm : RM) (a : Src)
  | exp2 (h : Hdr) (a : Src)
  | log2 (h : Hdr) (a : Src)
  | sin (h : Hdr) (a : Src)
  | cos (h : Hdr) (a : Src)
  | tanh (h : Hdr) (a : Src)
  | sigm (h : Hdr) (a : Src)
  | act (h : Hdr) (tabl : BitVec 3) (a : Src)
  | softmaxIdiom (h : Hdr) (rmSub rmAdd : RM) (vx vm vd ve vs : BitVec 8)
  -- memory (06 R173-R177)
  | ld (h : Hdr) (a : Src) (off : BitVec 24) (m : MemFn)
  | st (h : Hdr) (a b : Src) (off : BitVec 24) (m : MemFn)
  | ldu (h : Hdr) (a : Src) (off : BitVec 24) (m : MemFn)
  | lda (h : Hdr) (a : Src) (off : BitVec 24) (m : MemFn)
  | pref (h : Hdr) (a : Src) (off : BitVec 24) (m : MemFn)
  | ipref (h : Hdr) (nlines : BitVec 8) (a : Src)
  | l1Inv (h : Hdr) (a : Src) (off : BitVec 16) (m : MemFn)
  | l1InvAll (h : Hdr) (m : MemFn)
  | l2Wb (h : Hdr) (a : Src) (off : BitVec 16) (m : MemFn)
  | l2WbInv (h : Hdr) (a : Src) (off : BitVec 16) (m : MemFn)
  | icInv (h : Hdr) (a : Src) (off : BitVec 16) (m : MemFn)
  | icInvAll (h : Hdr) (m : MemFn)
  -- atomics, fences, watches (06 R178-R183)
  | atom (h : Hdr) (op : AtomOp) (aty : AtomTy) (a b : Src) (off : BitVec 16) (m : MemFn)
  | atomc (h : Hdr) (aty : AtomTy) (a b : Src) (off : BitVec 16) (m : MemFn)
  | red (h : Hdr) (op : AtomOp) (aty : AtomTy) (a b : Src) (off : BitVec 16) (m : MemFn)
  | fence (h : Hdr) (scope : Scope) (kind : FKind) (paths : BitVec 8)
  | watch (h : Hdr) (cond : WCond) (aty : AtomTy) (a b : Src) (off : BitVec 16) (m : MemFn)
  -- barrier objects and groups (06 R184-R194)
  | bari (h : Hdr) (a b : Src)
  | bara (h : Hdr) (nt : Bool) (pd : BitVec 3) (a : Src) (b : Option Src)
  | barw (h : Hdr) (a b c : Src)
  | bart (h : Hdr) (nt : Bool) (pd : BitVec 3) (a : Src) (b : Option Src) (c : Src)
  | tbar (h : Hdr)
  | gjoin (h : Hdr) (a : Src)
  | gleave (h : Hdr) (a : Src)
  | gbar (h : Hdr) (a : Src)
  | gqry (h : Hdr) (item : GItem) (a : Src)
  -- engine commands (06 R195-R212)
  | cpy (h : Hdr) (eng : BitVec 3) (ch : BitVec 2) (any : Bool) (a : Src)
  | cpyw (h : Hdr) (eng : BitVec 3) (ch : BitVec 2)
  | cpyc (h : Hdr) (eng : BitVec 3) (ch : BitVec 2)
  | tsub (h : Hdr) (a b : Src)
  | tokenQuery (h : Hdr) (a : Src)
  | tokenSignal (h : Hdr) (a : Src)
  | tokenCancel (h : Hdr) (a : Src)
  | capp (h : Hdr) (nwords : BitVec 4) (a b : Src)
  | quies (h : Hdr) (a : Src)
  | dcmp (h : Hdr) (a b : Src)
  | tbld (h : Hdr) (tabl : BitVec 3) (act : Bool) (a : Src)
  -- texture, traversal, geometry, pixels (07 R214-R239)
  | tex (h : Hdr) (mode : TexMode) (stoch : Bool) (dim : TexDim) (ncomp : BitVec 2) (a b : Src) (c : Option Src)
  | tld (h : Hdr) (dim : TexDim) (ncomp : BitVec 2) (a b c : Src)
  | tqry (h : Hdr) (item : TqItem) (b c : Src)
  | trace (h : Hdr) (any cullb : Bool) (a b : Src)
  | thit (h : Hdr) (item : ThItem) (a : Src)
  | ringAcquire (h : Hdr)
  | ringRelease (h : Hdr) (b : Src)
  | emit (h : Hdr) (prim : Bool) (nwords : BitVec 4) (a b : Src)
  | vrd (h : Hdr) (item : VrdItem)
  | pxw (h : Hdr) (a : Src)
  -- radiance, Gibbs, system (07 R240-R259)
  | rcq (h : Hdr) (train : Bool) (a : Src)
  | rct (h : Hdr) (a b : Src)
  | rcstep (h : Hdr) (a : Src)
  | rcpub (h : Hdr)
  | rcrd (h : Hdr) (shadow : Bool) (a : Src)
  | rccfg (h : Hdr) (a : Src)
  | gcfg (h : Hdr) (ent : Bool) (a b c : Src)
  | gld (h : Hdr) (a : Src)
  | gclmp (h : Hdr) (a : Src)
  | gswp (h : Hdr) (a : Src)
  | grd (h : Hdr) (what : GrdWhat) (a : Src)
  | gstat (h : Hdr)
  | mfs (h : Hdr) (srn : BitVec 8)
  | mts (h : Hdr) (srn : BitVec 8) (a : Src)
  | esc (h : Hdr) (imm : Word)
  -- fills, wakes, timeouts
  | ldaFill (w : WarpRef) (flight : Nat)
  | watchWake (s : SplitRef)
  | watchEntryFreed (bank : Nat)
  | barwTimeout (s : SplitRef)
  | sleepExpiry (s : SplitRef)
  | texFill (w : WarpRef) (flight : Nat)
  | traceFill (w : WarpRef) (flight : Nat)
  | rcqFill (w : WarpRef) (flight : Nat)
  -- copy channels, tasks, collator ends, tables
  | copyElementLanding (slice eng ch : Nat)
  | copyComplete (slice eng ch : Nat)
  | taskStart (slice : Nat)
  | taskKBlock (slice task : Nat)
  | taskComplete (slice task : Nat)
  | quiescence (slice graph : Nat)
  | dcmpComplete (slice eng ch : Nat)
  | tableFlip (slice : Nat) (act : Bool) (tabl : Nat)
  -- radiance and Gibbs engines
  | optimiserStep (slice : Nat)
  | stepDeadlineExpiry (slice : Nat)
  | radianceCommandComplete (slice : Nat)
  | gibbsSweep (slice : Nat)
  | gswpComplete (slice : Nat)
  | gibbsCommandComplete (slice : Nat)
  | entropyFailureTimeout (slice : Nat)
  | entropySourceRecovery (slice : Nat)
  -- warps: answers, fetch, end, stops, restore
  | escalationAnswer (slice : Nat) (answer : EscAnswer)
  | instructionLineFill (slice cu seq : Nat)
  | warpEnd (w : WarpRef)
  | heldScratchpadFreed (slice team : Nat)
  | preemption (slice team : Nat)
  | kill (w : WarpRef)
  | debugHalt (slice team : Nat)
  | debugResume (slice team : Nat) (edits : List (Nat × Byte))
  | teamRestore (slice team : Nat)
  | commitCompletionArrival (w : WarpRef) (flight : Nat)
  -- translation and protection
  | faultAckReplay (slice entry : Nat)
  | faultAckFail (slice entry : Nat)
  | translationWalk (slice va : Nat) (write fetch : Bool) (path : Path) (cu : Nat)
  | xlinvGo (vf va npg : Nat)
  | xlinvComplete (vf : Nat)
  | scrubRow (slice cu row : Nat)
  -- queues, packets, placement
  | kickWordWrite (slice q : Nat) (value : DWord)
  | packetLaunch (slice q : Nat)
  | packetRender (slice q : Nat)
  | packetFrame (slice q : Nat)
  | packetWaitv (slice q : Nat)
  | waitvEvaluation (slice q : Nat)
  | packetSigv (slice q : Nat)
  | packetNode (slice q : Nat)
  | packetTaskring (slice q : Nat)
  | packetInvalidKind (slice q : Nat)
  | packetCompletion (slice q idx : Nat)
  | teamPlacement (slice : Nat)
  | coLaunchCheck (slice : Nat)
  | deadlineMiss (slice q : Nat)
  | collatorTimerExpiry (slice node : Nat)
  | regroupTimerExpiry (slice key : Nat)
  | poolFullLaunch (slice : Nat)
  | collatorLaunchPlaced (slice : Nat)
  -- rendering and encoding
  | binningSlotRead (slice : Nat)
  | partialRender (slice : Nat)
  | tileLoadComplete (slice tile : Nat)
  | tileResolveComplete (slice tile : Nat)
  | tileShadingComplete (slice tile : Nat)
  | tileWriteOut (slice tile : Nat)
  | tileAnnounce (slice tile : Nat)
  | renderPreemption (slice : Nat)
  | encoderTileTake (slice : Nat)
  | accessUnitWrite (slice : Nat) (payload : List Byte) (key : Bool)
  | accessUnitSend (slice : Nat)
  | encctlEnWrite (slice : Nat) (value : Word)
  | encrpWrite (slice : Nat) (value : Word)
  -- register windows
  | groupOpenWrite (slice group : Nat) (open_ : Bool)
  | icinvWrite (slice : Nat) (go : Bool)
  | queueDescriptorWrite (slice q : Nat) (value : BitVec 512)
  | accessControlWrite (slice entry : Nat) (value : BitVec 128)
  | registerWrite (slice : Nat) (reg : RegName) (value : DWord)
  -- leases
  | leaseGo (entry : Nat)
  | leaseEnginesPassed (entry : Nat)
  | leaseReclaim (entry : Nat)
  | leaseFieldWrite (entry : Nat) (field : LeaseField) (value : DWord)
  | meterEmpty (entry : Nat)
  | leaseExpiry (entry : Nat)
  | leaseRevocation (entry : Nat)
  -- errors, resets, fusing, time-sharing
  | sliceError (slice : Nat) (cause : ErrCause)
  | hangTimeout (slice : Nat) (cause : ErrCause)
  | sliceResetRequest (slice : Nat)
  | sliceReset (slice : Nat)
  | sliceResetComplete (slice : Nat) (pass : Bool)
  | fuseTwo (slice : Nat)
  | fuseFour (slice : Nat)
  | split (slice : Nat)
  | fusionComplete (slice : Nat)
  | sliceVfWrite (slice vf : Nat)
  | sliceFmhzWrite (slice mhz : Nat)
  | quantumExpiry (slice : Nat)
  | timeSharingStart (slice : Nat) (functions : List Nat) (quantum : Nat)
  | vfEnableClear
  | vfEnableSet
  | functionLevelReset (function : Nat)
  -- the outside world
  | linkDown
  | linkTrained
  | hostBarAccess (function bar off : Nat) (write : Bool) (data : List Byte)
  | fabricAccessArrival (peer pa : Nat) (op : FabricOp) (data : List Byte)
  | fabricReleaseMarker
  | fabricStoreLost (slice pa : Nat)
  | mioferLaneFail (port : Nat) (wholePort : Bool)
  | networkCommandAccess (function bar off : Nat) (write : Bool) (data : List Byte)
  | ptpCorrection (offset : Int)
  | grandmasterLoss (lost : Bool)
  | bootImageVerify (image : Nat) (signatureOk : Bool) (version : Nat)
  | attestationRequest (nonce : List Byte)
  | managementRequest (req : MgmtReq)
  | powerUp
  | railFault (rail : Nat)
  | perst
  | warmReset
  | thermtrip
  | thermalThrottle (slice mhz : Nat)
  | powerCapThrottle (watts : Nat)
  | powerDown
  | throttleEnd (slice : Nat)
  | atsInvalidationRequest (function va npg : Nat)
  deriving DecidableEq, Repr

end Sys2Proof
end

