-- ==== Sys2Proof/Machine/Sig.lean ====
section
/-! DEFINITION. What spec/03_encoding.md says of each instruction beside its bits: which sources it reads and how wide, which
destination kinds it allows, and which field values it refuses (R92-R98, R106-R113). -/

namespace Sys2Proof

/-! ### Codes of the typed fields -/

/-- The type code of a type (02 R55). -/
def Ty.code : Ty → BitVec 6
  | .f32 => 0x00 | .f16 => 0x01 | .bf16 => 0x02 | .f64 => 0x03
  | .s8 => 0x08 | .n8 => 0x09 | .s16 => 0x0A | .n16 => 0x0B | .s32 => 0x0C | .n32 => 0x0D | .s64 => 0x0E | .n64 => 0x0F
  | .b8 ext signed p => 0b1#1 ++ BitVec.ofBool ext ++ BitVec.ofBool signed ++ BitVec.ofNat 3 p.val

/-- The type a code names (02 R55, R56). -/
def Ty.ofCode (c : BitVec 6) : Option Ty :=
  match c.toNat with
  | 0x00 => some .f32 | 0x01 => some .f16 | 0x02 => some .bf16 | 0x03 => some .f64
  | 0x08 => some .s8 | 0x09 => some .n8 | 0x0A => some .s16 | 0x0B => some .n16
  | 0x0C => some .s32 | 0x0D => some .n32 | 0x0E => some .s64 | 0x0F => some .n64
  | n => if 0x20 ≤ n then
      (if h : n % 8 < 7 then some (.b8 (n / 16 % 2 == 1) (n / 8 % 2 == 1) ⟨n % 8, h⟩) else none)
    else none

def Ty.isB8 : Ty → Bool | .b8 _ _ _ => true | _ => false
def Ty.isFloat : Ty → Bool | .f32 | .f16 | .bf16 | .f64 => true | _ => false
def Ty.isInt (t : Ty) : Bool := !t.isB8 && !t.isFloat
def Ty.signed : Ty → Bool | .s8 | .s16 | .s32 | .s64 => true | _ => false
/-- Width of a type in bits. -/
def Ty.bits : Ty → Nat
  | .f32 | .s32 | .n32 => 32 | .f16 | .bf16 | .s16 | .n16 => 16 | .f64 | .s64 | .n64 => 64 | .s8 | .n8 | .b8 _ _ _ => 8
/-- Words of a register operand of the type. -/
def Ty.words (t : Ty) : Nat := if t.bits = 64 then 2 else 1

def RM.code : RM → BitVec 3 | .rne => 0 | .rtz => 1 | .rdn => 2 | .rup => 3 | .rna => 4 | .rdyn => 5
def RM.ofCode (c : BitVec 3) : RM :=
  match c.toNat with | 1 => .rtz | 2 => .rdn | 3 => .rup | 4 => .rna | 5 => .rdyn | _ => .rne
def Ovp.code : Ovp → BitVec 2 | .sat => 0 | .inf => 1 | .nan => 2 | .trap => 3
def Ovp.ofCode (c : BitVec 2) : Ovp := match c.toNat with | 1 => .inf | 2 => .nan | 3 => .trap | _ => .sat
def Cond.code : Cond → BitVec 4 | .eq => 0 | .ne => 1 | .lt => 2 | .le => 3 | .gt => 4 | .ge => 5 | .num => 6 | .nan => 7
def Cond.ofCode (c : BitVec 4) : Cond :=
  match c.toNat with | 1 => .ne | 2 => .lt | 3 => .le | 4 => .gt | 5 => .ge | 6 => .num | 7 => .nan | _ => .eq
def Comb.code : Comb → BitVec 2 | .and => 0 | .or => 1 | .xor => 2
def Comb.ofCode (c : BitVec 2) : Comb := match c.toNat with | 1 => .or | 2 => .xor | _ => .and
def RedOp.code : RedOp → BitVec 4 | .add => 0 | .min => 1 | .max => 2 | .and => 3 | .or => 4 | .xor => 5
def RedOp.ofCode (c : BitVec 4) : RedOp :=
  match c.toNat with | 1 => .min | 2 => .max | 3 => .and | 4 => .or | 5 => .xor | _ => .add
def Ext.code : Ext → BitVec 2 | .w32 => 0 | .sx => 1 | .zx => 2
def Ext.ofCode (c : BitVec 2) : Ext := match c.toNat with | 1 => .sx | 2 => .zx | _ => .w32
def PollMode.code : PollMode → BitVec 2 | .all => 0 | .any => 1 | .mask => 2 | .same => 3
def PollMode.ofCode (c : BitVec 2) : PollMode := match c.toNat with | 1 => .any | 2 => .mask | 3 => .same | _ => .all
def LxchMode.code : LxchMode → BitVec 2 | .src => 0 | .below => 1 | .above => 2 | .flip => 3
def LxchMode.ofCode (c : BitVec 2) : LxchMode := match c.toNat with | 1 => .below | 2 => .above | 3 => .flip | _ => .src
def RteMode.code : RteMode → BitVec 2 | .retry => 0 | .skip => 1 | .region => 2
def RteMode.ofCode (c : BitVec 2) : RteMode := match c.toNat with | 1 => .skip | 2 => .region | _ => .retry
def MSize.code : MSize → BitVec 3 | .n8 => 0 | .s8 => 1 | .n16 => 2 | .s16 => 3 | .w32 => 4 | .w64 => 5 | .w128 => 6
def MSize.ofCode (c : BitVec 3) : MSize :=
  match c.toNat with | 0 => .n8 | 1 => .s8 | 2 => .n16 | 3 => .s16 | 5 => .w64 | 6 => .w128 | _ => .w32
def Space.code : Space → BitVec 3 | .generic => 0 | .global => 1 | .localw => 2 | .groupw => 3
def Space.ofCode (c : BitVec 3) : Space := match c.toNat with | 1 => .global | 2 => .localw | 3 => .groupw | _ => .generic
def MOrd.code : MOrd → BitVec 2 | .plain => 0 | .acq => 1 | .rel => 2 | .acqrel => 3
def MOrd.ofCode (c : BitVec 2) : MOrd := match c.toNat with | 1 => .acq | 2 => .rel | 3 => .acqrel | _ => .plain
def Scope.code : Scope → BitVec 3 | .warp => 0 | .team => 1 | .group => 2 | .slice => 3 | .dev => 4 | .sys => 5
def Scope.ofCode (c : BitVec 3) : Scope :=
  match c.toNat with | 1 => .team | 2 => .group | 3 => .slice | 4 => .dev | 5 => .sys | _ => .warp
def Path.code : Path → BitVec 3 | .c => 0 | .x => 1 | .m => 2 | .g => 3 | .e => 4 | .a => 5 | .f => 6 | .h => 7
def Path.ofCode (c : BitVec 3) : Path :=
  match c.toNat with | 1 => .x | 2 => .m | 3 => .g | 4 => .e | 5 => .a | 6 => .f | 7 => .h | _ => .c
def CachePol.code : CachePol → BitVec 2 | .dflt => 0 | .stream => 1 | .keep => 2 | .nol1 => 3
def CachePol.ofCode (c : BitVec 2) : CachePol := match c.toNat with | 1 => .stream | 2 => .keep | 3 => .nol1 | _ => .dflt
def AtomOp.code : AtomOp → BitVec 4
  | .add => 0 | .min => 1 | .max => 2 | .and => 3 | .or => 4 | .xor => 5 | .exch => 6 | .inc => 7 | .dec => 8 | .fadd => 9
def AtomOp.ofCode (c : BitVec 4) : AtomOp :=
  match c.toNat with
  | 1 => .min | 2 => .max | 3 => .and | 4 => .or | 5 => .xor | 6 => .exch | 7 => .inc | 8 => .dec | 9 => .fadd | _ => .add
def AtomTy.code : AtomTy → BitVec 4
  | .n32 => 0 | .s32 => 1 | .n64 => 2 | .s64 => 3 | .f32 => 4 | .f64 => 5 | .f16x2 => 6 | .bf16x2 => 7
def AtomTy.ofCode (c : BitVec 4) : AtomTy :=
  match c.toNat with
  | 1 => .s32 | 2 => .n64 | 3 => .s64 | 4 => .f32 | 5 => .f64 | 6 => .f16x2 | 7 => .bf16x2 | _ => .n32
def WCond.code : WCond → BitVec 4 | .eq => 0 | .ne => 1 | .lt => 2 | .ge => 3
def WCond.ofCode (c : BitVec 4) : WCond := match c.toNat with | 1 => .ne | 2 => .lt | 3 => .ge | _ => .eq
def FKind.code : FKind → BitVec 2 | .full => 0 | .acq => 1 | .rel => 2
def FKind.ofCode (c : BitVec 2) : FKind := match c.toNat with | 1 => .acq | 2 => .rel | _ => .full
def GItem.code : GItem → BitVec 2 | .count => 0 | .idx => 1 | .masklo => 2 | .maskhi => 3
def GItem.ofCode (c : BitVec 2) : GItem := match c.toNat with | 1 => .idx | 2 => .masklo | 3 => .maskhi | _ => .count
def TexMode.code : TexMode → BitVec 3 | .implicit => 0 | .lod => 1 | .grad => 2 | .cone => 3
def TexMode.ofCode (c : BitVec 3) : TexMode := match c.toNat with | 1 => .lod | 2 => .grad | 3 => .cone | _ => .implicit
def TexDim.code : TexDim → BitVec 2 | .d2 => 0 | .d3 => 1 | .cube => 2 | .d2arr => 3
def TexDim.ofCode (c : BitVec 2) : TexDim := match c.toNat with | 1 => .d3 | 2 => .cube | 3 => .d2arr | _ => .d2
def TqItem.code : TqItem → BitVec 2 | .size => 0 | .levels => 1 | .fmt => 2
def TqItem.ofCode (c : BitVec 2) : TqItem := match c.toNat with | 1 => .levels | 2 => .fmt | _ => .size
def ThItem.code : ThItem → BitVec 3 | .u => 0 | .v => 1 | .prim => 2 | .inst => 3 | .leaf => 4
def ThItem.ofCode (c : BitVec 3) : ThItem := match c.toNat with | 1 => .v | 2 => .prim | 3 => .inst | 4 => .leaf | _ => .u
def VrdItem.code : VrdItem → BitVec 2 | .prim => 0 | .bary => 1 | .deriv => 2 | .depth => 3
def VrdItem.ofCode (c : BitVec 2) : VrdItem := match c.toNat with | 1 => .bary | 2 => .deriv | 3 => .depth | _ => .prim
def GrdWhat.code : GrdWhat → BitVec 2 | .spins => 0 | .counts => 1 | .both => 2
def GrdWhat.ofCode (c : BitVec 2) : GrdWhat := match c.toNat with | 1 => .counts | 2 => .both | _ => .spins

/-- Permutation codes (03 R96). -/
def Perm.code : Perm → BitVec 4
  | .none => 0 | .rot k => BitVec.ofNat 4 (1 + k.val) | .bfly k => BitVec.ofNat 4 (6 + k.val)
  | .mirror => 11 | .bcf => 12 | .bcl => 13 | .up1 => 14
def Perm.ofCode (c : BitVec 4) : Perm :=
  match c.toNat with
  | 1 => .rot 0 | 2 => .rot 1 | 3 => .rot 2 | 4 => .rot 3 | 5 => .rot 4
  | 6 => .bfly 0 | 7 => .bfly 1 | 8 => .bfly 2 | 9 => .bfly 3 | 10 => .bfly 4
  | 11 => .mirror | 12 => .bcf | 13 => .bcl | 14 => .up1 | _ => .none

/-- A source field (03 R94). -/
def Src.code (s : Src) : BitVec 16 :=
  (match s.base with
    | .vec n => (0 : BitVec 2) ++ n | .scal n => (1 : BitVec 2) ++ n
    | .latch n => (2 : BitVec 2) ++ n | .imm n => (3 : BitVec 2) ++ n : BitVec 10)
  ++ s.perm.code ++ BitVec.ofBool s.neg ++ BitVec.ofBool s.abs
def Src.ofCode (c : BitVec 16) : Src :=
  { base := (match (c.extractLsb' 14 2).toNat with
      | 0 => .vec (c.extractLsb' 6 8) | 1 => .scal (c.extractLsb' 6 8)
      | 2 => .latch (c.extractLsb' 6 8) | _ => .imm (c.extractLsb' 6 8))
    perm := .ofCode (c.extractLsb' 2 4), neg := c.getLsbD 1, abs := c.getLsbD 0 }

def PRef.code (p : PRef) : BitVec 4 := BitVec.ofBool p.neg ++ p.num
def PRef.ofCode (c : BitVec 4) : PRef := { neg := c.getLsbD 3, num := c.extractLsb' 0 3 }
/-- The guard 0b0111: always (03 R91). -/
def PRef.always : PRef := { neg := false, num := 7 }
/-- The guard 0b1111: never (03 R91). -/
def PRef.never : PRef := { neg := true, num := 7 }

def Dst.kind : Dst → BitVec 2 | .none => 0 | .vec _ => 1 | .scal _ => 2 | .pred _ => 3
def Dst.num : Dst → BitVec 8 | .none => 0 | .vec n | .scal n | .pred n => n
def Dst.ofCode (k : BitVec 2) (n : BitVec 8) : Dst :=
  match k.toNat with | 1 => .vec n | 2 => .scal n | 3 => .pred n | _ => .none

/-- The 16 bits of MF (03 R100). -/
def MemFn.code (m : MemFn) : BitVec 16 :=
  m.mp.code ++ m.cp.code ++ m.scope.code ++ m.ord.code ++ m.space.code ++ m.size.code
def MemFn.ofCode (c : BitVec 16) : MemFn :=
  { size := .ofCode (c.extractLsb' 0 3), space := .ofCode (c.extractLsb' 3 3), ord := .ofCode (c.extractLsb' 6 2),
    scope := .ofCode (c.extractLsb' 8 3), cp := .ofCode (c.extractLsb' 11 2), mp := .ofCode (c.extractLsb' 13 3) }

/-- Bytes of a memory datum (03 R100). -/
def MSize.bytes : MSize → Nat | .n8 | .s8 => 1 | .n16 | .s16 => 2 | .w32 => 4 | .w64 => 8 | .w128 => 16
/-- Registers of a memory datum (03 R100). -/
def MSize.words : MSize → Nat | .w64 => 2 | .w128 => 4 | _ => 1
def AtomTy.is64 : AtomTy → Bool | .n64 | .s64 | .f64 => true | _ => false
def AtomTy.words (t : AtomTy) : Nat := if t.is64 then 2 else 1

/-! ### Operand types -/

/-- The operand classes of 03 R97, with what they act on. -/
inductive NA where
  | none | int (w : Nat) | f32 | f64 | h16 | pk16 | b8 (signed : Bool)
  /-- ROT's amount: class — of the map (R106), which R124's form `ROT v1, v2, -v3` lets NEG stand on. DESIGN CHOICE (log 63):
  NEG is legal there and ABS is not -/
  | amount
  deriving DecidableEq, Repr

/-- How an immediate source reads (03 R95): not at all, or as a value of the type. -/
inductive Lit where | none | int | f32 | f64 | f16 | bf16 | pkf16 | pkbf16
  deriving DecidableEq, Repr

/-- The type of a source operand: registers it covers, modifier class, immediate reading. -/
structure OpTy where
  words : Nat
  na : NA
  lit : Lit
  deriving DecidableEq, Repr

namespace OpTy
def raw32 : OpTy := ⟨1, .none, .int⟩
def raw64 : OpTy := ⟨2, .none, .int⟩
def rawN (n : Nat) : OpTy := ⟨n, .none, .int⟩
def raw (w64 : Bool) : OpTy := if w64 then raw64 else raw32
def int32 : OpTy := ⟨1, .int 32, .int⟩
def amount : OpTy := ⟨1, .amount, .int⟩
def int64 : OpTy := ⟨2, .int 64, .int⟩
def f32 : OpTy := ⟨1, .f32, .f32⟩
def f64 : OpTy := ⟨2, .f64, .f64⟩
def pkf16 : OpTy := ⟨1, .pk16, .pkf16⟩
def pkbf16 : OpTy := ⟨1, .pk16, .pkbf16⟩
def b8 (signed : Bool) : OpTy := ⟨1, .b8 signed, .none⟩
/-- Registers only, no immediate: ATOMC's pair or quad (06 R180). -/
def regs (n : Nat) : OpTy := ⟨n, .none, .none⟩
/-- A memory base: a register pair, no immediate (03 R95, R100). -/
def base : OpTy := ⟨2, .none, .none⟩
/-- FP32 without modifiers: class — (03 R110). -/
def f32raw : OpTy := ⟨1, .none, .f32⟩
/-- The operand of an integer TYPE (03 R106). -/
def ofInt (t : Ty) : OpTy := if t.bits = 64 then int64 else int32
/-- The source of a CVT (05 R156). -/
def ofCvt (t : Ty) : OpTy :=
  match t with
  | .f32 => f32 | .f64 => f64 | .f16 => ⟨1, .h16, .f16⟩ | .bf16 => ⟨1, .h16, .bf16⟩
  | .b8 _ s _ => b8 s
  | t => ⟨t.words, .int t.bits, .int⟩
/-- The operand of a binary8 TYPE field (03 R97, R109). -/
def ofB8 (t : Ty) : OpTy := match t with | .b8 _ s _ => b8 s | _ => raw32
/-- The operand of an atomic (03 R111): class —; a floating AT makes floating literals legal (R95). -/
def ofAtom (t : AtomTy) : OpTy :=
  match t with
  | .f32 => f32raw | .f64 => ⟨2, .none, .f64⟩ | .f16x2 => ⟨1, .none, .pkf16⟩ | .bf16x2 => ⟨1, .none, .pkbf16⟩
  | .n64 | .s64 => raw64 | _ => raw32
end OpTy

/-- Which kinds a source may have beside what its type says. -/
inductive Kinds where | any | scal | scalImm | vecLatch | vec
  deriving DecidableEq, Repr

/-- One source of an instruction. `fld` is 0, 1, 2 for A, B, C; `range` is the length of a register range (07 R214), or 0. -/
structure SrcSpec where
  fld : Nat
  src : Src
  ty : OpTy
  kinds : Kinds
  range : Nat
  deriving DecidableEq, Repr

/-- The destination kinds a row of the map allows (03 R93). -/
inductive DstRule where | none | result | predicate | vec | scal | vecOrNone | vecOrScal | predVec
  deriving DecidableEq, Repr

/-- A breach of a decode rule: its place in the order of 03 R114, and its field code. -/
structure Err where
  key : Nat
  code : Nat
  deriving DecidableEq, Repr

/-- What the map says of an instruction beside its bits. -/
structure Sig where
  uni : Bool := true
  dst : DstRule := .none
  /-- registers the result covers, and their alignment -/
  words : Nat := 1
  align : Nat := 1
  srcs : List SrcSpec := []
  /-- breaches of the format's own fields -/
  bad : List Err := []
  commit : Bool := false
  async : Bool := false
  deriving DecidableEq, Repr

namespace Sig
def errU : Err := ⟨2000, 2⟩
def errG : Err := ⟨3000, 3⟩
def errDK : Err := ⟨4010, 5⟩
def errWS : Err := ⟨4020, 4⟩
def errDN : Err := ⟨4030, 6⟩
def errSrc (fld : Nat) : Err := ⟨5010 + 10 * fld, 7 + fld⟩
/-- A latch in a 64-bit or 128-bit source: code 21, whatever else breaks the source (03 R94). -/
def errLatch (fld : Nat) : Err := ⟨5009 + 10 * fld, 21⟩
/-- Breach of 01 R29 by the line the instruction stands in. DESIGN CHOICE (log 21): within order 5 of R114 it is reported after every
other breach by a source. -/
def errRun : Err := ⟨5900, 21⟩
def errFN : Err := ⟨6100, 10⟩
def errMF : Err := ⟨6130, 13⟩
def errMO : Err := ⟨6140, 14⟩
def errSize : Err := ⟨6145, 13⟩
def errSlot : Err := ⟨6150, 15⟩
def errRng (k : Nat) : Err := ⟨6160 + k, 16 + k⟩
def errCH : Err := ⟨6200, 20⟩

def on (b : Bool) (e : Err) : List Err := if b then [e] else []
def sA (ty : OpTy) (a : Src) (k : Kinds := .any) : SrcSpec := ⟨0, a, ty, k, 0⟩
def sB (ty : OpTy) (b : Src) (k : Kinds := .any) : SrcSpec := ⟨1, b, ty, k, 0⟩
def sC (ty : OpTy) (c : Src) (k : Kinds := .any) : SrcSpec := ⟨2, c, ty, k, 0⟩
def rng (fld : Nat) (s : Src) (n : Nat) : SrcSpec := ⟨fld, s, .raw32, .vec, n⟩

def tyIn (t : Ty) (l : List Ty) : List Err := on (!l.contains t) errFN
def sn32 : List Ty := [.s32, .n32]
def sn64 : List Ty := [.s32, .n32, .s64, .n64]
/-- v/s destination of `n` registers, a pair or quad aligned as 01 R22 says. -/
def res (n : Nat) (srcs : List SrcSpec) (bad : List Err := []) : Sig :=
  { dst := .result, words := n, align := n, srcs := srcs, bad := bad }
def ctl (srcs : List SrcSpec) (bad : List Err := []) : Sig := { srcs := srcs, bad := bad }
def cmp (srcs : List SrcSpec) (bad : List Err) : Sig := { dst := .predicate, srcs := srcs, bad := bad }
/-- Vector-only instruction of a slice unit (03 R112, R113). -/
def unit (dst : DstRule) (n al : Nat) (srcs : List SrcSpec) (bad : List Err := []) : Sig :=
  { uni := false, dst := dst, words := n, align := al, srcs := srcs, bad := bad }
def asCommit (s : Sig) : Sig := { s with commit := true }
def asAsync (s : Sig) : Sig := { s with async := true }

/-- The ORD and MP rules of 06 R172 and 03 R100. -/
def memBad (m : MemFn) (ords : List MOrd) (mpOk size0 : Bool) : List Err :=
  on (!ords.contains m.ord || (m.mp != .c && (m.ord == .plain || !mpOk)) || (size0 && m.size != .n8)) errMF

/-- The combinations of 06 R178. -/
def atomOk (op : AtomOp) (t : AtomTy) : Bool :=
  match op with
  | .add | .and | .or | .xor => [AtomTy.n32, .s32, .n64, .s64].contains t
  | .min | .max => [AtomTy.n32, .s32, .n64, .s64, .f32, .f64].contains t
  | .exch => true
  | .inc | .dec => [AtomTy.n32, .n64].contains t
  | .fadd => [AtomTy.f32, .f64, .f16x2, .bf16x2].contains t

def sizeOk (m : MemFn) (t : AtomTy) : List Err := on (m.size != (if t.is64 then .w64 else .w32)) errSize

/-- Registers of TEX operand C (07 R219). -/
def texC (mode : TexMode) (dim : TexDim) (stoch : Bool) : Nat :=
  let ng := if dim == .d2 || dim == .d2arr then 2 else 3
  (match mode with | .implicit => 0 | .lod => 1 | .grad => 2 * ng | .cone => 4) + (if stoch then 1 else 0)
/-- Coordinates of a texture (07 R219). -/
def texN (dim : TexDim) : Nat := if dim == .d2 then 2 else 3

/-- Registers VRD writes (07 R238). -/
def vrdN : VrdItem → Nat | .prim => 1 | .bary => 2 | .deriv => 4 | .depth => 1

/-- Numbers of the 64-bit special registers (07 R256). -/
def srn64 (n : Nat) : Bool := [0x05, 0x09, 0x0A, 0x0C, 0x0D, 0x0F].contains n
/-- Per-lane special registers (07 R256). -/
def srnLane (n : Nat) : Bool := n == 0x00 || n == 0x0E

end Sig

open Sig in
/-- The row of the opcode map for an instruction (03 R106-R113 and the entries it names). None for a step of another agent. -/
def Instr.sig : Instr → Option Sig
  | .nop _ => some (ctl [])
  | .mov _ w a => some (res (OpTy.raw w).words [sA (.raw w) a])
  | .movi _ e _ => some (res (if e == .w32 then 1 else 2) [])
  | .sel _ w _ a b => some (res (OpTy.raw w).words [sA (.raw w) a, sB (.raw w) b])
  | .iadd _ a b | .isub _ a b | .imul _ a b => some (res 1 [sA .int32 a, sB .int32 b])
  | .iadd64 _ a b | .isub64 _ a b => some (res 2 [sA .int64 a, sB .int64 b])
  | .imulh _ t a b | .iadds _ t a b => some (res 1 [sA .int32 a, sB .int32 b] (tyIn t sn32))
  | .imad _ a b c => some (res 1 [sA .int32 a, sB .int32 b, sC .int32 c])
  | .imad64 _ t a b c => some (res 2 [sA .int32 a, sB .int32 b, sC .int64 c] (tyIn t sn32))
  | .idiv _ t a b | .irem _ t a b | .imin _ t a b | .imax _ t a b =>
      some (res t.words [sA (.ofInt t) a, sB (.ofInt t) b] (tyIn t sn64))
  | .iabs _ t a | .ineg _ t a => some (res t.words [sA (.ofInt t) a] (tyIn t [.s32, .s64]))
  | .idot4 _ ta tb _ a b c => some (res 1 [sA .raw32 a, sB .raw32 b, sC .raw32 c] (tyIn ta [.s8, .n8] ++ tyIn tb [.s8, .n8]))
  | .and _ w a b | .or _ w a b | .xor _ w a b => some (res (OpTy.raw w).words [sA (.raw w) a, sB (.raw w) b])
  | .not _ w a => some (res (OpTy.raw w).words [sA (.raw w) a])
  | .bool3 _ w _ a b c => some (res (OpTy.raw w).words [sA (.raw w) a, sB (.raw w) b, sC (.raw w) c])
  | .shl _ w a b | .shr _ w a b | .sar _ w a b => some (res (OpTy.raw w).words [sA (.raw w) a, sB .raw32 b])
  | .rot _ w a b => some (res (OpTy.raw w).words [sA (.raw w) a, sB .amount b])
  | .fshl _ a b c | .fshr _ a b c | .bfi _ a b c | .bperm _ a b c => some (res 1 [sA .raw32 a, sB .raw32 b, sC .raw32 c])
  | .bfe _ t a b c => some (res t.words [sA (.rawN t.words) a, sB .raw32 b, sC .raw32 c] (tyIn t sn64))
  | .popc _ w a | .clz _ w a | .ctz _ w a => some (res 1 [sA (.raw w) a])
  | .brev _ w a => some (res (OpTy.raw w).words [sA (.raw w) a])
  | .ipred _ c _ t _ a b => some (cmp [sA (.ofInt t) a, sB (.ofInt t) b] (tyIn t sn64 ++ on (c == .num || c == .nan) errFN))
  | .icmp _ c t a b => some (res 1 [sA (.ofInt t) a, sB (.ofInt t) b] (tyIn t sn64 ++ on (c == .num || c == .nan) errFN))
  | .lea _ _ _ a b => some (res 2 [sA .raw64 a, sB .raw32 b])
  | .sxt _ w a | .zxt _ w a => some (res 1 [sA .raw32 a] (on (w.toNat == 0 || w.toNat > 32) errFN))
  | .bra _ _ slot => some (ctl [] (on (slot.toNat > 4) errSlot))
  | .brx _ n a b => some (ctl [sA .raw32 a, sB .raw64 b .scal] (on (n.toNat == 0) errFN))
  | .jmp _ a | .ret _ a => some (ctl [sA .raw64 a])
  | .call _ _ slot => some (res 2 [] (on (slot.toNat > 4) errSlot))
  | .callx _ a => some (res 2 [sA .raw64 a])
  | .exit _ | .yield _ => some (unit .none 1 1 [])
  | .regn r0 r1 r2 r3 _ =>
      some { uni := false, commit := false,
             bad := on (r0.len.toNat == 0 && r0.start.toNat != 0) (errRng 0) ++ on (r1.len.toNat == 0 && r1.start.toNat != 0) (errRng 1)
                 ++ on (r2.len.toNat == 0 && r2.start.toNat != 0) (errRng 2) ++ on (r3.len.toNat == 0 && r3.start.toNat != 0) (errRng 3) }
  | .sleep _ a => some (ctl [sA .raw32 a])
  | .wait _ a => some (unit .none 1 1 (match a with | some s => [sA .raw32 s .vec] | none => []))
  | .rcall _ n _ slot a => some (unit .vec (n.toNat + 1) 1 [sA .raw32 a] (on (slot.toNat > 4) errSlot)).asCommit
  | .rret _ n => some (unit .vec (n.toNat + 1) 1 []).asCommit
  | .bkpt _ _ | .trap _ _ | .rte _ _ => some (unit .none 1 1 [])
  | .pbool _ _ _ _ _ => some (cmp [] [])
  | .pmov _ m a => some (match a with | some s => ctl [sA .raw32 s] | none => res 1 [] (on (m.toNat != 0) errFN))
  | .poll _ m _ => some (unit (if m == .mask then .vecOrScal else .predVec) 1 1 [])
  | .lxch _ _ w a b => some (unit .vec (OpTy.raw w).words (OpTy.raw w).words [sA (.raw w) a .vecLatch, sB .raw32 b])
  | .lred _ t rm op a | .lscan _ t rm _ op a =>
      some (unit .vec 1 1 [sA (if t == .f32 then .f32 else .int32) a]
        (tyIn t [.f32, .s32, .n32] ++ on (rm != .rne && !(op == .add && t == .f32)) errFN
          ++ on (t == .f32 && (op == .and || op == .or || op == .xor)) errFN))
  | .peers _ _ w a => some (unit .vec 1 1 [sA (.raw w) a])
  | .lead _ => some (unit .predVec 1 1 [])
  | .partset _ a => some (unit .none 1 1 [sA .raw32 a .scalImm])
  | .lperm _ w a b => some (unit .vec (OpTy.raw w).words (OpTy.raw w).words [sA (.raw w) a .vecLatch, sB .raw32 b])
  | .had _ _ _ a => some (unit .vec 1 1 [sA .f32 a])
  | .fadd _ _ a b | .fsub _ _ a b | .fmul _ _ a b | .fmin _ a b | .fmax _ a b | .fminn _ a b | .fmaxn _ a b
  | .fcopysign _ a b | .fcmp _ _ a b => some (res 1 [sA .f32 a, sB .f32 b])
  | .ffma _ _ a b c => some (res 1 [sA .f32 a, sB .f32 b, sC .f32 c])
  | .fscale _ _ a b => some (res 1 [sA .f32 a, sB .int32 b])
  | .fpred _ _ _ _ a b => some (cmp [sA .f32 a, sB .f32 b] [])
  | .fclass _ a => some (res 1 [sA .f32raw a])
  | .frnd _ _ a | .fexp _ a => some (res 1 [sA .f32 a])
  | .pkaddh _ _ a b | .pkmulh _ _ a b => some (res 1 [sA .pkf16 a, sB .pkf16 b])
  | .pkfmah _ _ a b c => some (res 1 [sA .pkf16 a, sB .pkf16 b, sC .pkf16 c])
  | .pkfmab _ _ a b c => some (res 1 [sA .pkbf16 a, sB .pkbf16 b, sC .pkbf16 c])
  | .pkdoth _ _ bf a b c =>
      let t := if bf then OpTy.pkbf16 else OpTy.pkf16
      some (res 1 [sA t a, sB t b, sC .f32 c])
  | .b8dot4 _ ta tb _ a b c => some (res 1 [sA (.ofB8 ta) a, sB (.ofB8 tb) b, sC .f32 c] (on (!ta.isB8 || !tb.isB8) errFN))
  | .dadd _ _ a b | .dmul _ _ a b => some (res 2 [sA .f64 a, sB .f64 b])
  | .dfma _ _ a b c => some (res 2 [sA .f64 a, sB .f64 b, sC .f64 c])
  | .dpred _ _ _ _ a b => some (cmp [sA .f64 a, sB .f64 b] [])
  | .cvt _ td ts _ _ a => some (res td.words [sA (.ofCvt ts) a])
  | .cvtc _ td ts rm ovp inv _ a =>
      some (res 1 [sA (.ofCvt ts) a]
        (if inv then on (!ts.isB8 || td != .f32 || rm != .rne || ovp != .sat) errFN
         else on (ts != .f32 || !td.isB8) errFN))
  | .pack8 _ td _ _ _ a b c => some (res 1 [sA .f32 a, sB .f32 b, sC .raw32 c] (on (!td.isB8) errFN))
  | .unpack8 _ ts _ a => some (res 1 [sA ⟨1, .none, .none⟩ a] (on (!ts.isB8) errFN))
  | .rcp _ a | .rsq _ a | .sqrt _ _ a | .exp2 _ a | .log2 _ a | .sin _ a | .cos _ a | .tanh _ a | .sigm _ a | .act _ _ a =>
      some (res 1 [sA .f32 a])
  | .softmaxIdiom .. => none
  | .ld _ a _ m => some (unit .vec m.size.words m.size.words [sA .base a] (memBad m [.plain, .acq] true false))
  | .st _ a b _ m => some (unit .none 1 1 [sA .base a, sB (.rawN m.size.words) b] (memBad m [.plain, .rel] true false))
  | .ldu _ a _ m => some (unit .scal m.size.words m.size.words [sA .base a .scal] (memBad m [.plain, .acq] true false))
  | .lda _ a _ m => some (unit .vec m.size.words m.size.words [sA .base a] (memBad m [.plain] false false)).asAsync
  | .pref _ a _ m => some (unit .none 1 1 [sA .base a] (memBad m [.plain] false true))
  | .ipref _ _ a => some (ctl [sA .raw64 a])
  | .l1Inv _ a _ m | .l2Wb _ a _ m | .l2WbInv _ a _ m | .icInv _ a _ m =>
      some (ctl [sA .base a] (memBad m [.plain] false true))
  | .l1InvAll _ m | .icInvAll _ m => some (ctl [] (memBad m [.plain] false true))
  | .atom _ op t a b _ m =>
      some (unit .vec t.words t.words [sA .base a, sB (.ofAtom t) b]
        (memBad m [.plain, .acq, .rel, .acqrel] true false ++ on (!atomOk op t) errMO ++ sizeOk m t)).asCommit
  | .atomc _ t a b _ m =>
      some (unit .vec t.words t.words [sA .base a, sB (.regs (2 * t.words)) b]
        (memBad m [.plain, .acq, .rel, .acqrel] true false ++ on (t != .n32 && t != .n64) errMO ++ sizeOk m t)).asCommit
  | .red _ op t a b _ m =>
      some (unit .none 1 1 [sA .base a, sB (.ofAtom t) b]
        (memBad m [.plain, .rel] true false ++ on (!atomOk op t || op == .exch) errMO ++ sizeOk m t)).asCommit
  | .fence .. => some (ctl [])
  | .watch _ _ t a b _ m =>
      some (unit .none 1 1 [sA .base a .scal, sB (.ofAtom t) b .scalImm]
        (memBad m [.plain, .acq] true false ++ on (!([AtomTy.n32, .s32, .n64, .s64].contains t)) errMO ++ sizeOk m t))
  | .bari _ a b => some (ctl [sA .raw64 a .scal, sB .raw32 b]).asCommit
  | .bara h _ _ a b =>
      some { (res 1 (sA .raw64 a .scal :: (match b with | some b => [sB .raw32 b] | none => []))
        (on (b.isSome != h.u) (errSrc 1))) with commit := true }
  | .barw _ a b c => some (cmp [sA .raw64 a .scal, sB .raw32 b, sC .raw32 c] [])
  | .bart h _ _ a b c =>
      some { (res 1 (sA .raw64 a .scal :: (match b with | some b => [sB .raw32 b] | none => []) ++ [sC .raw32 c])
        (on (b.isSome != h.u) (errSrc 1))) with commit := true }
  | .tbar h => some (unit .none 1 1 [] (on (h.guard != .always && h.guard != .never) errG)).asCommit
  | .gjoin _ a => some (res 1 [sA .raw32 a]).asCommit
  | .gleave _ a => some (ctl [sA .raw32 a]).asCommit
  | .gbar h a => some (ctl [sA .raw32 a] (on (h.guard != .always && h.guard != .never) errG)).asCommit
  | .gqry _ _ a => some (res 1 [sA .raw32 a])
  | .cpy h eng ch any a =>
      some { (unit .vecOrNone 1 1 [sA .raw64 a .scal] (on (any && (eng.toNat != 0 || ch.toNat != 0)) errFN)) with
        commit := true, async := h.dst != .none }
  | .cpyw .. => some (unit .scal 2 2 [])
  | .cpyc .. => some (unit .none 1 1 []).asCommit
  | .tsub _ a b => some (unit .vec 1 1 [sA .raw32 a, sB .raw32 b]).asCommit.asAsync
  | .tokenQuery _ a | .tokenSignal _ a | .tokenCancel _ a => some (unit .scal 1 1 [sA .raw32 a .scalImm]).asCommit
  | .capp _ n a b => some (unit .none 1 1 [sA .raw32 a, rng 1 b (n.toNat + 1)]).asCommit
  | .quies _ a => some (unit .scal 1 1 [sA .raw32 a])
  | .dcmp h a b =>
      some { (unit .vecOrNone 1 1 [sA .raw64 a, sB .raw32 b]) with commit := true, async := h.dst != .none }
  | .tbld _ _ _ a => some (unit .none 1 1 [sA .raw64 a .scal]).asCommit
  | .tex _ mode stoch dim n a b c =>
      some (unit .vec (n.toNat + 1) 1
        (rng 0 a (texN dim) :: sB .raw64 b .scal :: (match c with | some c => [rng 2 c (texC mode dim stoch)] | none => []))
        (on (mode == .cone && (dim == .d3 || dim == .cube)) errFN
          ++ on (c.isSome != (texC mode dim stoch != 0)) errFN)).asAsync
  | .tld _ dim n a b c => some (unit .vec (n.toNat + 1) 1 [rng 0 a (texN dim), sB .raw64 b .scal, sC .raw32 c])
  | .tqry _ _ b c => some (unit .vec 1 1 [sB .raw64 b .scal, sC .raw32 c])
  | .trace _ _ _ a b => some (unit .vec 2 1 [rng 0 a 8, sB .raw64 b .scal]).asAsync
  | .thit _ _ a => some (unit .vec 1 1 [sA .raw32 a])
  | .ringAcquire _ => some (unit .scal 1 1 [])
  | .ringRelease _ b => some (unit .none 1 1 [sB .raw32 b .scal])
  | .emit _ prim n a b =>
      some (unit .none 1 1 [rng 0 a (n.toNat + 1), sB .raw32 b .scal] (on (n.toNat + 1 < (if prim then 3 else 5)) errFN))
  | .vrd _ item => some (unit .vec (vrdN item) 1 [])
  | .pxw _ a => some (unit .none 1 1 [sA .raw32 a])
  | .rcq _ train a =>
      some { (unit .vec (if train then 4 else 3) 1 [rng 0 a 14]) with commit := train, async := true }
  | .rct _ a b => some (unit .none 1 1 [sA .raw32 a, rng 1 b 3]).asCommit
  | .rcstep _ a => some (unit .none 1 1 [sA .raw32 a]).asCommit
  | .rcpub _ => some (unit .none 1 1 []).asCommit
  | .rcrd _ _ a => some (unit .none 1 1 [sA .raw64 a .scal])
  | .rccfg _ a => some (unit .none 1 1 [sA .raw64 a .scal]).asCommit
  | .gcfg _ _ a b c => some (unit .none 1 1 [sA .raw32 a, sB .raw32 b, sC .raw64 c .scal]).asCommit
  | .gld _ a | .gclmp _ a => some (unit .none 1 1 [sA .raw64 a .scal]).asCommit
  | .gswp _ a => some (unit .vec 1 1 [sA .raw32 a]).asCommit.asAsync
  | .grd _ _ a => some (unit .none 1 1 [sA .raw64 a .scal]).asCommit
  | .gstat _ => some (unit .scal 2 2 []).asCommit
  | .mfs _ srn =>
      let n := srn.toNat
      some (unit (if n ≥ 0x10 then .vecOrScal else if srnLane n then .vec else .scal) (if srn64 n then 2 else 1)
        (if srn64 n then 2 else 1) [] (on (n ≥ 0x10) errFN))
  | .mts _ srn a =>
      some (unit .none 1 1 [sA .raw32 a .scalImm] (on (!([6, 7, 8].contains srn.toNat)) errFN)).asCommit
  | .esc _ _ => some (unit .none 1 1 []).asCommit
  | _ => none

/-- The common fields of an instruction; REGN's are fixed (03 R103). -/
def Instr.hdr : Instr → Hdr
  | .nop h | .mov h .. | .movi h .. | .sel h .. | .iadd h .. | .isub h .. | .iadd64 h .. | .isub64 h .. | .imul h ..
  | .imulh h .. | .imad h .. | .imad64 h .. | .idiv h .. | .irem h .. | .imin h .. | .imax h .. | .iabs h .. | .ineg h ..
  | .iadds h .. | .idot4 h .. | .and h .. | .or h .. | .xor h .. | .not h .. | .bool3 h .. | .shl h .. | .shr h .. | .sar h ..
  | .rot h .. | .fshl h .. | .fshr h .. | .bfe h .. | .bfi h .. | .popc h .. | .clz h .. | .ctz h .. | .brev h .. | .bperm h ..
  | .ipred h .. | .icmp h .. | .lea h .. | .sxt h .. | .zxt h .. | .bra h .. | .brx h .. | .jmp h .. | .call h .. | .callx h ..
  | .ret h .. | .exit h | .yield h | .sleep h .. | .wait h .. | .rcall h .. | .rret h .. | .bkpt h .. | .trap h .. | .rte h ..
  | .pbool h .. | .pmov h .. | .poll h .. | .lxch h .. | .lred h .. | .lscan h .. | .peers h .. | .lead h | .partset h ..
  | .lperm h .. | .had h .. | .fadd h .. | .fsub h .. | .fmul h .. | .ffma h .. | .fscale h .. | .fmin h .. | .fmax h ..
  | .fminn h .. | .fmaxn h .. | .fpred h .. | .fcmp h .. | .fclass h .. | .frnd h .. | .fexp h .. | .fcopysign h ..
  | .pkaddh h .. | .pkmulh h .. | .pkfmah h .. | .pkfmab h .. | .pkdoth h .. | .b8dot4 h .. | .dadd h .. | .dmul h ..
  | .dfma h .. | .dpred h .. | .cvt h .. | .cvtc h .. | .pack8 h .. | .unpack8 h .. | .rcp h .. | .rsq h .. | .sqrt h ..
  | .exp2 h .. | .log2 h .. | .sin h .. | .cos h .. | .tanh h .. | .sigm h .. | .act h .. | .softmaxIdiom h .. | .ld h ..
  | .st h .. | .ldu h .. | .lda h .. | .pref h .. | .ipref h .. | .l1Inv h .. | .l1InvAll h .. | .l2Wb h .. | .l2WbInv h ..
  | .icInv h .. | .icInvAll h .. | .atom h .. | .atomc h .. | .red h .. | .fence h .. | .watch h .. | .bari h .. | .bara h ..
  | .barw h .. | .bart h .. | .tbar h | .gjoin h .. | .gleave h .. | .gbar h .. | .gqry h .. | .cpy h .. | .cpyw h ..
  | .cpyc h .. | .tsub h .. | .tokenQuery h .. | .tokenSignal h .. | .tokenCancel h .. | .capp h .. | .quies h .. | .dcmp h ..
  | .tbld h .. | .tex h .. | .tld h .. | .tqry h .. | .trace h .. | .thit h .. | .ringAcquire h | .ringRelease h .. | .emit h ..
  | .vrd h .. | .pxw h .. | .rcq h .. | .rct h .. | .rcstep h .. | .rcpub h | .rcrd h .. | .rccfg h .. | .gcfg h .. | .gld h ..
  | .gclmp h .. | .gswp h .. | .grd h .. | .gstat h | .mfs h .. | .mts h .. | .esc h .. => h
  | _ => { guard := .always, u := false, ws := false, dst := .none }

/-! ### The checks of 03 R92-R98 that do not follow from the bits alone -/

/-- Breaches of a source field (03 R22, R94-R97; 07 R214). -/
def SrcSpec.errs (x : SrcSpec) (n : Nat) (u : Bool) : List Err :=
  let s := x.src
  let plain := s.perm == .none && !s.neg && !s.abs
  let bad := Sig.errSrc x.fld
  match x.range with
  | 0 =>
    (match s.base with
      | .vec k => Sig.on (u) Sig.errU ++ Sig.on (k.toNat % x.ty.words != 0 || k.toNat + x.ty.words > n) bad
      | .scal k => Sig.on (k.toNat % x.ty.words != 0 || k.toNat + x.ty.words > 64) bad
      | .latch k => Sig.on (x.ty.words > 1) (Sig.errLatch x.fld) ++ Sig.on (k.toNat > 4 && x.ty.words ≤ 1) bad
      | .imm k => Sig.on (k.toNat ≥ 0x92 || x.ty.lit == .none || (0x80 ≤ k.toNat && k.toNat ≤ 0x8F && x.ty.lit == .int)) bad)
    ++ (match x.kinds, s.base with
      | .any, _ | .scal, .scal _ | .scalImm, .scal _ | .scalImm, .imm _ | .vecLatch, .vec _ | .vecLatch, .latch _ | .vec, .vec _ => []
      | _, _ => [bad])
    ++ Sig.on (s.perm != .none && (u || (match s.base with | .scal _ | .imm _ => true | _ => false))) bad
    ++ (match x.ty.na with
      | .none => Sig.on (s.neg || s.abs) bad
      | .b8 signed => Sig.on (!signed && s.neg) bad
      | .amount => Sig.on s.abs bad
      | _ => [])
    ++ Sig.on ((x.ty == .base || x.kinds == .vec) && !plain) bad
  | r + 1 =>
    (match s.base with
      | .vec k => Sig.on (k.toNat + (r + 1) > n || !plain) bad
      | _ => [bad])

/-- Breaches of the destination fields (03 R93, R107). -/
def Instr.dstErrs (i : Instr) (g : Sig) (n : Nat) : List Err :=
  let h := i.hdr
  let ok : Bool := match g.dst, h.dst with
    | .none, .none | .vecOrNone, .none => true
    | .result, .vec _ => !h.u | .result, .scal _ => h.u
    | .predicate, .pred _ | .predVec, .pred _ => true
    | .vec, .vec _ | .vecOrNone, .vec _ | .vecOrScal, .vec _ => true
    | .scal, .scal _ | .vecOrScal, .scal _ => true
    | _, _ => false
  Sig.on (!ok) Sig.errDK
  ++ (match h.dst with
    | .none => Sig.on h.ws Sig.errWS
    | .vec k => Sig.on (h.u) Sig.errU ++ Sig.on (k.toNat % g.align != 0 || k.toNat + g.words > n) Sig.errDN
    | .scal k => Sig.on (k.toNat % g.align != 0 || k.toNat + g.words > 64) Sig.errDN
    | .pred k => Sig.on (k.toNat ≥ 8) Sig.errDN)
  ++ (match i with
    | .rcall .. | .rret .. => Sig.on (!h.ws) Sig.errWS
    | _ => [])

/-- Ranges of a REGN that reach past N (03 R103). -/
def Instr.regnErrs (i : Instr) (n : Nat) : List Err :=
  match i with
  | .regn r0 r1 r2 r3 _ =>
    Sig.on (r0.start.toNat + r0.len.toNat > n) (Sig.errRng 0) ++ Sig.on (r1.start.toNat + r1.len.toNat > n) (Sig.errRng 1)
    ++ Sig.on (r2.start.toNat + r2.len.toNat > n) (Sig.errRng 2) ++ Sig.on (r3.start.toNat + r3.len.toNat > n) (Sig.errRng 3)
  | _ => []

/-- Every breach of an instruction's fields in a window of `n` registers (03 R92-R98, R106-R113). -/
def Instr.check (n : Nat) (i : Instr) : List Err :=
  match i.sig with
  | none => []
  | some g =>
    Sig.on (i.hdr.u && !g.uni) Sig.errU ++ i.dstErrs g n ++ (g.srcs.map (SrcSpec.errs · n i.hdr.u)).flatten ++ g.bad ++ i.regnErrs n

/-- Vector registers an instruction reads (01 R26, R29); WAIT reads none (04 R134). -/
def Instr.reads (i : Instr) : List Nat :=
  match i, i.sig with
  | .wait .., _ | _, none => []
  | _, some g =>
    (g.srcs.map fun x => match x.src.base with
      | .vec k => (List.range (if x.range = 0 then x.ty.words else x.range)).map (k.toNat + ·)
      | _ => []).flatten
    ++ (match i with
      | .rcall h n .. | .rret h n => (List.range (n.toNat + 1)).map (h.dst.num.toNat + ·)
      | _ => [])

/-- Vector registers an instruction writes (WS = 0). -/
def Instr.writes (i : Instr) : List Nat :=
  match i.sig, i.hdr.dst with
  | some g, .vec k => if i.hdr.ws then [] else (List.range g.words).map (k.toNat + ·)
  | _, _ => []

/-- The registers a producer fills: the `n` of its vector destination, or none with WS set (01 R26; 03 R93). -/
def Hdr.outRegs (h : Hdr) (n : Nat) : List Nat :=
  match h.dst with
  | .vec k => if h.ws then [] else (List.range n).map (k.toNat + ·)
  | _ => []

/-- The instruction is performed after every earlier access of its split on path C (06 R172, R177, R182, R185, R190-R196; 07 R248,
R249; 09 R276; 11 R303): it waits for a read of an LDA that is not performed yet. -/
def Instr.releases : Instr → Bool
  | .st _ _ _ _ m => m.ord == .rel
  | .atom _ _ _ _ _ _ m | .atomc _ _ _ _ _ m | .red _ _ _ _ _ _ m => m.ord == .rel || m.ord == .acqrel
  | .fence _ _ k _ => k != .acq
  | .l1Inv .. | .l1InvAll .. | .l2Wb .. | .l2WbInv .. | .icInv .. | .icInvAll .. | .cpy .. | .dcmp .. | .tsub .. | .tbld .. | .capp ..
  | .rcall .. | .rret .. | .bara .. | .bart .. | .tbar .. | .gjoin .. | .gleave .. | .gbar .. | .tokenSignal .. | .tokenCancel ..
  | .gcfg .. | .gld .. | .gclmp .. | .gswp .. | .grd .. | .rccfg .. | .rcrd .. => true
  | _ => false

/-- The instruction is a release at system scope (09 R272, R286). -/
def Instr.releasesSys : Instr → Bool
  | .st _ _ _ _ m => m.ord == .rel && m.scope == .sys
  | .atom _ _ _ _ _ _ m | .atomc _ _ _ _ _ m | .red _ _ _ _ _ _ m => (m.ord == .rel || m.ord == .acqrel) && m.scope == .sys
  | .fence _ scope k _ => k != .acq && scope == .sys
  | _ => false

/-- The instruction accesses memory on path C, or follows the split's earlier accesses there: what an LDA of the split has not read yet is
read before it (09 R268). -/
def Instr.afterLdas : Instr → Bool
  | .ld .. | .st .. | .ldu .. | .lda .. | .atom .. | .atomc .. | .red .. | .watch .. | .bari .. | .barw .. => true
  | i => i.releases

def Instr.isCommit (i : Instr) : Bool := match i.sig with | some g => g.commit | none => false
def Instr.isAsync (i : Instr) : Bool := match i.sig with | some g => g.async | none => false
/-- A step of a warp, as against a step of another agent of the machine. -/
def Instr.isWarp (i : Instr) : Bool := match i with | .softmaxIdiom .. => true | _ => i.sig.isSome

end Sys2Proof
end

