-- ==== Sys2Proof/WellFormed.lean ====
section
/-! DEFINITION. Well-formed instructions: those that some word encodes and that no decode check of 03 R114 refuses in the
widest window (N = 256, 01 R17), whatever latches the line makes legal (01 R29). -/

namespace Sys2Proof

/-- No check of R92-R98 and R106-R113 refuses the instruction in the widest window. -/
def Instr.wellFormed (i : Instr) : Bool := (i.check 256).isEmpty

/-- No check refuses the instruction in a window of `n` registers. -/
def Instr.wellFormedIn (n : Nat) (i : Instr) : Bool := (i.check n).isEmpty

end Sys2Proof
end

