-- ==== Sys2Proof/Decode.lean ====
section
/-! DEFINITION. The decoder of spec/03_encoding.md and, after it, the encoder. A word decodes to an instruction when the fields
read from it encode back to the same word and no check refuses them; the first failure in the order of R114 is the answer
otherwise. -/

namespace Sys2Proof

/-! ### Packing (03 R90, R99-R103) -/

def headWord (maj : BitVec 8) (h : Hdr) : BitVec 24 :=
  maj ++ h.guard.code ++ BitVec.ofBool h.u ++ BitVec.ofBool h.ws ++ h.dst.kind ++ h.dst.num
def rWord (maj : BitVec 8) (h : Hdr) (a b c : BitVec 16) (fn : BitVec 24) : IWord := headWord maj h ++ a ++ b ++ c ++ fn
def iWord (maj : BitVec 8) (h : Hdr) (imm : BitVec 32) (fn : BitVec 24) : IWord := headWord maj h ++ (0 : BitVec 16) ++ imm ++ fn
def mWord (maj : BitVec 8) (h : Hdr) (a b : BitVec 16) (off : BitVec 24) (mf : BitVec 16) : IWord := headWord maj h ++ a ++ b ++ off ++ mf
def msWord (maj : BitVec 8) (h : Hdr) (a b : BitVec 16) (off : BitVec 16) (mo : BitVec 8) (mf : BitVec 16) : IWord :=
  headWord maj h ++ a ++ b ++ off ++ mo ++ mf
def jWord (maj : BitVec 8) (h : Hdr) (loff : BitVec 29) (slot : BitVec 3) (a : BitVec 16) (fn : BitVec 24) : IWord :=
  headWord maj h ++ loff ++ slot ++ a ++ fn
def gWord (r0 r1 r2 r3 : Rng) (ch : Bool) : IWord :=
  (0x377 : BitVec 12) ++ (0 : BitVec 4) ++ (r0.start ++ r0.len) ++ (r1.start ++ r1.len) ++ (r2.start ++ r2.len) ++ (r3.start ++ r3.len)
    ++ BitVec.ofBool ch ++ (0 : BitVec 23)

/-! ### FN layouts (03 R104) -/

def fnZ : BitVec 24 := 0
def fnW (w : Bool) : BitVec 24 := (0 : BitVec 23) ++ BitVec.ofBool w
def fnTY (t : Ty) : BitVec 24 := t.code ++ (0 : BitVec 18)
def fnRM (rm : RM) : BitVec 24 := rm.code ++ (0 : BitVec 21)
def fnCC (c : Cond) (k : Comb) (t : BitVec 6) (cp : PRef) : BitVec 24 := c.code ++ k.code ++ t ++ cp.code ++ (0 : BitVec 8)
def fnCV (td ts : Ty) (rm : RM) (ovp : Ovp) (dir : Bool) (tabl : BitVec 3) : BitVec 24 :=
  td.code ++ ts.code ++ rm.code ++ ovp.code ++ BitVec.ofBool dir ++ tabl ++ (0 : BitVec 3)
def fnLR (t : Ty) (rm : RM) (excl : Bool) (op : RedOp) : BitVec 24 :=
  t.code ++ rm.code ++ (0 : BitVec 10) ++ BitVec.ofBool excl ++ op.code
/-- A value in the low bits of FN. -/
def fnLo {n : Nat} (v : BitVec n) : BitVec 24 := v.setWidth 24
def fnEngCh (eng : BitVec 3) (ch : BitVec 2) (any : Bool) : BitVec 24 := fnLo (BitVec.ofBool any ++ ch ++ eng)
def fnNt (nt : Bool) (pd : BitVec 3) : BitVec 24 := fnLo (pd ++ BitVec.ofBool nt)
def moAtom (op : BitVec 4) (t : AtomTy) : BitVec 8 := op ++ t.code
def srcOpt : Option Src → BitVec 16 | some s => s.code | none => 0

/-- The word of an instruction (03 R86-R113); none for the steps that have no word. -/
def encode : Instr → Option IWord
  | .nop h => some (rWord 0x00 h 0 0 0 fnZ)
  | .mov h w a => some (rWord 0x01 h a.code 0 0 (fnW w))
  | .movi h e imm => some (iWord 0x02 h imm (fnLo e.code))
  | .sel h w sp a b => some (rWord 0x03 h a.code b.code 0 (fnLo (sp.code ++ BitVec.ofBool w)))
  | .iadd h a b => some (rWord 0x04 h a.code b.code 0 fnZ)
  | .isub h a b => some (rWord 0x05 h a.code b.code 0 fnZ)
  | .iadd64 h a b => some (rWord 0x06 h a.code b.code 0 fnZ)
  | .isub64 h a b => some (rWord 0x07 h a.code b.code 0 fnZ)
  | .imul h a b => some (rWord 0x08 h a.code b.code 0 fnZ)
  | .imulh h t a b => some (rWord 0x09 h a.code b.code 0 (fnTY t))
  | .imad h a b c => some (rWord 0x0A h a.code b.code c.code fnZ)
  | .imad64 h t a b c => some (rWord 0x0B h a.code b.code c.code (fnTY t))
  | .idiv h t a b => some (rWord 0x0C h a.code b.code 0 (fnTY t))
  | .irem h t a b => some (rWord 0x0D h a.code b.code 0 (fnTY t))
  | .imin h t a b => some (rWord 0x0E h a.code b.code 0 (fnTY t))
  | .imax h t a b => some (rWord 0x0F h a.code b.code 0 (fnTY t))
  | .iabs h t a => some (rWord 0x10 h a.code 0 0 (fnTY t))
  | .ineg h t a => some (rWord 0x11 h a.code 0 0 (fnTY t))
  | .iadds h t a b => some (rWord 0x12 h a.code b.code 0 (fnTY t))
  | .idot4 h ta tb sat a b c => some (rWord 0x13 h a.code b.code c.code (ta.code ++ tb.code ++ (0 : BitVec 11) ++ BitVec.ofBool sat))
  | .and h w a b => some (rWord 0x14 h a.code b.code 0 (fnW w))
  | .or h w a b => some (rWord 0x15 h a.code b.code 0 (fnW w))
  | .xor h w a b => some (rWord 0x16 h a.code b.code 0 (fnW w))
  | .not h w a => some (rWord 0x17 h a.code 0 0 (fnW w))
  | .bool3 h w lut a b c => some (rWord 0x18 h a.code b.code c.code (fnLo (BitVec.ofBool w ++ lut)))
  | .shl h w a b => some (rWord 0x19 h a.code b.code 0 (fnW w))
  | .shr h w a b => some (rWord 0x1A h a.code b.code 0 (fnW w))
  | .sar h w a b => some (rWord 0x1B h a.code b.code 0 (fnW w))
  | .rot h w a b => some (rWord 0x1C h a.code b.code 0 (fnW w))
  | .fshl h a b c => some (rWord 0x1D h a.code b.code c.code fnZ)
  | .fshr h a b c => some (rWord 0x1E h a.code b.code c.code fnZ)
  | .bfe h t a b c => some (rWord 0x1F h a.code b.code c.code (fnTY t))
  | .bfi h a b c => some (rWord 0x20 h a.code b.code c.code fnZ)
  | .popc h w a => some (rWord 0x21 h a.code 0 0 (fnW w))
  | .clz h w a => some (rWord 0x22 h a.code 0 0 (fnW w))
  | .ctz h w a => some (rWord 0x23 h a.code 0 0 (fnW w))
  | .brev h w a => some (rWord 0x24 h a.code 0 0 (fnW w))
  | .bperm h a b c => some (rWord 0x25 h a.code b.code c.code fnZ)
  | .ipred h c k t cp a b => some (rWord 0x26 h a.code b.code 0 (fnCC c k t.code cp))
  | .icmp h c t a b => some (rWord 0x27 h a.code b.code 0 (fnCC c .and t.code .always))
  | .lea h sh bsx a b => some (rWord 0x28 h a.code b.code 0 (fnLo (BitVec.ofBool bsx ++ sh)))
  | .sxt h w a => some (rWord 0x29 h a.code 0 0 (fnLo w))
  | .zxt h w a => some (rWord 0x2A h a.code 0 0 (fnLo w))
  | .bra h loff slot => some (jWord 0x30 h loff slot 0 fnZ)
  | .brx h n a b => some (rWord 0x31 h a.code b.code 0 (fnLo n))
  | .jmp h a => some (rWord 0x32 h a.code 0 0 fnZ)
  | .call h loff slot => some (jWord 0x33 h loff slot 0 fnZ)
  | .callx h a => some (rWord 0x34 h a.code 0 0 fnZ)
  | .ret h a => some (rWord 0x35 h a.code 0 0 fnZ)
  | .exit h => some (rWord 0x36 h 0 0 0 fnZ)
  | .regn r0 r1 r2 r3 ch => some (gWord r0 r1 r2 r3 ch)
  | .yield h => some (rWord 0x38 h 0 0 0 fnZ)
  | .sleep h a => some (rWord 0x39 h a.code 0 0 fnZ)
  | .wait h a => some (rWord 0x3A h (srcOpt a) 0 0 (fnLo (BitVec.ofBool a.isNone)))
  | .rcall h n loff slot a => some (jWord 0x3B h loff slot a.code (fnLo n))
  | .rret h n => some (rWord 0x3C h 0 0 0 (fnLo n))
  | .bkpt h imm => some (iWord 0x3D h imm fnZ)
  | .trap h imm => some (iWord 0x3E h imm fnZ)
  | .rte h m => some (rWord 0x3F h 0 0 0 (fnLo m.code))
  | .pbool h pa pb pc lut => some (rWord 0x40 h 0 0 0 (pa.code ++ pb.code ++ pc.code ++ (0 : BitVec 4) ++ lut))
  | .pmov h m a => some (rWord 0x41 h (srcOpt a) 0 0 (fnLo (m ++ (0 : BitVec 7) ++ BitVec.ofBool a.isSome)))
  | .poll h m vp => some (rWord 0x42 h 0 0 0 (fnLo (vp.code ++ (0 : BitVec 2) ++ m.code)))
  | .lxch h m w a b => some (rWord 0x43 h a.code b.code 0 (fnLo (BitVec.ofBool w ++ m.code)))
  | .lred h t rm op a => some (rWord 0x44 h a.code 0 0 (fnLR t rm false op))
  | .lscan h t rm ex op a => some (rWord 0x45 h a.code 0 0 (fnLR t rm ex op))
  | .peers h all w a => some (rWord 0x46 h a.code 0 0 (fnLo (BitVec.ofBool w ++ BitVec.ofBool all)))
  | .lead h => some (rWord 0x47 h 0 0 0 fnZ)
  | .partset h a => some (rWord 0x48 h a.code 0 0 fnZ)
  | .lperm h w a b => some (rWord 0x49 h a.code b.code 0 (fnW w))
  | .had h s32 sb a => some (rWord 0x4A h a.code 0 0 (fnLo (BitVec.ofBool sb ++ BitVec.ofBool s32)))
  | .fadd h rm a b => some (rWord 0x50 h a.code b.code 0 (fnRM rm))
  | .fsub h rm a b => some (rWord 0x51 h a.code b.code 0 (fnRM rm))
  | .fmul h rm a b => some (rWord 0x52 h a.code b.code 0 (fnRM rm))
  | .ffma h rm a b c => some (rWord 0x53 h a.code b.code c.code (fnRM rm))
  | .fmin h a b => some (rWord 0x54 h a.code b.code 0 fnZ)
  | .fmax h a b => some (rWord 0x55 h a.code b.code 0 fnZ)
  | .fminn h a b => some (rWord 0x56 h a.code b.code 0 fnZ)
  | .fmaxn h a b => some (rWord 0x57 h a.code b.code 0 fnZ)
  | .fpred h c k cp a b => some (rWord 0x58 h a.code b.code 0 (fnCC c k 0 cp))
  | .fcmp h c a b => some (rWord 0x59 h a.code b.code 0 (fnCC c .and 0 .always))
  | .fclass h a => some (rWord 0x5A h a.code 0 0 fnZ)
  | .frnd h rm a => some (rWord 0x5B h a.code 0 0 (fnRM rm))
  | .fscale h rm a b => some (rWord 0x5C h a.code b.code 0 (fnRM rm))
  | .fexp h a => some (rWord 0x5D h a.code 0 0 fnZ)
  | .fcopysign h a b => some (rWord 0x5E h a.code b.code 0 fnZ)
  | .pkaddh h rm a b => some (rWord 0x60 h a.code b.code 0 (fnRM rm))
  | .pkmulh h rm a b => some (rWord 0x61 h a.code b.code 0 (fnRM rm))
  | .pkfmah h rm a b c => some (rWord 0x62 h a.code b.code c.code (fnRM rm))
  | .pkfmab h rm a b c => some (rWord 0x63 h a.code b.code c.code (fnRM rm))
  | .pkdoth h rm bf a b c => some (rWord 0x64 h a.code b.code c.code (rm.code ++ BitVec.ofBool bf ++ (0 : BitVec 20)))
  | .b8dot4 h ta tb rm a b c => some (rWord 0x65 h a.code b.code c.code (ta.code ++ tb.code ++ rm.code ++ (0 : BitVec 9)))
  | .dadd h rm a b => some (rWord 0x66 h a.code b.code 0 (fnRM rm))
  | .dmul h rm a b => some (rWord 0x67 h a.code b.code 0 (fnRM rm))
  | .dfma h rm a b c => some (rWord 0x68 h a.code b.code c.code (fnRM rm))
  | .dpred h c k cp a b => some (rWord 0x69 h a.code b.code 0 (fnCC c k 0 cp))
  | .cvt h td ts rm ovp a => some (rWord 0x70 h a.code 0 0 (fnCV td ts rm ovp false 0))
  | .cvtc h td ts rm ovp inv tabl a => some (rWord 0x71 h a.code 0 0 (fnCV td ts rm ovp inv tabl))
  | .pack8 h td rm ovp hi a b c =>
      some (rWord 0x72 h a.code b.code c.code (td.code ++ (0 : BitVec 6) ++ rm.code ++ ovp.code ++ (0 : BitVec 6) ++ BitVec.ofBool hi))
  | .unpack8 h ts e a => some (rWord 0x73 h a.code 0 0 ((0 : BitVec 6) ++ ts.code ++ (0 : BitVec 10) ++ e))
  | .rcp h a => some (rWord 0x74 h a.code 0 0 fnZ)
  | .rsq h a => some (rWord 0x75 h a.code 0 0 fnZ)
  | .sqrt h rm a => some (rWord 0x76 h a.code 0 0 (fnRM rm))
  | .exp2 h a => some (rWord 0x77 h a.code 0 0 fnZ)
  | .log2 h a => some (rWord 0x78 h a.code 0 0 fnZ)
  | .sin h a => some (rWord 0x79 h a.code 0 0 fnZ)
  | .cos h a => some (rWord 0x7A h a.code 0 0 fnZ)
  | .tanh h a => some (rWord 0x7B h a.code 0 0 fnZ)
  | .sigm h a => some (rWord 0x7C h a.code 0 0 fnZ)
  | .act h t a => some (rWord 0x7D h a.code 0 0 (fnLo t))
  | .ld h a off m => some (mWord 0x80 h a.code 0 off m.code)
  | .st h a b off m => some (mWord 0x81 h a.code b.code off m.code)
  | .ldu h a off m => some (mWord 0x82 h a.code 0 off m.code)
  | .lda h a off m => some (mWord 0x83 h a.code 0 off m.code)
  | .pref h a off m => some (mWord 0x84 h a.code 0 off m.code)
  | .ipref h n a => some (rWord 0x85 h a.code 0 0 (fnLo n))
  | .l1Inv h a off m => some (msWord 0x86 h a.code 0 off 0 m.code)
  | .l1InvAll h m => some (msWord 0x86 h 0 0 0 1 m.code)
  | .l2Wb h a off m => some (msWord 0x86 h a.code 0 off 2 m.code)
  | .l2WbInv h a off m => some (msWord 0x86 h a.code 0 off 3 m.code)
  | .icInv h a off m => some (msWord 0x86 h a.code 0 off 4 m.code)
  | .icInvAll h m => some (msWord 0x86 h 0 0 0 5 m.code)
  | .atom h op t a b off m => some (msWord 0x87 h a.code b.code off (moAtom op.code t) m.code)
  | .atomc h t a b off m => some (msWord 0x88 h a.code b.code off (moAtom 0 t) m.code)
  | .red h op t a b off m => some (msWord 0x89 h a.code b.code off (moAtom op.code t) m.code)
  | .fence h sc k p => some (rWord 0x8A h 0 0 0 (fnLo (p ++ k.code ++ sc.code)))
  | .watch h c t a b off m => some (msWord 0x8B h a.code b.code off (moAtom c.code t) m.code)
  | .bari h a b => some (rWord 0x90 h a.code b.code 0 fnZ)
  | .bara h nt pd a b => some (rWord 0x91 h a.code (srcOpt b) 0 (fnNt nt pd))
  | .barw h a b c => some (rWord 0x92 h a.code b.code c.code fnZ)
  | .bart h nt pd a b c => some (rWord 0x93 h a.code (srcOpt b) c.code (fnNt nt pd))
  | .tbar h => some (rWord 0x94 h 0 0 0 fnZ)
  | .gjoin h a => some (rWord 0x95 h a.code 0 0 fnZ)
  | .gleave h a => some (rWord 0x96 h a.code 0 0 fnZ)
  | .gbar h a => some (rWord 0x97 h a.code 0 0 fnZ)
  | .gqry h it a => some (rWord 0x98 h a.code 0 0 (fnLo it.code))
  | .cpy h eng ch any a => some (rWord 0xA0 h a.code 0 0 (fnEngCh eng ch any))
  | .cpyw h eng ch => some (rWord 0xA1 h 0 0 0 (fnEngCh eng ch false))
  | .cpyc h eng ch => some (rWord 0xA2 h 0 0 0 (fnEngCh eng ch false))
  | .tsub h a b => some (rWord 0xA3 h a.code b.code 0 fnZ)
  | .tokenQuery h a => some (rWord 0xA4 h a.code 0 0 0)
  | .tokenSignal h a => some (rWord 0xA4 h a.code 0 0 1)
  | .tokenCancel h a => some (rWord 0xA4 h a.code 0 0 2)
  | .capp h n a b => some (rWord 0xA5 h a.code b.code 0 (fnLo n))
  | .quies h a => some (rWord 0xA6 h a.code 0 0 fnZ)
  | .dcmp h a b => some (rWord 0xA7 h a.code b.code 0 fnZ)
  | .tbld h t act a => some (rWord 0xA8 h a.code 0 0 (fnLo (BitVec.ofBool act ++ t)))
  | .tex h mode st dim n a b c =>
      some (rWord 0xB0 h a.code b.code (srcOpt c) (fnLo (n ++ dim.code ++ BitVec.ofBool st ++ mode.code)))
  | .tld h dim n a b c => some (rWord 0xB1 h a.code b.code c.code (fnLo (n ++ dim.code ++ (0 : BitVec 4))))
  | .tqry h it b c => some (rWord 0xB2 h 0 b.code c.code (fnLo it.code))
  | .trace h any cull a b => some (rWord 0xB3 h a.code b.code 0 (fnLo (BitVec.ofBool cull ++ BitVec.ofBool any)))
  | .thit h it a => some (rWord 0xB4 h a.code 0 0 (fnLo it.code))
  | .ringAcquire h => some (rWord 0xB5 h 0 0 0 0)
  | .ringRelease h b => some (rWord 0xB5 h 0 b.code 0 1)
  | .emit h prim n a b => some (rWord 0xB6 h a.code b.code 0 (fnLo (n ++ BitVec.ofBool prim)))
  | .vrd h it => some (rWord 0xB7 h 0 0 0 (fnLo it.code))
  | .pxw h a => some (rWord 0xB8 h a.code 0 0 fnZ)
  | .rcq h tr a => some (rWord 0xC0 h a.code 0 0 (fnLo (BitVec.ofBool tr)))
  | .rct h a b => some (rWord 0xC1 h a.code b.code 0 fnZ)
  | .rcstep h a => some (rWord 0xC2 h a.code 0 0 fnZ)
  | .rcpub h => some (rWord 0xC3 h 0 0 0 fnZ)
  | .rcrd h sh a => some (rWord 0xC4 h a.code 0 0 (fnLo (BitVec.ofBool sh)))
  | .rccfg h a => some (rWord 0xC5 h a.code 0 0 fnZ)
  | .gcfg h ent a b c => some (rWord 0xC8 h a.code b.code c.code (fnLo (BitVec.ofBool ent)))
  | .gld h a => some (rWord 0xC9 h a.code 0 0 fnZ)
  | .gclmp h a => some (rWord 0xCA h a.code 0 0 fnZ)
  | .gswp h a => some (rWord 0xCB h a.code 0 0 fnZ)
  | .grd h w a => some (rWord 0xCC h a.code 0 0 (fnLo w.code))
  | .gstat h => some (rWord 0xCD h 0 0 0 fnZ)
  | .mfs h srn => some (rWord 0xD0 h 0 0 0 (fnLo srn))
  | .mts h srn a => some (rWord 0xD1 h a.code 0 0 (fnLo srn))
  | .esc h imm => some (iWord 0xD2 h imm fnZ)
  | _ => none

/-! ### Reading fields -/

def fMaj (w : IWord) : BitVec 8 := w.extractLsb' 88 8
def fHdr (w : IWord) : Hdr :=
  { guard := .ofCode (w.extractLsb' 84 4), u := w.getLsbD 83, ws := w.getLsbD 82,
    dst := .ofCode (w.extractLsb' 80 2) (w.extractLsb' 72 8) }
def fA (w : IWord) : Src := .ofCode (w.extractLsb' 56 16)
def fB (w : IWord) : Src := .ofCode (w.extractLsb' 40 16)
def fC (w : IWord) : Src := .ofCode (w.extractLsb' 24 16)
def fImm (w : IWord) : Word := w.extractLsb' 24 32
def fOff (w : IWord) : BitVec 24 := w.extractLsb' 16 24
def fOffS (w : IWord) : BitVec 16 := w.extractLsb' 24 16
def fMF (w : IWord) : MemFn := .ofCode (w.extractLsb' 0 16)
def fAT (w : IWord) : AtomTy := .ofCode (w.extractLsb' 16 4)
def fLoff (w : IWord) : BitVec 29 := w.extractLsb' 43 29
def fSlot (w : IWord) : BitVec 3 := w.extractLsb' 40 3
/-- A type field at bit `lo`; a reserved code reads as f32, and then fails to encode back. -/
def fTy (w : IWord) (lo : Nat) : Ty := (Ty.ofCode (w.extractLsb' lo 6)).getD .f32
def fRM (w : IWord) (lo : Nat) : RM := .ofCode (w.extractLsb' lo 3)
def fOvp (w : IWord) : Ovp := .ofCode (w.extractLsb' 7 2)
def fCond (w : IWord) : Cond := .ofCode (w.extractLsb' 20 4)
def fComb (w : IWord) : Comb := .ofCode (w.extractLsb' 18 2)
def fPR (w : IWord) (lo : Nat) : PRef := .ofCode (w.extractLsb' lo 4)
def fBit (w : IWord) (k : Nat) : Bool := w.getLsbD k
def fRng (w : IWord) (lo : Nat) : Rng := { start := w.extractLsb' (lo + 6) 8, len := w.extractLsb' lo 6 }

/-- Majors 0x00-0x2A (03 R106). -/
def parseInt (m : Nat) (w : IWord) : Option Instr :=
  let h := fHdr w
  match m with
  | 0x00 => some (.nop h)
  | 0x01 => some (.mov h (fBit w 0) (fA w))
  | 0x02 => some (.movi h (.ofCode (w.extractLsb' 0 2)) (fImm w))
  | 0x03 => some (.sel h (fBit w 0) (fPR w 1) (fA w) (fB w))
  | 0x04 => some (.iadd h (fA w) (fB w))
  | 0x05 => some (.isub h (fA w) (fB w))
  | 0x06 => some (.iadd64 h (fA w) (fB w))
  | 0x07 => some (.isub64 h (fA w) (fB w))
  | 0x08 => some (.imul h (fA w) (fB w))
  | 0x09 => some (.imulh h (fTy w 18) (fA w) (fB w))
  | 0x0A => some (.imad h (fA w) (fB w) (fC w))
  | 0x0B => some (.imad64 h (fTy w 18) (fA w) (fB w) (fC w))
  | 0x0C => some (.idiv h (fTy w 18) (fA w) (fB w))
  | 0x0D => some (.irem h (fTy w 18) (fA w) (fB w))
  | 0x0E => some (.imin h (fTy w 18) (fA w) (fB w))
  | 0x0F => some (.imax h (fTy w 18) (fA w) (fB w))
  | 0x10 => some (.iabs h (fTy w 18) (fA w))
  | 0x11 => some (.ineg h (fTy w 18) (fA w))
  | 0x12 => some (.iadds h (fTy w 18) (fA w) (fB w))
  | 0x13 => some (.idot4 h (fTy w 18) (fTy w 12) (fBit w 0) (fA w) (fB w) (fC w))
  | 0x14 => some (.and h (fBit w 0) (fA w) (fB w))
  | 0x15 => some (.or h (fBit w 0) (fA w) (fB w))
  | 0x16 => some (.xor h (fBit w 0) (fA w) (fB w))
  | 0x17 => some (.not h (fBit w 0) (fA w))
  | 0x18 => some (.bool3 h (fBit w 8) (w.extractLsb' 0 8) (fA w) (fB w) (fC w))
  | 0x19 => some (.shl h (fBit w 0) (fA w) (fB w))
  | 0x1A => some (.shr h (fBit w 0) (fA w) (fB w))
  | 0x1B => some (.sar h (fBit w 0) (fA w) (fB w))
  | 0x1C => some (.rot h (fBit w 0) (fA w) (fB w))
  | 0x1D => some (.fshl h (fA w) (fB w) (fC w))
  | 0x1E => some (.fshr h (fA w) (fB w) (fC w))
  | 0x1F => some (.bfe h (fTy w 18) (fA w) (fB w) (fC w))
  | 0x20 => some (.bfi h (fA w) (fB w) (fC w))
  | 0x21 => some (.popc h (fBit w 0) (fA w))
  | 0x22 => some (.clz h (fBit w 0) (fA w))
  | 0x23 => some (.ctz h (fBit w 0) (fA w))
  | 0x24 => some (.brev h (fBit w 0) (fA w))
  | 0x25 => some (.bperm h (fA w) (fB w) (fC w))
  | 0x26 => some (.ipred h (fCond w) (fComb w) (fTy w 12) (fPR w 8) (fA w) (fB w))
  | 0x27 => some (.icmp h (fCond w) (fTy w 12) (fA w) (fB w))
  | 0x28 => some (.lea h (w.extractLsb' 0 6) (fBit w 6) (fA w) (fB w))
  | 0x29 => some (.sxt h (w.extractLsb' 0 6) (fA w))
  | 0x2A => some (.zxt h (w.extractLsb' 0 6) (fA w))
  | _ => none

/-- Majors 0x30-0x3F (03 R107) and 0x40-0x4A (03 R108). -/
def parseCtl (m : Nat) (w : IWord) : Option Instr :=
  let h := fHdr w
  match m with
  | 0x30 => some (.bra h (fLoff w) (fSlot w))
  | 0x31 => some (.brx h (w.extractLsb' 0 16) (fA w) (fB w))
  | 0x32 => some (.jmp h (fA w))
  | 0x33 => some (.call h (fLoff w) (fSlot w))
  | 0x34 => some (.callx h (fA w))
  | 0x35 => some (.ret h (fA w))
  | 0x36 => some (.exit h)
  | 0x37 => some (.regn (fRng w 66) (fRng w 52) (fRng w 38) (fRng w 24) (fBit w 23))
  | 0x38 => some (.yield h)
  | 0x39 => some (.sleep h (fA w))
  | 0x3A => some (.wait h (if fBit w 0 then none else some (fA w)))
  | 0x3B => some (.rcall h (w.extractLsb' 0 4) (fLoff w) (fSlot w) (fC w))
  | 0x3C => some (.rret h (w.extractLsb' 0 4))
  | 0x3D => some (.bkpt h (fImm w))
  | 0x3E => some (.trap h (fImm w))
  | 0x3F => some (.rte h (.ofCode (w.extractLsb' 0 2)))
  | 0x40 => some (.pbool h (fPR w 20) (fPR w 16) (fPR w 12) (w.extractLsb' 0 8))
  | 0x41 => some (.pmov h (w.extractLsb' 8 7) (if fBit w 0 then some (fA w) else none))
  | 0x42 => some (.poll h (.ofCode (w.extractLsb' 0 2)) (fPR w 4))
  | 0x43 => some (.lxch h (.ofCode (w.extractLsb' 0 2)) (fBit w 2) (fA w) (fB w))
  | 0x44 => some (.lred h (fTy w 18) (fRM w 15) (.ofCode (w.extractLsb' 0 4)) (fA w))
  | 0x45 => some (.lscan h (fTy w 18) (fRM w 15) (fBit w 4) (.ofCode (w.extractLsb' 0 4)) (fA w))
  | 0x46 => some (.peers h (fBit w 0) (fBit w 1) (fA w))
  | 0x47 => some (.lead h)
  | 0x48 => some (.partset h (fA w))
  | 0x49 => some (.lperm h (fBit w 0) (fA w) (fB w))
  | 0x4A => some (.had h (fBit w 0) (fBit w 1) (fA w))
  | _ => none

/-- Majors 0x50-0x69 (03 R109) and 0x70-0x7D (03 R110). -/
def parseFloat (m : Nat) (w : IWord) : Option Instr :=
  let h := fHdr w
  match m with
  | 0x50 => some (.fadd h (fRM w 21) (fA w) (fB w))
  | 0x51 => some (.fsub h (fRM w 21) (fA w) (fB w))
  | 0x52 => some (.fmul h (fRM w 21) (fA w) (fB w))
  | 0x53 => some (.ffma h (fRM w 21) (fA w) (fB w) (fC w))
  | 0x54 => some (.fmin h (fA w) (fB w))
  | 0x55 => some (.fmax h (fA w) (fB w))
  | 0x56 => some (.fminn h (fA w) (fB w))
  | 0x57 => some (.fmaxn h (fA w) (fB w))
  | 0x58 => some (.fpred h (fCond w) (fComb w) (fPR w 8) (fA w) (fB w))
  | 0x59 => some (.fcmp h (fCond w) (fA w) (fB w))
  | 0x5A => some (.fclass h (fA w))
  | 0x5B => some (.frnd h (fRM w 21) (fA w))
  | 0x5C => some (.fscale h (fRM w 21) (fA w) (fB w))
  | 0x5D => some (.fexp h (fA w))
  | 0x5E => some (.fcopysign h (fA w) (fB w))
  | 0x60 => some (.pkaddh h (fRM w 21) (fA w) (fB w))
  | 0x61 => some (.pkmulh h (fRM w 21) (fA w) (fB w))
  | 0x62 => some (.pkfmah h (fRM w 21) (fA w) (fB w) (fC w))
  | 0x63 => some (.pkfmab h (fRM w 21) (fA w) (fB w) (fC w))
  | 0x64 => some (.pkdoth h (fRM w 21) (fBit w 20) (fA w) (fB w) (fC w))
  | 0x65 => some (.b8dot4 h (fTy w 18) (fTy w 12) (fRM w 9) (fA w) (fB w) (fC w))
  | 0x66 => some (.dadd h (fRM w 21) (fA w) (fB w))
  | 0x67 => some (.dmul h (fRM w 21) (fA w) (fB w))
  | 0x68 => some (.dfma h (fRM w 21) (fA w) (fB w) (fC w))
  | 0x69 => some (.dpred h (fCond w) (fComb w) (fPR w 8) (fA w) (fB w))
  | 0x70 => some (.cvt h (fTy w 18) (fTy w 12) (fRM w 9) (fOvp w) (fA w))
  | 0x71 => some (.cvtc h (fTy w 18) (fTy w 12) (fRM w 9) (fOvp w) (fBit w 6) (w.extractLsb' 3 3) (fA w))
  | 0x72 => some (.pack8 h (fTy w 18) (fRM w 9) (fOvp w) (fBit w 0) (fA w) (fB w) (fC w))
  | 0x73 => some (.unpack8 h (fTy w 12) (w.extractLsb' 0 2) (fA w))
  | 0x74 => some (.rcp h (fA w))
  | 0x75 => some (.rsq h (fA w))
  | 0x76 => some (.sqrt h (fRM w 21) (fA w))
  | 0x77 => some (.exp2 h (fA w))
  | 0x78 => some (.log2 h (fA w))
  | 0x79 => some (.sin h (fA w))
  | 0x7A => some (.cos h (fA w))
  | 0x7B => some (.tanh h (fA w))
  | 0x7C => some (.sigm h (fA w))
  | 0x7D => some (.act h (w.extractLsb' 0 3) (fA w))
  | _ => none

/-- Majors 0x80-0x98 (03 R111) and 0xA0-0xA8 (03 R112). -/
def parseMem (m : Nat) (w : IWord) : Option Instr :=
  let h := fHdr w
  match m with
  | 0x80 => some (.ld h (fA w) (fOff w) (fMF w))
  | 0x81 => some (.st h (fA w) (fB w) (fOff w) (fMF w))
  | 0x82 => some (.ldu h (fA w) (fOff w) (fMF w))
  | 0x83 => some (.lda h (fA w) (fOff w) (fMF w))
  | 0x84 => some (.pref h (fA w) (fOff w) (fMF w))
  | 0x85 => some (.ipref h (w.extractLsb' 0 8) (fA w))
  | 0x86 => some (match (w.extractLsb' 16 8).toNat with
      | 1 => .l1InvAll h (fMF w)
      | 2 => .l2Wb h (fA w) (fOffS w) (fMF w)
      | 3 => .l2WbInv h (fA w) (fOffS w) (fMF w)
      | 4 => .icInv h (fA w) (fOffS w) (fMF w)
      | 5 => .icInvAll h (fMF w)
      | _ => .l1Inv h (fA w) (fOffS w) (fMF w))
  | 0x87 => some (.atom h (.ofCode (w.extractLsb' 20 4)) (fAT w) (fA w) (fB w) (fOffS w) (fMF w))
  | 0x88 => some (.atomc h (fAT w) (fA w) (fB w) (fOffS w) (fMF w))
  | 0x89 => some (.red h (.ofCode (w.extractLsb' 20 4)) (fAT w) (fA w) (fB w) (fOffS w) (fMF w))
  | 0x8A => some (.fence h (.ofCode (w.extractLsb' 0 3)) (.ofCode (w.extractLsb' 3 2)) (w.extractLsb' 5 8))
  | 0x8B => some (.watch h (.ofCode (w.extractLsb' 20 4)) (fAT w) (fA w) (fB w) (fOffS w) (fMF w))
  | 0x90 => some (.bari h (fA w) (fB w))
  | 0x91 => some (.bara h (fBit w 0) (w.extractLsb' 1 3) (fA w) (if h.u then some (fB w) else none))
  | 0x92 => some (.barw h (fA w) (fB w) (fC w))
  | 0x93 => some (.bart h (fBit w 0) (w.extractLsb' 1 3) (fA w) (if h.u then some (fB w) else none) (fC w))
  | 0x94 => some (.tbar h)
  | 0x95 => some (.gjoin h (fA w))
  | 0x96 => some (.gleave h (fA w))
  | 0x97 => some (.gbar h (fA w))
  | 0x98 => some (.gqry h (.ofCode (w.extractLsb' 0 2)) (fA w))
  | 0xA0 => some (.cpy h (w.extractLsb' 0 3) (w.extractLsb' 3 2) (fBit w 5) (fA w))
  | 0xA1 => some (.cpyw h (w.extractLsb' 0 3) (w.extractLsb' 3 2))
  | 0xA2 => some (.cpyc h (w.extractLsb' 0 3) (w.extractLsb' 3 2))
  | 0xA3 => some (.tsub h (fA w) (fB w))
  | 0xA4 => some (match (w.extractLsb' 0 2).toNat with
      | 1 => .tokenSignal h (fA w)
      | 2 => .tokenCancel h (fA w)
      | _ => .tokenQuery h (fA w))
  | 0xA5 => some (.capp h (w.extractLsb' 0 4) (fA w) (fB w))
  | 0xA6 => some (.quies h (fA w))
  | 0xA7 => some (.dcmp h (fA w) (fB w))
  | 0xA8 => some (.tbld h (w.extractLsb' 0 3) (fBit w 3) (fA w))
  | _ => none

/-- Majors 0xB0-0xD2 (03 R113). -/
def parseGfx (m : Nat) (w : IWord) : Option Instr :=
  let h := fHdr w
  match m with
  | 0xB0 => some (.tex h (.ofCode (w.extractLsb' 0 3)) (fBit w 3) (.ofCode (w.extractLsb' 4 2)) (w.extractLsb' 6 2) (fA w) (fB w)
      (if w.extractLsb' 0 4 = 0 then none else some (fC w)))
  | 0xB1 => some (.tld h (.ofCode (w.extractLsb' 4 2)) (w.extractLsb' 6 2) (fA w) (fB w) (fC w))
  | 0xB2 => some (.tqry h (.ofCode (w.extractLsb' 0 2)) (fB w) (fC w))
  | 0xB3 => some (.trace h (fBit w 0) (fBit w 1) (fA w) (fB w))
  | 0xB4 => some (.thit h (.ofCode (w.extractLsb' 0 3)) (fA w))
  | 0xB5 => some (if fBit w 0 then .ringRelease h (fB w) else .ringAcquire h)
  | 0xB6 => some (.emit h (fBit w 0) (w.extractLsb' 1 4) (fA w) (fB w))
  | 0xB7 => some (.vrd h (.ofCode (w.extractLsb' 0 2)))
  | 0xB8 => some (.pxw h (fA w))
  | 0xC0 => some (.rcq h (fBit w 0) (fA w))
  | 0xC1 => some (.rct h (fA w) (fB w))
  | 0xC2 => some (.rcstep h (fA w))
  | 0xC3 => some (.rcpub h)
  | 0xC4 => some (.rcrd h (fBit w 0) (fA w))
  | 0xC5 => some (.rccfg h (fA w))
  | 0xC8 => some (.gcfg h (fBit w 0) (fA w) (fB w) (fC w))
  | 0xC9 => some (.gld h (fA w))
  | 0xCA => some (.gclmp h (fA w))
  | 0xCB => some (.gswp h (fA w))
  | 0xCC => some (.grd h (.ofCode (w.extractLsb' 0 2)) (fA w))
  | 0xCD => some (.gstat h)
  | 0xD0 => some (.mfs h (w.extractLsb' 0 8))
  | 0xD1 => some (.mts h (w.extractLsb' 0 8) (fA w))
  | 0xD2 => some (.esc h (fImm w))
  | _ => none

/-- The instruction whose fields a word's bits name, illegal codes read as code 0; none for a reserved major (R114 order 1). -/
def parse (w : IWord) : Option Instr :=
  let m := (fMaj w).toNat
  if m < 0x30 then parseInt m w else if m < 0x50 then parseCtl m w else if m < 0x80 then parseFloat m w
  else if m < 0xB0 then parseMem m w else parseGfx m w

/-! ### Decoding (03 R114) -/

/-- The format of a major (03 R99-R103). -/
inductive WordFmt where | r | i | m | ms | j | g
  deriving DecidableEq, Repr

def fmtOf (m : Nat) : WordFmt :=
  if m = 0x37 then .g
  else if m = 0x02 ∨ m = 0x3D ∨ m = 0x3E ∨ m = 0xD2 then .i
  else if m = 0x30 ∨ m = 0x33 ∨ m = 0x3B then .j
  else if 0x80 ≤ m ∧ m ≤ 0x84 then .m
  else if 0x86 ≤ m ∧ m ≤ 0x8B ∧ m ≠ 0x8A then .ms
  else .r

/-- The fields of a format, as (low bit, width, the breach when the field holds a bit that no legal code has). -/
def fmtFields : WordFmt → List (Nat × Nat × Err)
  | .r => [(56, 16, Sig.errSrc 0), (40, 16, Sig.errSrc 1), (24, 16, Sig.errSrc 2), (0, 24, Sig.errFN)]
  | .i => [(56, 16, Sig.errSrc 0), (24, 32, ⟨6110, 11⟩), (0, 24, Sig.errFN)]
  | .m => [(56, 16, Sig.errSrc 0), (40, 16, Sig.errSrc 1), (16, 24, ⟨6120, 12⟩), (0, 16, Sig.errMF)]
  | .ms => [(56, 16, Sig.errSrc 0), (40, 16, Sig.errSrc 1), (24, 16, ⟨6120, 12⟩), (16, 8, Sig.errMO), (0, 16, Sig.errMF)]
  | .j => [(43, 29, ⟨6120, 12⟩), (40, 3, Sig.errSlot), (24, 16, Sig.errSrc 0), (0, 24, Sig.errFN)]
  | .g => [(66, 14, Sig.errRng 0), (52, 14, Sig.errRng 1), (38, 14, Sig.errRng 2), (24, 14, Sig.errRng 3), (23, 1, Sig.errCH), (0, 23, Sig.errFN)]

/-- Every field in which two words differ, as breaches. -/
def diffErrs (f : WordFmt) (w v : IWord) : List Err :=
  (([(83, 1, Sig.errU), (84, 4, Sig.errG), (82, 1, Sig.errWS), (80, 2, Sig.errDK), (72, 8, Sig.errDN)] : List (Nat × Nat × Err))
    ++ fmtFields f).filterMap fun x =>
      if w.extractLsb' x.1 x.2.1 = v.extractLsb' x.1 x.2.1 then none else some x.2.2

/-- The first breach in the order of R114. -/
def firstErr : List Err → Option Err
  | [] => none
  | e :: es => match firstErr es with
    | none => some e
    | some f => some (if f.key < e.key then f else e)

/-- Breaches of a word by itself, in a window of `n` registers. -/
def wordErrs (n : Nat) (w : IWord) (i : Instr) : List Err :=
  (match encode i with | some v => diffErrs (fmtOf (fMaj w).toNat) w v | none => []) ++ i.check n

/-- What a decoder answers: an instruction, or the field code of R114. -/
inductive Decoded where | ok (i : Instr) | bad (field : Nat)
  deriving DecidableEq, Repr

/-- Decode one word by itself: the instruction, or the field code of R114. Latches are judged by `decodeSlot`. -/
def decodeWord (n : Nat) (w : IWord) : Decoded :=
  match parse w with
  | none => .bad 1
  | some i =>
    if encode i = some w ∧ i.check n = [] then .ok i
    else match firstErr (wordErrs n w i) with
      | some e => .bad e.code
      | none => .bad 1

/-! ### The line around the word (01 R29, 03 R103) -/

/-- The instruction names latch `j`. -/
def Instr.namesLatch (i : Instr) (j : Nat) : Bool :=
  match i.sig with
  | none => false
  | some g => g.srcs.any fun x => x.range == 0 && (match x.src.base with | .latch k => k.toNat == j | _ => false)

/-- The instruction names some latch. -/
def Instr.latches (i : Instr) : List Nat := (List.range 256).filter i.namesLatch

/-- The result of the instruction may be named through the latch of its slot: a synchronous 32- or 64-bit register result. -/
def Instr.feedsLatch (i : Instr) : Bool :=
  match i.sig with
  | none => false
  | some g => !g.async && g.words ≤ 2 && (match i.hdr.dst with | .vec _ | .scal _ => true | _ => false)

/-- First slot of the bound run that holds slot `i`; `bind k` says that slot k is bound to slot k+1 (03 R87). -/
def runStart (bind : Nat → Bool) : Nat → Nat
  | 0 => 0
  | k + 1 => if bind k then runStart bind k else k + 1

/-- Slot `i` breaches 01 R29: `ins k` is what slot k's word parses to. DESIGN CHOICE (log 71): an access whose page turns out to be of kind SO is
no breach in a slot that is not the last; its kind is not known at decode. -/
def runBad (bind : Nat → Bool) (ins : Nat → Option Instr) (i : Nat) : Bool :=
  match ins i with
  | none => false
  | some x =>
    let s := runStart bind i
    let before := (List.range i).filter (s ≤ ·)
    x.latches.any (fun j => !(before.contains j && (match ins j with | some p => p.feedsLatch | none => false)))
    || before.any (fun k => match ins k with | some p => p.isAsync && p.writes.any (x.reads.contains ·) | none => false)
    || (x.isCommit && bind i)

/-- Decode slot `i` of a line: `ws` its five words, `bind` and `tmask` its line word's bits, `prev` the word before slot 0. -/
def decodeSlot (n : Nat) (ws : Nat → IWord) (bind tmask : Nat → Bool) (prev : Option IWord) (i : Nat) : Decoded :=
  match parse (ws i) with
  | none => .bad 1
  | some x =>
    let chBad := match x with
      | .regn _ _ _ _ true =>
        tmask i || !(match i with
          | 0 => (match prev with | some p => fMaj p == 0x37 | none => false)
          | k + 1 => fMaj (ws k) == 0x37)
      | _ => false
    let errs := wordErrs n (ws i) x ++ Sig.on (runBad bind (fun k => parse (ws k)) i) Sig.errRun ++ Sig.on chBad Sig.errCH
    if encode x = some (ws i) ∧ errs = [] then .ok x
    else match firstErr errs with
      | some e => .bad e.code
      | none => .bad 1

/-! ### The host's reading of one word -/

/-- The instruction in the 96-bit slot whose bits are `w` (the table's rows give no bits, so `nbits` adds none), in the widest
window. The steps of the other agents have no word. -/
def decodeTableWord (_nbits w : Nat) : Option Instr :=
  match decodeWord 256 (BitVec.ofNat 96 w) with
  | .ok i => some i
  | .bad _ => none

end Sys2Proof
end

