-- ==== Sys2Proof/Config.lean ====
section
/-! DEFINITION. What the specification leaves to the device: free values, each an opaque constant that no proof can evaluate. -/

namespace Sys2Proof

/-- What a register window, a control block or a configuration space shows in a region whose inner layout no rule gives (20 R404, R405; 21
R430). Numbers count from 0 in the order in which the machine holds the things. -/
inductive WinItem where
  | zero
  -- 0x0_0000: slice control, and the L2 ways of a member
  | slctl | wdog | hyst | rgtim | icinv | l2Ways (member : Nat)
  -- 0x0_3000: the encoder lane's registers in the order of R426, STALL, and the count of units dropped
  | enc (k : Nat) | encStall | encDropped
  -- 0x0_4000: the function's translation block, and the ordering kind of a page
  | xlroot | xlctl | xlinv | xlstat | pageKind (page : Nat)
  -- 0x0_A000: the collator
  | binCount (node : Nat) | keyCount (k : Nat) | binRec (node k : Nat) | keyRec (k i : Nat) | graphRecs (g : Nat) | graphWarps (g : Nat)
  | poolFull | heldPad (k : Nat)
  -- 0x1_0000: tables
  | bank (act : Bool) (table b : Nat) | activeBank (act : Bool) (table : Nat) | latchedBank (act : Bool) (table : Nat) | tableStatus
  -- 0x2_0000: logs, faults and counts
  | faultLog (k : Nat) | faultOverflow | errLog (k : Nat) | escalation (k : Nat) | faultEntry (k : Nat) | faultAck
  | corrected (cu : Nat) | uncorrected (cu : Nat) | violations | aclLog (k : Nat) | chanCmd (chan k : Nat) | ringErrors
  -- 0x3_0000: engines, renders, launch records
  | b1t | b2t | radSlot (k : Nat) | radCmd (k : Nat) | gibbsCell (i : Nat) | gibbsBeta | gibbsColours | gibbsSeed | gibbsEnt | gibbsStatus
  | theta (k : Nat) | gibbsCmd (k : Nat) | launch (team : Nat) | ringSlot (k : Nat) | tileState (k : Nat) | batch | binUsed | binPrim (k : Nat)
  | renderCount (k : Nat) | announced (k : Nat)
  -- 0x4_0000: the debug window
  | haltedTags (team warp : Nat) | haltedPcs (team warp : Nat) | saveRow (k : Nat) | tlb (k : Nat) | watch (k : Nat)
  | tile (engine reg : Nat) | tileRow (engine reg k : Nat)
  -- the control block of a virtual function; the rest of the physical function's BAR 0
  | sliceEntry (k : Nat) | kickVa | pending (k : Nat) | event (k : Nat) | debugEnable (function : Nat)
  -- configuration space; `cfg` is a byte of it that the published standards define
  | vendorId | deviceId | totalVfs | firstVf | vfStride | vfEnable | flr | linkWidth | linkRate | cfg
  deriving DecidableEq, Repr, Inhabited

end Sys2Proof

namespace Sys2Proof.Config

/-- The layout of those regions: the item at an offset, and which of its bytes. Spaces: 0 a slice's register window, 1 the control block of a
virtual function, 2 the rest of the physical function's BAR 0, 3 and 4 the configuration spaces of the physical and of a virtual
function. -/
opaque itemAt : Nat → Nat → WinItem × Nat

/-- A byte of configuration space after a reset of its function, and the bits of it that a write changes, as the published standards
define them, by space and offset (21 R430, R431). -/
opaque cfgReset : Nat → Nat → Byte
opaque cfgWritable : Nat → Nat → Byte

/-- The image that a bank of a table in its reset state, the identity, reads as: the specification gives it none (02 R64, R85). -/
opaque identityImage : Bool → Nat → Byte

/-- Whether a peer's import table turns away an access of this device, by the count of steps, the peer, the offset, and whether it writes (21
R435): the table is the peer's own. -/
opaque peerRefuses : Nat → Nat → Nat → Bool → Bool

/-- The Miofer switch that forwards a store of this device to a physical address (09 R284): the routes are not given. -/
opaque switchOf : Nat → Nat

/-- The packet-completion vector that a queue chooses: one of 62 (21 R430). -/
opaque queueVector : Nat → Nat

/-- The byte that an address of an undefined range holds: a scratchpad launched without zero fill (01 R11, 11 R293), the
radiance areas after a slice reset (15 R353), lines lost with an L2 way (20 R423). The first argument numbers the range. -/
opaque freeByte : Nat → Nat → Byte

/-- A free choice between two outcomes that the specification both allows. -/
opaque freeBool : Nat → Bool

/-- A free 32-bit value. -/
opaque freeWord : Nat → Word

/-- The nanoseconds that pass in a step whose agenda entry does not say (01 R23: DTIME never decreases). -/
opaque elapsed : Nat → Nat

/-- The words of the on-die entropy source (17 R364), by slice and by the count of words drawn. -/
opaque entropy : Nat → Nat → Word

/-- The colour that a texture read gives a fast-cleared block, by the texture descriptor: a descriptor names no clear colour
(07 R220; 06 R199). -/
opaque fastClear : List Byte → Word

/-- The texel index and the weight of a coordinate whose scaled value is infinite, where an address mode divides it (13 R331). -/
opaque farTexel : Word → Word

/-- The logical slice whose HBM channels hold a device physical address (09 R281): the specification fixes no map. -/
opaque homeSlice : Nat → Nat

/-- The core rail in millivolts that the crown core chooses for a clock in MHz (20 R406). -/
opaque railFor : Nat → Nat

/-- The global virtual address at which the firmware maps the kick pages of a function (20 R404). -/
opaque kickPage : Nat → Nat

/-- What the encoder lane takes for a field of its registers, by the register, that holds a value out of its range (20 R426). -/
opaque encRange : Nat → Nat → Nat

end Sys2Proof.Config
end

