-- ==== Sys2Proof/Machine/Mem.lean ====
section
/-! DEFINITION. Memory as plain data: the device's physical address space, and each team's scratchpad. -/

namespace Sys2Proof

/-- A range whose unlisted bytes are free values (01 R11, 11 R293, 15 R353, 20 R423). -/
structure Hazy where
  base : Nat
  len : Nat
  seed : Nat
  deriving DecidableEq, Repr

/-- A memory. `cells` lists bytes by strictly rising address, none equal to what its address reads as unlisted. `poison` lists
poisoned granules: lines of 128 bytes in device memory (06 R169, 20 R422), 4-byte words in a scratchpad (19 R394). `home` lists,
for each dirty L2 line, the bytes its home memory still holds (20 R423). -/
structure Memory where
  cells : List Host.Cell := []
  hazy : List Hazy := []
  poison : List Nat := []
  home : List (Nat × List Byte) := []
  deriving DecidableEq, Repr

/-- The lookup of an address in a list of cells. -/
def cellAt : List Host.Cell → Nat → Option Byte
  | [], _ => none
  | (a, b) :: cs, x => if a = x then some b else cellAt cs x

/-- Put a byte at an address of a rising list of cells. -/
def cellPut : List Host.Cell → Nat → Byte → List Host.Cell
  | [], x, v => [(x, v)]
  | (a, b) :: cs, x, v => if x < a then (x, v) :: (a, b) :: cs else if x = a then (x, v) :: cs else (a, b) :: cellPut cs x v

/-- Take an address out of a list of cells. -/
def cellDrop : List Host.Cell → Nat → List Host.Cell
  | [], _ => []
  | (a, b) :: cs, x => if a = x then cs else (a, b) :: cellDrop cs x

/-- Addresses strictly rising, all above a bound. -/
def cellsRise : List Host.Cell → Option Nat → Bool
  | [], _ => true
  | (a, _) :: cs, lo => (match lo with | none => true | some l => l < a) && cellsRise cs (some a)

namespace Memory

/-- What an address reads as when no cell lists it: the free byte of the first range that holds it, else zero. -/
def init (m : Memory) (a : Nat) : Byte :=
  match m.hazy.find? (fun h => h.base ≤ a && a < h.base + h.len) with
  | some h => Config.freeByte h.seed a
  | none => 0

/-- Read one byte. -/
def read (m : Memory) (a : Nat) : Byte := (cellAt m.cells a).getD (m.init a)

/-- The byte an address holds before the L2 writes its line back: what the home memory still has. -/
def homeOf (m : Memory) (line : Nat) : Option (List Byte) := (m.home.find? (·.1 == line)).map (·.2)


/-- Writing the byte an unlisted address reads as takes the cell out; whether a free byte equals the written one is not
evaluated: a cell in a free range is always listed. -/
def isPlain (m : Memory) (a : Nat) : Bool := (m.hazy.find? (fun h => h.base ≤ a && a < h.base + h.len)).isNone

/-- Write one byte, keeping the canonical form. -/
def write (m : Memory) (a : Nat) (v : Byte) : Memory :=
  { m with cells := if m.isPlain a && v == 0 then cellDrop m.cells a else cellPut m.cells a v }

/-- The canonical form: addresses strictly rising, and no cell outside the free ranges equal to zero. -/
def wf (m : Memory) : Bool := cellsRise m.cells none && m.cells.all fun c => !(m.isPlain c.1 && c.2 == 0)

/-- Little-endian value of `n` bytes. -/
def readN (m : Memory) (a : Nat) : Nat → Nat
  | 0 => 0
  | n + 1 => (m.read a).toNat + 256 * m.readN (a + 1) n

/-- Write the low `n` bytes of a value, little-endian. -/
def writeN (m : Memory) (a : Nat) : Nat → Nat → Memory
  | 0, _ => m
  | n + 1, v => (m.write a (BitVec.ofNat 8 v)).writeN (a + 1) n (v / 256)

/-- A byte list at an address. -/
def writeBytes (m : Memory) (a : Nat) : List Byte → Memory
  | [] => m
  | b :: bs => (m.write a b).writeBytes (a + 1) bs

def readBytes (m : Memory) (a n : Nat) : List Byte := (List.range n).map fun i => m.read (a + i)

end Memory

end Sys2Proof
end

