-- ==== Sys2Proof/Machine/State.lean ====
section
/-! DEFINITION. The state of the machine: everything the specification gives the part, as plain data, and the state after
reset. INVENTORY.md lists each piece with its rule and reset value. -/

namespace Sys2Proof.Machine

/-! ### Outcomes -/

/-- Reasons for which a step stops with a fault. -/
inductive Fault where
  /-- The step names a warp, team or slice that the machine does not hold as the acting split. Raised by a meaning that is
  called for no split; safe: `step` never calls one so. -/
  | noSuchSplit
  deriving DecidableEq, Repr

/-- Reasons for which a step has no meaning. -/
inductive Refusal where
  /-- Raised by the dispatcher for an instruction whose meaning is not written; safe. -/
  | notModelled (mnemonic : String)
  deriving DecidableEq, Repr

/-! ### Registers of a warp -/

/-- Why a register is poisoned: the cause, failure code, producer's major and LDA kind of 19 R378. -/
structure Poison where
  cause : Nat
  code : Nat
  major : Nat
  kind : Nat
  deriving DecidableEq, Repr

/-- The tag of a vector register (01 R25). -/
inductive Tag where | full | pending | poisoned (p : Poison)
  deriving DecidableEq, Repr

/-- A vector register: its tag, its 32 words, and the lanes whose word is uncorrectable (19 R394). -/
structure VReg where
  tag : Tag := .full
  words : List Word := List.replicate 32 0
  bad : Mask := 0
  deriving DecidableEq, Repr

/-- An entry of a lane's hit table (07 R231). -/
structure HitEnt where
  u : Word := 0
  v : Word := 0
  prim : Word := 0
  inst : Word := 0
  leaf : Word := 0
  gen : Nat := 0
  valid : Bool := false
  hit : Bool := false
  front : Bool := false
  deriving DecidableEq, Repr

/-- The hit table of a lane: four entries, the allocation count and the count recorded with the region entry (07 R231, R232). -/
structure LaneHits where
  k : Nat := 0
  recorded : Nat := 0
  ents : List HitEnt := List.replicate 4 {}
  deriving DecidableEq, Repr

/-- A region part of a split (01 R445). `livein` is none when every vector register of the window is live into the region. -/
structure Part where
  entry : DWord
  mask : Mask
  livein : Option (List Rng) := none
  deriving DecidableEq, Repr

/-- Where a barrier object or a watched scratchpad word lies: a team's scratchpad and a byte offset. -/
structure ObjRef where
  slice : Nat
  team : Nat
  off : Nat
  deriving DecidableEq, Repr

/-- Holds of a split (01 R41). A held split's counter stands at the instruction that holds it. -/
inductive Hold where
  | none
  /-- SLEEP, until DTIME reaches the value (04 R133) -/
  | sleep (until_ : Nat)
  /-- BARW on an object, with the awaited phase, the end of the timeout, and where the result goes (06 R189) -/
  | barw (obj : ObjRef) (phase : Nat) (until_ : Option Nat) (dst : Dst) (u : Bool) (lanes : Mask)
  /-- WATCH, by the number of its request (06 R183) -/
  | watch (id : Nat)
  | tbar
  /-- GBAR of a group, arrived at a phase (06 R193) -/
  | gbar (group phase : Nat)
  /-- QUIES of a graph, with the destination (06 R210) -/
  | quies (graph : Nat) (dst : Dst)
  /-- a system-scope release awaiting its fence markers (09 R284) -/
  | marker
  /-- the watched team left or ended: the WATCH traps when it is issued again (06 R183) -/
  | watchRevoked
  /-- CAPP, RCALL or RRET awaiting bins of the pool (06 R209; 11 R301) -/
  | pool
  /-- ESC awaiting its answer (07 R259) -/
  | esc
  /-- RTE awaiting other handler lanes (04 R137) -/
  | rte (mode : RteMode)
  /-- a command of an engine or table that ends the hold (06 R203, R212; 07 R242-R254) -/
  | command (id : Nat)
  /-- an access waiting for a fault-buffer entry, by page and path (19 R400) -/
  | pageFault (page : Nat) (path : Path)
  /-- the entry was acknowledged as failed: the access faults with SUB 4 when it is issued again (19 R400) -/
  | faultFailed (page : Nat)
  /-- resumed at a TBAR or GBAR arrival that stands (19 R386) -/
  | tbarAfter
  | gbarAfter (group phase : Nat)
  deriving DecidableEq, Repr

/-- A bound run under way: the latches written so far, by slot, and whether the instruction now issuing is its last
(01 R28-R30). -/
structure Run where
  latches : List (Nat × List Word) := []
  last : Bool := false
  deriving DecidableEq, Repr

/-- A split (01 R9). -/
structure Split where
  pc : DWord
  mask : Mask
  parts : List Part
  hold : Hold := .none
  /-- the transfer that brought it here is still to be checked at the fetch (03 R89): the trap's pc and the target -/
  check : Option DWord := none
  /-- resumed at a recorded address: a line there that cannot be fetched or accepted is a double fault (19 R383, R401) -/
  resumed : Bool := false
  run : Option Run := none
  deriving DecidableEq, Repr

/-- The handler state of a warp (19 R379). `noVec` marks a trap with no handler (19 R382). -/
structure Handler where
  mask : Mask
  parts : List Part
  frozenFront : List Split
  frozenWait : List Split
  noVec : Bool := false
  deriving DecidableEq, Repr

/-- What the read of one lane of an LDA gave: its datum, or the kind of trap that LD would have raised (06 R174). -/
inductive LdaGot where
  | datum (d : Nat)
  | failed (kind : Nat)
  deriving DecidableEq, Repr

/-- What an asynchronous producer will deliver (01 R25). -/
inductive FlightKind where
  /-- LDA: effective address of each lane not read yet, and what each lane read gave (06 R174) -/
  | lda (eas : List (Nat × DWord)) (m : MemFn) (got : List (Nat × LdaGot))
  /-- TEX: mode, options, descriptor address and its bytes where the read at issue gave them, every lane's coordinates, and each
  active lane's further operands (07 R220, R221) -/
  | tex (mode : TexMode) (stoch : Bool) (dim : TexDim) (ad : DWord) (desc : Option (List Byte)) (coords extra : List (Nat × List Word))
  /-- TRACE: root, flags, each active lane's ray and allocated entry and generation (07 R228) -/
  | trace (root : DWord) (anyHit cull : Bool) (rays : List (Nat × List Word)) (alloc : List (Nat × Nat × Nat))
  /-- RCQ: features of each active lane, the slots reserved where they are, and its place in the acceptance order (07 R243) -/
  | rcq (train : Bool) (features : List (Nat × List Word)) (slots : Option (List (Nat × Option Nat))) (order : Nat)
  /-- an engine command or GSWP: the completion word once the command has ended (06 R195) -/
  | engine (value : Option Word)
  deriving DecidableEq, Repr

/-- An asynchronous producer in flight. `prior` is what each destination register held before issue (01 R34). -/
structure Flight where
  id : Nat
  major : Nat
  regs : List Nat
  lanes : Mask
  prior : List VReg
  commit : Bool
  kind : FlightKind
  /-- the stamp of each lane's last release fence that named path G before it was issued (07 R223) -/
  seen : List Nat := []
  deriving DecidableEq, Repr

structure Warp where
  n : Nat
  vregs : List VReg
  sregs : List Word := List.replicate 64 0
  sbad : List Nat := []
  preds : List Mask := List.replicate 7 0
  pbad : List Nat := []
  qpreds : BitVec 7 := 0
  part : Nat := 5
  fpctl : Word := 0
  fpstat : Word := 0
  trappc : DWord := 0
  trapcause : Word := 0
  trapinfo : DWord := 0
  trapvec : DWord := 0
  origlane : List Word := List.replicate 32 0
  /-- the launch that first issued each lane's work (04 R135) -/
  origin : List Nat := []
  hits : List LaneHits := List.replicate 32 {}
  returns : List (List DWord) := List.replicate 32 []
  front : List Split := []
  wait : List Split := []
  exited : Mask := 0
  handler : Option Handler := none
  /-- the whole warp is frozen until the slice core answers (07 R259, 19 R382) -/
  escFrozen : Bool := false
  /-- the vector registers that the image of a saved warp holds (19 R391) -/
  kept : List Nat := []
  /-- the answer to an escalation, kept while the warp is saved (19 R385) -/
  escAnswer : Option EscAnswer := none
  /-- of which escalation: posted in a handler or not, and the lane (07 R259) -/
  escOf : Option (Bool × Nat) := none
  flights : List Flight := []
  /-- lanes of splits that have sent stores over the fabric since the last fence markers returned (09 R284) -/
  fabric : Mask := 0
  /-- the stamp of each lane's last release fence that named path G, or of its launch (07 R223) -/
  gSeen : List Nat := List.replicate 32 0
  /-- sequencer and warp slot in the CU (01 R18) -/
  seq : Nat := 0
  slot : Nat := 0
  ended : Bool := false
  deriving DecidableEq, Repr

/-! ### Teams and launches -/

/-- What a team is for (13 R323; 07 R235, R238). `shading` holds the tile and the block in the tile. -/
inductive TeamKind where
  | plain
  | geometry
  | shading (tile block : Nat)
  deriving DecidableEq, Repr

/-- Why a team's save is awaited: at the end of a quantum or of a render context, to make room for another team (20 R415), or for the
debugger (19 R384). -/
inductive SaveFor where | stop | room | halt
  deriving DecidableEq, Repr

structure Team where
  id : Nat
  launch : Nat
  queue : Nat
  graph : Nat
  teamid : Nat
  cu : Nat
  pin : Option Nat
  kind : TeamKind := .plain
  n : Nat
  scratchSize : Nat
  scratch : Memory := {}
  /-- GROUPS: each slot's group and member index (01 R24) -/
  groups : List (Option (Nat × Nat)) := List.replicate 4 none
  warps : List Warp
  /-- GBAR arrivals of the team: group and phase (06 R193, 19 R390) -/
  gbarAt : List (Nat × Nat) := []
  placedAt : Nat := 0
  halted : Bool := false
  /-- its image, edited while it was halted, cannot be restored (19 R384, R393) -/
  broken : Bool := false
  /-- since when its save is awaited: it could not stop yet (20 R422) -/
  saveFrom : Option Nat := none
  saveFor : SaveFor := .stop
  /-- bytes of its saved image that the debugger has written while it is halted, by their offset from its team record (19 R384) -/
  edits : List (Nat × Byte) := []
  /-- and bytes of the header of the save area, by their offset -/
  headEdits : List (Nat × Byte) := []
  vf : Nat := 0
  deriving DecidableEq, Repr

/-- A launch record (20 R410). -/
structure KRec where
  entry : DWord := 0
  trapvec : DWord := 0
  warps : Nat := 0
  regs : Nat := 0
  scratch : Nat := 0
  deriving DecidableEq, Repr

inductive LaunchKind where | packet | geometry | shading | node (k : Nat) | regroup
  deriving DecidableEq, Repr

/-- A launch with teams unplaced, resident or carried by regrouped calls (11 R290-R292). -/
structure Launch where
  id : Nat
  queue : Nat
  pkt : Option Nat := none
  kind : LaunchKind
  krec : KRec
  total : Nat
  placed : Nat := 0
  co : Bool := false
  zfill : Bool := false
  pin : Option Nat := none
  fpctl : Word := 0
  args : List Word := []
  graph : Nat := 0
  code : Nat := 0
  fl : BitVec 6 := 0
  /-- shading: (tile, block) of each team (13 R323) -/
  blocks : List (Nat × Nat) := []
  deriving DecidableEq, Repr

/-! ### Queues and packets -/

structure Frame where
  seq : Nat
  deadline : Nat
  frameno : Nat
  missed : Bool := false
  deriving DecidableEq, Repr

/-- A packet taken and not yet completed (20 R409, R412). `status` is its status word once its work has ended. -/
structure Pkt where
  idx : Nat
  kind : Nat
  /-- it has started: a reset completes it with code 3 (20 R423) -/
  started : Bool := false
  frame : Option Nat
  frameno : Nat
  cmpl : Bool
  caddr : Nat
  status : Option Nat := none
  counters : List Nat := []
  deriving DecidableEq, Repr

/-- A packet taken and not started yet, or a WAITV whose condition is awaited (20 R409, R410): its bytes, the words of its argument
block, and the launch record, or render descriptor and launch records, as they were read when it was taken; none where the read
met a fault or poison. -/
structure Head where
  idx : Nat
  raw : List Byte
  args : Option (List Word) := some []
  recs : Option (List (List Byte)) := some []
  /-- a WAITV whose condition a kick of the slice's queues has found true (20 R410) -/
  met : Bool := false
  deriving DecidableEq, Repr

structure Queue where
  en : Bool := false
  be : Bool := false
  prio : Nat := 0
  weight : Nat := 1
  log2n : Nat := 4
  base : Nat := 0
  rdidx : Word := 0
  wridx : Word := 0
  miss : Word := 0
  frames : List Frame := []
  pkts : List Pkt := []
  head : Option Head := none
  /-- kick latched while the owner is descheduled or the slice resets (20 R408, R423) -/
  latched : Option Word := none
  credit : Nat := 1
  deriving DecidableEq, Repr

/-! ### Groups, access control, nodes -/

structure Member where
  idx : Nat
  team : Nat
  deriving DecidableEq, Repr

/-- A group-table entry (11 R295); `arrived` lists member indices arrived at the phase. -/
structure GroupEnt where
  open_ : Bool := false
  closing : Bool := false
  members : List Member := []
  arrived : List Nat := []
  phase : Nat := 0
  joins : Word := 0
  deriving DecidableEq, Repr

/-- A node descriptor (11 R299). -/
structure NodeDesc where
  target : DWord
  trapvec : DWord
  timer : Nat
  scratch : Nat
  regs : Nat
  rsize : Nat
  gsize : Nat
  teamw : Nat
  graph : Nat
  zfill : Bool
  cupin : Nat
  fpctl : Word
  queue : Nat
  deriving DecidableEq, Repr

/-- A record in a node's bins (11 R300). -/
structure NodeRec where
  words : List Word
  time : Nat
  deriving DecidableEq, Repr

/-- The key of a regroup bin (11 R305). -/
structure RKey where
  target : DWord
  key : Word
  n : Nat
  trapvec : DWord
  fpctl : Word
  graph : Nat
  queue : Nat
  deriving DecidableEq, Repr

/-- A record of a lane's regrouped call (04 R135). -/
structure RRec where
  first : Nat
  words : List Word
  orig : Word
  stack : List DWord
  launch : Nat
  time : Nat
  deriving DecidableEq, Repr

/-- A collator load taken and waiting for room (11 R301). -/
inductive CLoad where
  | node (k : Nat) (recs : List NodeRec)
  | regroup (key : RKey) (recs : List RRec)
  deriving DecidableEq, Repr

/-! ### Tables, copies, tasks -/

inductive Bank where | identity | image (bytes : List Byte)
  deriving DecidableEq, Repr

/-- A table with two banks (05 R163, R165; 02 R64). -/
structure Table where
  banks : List Bank := [.identity, .identity]
  active : Nat := 0
  deriving DecidableEq, Repr

/-- A TBLD held until its flip or rejection (06 R212). -/
structure TbldJob where
  id : Nat
  act : Bool
  tabl : Nat
  addr : DWord
  issuer : WarpRef
  vf : Nat
  cu : Nat
  deriving DecidableEq, Repr

/-- A copy descriptor (06 R197). -/
structure CopyDesc where
  src : DWord := 0
  dst : DWord := 0
  ndim : Nat := 0
  esz : Nat := 0
  mode : Nat := 0
  bind : Bool := false
  idx : DWord := 0
  meta_ : DWord := 0
  dmeta : DWord := 0
  bobj : DWord := 0
  fill : DWord := 0
  /-- COUNT, SEXT, SSTART, SSTR, DSTR of each dimension -/
  dims : List (Nat × Nat × Int × Int × Int) := []
  deriving DecidableEq, Repr

/-- A command of a copy channel (06 R201, R211). -/
structure CopyCmd where
  id : Nat
  slice : Nat
  desc : CopyDesc
  /-- DCMP: DET counts the blocks written -/
  dcmp : Bool := false
  comp : Option (WarpRef × Nat)
  issuer : WarpRef
  vf : Nat
  cu : Nat
  pos : Nat := 0
  written : Nat := 0
  poisoned : Bool := false
  badMode : Bool := false
  /-- a block was not written: the write pointer stays below it -/
  gap : Bool := false
  /-- set when the command has ended: its status -/
  ended : Option Nat := none
  bobj : Option ObjRef := none
  /-- team whose scratchpad the command holds (11 R294) -/
  holds : Option (Nat × Nat) := none
  deriving DecidableEq, Repr

structure Channel where
  queue : List CopyCmd := []
  wptr : DWord := 0
  /-- DTIME of its last progress (20 R422) -/
  since : Nat := 0
  deriving DecidableEq, Repr

inductive Token where | clear | set | cancelled
  deriving DecidableEq, Repr

structure TaskRing where
  base : Nat
  slots : Nat
  spill : Nat
  nspill : Nat
  deriving DecidableEq, Repr

/-- A matrix engine: its slice and number, and the lease it is held under (20 R421, 18 R373). -/
structure EngRef where
  slice : Nat
  eng : Nat
  lease : Option Nat := none
  deriving DecidableEq, Repr

/-- A tile task (06 R204-R208, 20 R421). -/
structure Task where
  id : Nat
  words : List Word
  ringSlot : Nat
  comp : Option (WarpRef × Nat)
  issuer : WarpRef
  vf : Nat
  cu : Nat
  /-- the status found when the record was written or judged: the task ends with it before it starts -/
  failed : Option (Nat × Nat) := none
  eng : Option EngRef := none
  spill : Option Nat := none
  kdone : Nat := 0
  acc : List (BitVec 128) := []
  fl : BitVec 6 := 0
  cancelled : Bool := false
  /-- it has stopped for good: its record is being written, and no clock is charged (18 R374; 20 R421) -/
  stopped : Bool := false
  /-- tables latched at the start: CTA, CTB, CTD, ACTT -/
  latched : List Bank := []
  /-- the banks it uses and latched: activation or companding, table, bank number -/
  banksHeld : List (Bool × Nat × Nat) := []
  /-- DTIME of its start or last K-block, to which a lent engine's clocks are charged (18 R374; 20 R422) -/
  meterFrom : Nat := 0
  deriving DecidableEq, Repr

/-- A tile register with its control register (06 R206). -/
structure Tile where
  ty : Nat := 0
  rows : Nat := 0
  cols : Nat := 0
  bbase : Nat := 0
  bstr : Nat := 0
  btr : Bool := false
  data : List Byte := []
  deriving DecidableEq, Repr

structure Engine where
  tiles : List (Nat × Tile) := []
  /-- lease under which the engine is away (18 R371) -/
  lent : Option Nat := none
  deriving DecidableEq, Repr

/-! ### Radiance engine and Gibbs array -/

structure RadConfig where
  cfg : List Byte
  levels : Nat
  hidden : Nat
  width : Nat
  log2t : Nat
  boxMin : List Word
  boxMax : List Word
  res : List Nat
  lr : Word
  beta1 : Word
  beta2 : Word
  eps : Word
  param : Nat
  mom : Nat
  deriving DecidableEq, Repr

structure RadSlot where
  committed : Bool := false
  features : List Word
  targets : List Word := []
  deriving DecidableEq, Repr

/-- Commands of the radiance engine in acceptance order (15 R350). -/
inductive RadCmd where
  /-- RCCFG, with the count of the steps it skipped at its acceptance (R242) -/
  | cfg (id : Nat) (addr : DWord) (skipped : Nat)
  | ct (handles : List (Word × List Word))
  | step (count : Nat) (deadline : Option Nat)
  | pub (id : Nat)
  | rd (id : Nat) (addr : DWord) (shadow : Bool)
  deriving DecidableEq, Repr

structure RadEntry where
  order : Nat
  cmd : RadCmd
  vf : Nat
  cu : Nat
  issuer : WarpRef
  deriving DecidableEq, Repr

structure Radiance where
  config : Option RadConfig := none
  published : List (BitVec 16) := []
  shadow : List (BitVec 16) := []
  badPub : List Nat := []
  badShadow : List Nat := []
  /-- slots whose record in the slot area is poisoned (15 R352) -/
  badSlots : List Nat := []
  step : Word := 0
  /-- function and warp whose address space the moments lie in: the issuer of the RCCFG -/
  owner : Option (Nat × WarpRef) := none
  b1t : Word := 0
  b2t : Word := 0
  slots : List (Nat × RadSlot) := []
  skipped : Word := 0
  uncounted : Word := 0
  status : Nat := 0
  queue : List RadEntry := []
  /-- acceptance order counter -/
  accepted : Nat := 0
  /-- DTIME at which the command at the head came there or last completed a step (20 R422) -/
  since : Nat := 0
  deriving DecidableEq, Repr

structure GCell where
  spin : Bool := false
  bias : Int := 0
  nbrs : List (Nat × Int) := []
  colour : Nat := 0
  clamp : Bool := false
  count : Nat := 0
  bad : Bool := false
  deriving DecidableEq, Repr

inductive GibbsCmd where
  | cfg (beta colours : Nat) (seed : DWord) (ent : Bool)
  | load (addr : DWord)
  | clmp (addr : DWord)
  /-- GSWP: sweeps left and done, and one more than the colour phase whose update waits on the entropy source, 0 while none does
  (17 R364) -/
  | sweep (left done phase : Nat) (comp : WarpRef × Nat)
  | read (what : GrdWhat) (addr : DWord) (id : Nat)
  deriving DecidableEq, Repr

structure GibbsEntry where
  id : Nat
  cmd : GibbsCmd
  vf : Nat
  cu : Nat
  issuer : WarpRef
  deriving DecidableEq, Repr

structure Gibbs where
  cells : List (Nat × GCell) := []
  beta : Nat := 0
  colours : Nat := 1
  seed : DWord := 0
  ent : Bool := false
  sweep : Word := 0
  queue : List GibbsEntry := []
  code : Nat := 0
  detail : Nat := 0
  /-- code 3 or 5 was recorded and no GLD has succeeded since (17 R360) -/
  error : Bool := false
  /-- the entropy source fails its health test, since this DTIME (17 R364) -/
  entFailed : Option Nat := none
  drawn : Nat := 0
  /-- DTIME at which the command at the head came there or last completed a sweep (20 R422) -/
  since : Nat := 0
  deriving DecidableEq, Repr

/-! ### Rendering and the encoder lane -/

inductive SlotState where | free | held | draining
  deriving DecidableEq, Repr

/-- A payload-ring slot of a CU (07 R235-R237). -/
structure Payload where
  state : SlotState := .free
  gen : Nat := 0
  team : Nat := 0
  vtx : List (Nat × List Word) := []
  prims : List (Nat × List Word) := []
  nv : Option Nat := none
  order : Nat := 0
  deriving DecidableEq, Repr

/-- A primitive in bin memory (13 R317, R318): pixel positions and depths, 1/w operands, ORDER, and the tiles it touches. -/
structure Prim where
  xs : List Word
  ys : List Word
  zs : List Word
  ws : List Word
  order : Word
  ref : Nat
  tiles : List Nat
  deriving DecidableEq, Repr

inductive TileSt where | idle | loading | resolving | shading | writing | done
  deriving DecidableEq, Repr

/-- One entry of a tile's identifier store (13 R316); `set` marks an entry written in the current batch (R323). -/
structure IdEnt where
  depth : Word
  order : Word
  ref : Word
  set : Bool := false
  deriving DecidableEq, Repr

structure RTile where
  num : Nat
  st : TileSt := .idle
  /-- held primitives in an earlier batch -/
  before : Bool := false
  /-- it is to pass through the states for the batch that has ended (13 R322) -/
  due : Bool := false
  ids : List IdEnt := []
  px : List Word := []
  announced : Bool := false
  deriving DecidableEq, Repr

structure Render where
  queue : Nat
  pkt : Nat
  vf : Nat
  surface : Nat
  meta_ : Nat
  compressed : Bool
  enc : Bool
  x0 : Nat
  y0 : Nat
  width : Nat
  height : Nat
  surfW : Nat
  surfH : Nat
  vxs : Word
  vys : Word
  vxo : Word
  vyo : Word
  clear : Word
  clearDepth : Word
  binBase : Nat
  binSize : Nat
  tileArea : Nat
  geo : KRec
  shade : KRec
  fpctl : Word
  args : List Word
  graph : Nat
  geoLaunch : Nat
  batch : Nat := 0
  prims : List Prim := []
  binUsed : Nat := 0
  /-- a partial render is draining the tiles (13 R318) -/
  partialRun : Bool := false
  lastBatch : Bool := false
  /-- slot being read: CU, slot, next primitive index -/
  reading : Option (Nat × Nat × Nat) := none
  tiles : List RTile := []
  counters : List Word := List.replicate 7 0
  code : Nat := 0
  fl : BitVec 6 := 0
  nextRef : Nat := 0
  ended : Bool := false
  frameno : Nat := 0
  deriving DecidableEq, Repr

/-- The encoder lane's registers (20 R426). -/
structure EncRegs where
  en : Bool := false
  exp : Bool := false
  codec : Nat := 0
  strm : Bool := false
  flow : Nat := 0
  w : Nat := 0
  h : Nat := 0
  fps : Nat := 60
  kbps : Word := 20000
  kint : Nat := 0
  qpm : DWord := 0
  rows : Nat := 1
  rbase : Nat := 0
  log2b : Nat := 20
  wp : Word := 0
  rp : Word := 0
  deriving DecidableEq, Repr

/-- A frame of the encoder lane: the render it codes, tiles announced and taken, the pixels taken (20 R427, 13 R338). -/
structure EncFrame where
  frameno : Nat
  queue : Nat
  pkt : Nat
  ntiles : Nat
  tileCols : Nat
  surfW : Nat
  surface : Nat
  meta_ : Nat
  compressed : Bool
  clear : Word
  vf : Nat
  x0 : Nat
  y0 : Nat
  announced : List Nat := []
  taken : List (Nat × List Word) := []
  damaged : Bool := false
  closed : Bool := false
  /-- its record waited for room in the ring (20 R428) -/
  stalled : Bool := false
  /-- the quantiser of each tile taken, in the expert setting (20 R426, R427) -/
  qps : List Nat := []
  /-- its record stands in the ring and awaits its performance at system scope: its length and its payload's (20 R428) -/
  inRing : Option (Nat × Nat) := none
  deriving DecidableEq, Repr

structure Encoder where
  regs : EncRegs := {}
  stall : Word := 0
  dropped : Word := 0
  frames : List EncFrame := []
  /-- Y, Cb and Cr of the last frame's tiles, for a render killed before its end (20 R427) -/
  last : List (Nat × List Word) := []
  /-- records in the ring not yet sent to the flow: offset and length (20 R428) -/
  toSend : List (Nat × Nat) := []
  /-- access units since EN was set, and the bits in the rate-control buffer (20 R426, R427) -/
  coded : Nat := 0
  fill : Nat := 0
  deriving DecidableEq, Repr

/-! ### Faults, logs, translation -/

/-- A fault record (19 R383) or a slice-error record (20 R422). -/
inductive FaultRec where
  | double (trappc : DWord) (cause1 cause2 : Word) (info : DWord) (cu slot queue : Nat) (addr : Word)
  | error (kind : Nat) (detail : Nat)
  deriving DecidableEq, Repr

/-- An entry of the engine error log (06 R195; 21 R432, R433, R435). -/
structure ErrRec where
  kind : Nat
  detail : Nat
  deriving DecidableEq, Repr

/-- An escalation record (07 R259). -/
structure EscRec where
  warp : WarpRef
  lane : Nat
  addr : DWord
  code : Word
  inHandler : Bool
  trappc : DWord
  cause : Word
  info : DWord
  deriving DecidableEq, Repr

/-- A fault-buffer entry (19 R400). -/
structure FaultEnt where
  id : Nat
  page : Nat
  path : Path
  write : Bool
  fetch : Bool
  sub : Nat
  held : Nat
  cu : Nat
  vf : Nat
  dtime : Nat
  /-- engine commands and producers that wait on the entry, by name -/
  waiters : List Nat := []
  deriving DecidableEq, Repr

/-- A mapping kept by a TLB (19 R398, R399): `cu` is none in the per-slice TLB. -/
structure TlbEnt where
  vf : Nat
  cu : Option Nat
  page : Nat
  size : Nat
  pa : Nat
  w : Bool
  x : Bool
  ok : Nat
  nr : Bool
  deriving DecidableEq, Repr

/-- A line in an instruction cache, by member and physical address (01 R42, R43): 64 bytes. `bad` says that they were read as poison. -/
structure ILine where
  cu : Nat
  pa : Nat
  bytes : List Byte
  bad : Bool := false
  deriving DecidableEq, Repr

/-- A line of a CU's L1, by device-wide CU number and the key of its 128 bytes (06 R171; 09, At the L2 banks). `old` is what the line
holds where another party has written it at its home since; none where it holds what its home does. -/
structure L1Line where
  cu : Nat
  line : Nat
  old : Option (List Byte) := none
  deriving DecidableEq, Repr

/-- Bytes as they were before a write, which a reader on path G may see until the writer has released it and the reader's split has
executed a release fence naming G since (07 R223). `writer` is a split by its warp and lanes; none is an engine, the host or a peer.
Stamps order writes, releases and fences. -/
structure GStale where
  key : Nat
  old : List Byte
  writer : Option (WarpRef × Mask)
  stamp : Nat
  released : Option Nat := none
  deriving DecidableEq, Repr

/-- A write to host memory that the root port may not have accepted yet: what its bytes held before (09 R286; 21 R432). -/
structure Posted where
  slice : Nat
  pa : Nat
  old : List Byte
  writer : Option (WarpRef × Mask)
  deriving DecidableEq, Repr

/-- A fetch under way: the sequencer is frozen until its line arrives (01 R42). -/
structure Fetch where
  cu : Nat
  seq : Nat
  pa : Nat
  deriving DecidableEq, Repr

/-- A watch request or entry (06 R183, 09 R283). `obj` names a scratchpad word; otherwise `addr` is physical. -/
structure WatchReq where
  id : Nat
  warp : WarpRef
  obj : Option ObjRef
  addr : Nat
  cond : WCond
  ty : AtomTy
  value : DWord
  entry : Bool
  /-- the group through whose window the word is watched (06 R183, R192) -/
  group : Option Nat := none
  /-- the wake is an acquire (06 R183; 09 R283) -/
  acq : Bool := false
  /-- the acquire reaches other CUs, or names a path: the CU's L1 is discarded (09 R278) -/
  wide : Bool := false
  hit : Bool := false
  revoked : Bool := false
  deriving DecidableEq, Repr

/-- A function's state saved off a time-shared slice (20 R418). -/
structure SavedFn where
  vf : Nat
  queues : List (Nat × Queue) := []
  nodes : List (Nat × NodeDesc) := []
  nodeRecs : List (Nat × List NodeRec) := []
  regroup : List (RKey × List RRec) := []
  groups : List (Nat × GroupEnt) := []
  acl : List (Nat × BitVec 128) := []
  loads : List CLoad := []
  ring : Option TaskRing := none
  tasks : List Task := []
  tokens : List (Nat × Token) := []
  comp : List (Nat × Table) := []
  act : List (Nat × Table) := []
  tableStatus : Nat := 0
  channels : List (Nat × Channel) := []
  teams : List Team := []
  launches : List Launch := []
  escs : List EscRec := []
  radiance : Radiance := {}
  /-- the array was revoked: it reads as R368 leaves it -/
  gibbs : Gibbs := {}
  encoder : Encoder := {}
  render : Option Render := none
  payloads : List (Nat × Payload) := []
  /-- slice control, counters and logs as the function left them: no function sees another's (20 R405, R417, R418) -/
  errpol : Bool := false
  scrub : Bool := true
  wdog : Nat := 100
  hyst : Nat := 500000
  rgtim : Nat := 2000
  counters : List Word := List.replicate 7 0
  faultLog : List FaultRec := []
  logOverflow : Word := 0
  errLog : List ErrRec := []
  violations : Word := 0
  aclLog : List (Nat × Nat) := []
  poolFull : Word := 0
  deriving DecidableEq, Repr

/-! ### Slices -/

/-- A physical slice. The resources of a fused slice are those of its lowest member, but for engines, CUs and caches (20 R420). -/
structure Slice where
  -- slice table (20 R406)
  lsl : Nat
  fus : Nat := 0
  st : Nat := 0
  tsh : Bool := false
  vf : Nat := 0
  /-- ways of each L2 bank that are this member's (00 R1, R3) -/
  ways : Nat := 2
  /-- the slice core's memory (00 R1): what its image and firmware keep there is free -/
  coreMem : Memory := { hazy := [{ base := 0, len := 262144, seed := 0 }] }
  fmhz : Nat := 2100
  vmv : Nat := 600
  rst : Nat := 0
  rqst : Nat := 0
  /-- running clock in MHz (21 R444) -/
  clock : Nat := 2100
  /-- power and VCORE are good, the slice core image was accepted (21 R439, R442) -/
  coreOk : Bool := false
  -- slice control (20 R405)
  errpol : Bool := false
  scrub : Bool := true
  wdog : Nat := 100
  hyst : Nat := 500000
  rgtim : Nat := 2000
  /-- escapement counters, by offset/4 (20 R417) -/
  counters : List Word := List.replicate 7 0
  queues : List (Nat × Queue) := []
  launches : List Launch := []
  teams : List Team := []
  /-- teams in the save area (19 R389) -/
  saved : List Team := []
  savedRender : Option Render := none
  saveTime : Nat := 0
  /-- scratchpads of departed teams still held by copies (11 R294) -/
  held : List Team := []
  rotor : List (Nat × Nat) := []
  icache : List ILine := []
  fetches : List Fetch := []
  tlb : List TlbEnt := []
  faults : List FaultEnt := []
  /-- accesses of engines whose entry was acknowledged as failed: who, and the page (19 R400) -/
  ackFailed : List (Nat × Nat) := []
  faultLog : List FaultRec := []
  logOverflow : Word := 0
  errLog : List ErrRec := []
  /-- slice errors met and not yet dealt with (20 R422) -/
  errDue : List ErrCause := []
  escs : List EscRec := []
  corrected : List (Nat × Word) := []
  uncorrected : List (Nat × Word) := []
  groups : List (Nat × GroupEnt) := []
  acl : List (Nat × BitVec 128) := []
  violations : Word := 0
  aclLog : List (Nat × Nat) := []
  nodes : List (Nat × NodeDesc) := []
  nodeRecs : List (Nat × List NodeRec) := []
  regroup : List (RKey × List RRec) := []
  loads : List CLoad := []
  poolFull : Word := 0
  comp : List (Nat × Table) := []
  act : List (Nat × Table) := []
  tableStatus : Nat := 0
  tblds : List TbldJob := []
  channels : List (Nat × Channel) := []
  ring : Option TaskRing := none
  tasks : List Task := []
  tokens : List (Nat × Token) := []
  engines : List (Nat × Engine) := []
  radiance : Radiance := {}
  gibbs : Gibbs := {}
  render : Option Render := none
  payloads : List (Nat × Payload) := []
  encoder : Encoder := {}
  /-- the function whose quantum runs on a time-shared slice, and the others' saved states (20 R418) -/
  running : Option Nat := none
  sharers : List Nat := []
  /-- the quantum in µs, and the DTIME at which the running one began -/
  quantum : Nat := 0
  quantumFrom : Nat := 0
  /-- the end of a quantum under way: 1 no packet is taken, 2 no team is placed either (20 R418) -/
  drain : Nat := 0
  savedFns : List SavedFn := []
  /-- a reset under way writes no completion records (20 R425, 21 R431) -/
  quietReset : Bool := false
  /-- a reset was asked for, and has not cleared the slice yet -/
  resetDue : Bool := false
  /-- the function leaves: when the reset ends the slice splits and is free (20 R425) -/
  leaving : Bool := false
  /-- a fuse (2 or 4) or split (1) under way (20 R419) -/
  fusing : Option Nat := none
  deriving DecidableEq, Repr

/-! ### The device -/

/-- A lease entry (18 R370). -/
structure Lease where
  lender : Nat := 0
  borrower : Nat := 0
  engs : BitVec 6 := 0
  st : Nat := 0
  cause : Nat := 0
  meter : Nat := 0
  expiry : Nat := 0
  budget : Nat := 0
  /-- engines that have passed to the borrower -/
  passed : BitVec 6 := 0
  deriving DecidableEq, Repr

/-- A system-window entry (21 R434). -/
structure SysWin where
  valid : Bool := false
  wr : Bool := false
  peer : Nat := 0
  deriving DecidableEq, Repr

/-- An import-table entry (21 R435). -/
structure Import where
  valid : Bool := false
  wr : Bool := false
  peer : Nat := 0
  base : Nat := 0
  size : Nat := 0
  deriving DecidableEq, Repr

/-- A transmit-flow entry (21 R438). `ip6` says which kind the addresses are. -/
structure Flow where
  valid : Bool := false
  port : Nat := 0
  mac : Nat := 0
  ip6 : Bool := false
  src : Nat := 0
  dst : Nat := 0
  sport : Nat := 0
  dport : Nat := 0
  dscp : Nat := 0
  limit : Nat := 0
  deriving DecidableEq, Repr

/-- The translation block of a function (19 R398). -/
structure XlBlock where
  root : Nat := 0
  fmode : Bool := false
  va : Nat := 0
  npg : Nat := 0
  busy : Bool := false
  /-- answer an ATS invalidation of the host when it ends (21 R430) -/
  ats : Bool := false
  /-- the function's ATS invalidation queue: VA and pages -/
  atsQueue : List (Nat × Nat) := []
  deriving DecidableEq, Repr

/-- An event of a function's event queue (20 R416, R422; 21 R436, R444). -/
structure Event where
  kind : Nat
  arg : Nat
  frameno : Nat
  dtime : Nat
  deriving DecidableEq, Repr

/-- What the outside sees of the device: reports, sent access units, answers to reads. -/
inductive Out where
  | read (data : List Byte) (poisoned : Bool)
  | report (nonce : List Byte) (dtime : Nat) (images : List (Nat × Nat)) (slices : List (Nat × Nat × Nat × Nat))
      (windows : List (Nat × SysWin)) (imports : List (Nat × Import))
  /-- an access unit sent as RTP packets: each packet's payload and marker bit (21 R438) -/
  | accessUnit (flow : Nat) (packets : List (List Byte × Bool)) (timestamp : Nat)
  /-- an MSI-X message of a function (21 R430) -/
  | msix (function vector : Nat)
  | atsDone (function : Nat)
  /-- each switch's count of the stores it has forwarded, and the switches with a marker outstanding (09 R284; 21 R435) -/
  | fences (counts : List (Nat × Nat)) (markers : List Nat)
  | status (v : Nat)
  | absent
  deriving DecidableEq, Repr

/-- The split for which a step acts: its slice (physical number of the logical slice), team, warp, and place in the frontier. -/
structure Cursor where
  slice : Nat
  team : Nat
  warp : Nat
  split : Nat
  deriving DecidableEq, Repr

/-- One turn of the agenda: a step of another agent, or one sequencer's issue. -/
inductive Turn where
  | event (i : Instr)
  | issue (slice cu seq : Nat)
  deriving DecidableEq, Repr

end Sys2Proof.Machine

namespace Sys2Proof.Machine

structure State where
  mem : Memory
  slices : List Slice
  leases : List (Nat × Lease)
  sysWins : List (Nat × SysWin)
  imports : List (Nat × Import)
  importRefused : Word
  flows : List (Nat × Flow)
  xl : List (Nat × XlBlock)
  watches : List WatchReq
  l1 : List L1Line
  /-- what path G may still read of bytes overwritten, oldest first, and the next stamp (07 R223) -/
  gStale : List GStale
  gStamp : Nat
  dtime : Nat
  /-- kick pages of each function: KICKVA (20 R404) -/
  kickVa : List (Nat × Nat)
  events : List (Nat × List Event)
  /-- functions present: SR-IOV VF Enable (20 R425) -/
  vfEnable : Bool
  linkUp : Bool
  /-- lanes and rate, in the standard's steps 1 to 6, of the trained link (21 R430) -/
  linkWidth : Nat
  linkRate : Nat
  /-- bytes of configuration space that the host has written, by function and offset (21 R430, R431) -/
  cfgRegs : List (Nat × List (Nat × Byte))
  /-- functions for which the physical function enables debug (20 R405) -/
  debugOn : List Nat
  deviceId : Nat
  /-- Miofer lanes of each port: 4, 2 or 0 (21 R435) -/
  ports : List Nat
  /-- stores sent over the fabric since the last fence markers returned (09 R284) -/
  markers : Nat
  /-- engines that sent some of them: slice, path and command -/
  engMarkers : List (Nat × Path × Nat)
  /-- the stores that each switch has forwarded for this device, and the switches that carried some since their last marker (09 R284) -/
  fenceCounts : List (Nat × Nat)
  fenceOut : List Nat
  /-- host-memory writes not known to be accepted, oldest first (21 R432) -/
  posted : List Posted
  grandmaster : Bool
  /-- PTP slew still to apply, in ns (21 R436) -/
  slew : Int
  /-- the rollback counter, and the accepted images: who runs each, and its version (21 R439) -/
  rollback : Nat
  images : List (Nat × Nat)
  crownOk : Bool
  powered : Bool
  railFailed : Bool
  capWatts : Nat
  throttled : List Nat
  out : List Out
  -- the model's own
  agenda : List (Nat × Turn)
  cur : Option Cursor
  tick : Nat
  freeCtr : Nat
  nextId : Nat
  deriving DecidableEq, Repr

namespace State

/-- Slice n after reset: free, out of every fusion, its registers as their maps list (20 R405-R407, R426). -/
def resetSlice (n : Nat) : Slice := { lsl := n }

/-- The machine after power-up and reset: no team is resident, memory lists nothing, tables hold their listed reset values. -/
def reset : State :=
  { mem := {}, slices := (List.range 16).map resetSlice, leases := [], sysWins := [], imports := [], importRefused := 0,
    flows := [], xl := [], watches := [], l1 := [], gStale := [], gStamp := 0, dtime := 0, kickVa := [], events := [], vfEnable := false, linkUp := false,
    linkWidth := 0, linkRate := 0, cfgRegs := [], debugOn := [], deviceId := 0, ports := List.replicate 36 4, markers := 0, engMarkers := [], fenceCounts := [], fenceOut := [], posted := [], grandmaster := false, slew := 0, rollback := 0, images := [],
    crownOk := false, powered := true, railFailed := false, capWatts := 2200, throttled := [], out := [], agenda := [],
    cur := none, tick := 0, freeCtr := 0, nextId := 0 }

end State

end Sys2Proof.Machine
end

