-- ==== Sys2Proof/Machine/Access.lean ====
section
/-! DEFINITION. Reading and writing the pieces of the state: keyed lists, slices, teams, warps, splits and registers. -/

namespace Sys2Proof.Machine

/-! ### Keyed lists -/

/-- The value under a key of a keyed list. -/
def kget {α β : Type} [DecidableEq α] : List (α × β) → α → Option β
  | [], _ => none
  | (k, v) :: t, x => if k = x then some v else kget t x

/-- Set the value under a key. -/
def kset {α β : Type} [DecidableEq α] : List (α × β) → α → β → List (α × β)
  | [], x, y => [(x, y)]
  | (k, v) :: t, x, y => if k = x then (x, y) :: t else (k, v) :: kset t x y

/-- Take a key out. -/
def kdel {α β : Type} [DecidableEq α] : List (α × β) → α → List (α × β)
  | [], _ => []
  | (k, v) :: t, x => if k = x then t else (k, v) :: kdel t x

/-- Change one element of a list by position. -/
def lmod {α : Type} (f : α → α) : List α → Nat → List α
  | [], _ => []
  | x :: t, 0 => f x :: t
  | x :: t, n + 1 => x :: lmod f t n

abbrev Res := Host.Outcome State Fault Refusal

/-! ### Slices, teams, warps -/

/-- The function whose work a slice runs (20 R406, R418). -/
def Slice.fn (x : Slice) : Nat := x.running.getD x.vf

def State.slice (s : State) (n : Nat) : Slice := s.slices.getD n { lsl := n, st := 4 }
def State.modSlice (s : State) (n : Nat) (f : Slice → Slice) : State := { s with slices := lmod f s.slices n }
def State.setSlice (s : State) (n : Nat) (x : Slice) : State := s.modSlice n fun _ => x

/-- Do something to each of some slices. -/
def State.modSlices (s : State) (l : List Nat) (f : Slice → Slice) : State := l.foldl (fun s m => s.modSlice m f) s

/-- Members of a logical slice, lowest first (20 R420). -/
def State.members (s : State) (n : Nat) : List Nat :=
  (List.range s.slices.length).filter fun m => (s.slice m).lsl = n

/-- Compute units of a logical slice: 12 a member, numbered in member order (01 R23). -/
def State.cuCount (s : State) (n : Nat) : Nat := 12 * (s.members n).length

/-- Device-wide CU number (00 R2). -/
def State.cuGlobal (s : State) (n cu : Nat) : Nat := 12 * ((s.members n).getD (cu / 12) n) + cu % 12

def Slice.team (x : Slice) (id : Nat) : Option Team := x.teams.find? (·.id == id)
def Slice.modTeam (x : Slice) (id : Nat) (f : Team → Team) : Slice :=
  { x with teams := x.teams.map fun t => if t.id = id then f t else t }
/-- A team wherever it is held: resident or saved. -/
def Slice.anyTeam (x : Slice) (id : Nat) : Option Team := (x.teams ++ x.saved).find? (·.id == id)
def Slice.modAnyTeam (x : Slice) (id : Nat) (f : Team → Team) : Slice :=
  { x with teams := x.teams.map (fun t => if t.id = id then f t else t)
           saved := x.saved.map (fun t => if t.id = id then f t else t) }

def State.team (s : State) (n id : Nat) : Option Team := (s.slice n).team id
def State.modTeam (s : State) (n id : Nat) (f : Team → Team) : State := s.modSlice n fun x => x.modTeam id f

def Team.warp (t : Team) (w : Nat) : Option Warp := t.warps[w]?
def Team.modWarp (t : Team) (w : Nat) (f : Warp → Warp) : Team := { t with warps := lmod f t.warps w }

def State.warp (s : State) (r : WarpRef) : Option Warp := ((s.slice r.slice).team r.team).bind (·.warp r.warp)
def State.modWarp (s : State) (r : WarpRef) (f : Warp → Warp) : State := s.modTeam r.slice r.team fun t => t.modWarp r.warp f
def State.modAnyWarp (s : State) (r : WarpRef) (f : Warp → Warp) : State :=
  s.modSlice r.slice fun x => x.modAnyTeam r.team fun t => t.modWarp r.warp f

/-- The acting split with all that holds it. -/
structure View where
  cur : Cursor
  sl : Slice
  tm : Team
  wp : Warp
  sp : Split

def Cursor.ref (c : Cursor) : WarpRef := { slice := c.slice, team := c.team, warp := c.warp }

/-- The split the cursor names. -/
def State.view (s : State) : Option View :=
  match s.cur with
  | none => none
  | some c =>
    match (s.slice c.slice).team c.team with
    | none => none
    | some t => match t.warp c.warp with
      | none => none
      | some w => match w.front[c.split]? with
        | none => none
        | some p => some { cur := c, sl := s.slice c.slice, tm := t, wp := w, sp := p }

def View.ref (v : View) : WarpRef := v.cur.ref

/-- Put the acting warp back. -/
def State.putWarp (s : State) (v : View) (w : Warp) : State := s.modWarp v.ref fun _ => w

/-! ### Lanes -/

def bit (m : Mask) (l : Nat) : Bool := m.getLsbD l
def laneList (m : Mask) : List Nat := (List.range 32).filter (bit m)
def maskOf (f : Nat → Bool) : Mask := (List.range 32).foldl (fun a l => if f l then a ||| BitVec.ofNat 32 (2 ^ l) else a) 0
def lowest (m : Mask) : Option Nat := (laneList m).head?
def oneLane (l : Nat) : Mask := BitVec.ofNat 32 (2 ^ l)

/-! ### Registers of a warp (01 R22, R25-R27; 19 R394) -/

def Warp.vget (w : Warp) (n : Nat) : VReg := w.vregs.getD n {}
def Warp.vlane (w : Warp) (n l : Nat) : Word := (w.vget n).words.getD l 0
def Warp.sget (w : Warp) (k : Nat) : Word := w.sregs.getD k 0
/-- p7 reads as true (01 R22). -/
def Warp.pget (w : Warp) (k l : Nat) : Bool := if k = 7 then true else bit (w.preds.getD k 0) l
/-- q7 reads as true (01 R22). -/
def Warp.qget (w : Warp) (k : Nat) : Bool := if k = 7 then true else w.qpreds.getLsbD k

/-- Replace a vector register; a number at or above N names none. -/
def Warp.vset (w : Warp) (n : Nat) (r : VReg) : Warp := { w with vregs := w.vregs.set n r }

/-- Write the words of a register in some lanes: its tag becomes full, and the marks of the written words clear. -/
def VReg.put (r : VReg) (lanes : Mask) (f : Nat → Word) : VReg :=
  { tag := .full, words := (List.range 32).map (fun l => if bit lanes l then f l else r.words.getD l 0), bad := r.bad &&& ~~~lanes }

def Warp.vwrite (w : Warp) (n : Nat) (lanes : Mask) (f : Nat → Word) : Warp := w.vset n ((w.vget n).put lanes f)

def Warp.swrite (w : Warp) (k : Nat) (x : Word) : Warp :=
  { w with sregs := w.sregs.set k x, sbad := w.sbad.filter (· != k) }

/-- Write a p-predicate in some lanes; writes to p7 are discarded (01 R22). -/
def Warp.pwrite (w : Warp) (k : Nat) (lanes : Mask) (f : Nat → Bool) : Warp :=
  if k ≥ 7 then w else
    { w with preds := w.preds.set k (maskOf fun l => if bit lanes l then f l else bit (w.preds.getD k 0) l)
             pbad := if lanes = BitVec.allOnes 32 then w.pbad.filter (· != k) else w.pbad }

/-- Write a q-predicate; writes to q7 are discarded (01 R22). -/
def Warp.qwrite (w : Warp) (k : Nat) (b : Bool) : Warp :=
  if k ≥ 7 then w else
    { w with qpreds := if b then w.qpreds ||| BitVec.ofNat 7 (2 ^ k) else w.qpreds &&& ~~~(BitVec.ofNat 7 (2 ^ k))
             pbad := w.pbad.filter (· != 8 + k) }

/-- The 64-bit value of a pair, low word first (01 R22). -/
def pair (lo hi : Word) : DWord := hi ++ lo
def loWord (x : DWord) : Word := x.extractLsb' 0 32
def hiWord (x : DWord) : Word := x.extractLsb' 32 32
def zext64 (x : Word) : DWord := x.setWidth 64

def Warp.spair (w : Warp) (k : Nat) : DWord := pair (w.sget k) (w.sget (k + 1))
def Warp.vpair (w : Warp) (n l : Nat) : DWord := pair (w.vlane n l) (w.vlane (n + 1) l)

/-- Every lane has exited (01 R9). -/
def Warp.allExited (w : Warp) : Bool := w.exited == BitVec.allOnes 32
/-- Some register is pending. -/
def Warp.anyPending (w : Warp) : Bool := w.vregs.any (·.tag == .pending)

/-- A count of a CU, modulo 2^32. -/
def bump (l : List (Nat × Word)) (cu : Nat) : List (Nat × Word) := kset l cu ((kget l cu).getD 0 + 1)

/-- A fresh name. -/
def State.fresh (s : State) : Nat × State := (s.nextId, { s with nextId := s.nextId + 1 })

end Sys2Proof.Machine
end

