-- ==== Sys2Proof/Machine/Xlate.lean ====
section
/-! DEFINITION. Physical addresses and translation (19 R396-R401; 21 R433-R435). -/

namespace Sys2Proof.Machine

/-! ### The physical address map (21 R433) -/

def hbmTop : Nat := 0x6000000000
def hostBase : Nat := 0x100000000000
def sysBase : Nat := 0x800000000000

/-- Where a physical access goes: a byte of memory by its key, the host while the link is up, or nowhere. -/
inductive Phys where
  | mem (key : Nat)
  | nowhere
  deriving DecidableEq, Repr

/-- The keys of a peer's memory: one range for each Miofer device identifier, so that two windows naming one peer alias. -/
def peerKey (peer off : Nat) : Nat := 2 ^ 56 + peer * 2 ^ 39 + off

/-- The home of a physical address (21 R432-R435): a peer may turn an access away. -/
def State.phys (s : State) (pa : Nat) (wr : Bool) : Phys :=
  if pa < hbmTop then .mem pa
  else if hostBase ≤ pa ∧ pa < 2 * hostBase then (if s.linkUp then .mem pa else .nowhere)
  else if sysBase ≤ pa ∧ pa < sysBase + 2 ^ 39 * 256 then
    let w := (pa - sysBase) / 2 ^ 39
    let off := (pa - sysBase) % 2 ^ 39
    match kget s.sysWins w with
    | some e => if e.valid && off < hbmTop && (e.wr || !wr) && !Config.peerRefuses s.tick e.peer off wr then .mem (peerKey e.peer off) else .nowhere
    | none => .nowhere
  else .nowhere

/-- Kinds of engine-error-log records (06 R195; 21 R432, R433). -/
def errUnassigned : Nat := 1
def errHostLost : Nat := 2
def errStatus : Nat := 3
def errRefused : Nat := 4

def State.logErr (s : State) (sl kind detail : Nat) : State :=
  s.modSlice sl fun x => { x with errLog := x.errLog ++ [{ kind := kind, detail := detail }] }

/-- The access leaves through a system window: if it reaches no memory, the peer turned it away (21 R433-R435). -/
def State.toPeer (s : State) (pa : Nat) (wr : Bool) : Bool :=
  sysBase ≤ pa && pa < sysBase + 2 ^ 39 * 256 && (kget s.sysWins ((pa - sysBase) / 2 ^ 39)).any fun e =>
    e.valid && (pa - sysBase) % 2 ^ 39 < hbmTop && (e.wr || !wr)

/-- An access that reaches no memory is recorded in the engine error log of its slice (21 R432, R433, R435). -/
def State.noteAccess (s : State) (sl pa : Nat) (wr : Bool) : State :=
  match s.phys pa wr with
  | .mem _ => s
  | .nowhere =>
    if hostBase ≤ pa ∧ pa < 2 * hostBase then (if wr then s.logErr sl errHostLost pa else s)
    else if s.toPeer pa wr then (if wr then s.logErr sl errRefused pa else s) else s.logErr sl errUnassigned pa

/-- Line number of a key. -/
def lineOfKey (k : Nat) : Nat := k / 128

/-- Read `n` bytes at a physical address: none for poisoned data (06 R169; 21 R432, R433). -/
def State.physRead (s : State) (pa n : Nat) : Option Nat :=
  match s.phys pa false with
  | .nowhere => none
  | .mem k => if s.mem.poison.contains (lineOfKey k) || s.mem.poison.contains (lineOfKey (k + n - 1)) then none else some (s.mem.readN k n)

/-- Whether a comparison of a WATCH holds of a word (06 R183). -/
def watchHolds (cond : WCond) (ty : AtomTy) (cur val : DWord) : Bool :=
  let sg := ty == .s32 || ty == .s64
  let lt : Bool := if ty.is64 then (if sg then cur.slt val else cur.ult val)
    else (if sg then (loWord cur).slt (loWord val) else (loWord cur).ult (loWord val))
  let eq : Bool := if ty.is64 then cur == val else loWord cur == loWord val
  match cond with | .eq => eq | .ne => !eq | .lt => lt | .ge => !lt

/-- Bytes of a watched word. -/
def watchBytes (ty : AtomTy) : Nat := if ty.is64 then 8 else 4

/-- Evaluate the watch entries over the bytes just written (06 R183, 09 R283): an entry whose comparison now holds is hit. -/
def State.watchPhys (s : State) (key n : Nat) : State :=
  { s with watches := s.watches.map fun q =>
      if q.entry && q.obj.isNone && q.addr < key + n && key < q.addr + watchBytes q.ty
          && watchHolds q.cond q.ty (BitVec.ofNat 64 (s.mem.readN q.addr (watchBytes q.ty))) q.value
      then { q with hit := true } else q }

/-- Remember, for each HBM line about to be written and not dirty yet, the bytes its home memory keeps (20 R423). -/
def Memory.dirty (m : Memory) (line : Nat) : Memory :=
  if line * 128 < hbmTop ∧ m.homeOf line = none then { m with home := (line, m.readBytes (line * 128) 128) :: m.home } else m

/-- The bank of an L2 line (09 R281). -/
def bankOf (pa : Nat) : Nat :=
  (BitVec.ofNat 7 (pa / 2 ^ 7) ^^^ BitVec.ofNat 7 (pa / 2 ^ 14) ^^^ BitVec.ofNat 7 (pa / 2 ^ 21)
    ^^^ BitVec.ofNat 7 (pa / 2 ^ 28) ^^^ BitVec.ofNat 7 (pa / 2 ^ 35 % 16)).toNat

/-- Lines of one way of a bank: 2 MiB in 32 ways (00 R1). -/
def wayLines : Nat := 512

/-- Room for a dirty line in the ways of its bank that are the slice's (00 R1, R3): where they are full, a line of them, which is free,
is written back to its home memory (DESIGN CHOICE, log 72). -/
def State.l2Room (s : State) (line : Nat) : State :=
  if s.mem.home.length < wayLines then s
  else
    let n := Config.homeSlice (line * 128)
    let same := s.mem.home.filter fun h => bankOf (h.1 * 128) == bankOf (line * 128) && Config.homeSlice (h.1 * 128) == n
    if same.length < wayLines * (s.slices.map fun x => if x.lsl == n then x.ways else 0).sum then s
    else
      let k := (Config.freeWord s.freeCtr).toNat % same.length
      { s with mem := { s.mem with home := s.mem.home.filter fun h => some h.1 != (same[k]?).map (·.1) }, freeCtr := s.freeCtr + 1 }

/-- Keep what bytes about to be written hold, for readers on path G (07 R223): a write of no split is released as it is performed. -/
def State.gNote (s : State) (w : Option (WarpRef × Mask)) (key n : Nat) : State :=
  { s with gStale := s.gStale ++ [{ key := key, old := s.mem.readBytes key n, writer := w, stamp := s.gStamp,
                                    released := if w.isNone then some s.gStamp else none }],
           gStamp := s.gStamp + 1 }

/-- Release the writes of a split (07 R223). -/
def State.gRelease (s : State) (r : WarpRef) (m : Mask) : State :=
  let mine := fun (e : GStale) => e.released.isNone && e.writer.any fun w => w.1 == r && w.2 &&& m != 0
  { s with gStale := s.gStale.map fun e => if mine e then { e with released := some s.gStamp } else e, gStamp := s.gStamp + 1 }

/-- Write bytes at a key; whole lines lose their poison (20 R422). An L1 that holds a line of them goes on holding it as it was. -/
def State.memPut (s0 : State) (key : Nat) (bytes : List Byte) (w : Option (WarpRef × Mask) := none) : State :=
  let n := bytes.length
  let s := s0.gNote w key n
  let lines := (List.range (n / 128 + 2)).map (key / 128 + ·) |>.filter (fun l => l * 128 < key + n)
  let s := lines.foldl (fun s l => if l * 128 < hbmTop ∧ s.mem.homeOf l = none then s.l2Room l else s) s
  let m := lines.foldl Memory.dirty s.mem
  let m := m.writeBytes key bytes
  let whole := lines.filter fun l => key ≤ l * 128 && l * 128 + 128 ≤ key + n
  let l1 := s.l1.map fun e =>
    if e.old.isNone && lines.contains e.line then { e with old := some (s.mem.readBytes (e.line * 128) 128) } else e
  ({ s with mem := { m with poison := m.poison.filter (!whole.contains ·) }, l1 := l1 }).watchPhys key n

/-- A write to host memory that is about to be performed may still be lost with the link (21 R432). -/
def State.post1 (s : State) (sl pa n : Nat) (w : Option (WarpRef × Mask)) : State :=
  if hostBase ≤ pa && pa < 2 * hostBase && s.linkUp then
    { s with posted := s.posted ++ [{ slice := sl, pa := pa, old := s.mem.readBytes pa n, writer := w }] }
  else s

/-- The root port has accepted the writes of a split (09 R286). -/
def State.accepted (s : State) (r : WarpRef) (m : Mask) : State :=
  { s with posted := s.posted.filter fun e => !(e.writer.any fun w => w.1 == r && w.2 &&& m != 0) }

/-- Put back what some bytes held, but for those that lie in the ranges `kept`. -/
def Memory.undo (m : Memory) (pa : Nat) (old : List Byte) (kept : List (Nat × Nat)) : Memory :=
  (old.mapIdx fun i b => (pa + i, b)).foldl
    (fun (m : Memory) c => if kept.any fun k => k.1 ≤ c.1 && c.1 < k.1 + k.2 then m else m.write c.1 c.2) m

/-- One host-memory write when the link goes down; `p.2` are the ranges of the later writes that were accepted. -/
def State.lose1 (e : Posted) (p : State × List (Nat × Nat)) : State × List (Nat × Nat) :=
  if Config.freeBool p.1.freeCtr then ({ p.1 with freeCtr := p.1.freeCtr + 1 }, (e.pa, e.old.length) :: p.2)
  else
    (({ p.1 with mem := Memory.undo p.1.mem e.pa e.old p.2, freeCtr := p.1.freeCtr + 1 } : State).logErr e.slice errHostLost e.pa, p.2)

/-- The link goes down: of the host-memory writes not known to be accepted, which were is free; each of the others is discarded and logged,
and its bytes are as they were unless a later write was accepted there (21 R432). -/
def State.losePosted (s : State) : State := { (s.posted.foldr State.lose1 (s, [])).1 with posted := [] }

/-- Write bytes at a physical address; a write that reaches no memory is discarded. -/
def State.physWrite (s : State) (pa : Nat) (bytes : List Byte) (w : Option (WarpRef × Mask) := none) : State :=
  match s.phys pa true with
  | .nowhere => s
  | .mem k =>
    let s1 := s.memPut k bytes w
    if sysBase ≤ pa then
      let sw := Config.switchOf pa
      { s1 with markers := s1.markers + 1, fenceCounts := kset s1.fenceCounts sw ((kget s1.fenceCounts sw).getD 0 + 1),
                fenceOut := if s1.fenceOut.isEmpty then [sw] else if s1.fenceOut.contains sw then s1.fenceOut else sw :: s1.fenceOut }
    else s1

/-- Little-endian bytes of a number. -/
def leBytes (n v : Nat) : List Byte := (List.range n).map fun i => BitVec.ofNat 8 (v / 256 ^ i)
/-- The number of little-endian bytes. -/
def leNat : List Byte → Nat
  | [] => 0
  | b :: t => b.toNat + 256 * leNat t

/-! ### Page tables (19 R396, R397, R399) -/

/-- What a walk finds: a leaf, or a fault with its SUB; `nr` says that some entry read had NR set. -/
inductive Walk where
  | leaf (page size pa : Nat) (w x : Bool) (ok : Nat) (nr : Bool)
  | fault (sub : Nat) (nr : Bool)
  deriving DecidableEq, Repr

def pte (s : State) (a : Nat) : Nat := (s.physRead a 8).getD (2 ^ 63 + 1)
def bits (v lo n : Nat) : Nat := v / 2 ^ lo % 2 ^ n
def nbit (v k : Nat) : Bool := v / 2 ^ k % 2 == 1

/-- A 64 KiB set at level 0: sixteen identical entries but for consecutive PPNs from an aligned base. -/
def set64Ok (s : State) (table idx : Nat) : Bool :=
  let first := idx / 16 * 16
  let e0 := pte s (table + 8 * first)
  let strip := fun (e : Nat) => e - bits e 12 40 * 4096
  bits e0 12 40 % 16 == 0 && (List.range 16).all fun i =>
    let e := pte s (table + 8 * (first + i))
    strip e == strip e0 && bits e 12 40 == bits e0 12 40 + i

/-- Walk the levels from `lvl` down (structural on the level). -/
def walkFrom (s : State) (va : Nat) : Nat → Nat → Bool → Walk
  | lvl, table, nr =>
    let idx := bits va (12 + 9 * lvl) 9
    let e := pte s (table + 8 * idx)
    let nr := nr || nbit e 7
    if !nbit e 0 then .fault 0 nr
    else if bits e 8 4 != 0 || bits e 52 12 != 0 then .fault 5 nr
    else
      let ppn := bits e 12 40
      match lvl with
      | 0 =>
        if !nbit e 1 then .fault 5 nr
        else if nbit e 6 then
          (if set64Ok s table idx then .leaf (va / 65536 * 65536) 65536 ((ppn / 16 * 16) * 4096) (nbit e 2) (nbit e 3) (bits e 4 2) nr
           else .fault 5 nr)
        else .leaf (va / 4096 * 4096) 4096 (ppn * 4096) (nbit e 2) (nbit e 3) (bits e 4 2) nr
      | l + 1 =>
        if nbit e 1 then
          (if lvl ≥ 3 then .fault 5 nr
           else
            let size := if lvl = 1 then 0x200000 else 0x40000000
            if ppn * 4096 % size != 0 then .fault 5 nr
            else .leaf (va / size * size) size (ppn * 4096) (nbit e 2) (nbit e 3) (bits e 4 2) nr)
        else walkFrom s va l (ppn * 4096) nr

/-- The walk of a virtual address of a function (19 R396). -/
def walk (s : State) (vf va : Nat) : Walk :=
  walkFrom s va 3 ((kget s.xl vf).getD {}).root false

/-- The table entries that a walk reads, by physical address, from a level down. -/
def readsFrom (s : State) (va : Nat) : Nat → Nat → List Nat
  | 0, table => [table + 8 * bits va 12 9]
  | l + 1, table =>
    let a := table + 8 * bits va (12 + 9 * (l + 1)) 9
    let e := pte s a
    a :: (if nbit e 0 && !nbit e 1 then readsFrom s va l (bits e 12 40 * 4096) else [])
def walkReads (s : State) (vf va : Nat) : List Nat := readsFrom s va 3 ((kget s.xl vf).getD {}).root

/-- Result of a translation. -/
inductive Xl where
  | ok (pa kind : Nat)
  | kind3
  | fault (sub : Nat) (replay : Bool)
  deriving DecidableEq, Repr

/-- A TLB entry that covers a page, the CU's own first (19 R399). -/
def tlbFind (sl : Slice) (vf : Nat) (cu : Option Nat) (va : Nat) : Option TlbEnt :=
  let hit := fun (e : TlbEnt) => e.vf == vf && e.page ≤ va && va < e.page + e.size
  match sl.tlb.find? (fun e => hit e && e.cu.isSome && e.cu == cu) with
  | some e => some e
  | none => sl.tlb.find? (fun e => hit e && e.cu == none)

/-- Judge a leaf for an access (06 R169; 19 R399). -/
def judge (fmode wr fetch : Bool) (page pa : Nat) (w x : Bool) (ok : Nat) (nr : Bool) (va : Nat) : Xl :=
  if ok == 3 then .kind3
  else if wr && !w then .fault 1 (fmode && !nr)
  else if fetch && !x then .fault 2 (fmode && !nr)
  else .ok (pa + (va - page)) ok

/-- Translate a 48-bit virtual address of a function for an access of a slice. -/
def State.xlate (s : State) (sl vf : Nat) (cu : Option Nat) (va : Nat) (wr fetch : Bool) : Xl :=
  let fmode := ((kget s.xl vf).getD {}).fmode
  match tlbFind (s.slice sl) vf cu va with
  | some e => judge fmode wr fetch e.page e.pa e.w e.x e.ok e.nr va
  | none =>
    match walk s vf va with
    | .leaf page _ pa w x ok nr => judge fmode wr fetch page pa w x ok nr va
    | .fault sub nr => .fault sub (fmode && !nr && sub != 5)

/-! ### Instruction lines (03 R86-R88; 01 R42, R43) -/

/-- The physical address of the line that holds a counter, as a fetch translates it. -/
def State.lineAddr (s : State) (sl vf cu : Nat) (pc : DWord) : Xl :=
  let a := pc.toNat / 64 * 64
  if a ≥ 2 ^ 48 then .fault 3 false else s.xlate sl vf (some cu) a false true

/-- Which member's instruction cache serves a CU: each member's own (20 R420). -/
def icacheOf (cu : Nat) : Nat := cu / 12

/-- The line with its bytes in the instruction cache of a CU. -/
def Slice.ilineAt (x : Slice) (cu pa : Nat) : Option ILine := x.icache.find? fun l => l.cu == icacheOf cu && l.pa == pa
/-- The bytes of a line in the instruction cache of a CU. -/
def Slice.iline (x : Slice) (cu pa : Nat) : Option (List Byte) := (x.ilineAt cu pa).map (·.bytes)

/-- An instruction line as a read of memory gives it, and whether it is poison: a poisoned line, or no memory (21 R432, R433). -/
def State.lineRead (s : State) (pa : Nat) : List Byte × Bool :=
  match s.phys pa false with
  | .mem k => (s.mem.readBytes k 64, s.mem.poison.contains (lineOfKey k))
  | .nowhere => (List.replicate 64 0, true)

/-- Lines that a member's instruction cache holds: 2 MiB of 64 bytes (00 R1; 01 R42). -/
def icacheLines : Nat := 32768

/-- Bring a line into the instruction cache of a CU (01 R42); in a full cache the line replaced is free (log 72). -/
def State.fillLine (s : State) (n cu pa : Nat) : State :=
  let r := s.lineRead pa
  let s := s.noteAccess n pa false
  let c := icacheOf cu
  let rest := (s.slice n).icache.filter fun l => !(l.cu == c && l.pa == pa)
  let mine := rest.filter (·.cu == c)
  let new : ILine := { cu := c, pa := pa, bytes := r.1, bad := r.2 }
  if mine.length < icacheLines then s.modSlice n fun x => { x with icache := new :: rest }
  else
    let k := (Config.freeWord s.freeCtr).toNat % icacheLines
    { (s.modSlice n fun x => { x with icache := new :: rest.filter fun l => some l != mine[k]? }) with freeCtr := s.freeCtr + 1 }

/-- The line leaves the instruction cache of a CU. -/
def Slice.loseLine (x : Slice) (cu pa : Nat) : Slice :=
  { x with icache := x.icache.filter fun l => !(l.cu == icacheOf cu && l.pa == pa) }

def lineWord (b : List Byte) : Nat := leNat (b.take 4)
def lineSlot (b : List Byte) (i : Nat) : IWord := BitVec.ofNat 96 (leNat ((b.drop (4 + 12 * i)).take 12))
/-- TMASK bit of a slot (03 R87). -/
def lineMarked (b : List Byte) (i : Nat) : Bool := nbit (lineWord b) i
/-- BIND bit: slot i is bound to slot i + 1 (03 R87). -/
def lineBind (b : List Byte) (i : Nat) : Bool := i < 4 && nbit (lineWord b) (5 + i)

/-- The line holding a counter as a sequencer of the CU would see it: the cached copy, or memory's where none is cached. -/
def State.lineBytes (s : State) (sl vf cu : Nat) (pc : DWord) : Option (List Byte) :=
  match s.lineAddr sl vf cu pc with
  | .ok pa _ =>
    match (s.slice sl).iline cu pa with
    | some b => some b
    | none => match s.phys pa false with
      | .mem k => some (s.mem.readBytes k 64)
      | .nowhere => none
  | _ => none


/-! ### Counters (01 R9; 03 R86, R102) -/

def pcLine (pc : DWord) : DWord := pc - BitVec.ofNat 64 (pc.toNat % 64)
def pcSlot (pc : DWord) : Nat := (pc.toNat % 64 - 4) / 12
/-- The counter is line + 4 + 12·s for some slot s. -/
def pcLegal (pc : DWord) : Bool := pc.toNat % 64 ≥ 4 && (pc.toNat % 64 - 4) % 12 == 0
/-- The instruction that follows: slot 4 falls through to slot 0 of the next line (03 R86). -/
def nextPc (pc : DWord) : DWord := if pcSlot pc ≥ 4 then pcLine pc + 68 else pc + 12
/-- The J-format target (03 R102). -/
def jTarget (pc : DWord) (loff : BitVec 29) (slot : BitVec 3) : DWord :=
  pcLine pc + 64 * loff.signExtend 64 + 4 + BitVec.ofNat 64 (12 * slot.toNat)

/-- The counter is marked in its line's branch-target mask (01 R12). -/
def State.marked (s : State) (sl vf cu : Nat) (pc : DWord) : Bool :=
  match s.lineBytes sl vf cu pc with
  | some b => pcLegal pc && lineMarked b (pcSlot pc)
  | none => false

end Sys2Proof.Machine
end

