-- ==== Sys2Proof/Machine/Ops.lean ====
section
/-! DEFINITION. Named operations that the meanings share: the frontier (01 R12, R13, R445), region entries (01 R32, R33), holds,
the ends of warps, teams and launches (01 R9; 11 R292), and taking a trap with the return from one (19 R379-R383; 04 R137). -/

namespace Sys2Proof.Machine

/-! ### Splits and the frontier (01 R12, R13, R445) -/

def Split.low (p : Split) : Nat := (lowest p.mask).getD 32

/-- The region parts of some lanes of a split. -/
def restrictParts (ps : List Part) (m : Mask) : List Part :=
  (ps.map fun p => { p with mask := p.mask &&& m }).filter (·.mask != 0)

/-- Join region parts: lanes that share an entry form one part (01 R445). -/
def joinParts : List Part → List Part → List Part
  | ps, [] => ps
  | ps, q :: qs =>
    joinParts (if ps.any (fun p => p.entry == q.entry && p.livein == q.livein) then
        ps.map fun p => if p.entry == q.entry && p.livein == q.livein then { p with mask := p.mask ||| q.mask } else p
      else ps ++ [q]) qs

/-- A hold whose instruction is issued again when the split merges; the others are of an action performed once. -/
def Hold.reissues : Hold → Bool
  | .none | .sleep _ | .barw .. | .watch _ | .tbar | .gbar .. | .quies .. | .pool | .rte _ | .marker | .watchRevoked
  | .pageFault .. | .faultFailed _ => true
  | _ => false

/-- Insertion sort (structural, so that the kernel evaluates it). -/
def insertBy {α : Type} (le : α → α → Bool) (x : α) : List α → List α
  | [] => [x]
  | y :: t => if le x y then x :: y :: t else y :: insertBy le x t
def isort {α : Type} (le : α → α → Bool) : List α → List α
  | [] => []
  | x :: t => insertBy le x (isort le t)

/-- Insert splits into the waiting list at the end, splits that begin to wait together ordered by counter. -/
def addWaiting (wait news : List Split) : List Split :=
  wait ++ isort (fun a b => a.pc.toNat < b.pc.toNat || (a.pc == b.pc && a.low ≤ b.low)) news

/-- The waiting list after an instruction, those that waited before it in front: every other split was formed or left the frontier now,
and they wait equally long (01 R13). DEDUCED (log 83): what R12 trims and what R13 rotates out in one instruction leave at one moment. -/
def requeue (old wait : List Split) : List Split :=
  addWaiting (wait.filter fun p => old.contains p) (wait.filter fun p => !old.contains p)

/-- The split that leaves a crowded frontier: the highest counter, then the higher lowest lane. -/
def leaver : List Split → Option Split
  | [] => none
  | p :: ps => match leaver ps with
    | none => some p
    | some q => if q.pc.toNat > p.pc.toNat || (q.pc == p.pc && q.low > p.low) then some q else some p

/-- Row 2 of R12, with fuel for at most 32 splits. -/
def trimFront : Nat → List Split → List Split → List Split × List Split
  | 0, f, out => (f, out)
  | n + 1, f, out =>
    if f.length ≤ 4 then (f, out) else match leaver f with
      | none => (f, out)
      | some p => trimFront n (f.filter (·.mask != p.mask)) (p :: out)

/-- Two splits at one marked counter as one. A check of 03 R89 that either still had to make is met by the mark. -/
def mergeSplits (a b : Split) : Split :=
  { pc := a.pc, mask := a.mask ||| b.mask, parts := joinParts a.parts b.parts, hold := .none }

/-- Merge into `p` every split of a list that stands at its counter. -/
def absorb (p : Split) (l : List Split) : Split × List Split :=
  (l.foldl (fun a q => if q.pc == p.pc && q.hold.reissues then mergeSplits a q else a) p,
   l.filter fun q => !(q.pc == p.pc && q.hold.reissues))

/-- Row 3 of R12: merge splits with equal marked counters. The merged split is in the frontier if either was. -/
def mergeFront (marked : DWord → Bool) : Nat → List Split → List Split → List Split → List Split × List Split
  | 0, f, w, done => (done ++ f, w)
  | _ + 1, [], w, done => (done, w)
  | n + 1, p :: f, w, done =>
    if p.hold.reissues && (f ++ w).any (fun q => q.pc == p.pc && q.hold.reissues) && marked p.pc then
      let (p1, f1) := absorb p f
      let (p2, w1) := absorb p1 w
      mergeFront marked n f1 w1 (done ++ [p2])
    else mergeFront marked n f w (done ++ [p])

def mergeWait (marked : DWord → Bool) : Nat → List Split → List Split → List Split
  | 0, w, done => done ++ w
  | _ + 1, [], done => done
  | n + 1, p :: w, done =>
    if p.hold.reissues && w.any (fun q => q.pc == p.pc && q.hold.reissues) && marked p.pc then
      let (p1, w1) := absorb p w
      mergeWait marked n w1 (done ++ [p1])
    else mergeWait marked n w (done ++ [p])

/-- The waiting split that enters: the lowest counter, then the lower lowest lane. -/
def enterer : List Split → Option Split
  | [] => none
  | p :: ps => match enterer ps with
    | none => some p
    | some q => if q.pc.toNat < p.pc.toNat || (q.pc == p.pc && q.low < p.low) then some q else some p

/-- Row 4 of R12. -/
def fillFront : Nat → List Split → List Split → List Split × List Split
  | 0, f, w => (f, w)
  | n + 1, f, w =>
    if f.length ≥ 4 then (f, w) else match enterer w with
      | none => (f, w)
      | some p => fillFront n (f ++ [p]) (w.filter (·.mask != p.mask))

/-- Rows 2 to 4 of R12 on a frontier and a waiting list; `old` waited before the instruction. -/
def settle (marked : DWord → Bool) (old f w : List Split) : List Split × List Split :=
  let (f1, out) := trimFront 32 f []
  let w1 := addWaiting w out
  let (f2, w2) := mergeFront marked 33 f1 w1 []
  let w3 := mergeWait marked 33 w2 []
  let (f3, w4) := fillFront 4 f2 w3
  let (f4, w5) := mergeFront marked 33 f3 w4 []
  let (f5, w6) := fillFront 4 f4 w5
  (f5, requeue old w6)

/-- Apply R12 to a warp whose splits `old` waited before. -/
def Warp.settleFrom (marked : DWord → Bool) (old : List Split) (w : Warp) : Warp :=
  let (f, q) := Machine.settle marked old w.front w.wait
  { w with front := f, wait := q }

def Warp.settle (marked : DWord → Bool) (w : Warp) : Warp := w.settleFrom marked w.wait

/-- The mark test of a warp of a team. -/
def State.markedFor (s : State) (n : Nat) (t : Team) (pc : DWord) : Bool := s.marked n t.vf t.cu pc

def View.marked (v : View) (s : State) (pc : DWord) : Bool := s.markedFor v.cur.slice v.tm pc

/-- Distinct counters of some lanes. -/
def counters (f : Nat → DWord) (ls : List Nat) : List DWord := (ls.map f).eraseDups

/-- The split of those of the lanes `ls` of a split whose new counter is `pc`; `took` are the lanes that transferred. -/
def Split.moved (sp : Split) (pcOf : Nat → DWord) (took : Nat → Bool) (ls : List Nat) (pc : DWord) : Split :=
  let m := maskOf fun l => ls.contains l && pcOf l == pc
  { pc := pc, mask := m, parts := restrictParts sp.parts m, hold := .none,
    check := if ls.any (fun l => pcOf l == pc && took l) then some pc else none,
    run := if ls.any (fun l => pcOf l == pc && took l) then none else sp.run.bind fun r => if r.last then none else some r }

/-- A lane that transferred to an unmarked slot: it fails the check of 03 R89, so that it stays apart from lanes that fall through
to the same counter. -/
def Split.astray (sp : Split) (marked : DWord → Bool) (pcOf : Nat → DWord) (took : Nat → Bool) (l : Nat) : Bool :=
  took l && ((counters pcOf ((laneList sp.mask).filter took)).filter fun pc => !marked pc).contains (pcOf l)

/-- The splits that some lanes of a split become: one for each new counter. -/
def Split.divided (sp : Split) (marked : DWord → Bool) (pcOf : Nat → DWord) (took : Nat → Bool) (ls : List Nat) : List Split :=
  let a := ls.filter (!sp.astray marked pcOf took ·)
  let b := ls.filter (sp.astray marked pcOf took)
  (counters pcOf a).map (sp.moved pcOf took a) ++ (counters pcOf b).map (sp.moved pcOf took b)

/-- Replace the issuing split by the splits of its lanes' new counters, rotate on a backward branch (R13), then R12.
`sp` is the split with its parts as they now stand, `pcOf` the new counters, `took` the lanes that transferred. -/
def Warp.moveLanes (w : Warp) (idx : Nat) (sp : Split) (marked : DWord → Bool) (pcOf : Nat → DWord) (took : Nat → Bool) : Warp :=
  let ls := laneList sp.mask
  let back := fun l => took l && (pcOf l).toNat ≤ sp.pc.toNat
  let rest := w.front.eraseIdx idx
  let mks := sp.divided marked pcOf took
  if ls.any back && !w.wait.isEmpty then
    Warp.settleFrom marked w.wait.tail
      { w with front := rest ++ mks (ls.filter (!back ·)) ++ w.wait.head?.toList, wait := w.wait.tail ++ mks (ls.filter back) }
  else
    Warp.settle marked { w with front := rest ++ mks ls }

/-- The rotating pointer of a sequencer (01 R41). -/
def State.setRotor (s : State) (n cu seq key : Nat) : State :=
  s.modSlice n fun x => { x with rotor := kset x.rotor (4 * cu + seq) key }

/-! ### Region entries (01 R32, R33, R445; 07 R232) -/

/-- The allocation counts recorded with a region entry that moves (07 R232). -/
def Warp.recordHits (w : Warp) (m : Mask) : Warp :=
  { w with hits := w.hits.mapIdx fun l h => if bit m l then { h with recorded := h.k } else h }

/-- The ranges of a REGN that name registers (03 R103). -/
def usedRanges (rs : List Rng) : List Rng := rs.filter (·.len != 0)

/-- The REGN at a counter, as its line reads: its ranges and CH. -/
def State.regnAt (s : State) (n : Nat) (t : Team) (pc : DWord) : Option (List Rng × Bool) :=
  match s.lineBytes n t.vf t.cu (pcLine pc) with
  | none => none
  | some b =>
    let x := lineSlot b (pcSlot pc)
    if !pcLegal pc || x.toNat / 2 ^ 88 != 0x37 then none
    else match decodeWord t.n x with
      | .ok (.regn r0 r1 r2 r3 ch) => some (usedRanges [r0, r1, r2, r3], ch)
      | _ => none

/-- The ranges of the chained REGNs from a counter on. -/
def State.chainFrom (s : State) (n : Nat) (t : Team) : Nat → DWord → List Rng
  | 0, _ => []
  | k + 1, pc => match s.regnAt n t pc with
    | some (rs, true) => rs ++ s.chainFrom n t k (nextPc pc)
    | _ => []

/-- The live-in set of a region entered at a counter: the ranges of the REGN chain there, or every register (01 R33; 04 R132). -/
def State.liveAt (s : State) (n : Nat) (t : Team) (pc : DWord) : Option (List Rng) :=
  match s.regnAt n t pc with
  | some (rs, false) => some (rs ++ s.chainFrom n t 64 (nextPc pc))
  | _ => none

/-- Every lane of the split takes a new region entry. -/
def Split.enter (sp : Split) (entry : DWord) (livein : Option (List Rng)) : Split :=
  { sp with parts := [{ entry := entry, mask := sp.mask, livein := livein }] }

/-! ### Queues: urgency (20 R413) -/

def Slice.queue (x : Slice) (q : Nat) : Queue := (kget x.queues q).getD {}
def Slice.modQueue (x : Slice) (q : Nat) (f : Queue → Queue) : Slice := { x with queues := kset x.queues q (f (x.queue q)) }

/-- A frame is unfinished while any of its packets has not completed; the last frame stays open. -/
def Queue.frameBusy (q : Queue) (f : Frame) : Bool := q.pkts.any (·.frame == some f.seq)
/-- The oldest unfinished frame. -/
def Queue.oldest (q : Queue) : Option Frame := q.frames.find? (q.frameBusy ·)
/-- Urgency: every deadline comes before none, and none before a best-effort queue (20 R413). -/
def Queue.urgency (q : Queue) : Nat :=
  if q.be then 2 ^ 64 + 1 else match q.oldest with | some f => f.deadline | none => 2 ^ 64
/-- The queue has a deadline to meet. -/
def Queue.hasDeadline (q : Queue) : Bool := q.urgency < 2 ^ 64

/-! ### Holds -/

/-- Change every split of a warp, frozen ones too. -/
def Warp.mapSplits (f : Split → Split) (w : Warp) : Warp :=
  { w with front := w.front.map f, wait := w.wait.map f,
           handler := w.handler.map fun h => { h with frozenFront := h.frozenFront.map f, frozenWait := h.frozenWait.map f } }

def Warp.allSplits (w : Warp) : List Split :=
  w.front ++ w.wait ++ (match w.handler with | some h => h.frozenFront ++ h.frozenWait | none => [])

/-- Complete the instruction a split is held at. -/
def Split.finish (p : Split) : Split :=
  { p with pc := nextPc p.pc, hold := .none, resumed := false, check := none, run := p.run.bind fun r => if r.last then none else some r }

/-- Release the splits of one warp whose hold satisfies a test, then apply R12. -/
def State.releaseIn (s : State) (n : Nat) (t : Team) (w : Warp) (test : Hold → Bool) (after : Hold → Bool) : Warp :=
  Warp.settle (s.markedFor n t) <| w.mapSplits fun p =>
    if test p.hold then p.finish else if after p.hold then { p with hold := .none } else p

/-! ### L1 (06 R171; 09, At the L2 banks) -/

/-- Discard every line of a CU's L1. -/
def State.l1Clear (s : State) (cu : Nat) : State := { s with l1 := s.l1.filter (·.cu != cu) }

/-- Discard the lines of every CU of a slice. -/
def State.l1ClearSlice (s : State) (n : Nat) : State := { s with l1 := s.l1.filter fun e => !(s.members n).contains (e.cu / 12) }

/-- Discard the lines of a CU's L1 that hold some bytes. -/
def State.l1Drop (s : State) (cu key n : Nat) : State :=
  { s with l1 := s.l1.filter fun e => !(e.cu == cu && e.line * 128 < key + n && key < e.line * 128 + 128) }

/-- The device-wide number of the CU of a team. -/
def State.teamCu (s : State) (n id : Nat) : Nat := s.cuGlobal n (((s.slice n).anyTeam id).map (·.cu) |>.getD 0)

/-- The device-wide number of the acting CU. -/
def State.actingCu (s : State) (v : View) : Nat := s.cuGlobal v.cur.slice v.tm.cu

/-! ### The team barrier and group barriers (06 R190, R193; 19 R386) -/

def holdsTbar : Hold → Bool | .tbar | .tbarAfter => true | _ => false
def holdsGbar (g : Nat) : Hold → Bool | .gbar g' _ | .gbarAfter g' _ => g == g' | _ => false

/-- A warp has arrived when every lane that has not exited is held at the barrier. -/
def Warp.arrived (w : Warp) (test : Hold → Bool) : Bool := w.ended || (w.allSplits.all (fun p => test p.hold) && !w.allSplits.isEmpty)

/-- Complete the team barrier when every warp has arrived or ended. -/
def State.checkTbar (s : State) (n id : Nat) : State :=
  match (s.slice n).anyTeam id with
  | none => s
  | some t =>
    if t.warps.all (·.arrived holdsTbar) && t.warps.any (fun w => !w.ended) then
      s.modSlice n fun x => x.modAnyTeam id fun t =>
        { t with warps := t.warps.map fun w => s.releaseIn n t w (· == .tbar) (· == .tbarAfter) }
    else s

def Slice.group (x : Slice) (g : Nat) : GroupEnt := (kget x.groups g).getD {}

/-- A split waits for a group's phase. -/
def Slice.gbarWaits (x : Slice) (g phase : Nat) : Bool :=
  (x.teams ++ x.saved).any fun t => t.warps.any fun w => w.allSplits.any fun p => p.hold == .gbar g phase || p.hold == .gbarAfter g phase

/-- Complete a group's phase when every team that is then a member has arrived (06 R193; 11 R297): an acquire of every team of it. -/
def State.checkGbar (s : State) (n g : Nat) : State :=
  let e := (s.slice n).group g
  if !e.members.all (fun m => e.arrived.contains m.idx) || (e.arrived.isEmpty && !(s.slice n).gbarWaits g e.phase) then s
  else
    let test : Hold → Bool := fun h => match h with | .gbar g' p => g' == g && p == e.phase | _ => false
    let after : Hold → Bool := fun h => match h with | .gbarAfter g' p => g' == g && p == e.phase | _ => false
    (s.l1ClearSlice n).modSlice n fun x =>
      let rel := fun (t : Team) => { t with warps := t.warps.map (fun w => s.releaseIn n t w test after),
                                            gbarAt := t.gbarAt.filter (·.1 != g) }
      { x with groups := kset x.groups g { e with arrived := [], phase := (e.phase + 1) % 16 },
               teams := x.teams.map rel, saved := x.saved.map rel }

/-- Count a team as arrived at a group's phase when every warp of it has (06 R193). -/
def State.arriveGbar (s : State) (n id g : Nat) : State :=
  match (s.slice n).anyTeam id with
  | none => s
  | some t =>
    match t.groups.findSome? (fun x => match x with | some (g', m) => if g' = g then some m else none | none => none) with
    | none => s
    | some m =>
      let e := (s.slice n).group g
      if t.warps.all (·.arrived (holdsGbar g)) && !e.arrived.contains m && t.warps.any (fun w => !w.ended) then
        (s.modSlice n fun x => { (x.modAnyTeam id fun t => { t with gbarAt := (g, e.phase) :: t.gbarAt }) with
            groups := kset x.groups g { e with arrived := m :: e.arrived } }).checkGbar n g
      else s

/-- A watch made through a group's window that ends when a team leaves the group: on its scratchpad (06 R183), or its own (DEDUCED, log 65:
every later access of the leaver through the window raises a group-revoked trap). -/
def WatchReq.ofGroup (q : WatchReq) (n id g : Nat) : Bool :=
  q.group == some g && (match q.obj with | some o => o.slice == n && o.team == id | none => false)
    || q.group == some g && q.warp.slice == n && q.warp.team == id

/-- A group that is to close does so when its last member has left (11 R296). -/
def Slice.shutGroup (x : Slice) (g : Nat) : Slice :=
  let e := x.group g
  if e.members.isEmpty && e.closing then { x with groups := kset x.groups g {} } else x

/-- The team leaves a group (06 R192): a GBAR in progress counts it as arrived; the watches through the group's window on its scratchpad,
and its own, are revoked. -/
def State.leaveGroup (s : State) (n id g : Nat) : State :=
  let e := (s.slice n).group g
  match e.members.find? (·.team == id) with
  | none => s
  | some m =>
    let ms := e.members.filter (·.team != id)
    let e1 := { e with members := ms, arrived := e.arrived.filter (· != m.idx) }
    let s1 := s.modSlice n fun x =>
      { (x.modAnyTeam id fun t => { t with groups := t.groups.map fun y => match y with
            | some (g', k) => if g' = g then none else some (g', k) | none => none }) with groups := kset x.groups g e1 }
    let s2 := { s1 with watches := s1.watches.map fun (q : WatchReq) => if q.ofGroup n id g then { q with revoked := true } else q }
    (s2.checkGbar n g).modSlice n (·.shutGroup g)

/-! ### Launches (11 R292) -/

def Slice.modLaunch (x : Slice) (id : Nat) (f : Launch → Launch) : Slice :=
  { x with launches := x.launches.map fun y => if y.id = id then f y else y }
def Slice.launch (x : Slice) (id : Nat) : Option Launch := x.launches.find? (·.id == id)

/-- The launch keeps the first code other than 0. -/
def Launch.fail (y : Launch) (code : Nat) : Launch := if y.code = 0 then { y with code := code } else y

/-- The work of a launch still lives: an unplaced or resident team, or a lane away in a regrouped call (11 R292). -/
def Slice.launchLive (x : Slice) (y : Launch) : Bool :=
  y.placed < y.total
  || (x.teams ++ x.saved).any (fun t => t.launch == y.id || t.warps.any (fun w => !w.ended && w.origin.contains y.id))
  || x.regroup.any (fun r => r.2.any (·.launch == y.id))
  || x.loads.any (fun l => match l with | .regroup _ rs => rs.any (·.launch == y.id) | _ => false)

/-- The launch status word (11 R292). -/
def statusWord (code : Nat) (fl : BitVec 6) : Nat := code + 256 * fl.toNat

/-- A packet's work has ended with a status: it completes by PACKET_COMPLETION. -/
def Slice.endPkt (x : Slice) (q idx status : Nat) (counters : List Nat) : Slice :=
  x.modQueue q fun y => { y with pkts := y.pkts.map fun p =>
    if p.idx = idx ∧ p.status = none then { p with status := some status, counters := counters } else p }

/-- The error-log kind of a collator launch that did not end with code 0: its detail is the queue, and from bit 8 the code. -/
def errLaunch : Nat := 5

/-- End the launches whose last work has ended. -/
def Slice.endLaunches (x : Slice) : Slice :=
  x.launches.foldl (fun x y =>
    if x.launchLive y then x
    else
      let x := { x with launches := x.launches.filter (·.id != y.id) }
      match y.kind, y.pkt with
      | .packet, some p => x.endPkt y.queue p (statusWord y.code y.fl) []
      | .geometry, _ | .shading, _ =>
        let f := fun (r : Render) => if r.queue ≠ y.queue then r else { r with fl := r.fl ||| y.fl, code := if r.code = 0 then y.code else r.code }
        { x with render := x.render.map f, savedRender := x.savedRender.map f }
      | _, _ => if y.code ≠ 0 then { x with errLog := x.errLog ++ [{ kind := errLaunch, detail := y.queue + 256 * y.code }] } else x) x

/-! ### The end of a warp and of a team (01 R9; 04 R131; 06 R190, R192, R193; 07 R235; 11 R294) -/

def Slice.payload (x : Slice) (cu k : Nat) : Payload := (kget x.payloads (4 * cu + k)).getD {}
def Slice.setPayload (x : Slice) (cu k : Nat) (p : Payload) : Slice := { x with payloads := kset x.payloads (4 * cu + k) p }

/-- Submit the slots a team holds, as RING.rel does (07 R235, R237). -/
def Slice.submitAll (x : Slice) (t : Team) (order : Nat) : Slice :=
  { x with payloads := x.payloads.map fun (e : Nat × Payload) =>
      if e.2.state == .held && e.2.team == t.id then (e.1, { e.2 with state := .draining, order := order }) else e }

/-- Copy commands that hold the scratchpad of a team (11 R294). -/
def State.scratchHeld (s : State) (n id : Nat) : Bool :=
  s.slices.any fun x => x.channels.any fun c => c.2.queue.any fun q => q.holds == some (n, id)

/-- The team has ended: it leaves its groups, submits its payload slots, and its store is released or held. -/
def State.endTeam (s : State) (n id : Nat) : State :=
  match (s.slice n).anyTeam id with
  | none => s
  | some t =>
    let s1 := (t.groups.filterMap (fun g => g.map (·.1))).foldl (fun s g => s.leaveGroup n id g) s
    let t1 := ((s1.slice n).anyTeam id).getD t
    let held := s1.scratchHeld n id
    let order := s1.nextId
    let s2 := { s1 with nextId := s1.nextId + 1,
                        watches := s1.watches.map fun (q : WatchReq) => match q.obj with
                          | some o => if o.slice == n && o.team == id then { q with revoked := true } else q
                          | none => q }
    s2.modSlice n fun x =>
      let x1 := x.submitAll t1 order
      let x2 := { x1 with teams := x1.teams.filter (·.id != id), saved := x1.saved.filter (·.id != id),
                          held := if held then x1.held ++ [t1] else x1.held }
      x2.endLaunches

/-- End a warp: its FPSTAT joins the status of its launch and of the launches whose lanes it carries, its watches and waits go,
barriers count it as arrived; the last warp of a team ends the team. `code` is 3 for a kill and 4 for a double fault. -/
def State.endWarp (s : State) (r : WarpRef) (code : Nat) : State :=
  match ((s.slice r.slice).anyTeam r.team).bind (fun t => (t.warp r.warp).map fun w => (t, w)) with
  | none => s
  | some (t, w) =>
    if w.ended then s else
    let fl : BitVec 6 := w.fpstat.setWidth 6
    let ids := (t.launch :: w.origin).eraseDups
    let s1 := s.modSlice r.slice fun x =>
      let x1 := ids.foldl (fun x id => x.modLaunch id fun y =>
        let y := { y with fl := y.fl ||| fl }
        if code = 0 then y else y.fail code) x
      x1.modAnyTeam r.team fun t => t.modWarp r.warp fun w =>
        { w with ended := true, front := [], wait := [], handler := none, escFrozen := false, exited := BitVec.allOnes 32 }
    let s2 := { s1 with watches := s1.watches.filter (·.warp != r) }
    let s3 := s2.modSlice r.slice fun x => { x with escs := x.escs.filter (·.warp != r) }
    match (s3.slice r.slice).anyTeam r.team with
    | none => s3
    | some t1 =>
      if t1.warps.all (·.ended) then s3.endTeam r.slice r.team
      else
        let s4 := s3.checkTbar r.slice r.team
        (t1.groups.filterMap (fun g => g.map (·.1))).foldl (fun s g => s.arriveGbar r.slice r.team g) s4

/-! ### Traps (19 R377-R383) -/

/-- Trap kinds (19 R377). -/
inductive TrapKind where
  | illegal | illegalLine | lineParity | branchTarget | misalign | pageFault | ordKind | groupRevoked | bounds | poisonOp
  | divergence | conversion | overrun | latchLost | regError | fpExc | trap | bkpt
  deriving DecidableEq, Repr

def TrapKind.code : TrapKind → Nat
  | .illegal => 0x01 | .illegalLine => 0x02 | .lineParity => 0x03 | .branchTarget => 0x04 | .misalign => 0x05
  | .pageFault => 0x06 | .ordKind => 0x07 | .groupRevoked => 0x08 | .bounds => 0x09 | .poisonOp => 0x0A | .divergence => 0x0B
  | .conversion => 0x0C | .overrun => 0x0D | .latchLost => 0x0E | .regError => 0x0F | .fpExc => 0x10 | .trap => 0x11 | .bkpt => 0x12

/-- A trap to be taken: kind, the lane at fault where one is named, sub-kind, TRAPINFO. -/
structure Trap where
  kind : TrapKind
  lane : Option Nat := none
  sub : Nat := 0
  info : DWord
  deriving DecidableEq, Repr

/-- An illegal-instruction trap naming a field (19 R377). -/
def illegal (field : Nat) : Trap := { kind := .illegal, info := BitVec.ofNat 64 field }

/-- TRAPCAUSE (19 R377): LV is set for the kinds that name one lane. -/
def Trap.cause (t : Trap) : Word :=
  let c := t.kind.code
  let lv := (0x05 ≤ c && c ≤ 0x0A) || c = 0x0C || c = 0x0F || c = 0x10
  match t.lane with
  | some l => if lv then BitVec.ofNat 32 (c + 256 * l + 8192 + 65536 * t.sub) else BitVec.ofNat 32 (c + 65536 * t.sub)
  | none => BitVec.ofNat 32 (c + 65536 * t.sub)

/-- The double fault kills the warp, writes the fault record and gives the launch code 4 (19 R383). -/
def State.doubleFault (s : State) (r : WarpRef) (cause : Word) (info : DWord) (addr : DWord) : State :=
  match ((s.slice r.slice).anyTeam r.team).bind (fun t => (t.warp r.warp).map fun w => (t, w)) with
  | none => s
  | some (t, w) =>
    let rec_ := FaultRec.double w.trappc w.trapcause cause info (s.cuGlobal r.slice t.cu) w.slot t.queue (loWord addr)
    let s1 := s.modSlice r.slice fun x =>
      if x.faultLog.length < 256 then { x with faultLog := x.faultLog ++ [rec_] }
      else { x with faultLog := x.faultLog.tail ++ [rec_], logOverflow := x.logOverflow + 1 }
    s1.endWarp r 4

/-- Drop the watch requests of a split that no longer waits on them. -/
def State.dropWatch (s : State) (h : Hold) : State :=
  match h with
  | .watch id => { s with watches := s.watches.filter (·.id != id) }
  | _ => s

/-- Count an uncorrectable register word that an instruction met, for its CU (19 R395). -/
def State.countBad (s : State) (v : View) (t : Trap) : State :=
  if t.kind == .regError then s.modSlice v.cur.slice fun x => { x with uncorrected := bump x.uncorrected v.tm.cu } else s

/-- Take a trap at the acting split (19 R379-R383): in a handler it is a double fault; without a handler the warp freezes and an
escalation record with code 0xFFFF_FFFF is posted; else every other split freezes and the lanes go to TRAPVEC. DESIGN CHOICE (log 66): a
record that finds the queue full waits behind it for room. An uncorrectable register word met is counted (19 R395). DEDUCED (log 67): the region entry of the handler lanes is TRAPVEC until a
REGN moves it. -/
def State.takeTrap (s : State) (v : View) (t : Trap) : State :=
  let w := v.wp
  match w.handler with
  | some _ => s.doubleFault v.ref t.cause t.info v.sp.pc
  | none =>
    let others := w.front.eraseIdx v.cur.split
    let w1 := { w with trappc := v.sp.pc, trapcause := t.cause, trapinfo := t.info }
    let s := (s.dropWatch v.sp.hold).countBad v t
    if w.trapvec = 0 then
      let h : Handler := { mask := v.sp.mask, parts := v.sp.parts, frozenFront := others, frozenWait := w.wait, noVec := true }
      let s1 := s.putWarp v { w1 with handler := some h, front := [{ v.sp with hold := .esc, run := none }], wait := [], escFrozen := true }
      s1.modSlice v.cur.slice fun x => { x with escs := x.escs ++ [{
        warp := v.ref, lane := v.sp.low, addr := v.sp.pc, code := 0xFFFFFFFF, inHandler := true,
        trappc := v.sp.pc, cause := t.cause, info := t.info }] }
    else
      let h : Handler := { mask := v.sp.mask, parts := v.sp.parts, frozenFront := others, frozenWait := w.wait }
      let p : Split := { pc := w.trapvec, mask := v.sp.mask, parts := [{ entry := w.trapvec, mask := v.sp.mask }], check := some w.trapvec }
      s.putWarp v { w1 with handler := some h, front := [p], wait := [] }

/-- Where the resumed lanes of a handler go: TRAPPC, the instruction after it, or each region part's entry (04 R137). -/
def resumeSplits (w : Warp) (h : Handler) (mode : RteMode) : List Split :=
  let live := h.mask &&& ~~~w.exited
  if live = 0 then [] else
  match mode with
  | .retry => [{ pc := w.trappc, mask := live, parts := restrictParts h.parts live, resumed := true }]
  | .skip => [{ pc := nextPc w.trappc, mask := live, parts := restrictParts h.parts live, resumed := true }]
  | .region => (restrictParts h.parts live).map fun p => { pc := p.entry, mask := p.mask, parts := [p], resumed := true }

/-- End a handler: its lanes resume as the mode says, and the frozen splits thaw (04 R131, R137; 19 R380). -/
def State.endHandler (s : State) (n : Nat) (t : Team) (w : Warp) (mode : RteMode) : Warp :=
  match w.handler with
  | none => w
  | some h =>
    let ps := resumeSplits w h mode
    -- the lanes that left the handler by EXIT are not resumed; region entries moved in the handler stand for the others
    Warp.settle (s.markedFor n t) { w with handler := none, escFrozen := false, front := h.frozenFront ++ ps, wait := h.frozenWait }

/-! ### Completing an instruction -/

/-- Complete the acting split's instruction: the warp as the instruction left it, the split with its parts, each lane's new
counter, the lanes that transferred. -/
def State.retireTo (s : State) (v : View) (w : Warp) (sp : Split) (pcOf : Nat → DWord) (took : Nat → Bool) : State :=
  s.putWarp v (w.moveLanes v.cur.split { sp with hold := .none } (v.marked s) pcOf took)

/-- Complete the acting split's instruction and go on to the next one. -/
def State.retire (s : State) (v : View) (w : Warp) (sp : Split) : State :=
  s.retireTo v w sp (fun _ => nextPc sp.pc) (fun _ => false)

/-- The acting split passes a commit-class instruction that the sequencer accepts (01 R33). -/
def State.accept (s : State) (v : View) (w : Warp) : Warp × Split :=
  (w.recordHits v.sp.mask, v.sp.enter (nextPc v.sp.pc) (s.liveAt v.cur.slice v.tm (nextPc v.sp.pc)))

/-- Complete a commit-class instruction. -/
def State.retireCommit (s : State) (v : View) (w : Warp) : State :=
  let (w, sp) := s.accept v w
  s.retire v w sp

/-- Hold the acting split at its instruction. -/
def State.holdAt (s : State) (v : View) (w : Warp) (sp : Split) (h : Hold) : State :=
  s.putWarp v { w with front := w.front.set v.cur.split { sp with hold := h } }

/-- Hold the active lanes of the acting split at its instruction; the others go on as a split of their own (01 R12, R14). -/
def State.holdLanes (s : State) (v : View) (w : Warp) (sp : Split) (act : Mask) (h : Hold) : State :=
  if act = sp.mask then s.holdAt v w sp h
  else
    let held : Split := { sp with mask := act, parts := restrictParts sp.parts act, hold := h }
    let on := sp.mask &&& ~~~act
    let moved : Split := Split.finish { sp with mask := on, parts := restrictParts sp.parts on }
    s.putWarp v (Warp.settle (v.marked s) { w with front := w.front.eraseIdx v.cur.split ++ [held, moved] })

/-- A free 64-bit value. -/
def State.freeD (s : State) : DWord × State :=
  (pair (Config.freeWord s.freeCtr) (Config.freeWord (s.freeCtr + 1)), { s with freeCtr := s.freeCtr + 2 })

end Sys2Proof.Machine
end

