-- ==== Sys2Proof/Machine/Numbers.lean ====
section
/-! DEFINITION. Numbers to the last bit (02 R45-R63, R81; 05 R146-R151): floating-point formats, rounding, conversion, and the
exact operations. An exact real is a core rational. -/

namespace Sys2Proof

/-- Flags of FPSTAT (01 R37). -/
abbrev Flags := BitVec 6

def flIV : Flags := 1
def flDZ : Flags := 2
def flOF : Flags := 4
def flUF : Flags := 8
def flNX : Flags := 16
def flCS : Flags := 32
/-- A flag, or none. -/
def flIf (b : Bool) (f : Flags) : Flags := if b then f else 0

/-! ### Exact reals -/

/-- 2^e. -/
def pow2 : Int → Rat
  | .ofNat n => ((2 ^ n : Nat) : Int)
  | .negSucc n => mkRat 1 (2 ^ (n + 1))

/-- floor(log2 x) of a positive rational. -/
def floorLog2 (x : Rat) : Int :=
  let e : Int := (x.num.toNat.log2 : Int) - (x.den.log2 : Int)
  if pow2 e ≤ x then e else e - 1

def rabs (x : Rat) : Rat := if x < 0 then -x else x

/-! ### Formats (02 R47, R51-R53) -/

/-- A floating-point format: fraction bits, bias, width, and which special codes it has. -/
structure Fmt where
  b8 : Bool
  signed : Bool
  ext : Bool
  frac : Nat
  bias : Nat
  width : Nat
  deriving DecidableEq, Repr

def Fmt.f32 : Fmt := ⟨false, true, true, 23, 127, 32⟩
def Fmt.f16 : Fmt := ⟨false, true, true, 10, 15, 16⟩
def Fmt.bf16 : Fmt := ⟨false, true, true, 7, 127, 16⟩
def Fmt.f64 : Fmt := ⟨false, true, true, 52, 1023, 64⟩
/-- The binary8 format of a precision P = p + 1 (02 R51). -/
def Fmt.ofB8 (ext signed : Bool) (p : Nat) : Fmt := ⟨true, signed, ext, p, if signed then 2 ^ (6 - p) else 2 ^ (7 - p), 8⟩

/-- The format of a floating or binary8 type. -/
def Ty.fmt : Ty → Option Fmt
  | .f32 => some .f32 | .f16 => some .f16 | .bf16 => some .bf16 | .f64 => some .f64
  | .b8 ext s p => some (.ofB8 ext s p.val)
  | _ => none

namespace Fmt

/-- Exponent of the subnormal spacing. -/
def qmin (f : Fmt) : Int := 1 - (f.bias : Int) - (f.frac : Int)
/-- Magnitude code of the largest finite value (02 R47, R52). -/
def maxCode (f : Fmt) : Nat :=
  if f.b8 then (if f.signed then 0x7F else 0xFE) - (if f.ext then 1 else 0)
  else (2 ^ (f.width - 1 - f.frac) - 1) * 2 ^ f.frac - 1
/-- Whether the format has an infinity of a sign. -/
def hasInf (f : Fmt) (neg : Bool) : Bool := f.ext && (f.signed || !neg)
/-- The format's NaN (02 R47, R52). -/
def nanBits (f : Fmt) : Nat :=
  if f.b8 then (if f.signed then 0x80 else 0xFF) else (f.maxCode + 1) + 2 ^ (f.frac - 1)
/-- The bits of a sign and a magnitude code; binary8 has no negative zero. -/
def mkBits (f : Fmt) (neg : Bool) (code : Nat) : Nat :=
  if neg && f.signed && !(f.b8 && code == 0) then 2 ^ (f.width - 1) + code else code
/-- The magnitude of a finite code (02 R51). -/
def magOf (f : Fmt) (c : Nat) : Rat :=
  let e := c / 2 ^ f.frac
  let m := c % 2 ^ f.frac
  if e = 0 then (m : Int) * pow2 f.qmin else ((2 ^ f.frac + m : Nat) : Int) * pow2 (f.qmin + (e : Int) - 1)
/-- The largest finite value. -/
def maxFin (f : Fmt) : Rat := f.magOf f.maxCode

end Fmt

/-! ### Values -/

/-- A floating-point value: NaN (signalling or not), infinity, or a finite value with its sign kept apart, zero included. -/
inductive Fp where
  | nan (sig : Bool)
  | inf (neg : Bool)
  | fin (neg : Bool) (mag : Rat)
  deriving DecidableEq

namespace Fp
def isNan : Fp → Bool | nan _ => true | _ => false
def isSig : Fp → Bool | nan s => s | _ => false
def isInf : Fp → Bool | inf _ => true | _ => false
def isZero : Fp → Bool | fin _ m => m == 0 | _ => false
def neg : Fp → Fp | nan s => nan s | inf n => inf (!n) | fin n m => fin (!n) m
def sign : Fp → Bool | nan _ => false | inf n => n | fin n _ => n
/-- The real value of a finite value; zero otherwise. -/
def real : Fp → Rat | fin n m => if n then -m else m | _ => 0
/-- The value of an exact real; zero is positive. -/
def ofRat (x : Rat) : Fp := fin (x < 0) (rabs x)
def ofInt (x : Int) : Fp := fin (x < 0) (x.natAbs : Int)
end Fp

/-- Decode the low bits of a word as a format (02 R47, R51, R52); under `ftz` a subnormal is zero of its sign (01 R36). -/
def Fmt.decode (f : Fmt) (ftz : Bool) (v : Nat) : Fp :=
  let v := v % 2 ^ f.width
  let neg := f.signed && v / 2 ^ (f.width - 1) == 1
  let c := if f.signed then v % 2 ^ (f.width - 1) else v
  if f.b8 then
    if v = f.nanBits then .nan false
    else if f.ext && c = f.maxCode + 1 then .inf neg
    else .fin neg (f.magOf c)
  else if c > f.maxCode + 1 then .nan (c - (f.maxCode + 1) < 2 ^ (f.frac - 1))
  else if c = f.maxCode + 1 then .inf neg
  else if ftz && c < 2 ^ f.frac then .fin neg 0
  else .fin neg (f.magOf c)

/-! ### Rounding (02 R49, R57, R58; 00 R7) -/

/-- Whether a magnitude strictly between two neighbours rounds to the upper one; `r` is its place between them. -/
def roundUp (mode : RM) (neg : Bool) (r : Rat) (odd : Bool) : Bool :=
  match mode with
  | .rne | .rdyn => r > 1 / 2 || (r == 1 / 2 && odd)
  | .rna => r ≥ 1 / 2
  | .rtz => false
  | .rdn => neg && r != 0
  | .rup => !neg && r != 0

/-- A rounded magnitude: its code with the exponent unbounded above, whether it is inexact, whether it is tiny. -/
structure Rounded where
  code : Nat
  inexact : Bool
  tiny : Bool
  deriving DecidableEq, Repr

/-- Round a magnitude at a spacing 2^q: the multiple. -/
def roundAt (mode : RM) (neg : Bool) (mag : Rat) (q : Int) (parity : Int) : Int × Bool :=
  let s := mag * pow2 (-q)
  let n := s.floor
  let r := s - n
  (if roundUp mode neg r ((n + parity) % 2 == 1) then n + 1 else n, r != 0)

/-- Round a magnitude to a format (02 R58); a tie under RNE goes to the code whose bit 0 is 0. -/
def Fmt.round (f : Fmt) (mode : RM) (neg : Bool) (mag : Rat) : Rounded :=
  if mag = 0 then ⟨0, false, false⟩ else
  let e := floorLog2 mag - (f.frac : Int)
  let q := if e < f.qmin then f.qmin else e
  let off := (q - f.qmin) * ((2 ^ f.frac : Nat) : Int)
  let (n, inx) := roundAt mode neg mag q off
  let (t, _) := roundAt mode neg mag e ((e - f.qmin) * ((2 ^ f.frac : Nat) : Int))
  ⟨(n + off).toNat, inx, (t : Rat) * pow2 e < pow2 (f.qmin + (f.frac : Int))⟩

/-- The IEEE 754 overflow result is infinity in this mode. -/
def overInf (mode : RM) (neg : Bool) : Bool :=
  match mode with | .rne | .rna | .rdyn => true | .rtz => false | .rdn => neg | .rup => !neg

/-- Round(x, type, mode) of 00 R7 with its flags. -/
def Fmt.roundTo (f : Fmt) (mode : RM) (x : Fp) : Nat × Flags :=
  match x with
  | .nan s => (f.nanBits, flIf s flIV)
  | .inf n => (if f.hasInf n then f.mkBits n (f.maxCode + 1) else if n && !f.signed then 0 else f.mkBits n f.maxCode, 0)
  | .fin n m =>
    let r := f.round mode n m
    if n && !f.signed then (0, flIf (r.code != 0 || r.inexact) flNX)
    else if r.code > f.maxCode then
      (if f.hasInf n && overInf mode n then f.mkBits n (f.maxCode + 1) else f.mkBits n f.maxCode, flOF ||| flNX)
    else (f.mkBits n r.code, flIf r.inexact flNX ||| flIf (r.inexact && r.tiny) flUF)

/-- A result that FTZ flushes: UF and NX (05 R146). -/
def Fmt.flush (f : Fmt) (ftz : Bool) (r : Nat × Flags) : Nat × Flags :=
  let c := r.1 % 2 ^ (f.width - 1)
  if ftz && c != 0 && c < 2 ^ f.frac then (r.1 - c, r.2 ||| flUF ||| flNX) else r

/-- Finish an operation: its exact result rounded once, with the flags its operands raised. -/
def Fmt.finish (f : Fmt) (mode : RM) (ftz : Bool) (x : Fp × Flags) : Nat × Flags :=
  let r := f.flush ftz (f.roundTo mode x.1)
  (r.1, r.2 ||| x.2)

/-! ### Exact operations with IEEE 754 specials (02 R48, R75; 05 R146, R147, R154) -/

/-- Exact product. 0 times infinity is invalid. -/
def mulFp (a b : Fp) : Fp × Flags :=
  let sg := a.sign != b.sign
  if a.isNan || b.isNan then (.nan false, flIf (a.isSig || b.isSig) flIV)
  else if (a.isInf && b.isZero) || (a.isZero && b.isInf) then (.nan false, flIV)
  else if a.isInf || b.isInf then (.inf sg, 0)
  else match a, b with
    | .fin _ x, .fin _ y => (.fin sg (x * y), 0)
    | _, _ => (.nan false, 0)

/-- Exact sum of terms. Infinities of both signs are invalid, beside a NaN too (05 R155). A zero sum keeps a common sign, and is else
+0, or -0 under RDN. -/
def sumFp (mode : RM) (xs : List Fp) : Fp × Flags :=
  let pinf := xs.any (fun x => x.isInf && !x.sign)
  let ninf := xs.any (fun x => x.isInf && x.sign)
  if pinf && ninf then (.nan false, flIV)
  else if xs.any (·.isNan) then (.nan false, flIf (xs.any (·.isSig)) flIV)
  else
    if pinf then (.inf false, 0)
    else if ninf then (.inf true, 0)
    else
      let t := (xs.map (·.real)).foldl (· + ·) 0
      if t = 0 then (.fin (if xs.all (·.sign) then true else if xs.all (!·.sign) then false else mode == .rdn) 0, 0)
      else (.ofRat t, 0)

/-- Exact sum of products and addends. -/
def dotFp (mode : RM) (adds : List Fp) (prods : List (Fp × Fp)) : Fp × Flags :=
  let ps := prods.map fun p => mulFp p.1 p.2
  let r := sumFp mode (adds ++ ps.map (·.1))
  (r.1, ps.foldl (fun f p => f ||| p.2) r.2)

def addFp (mode : RM) (a b : Fp) : Fp × Flags := sumFp mode [a, b]
def fmaFp (mode : RM) (a b c : Fp) : Fp × Flags := dotFp mode [c] [(a, b)]

/-- Order of two values that are not NaN; -0 equals +0. -/
def cmpFp (a b : Fp) : Ordering :=
  match a, b with
  | .inf n, .inf m => if n == m then .eq else if n then .lt else .gt
  | .inf n, _ => if n then .lt else .gt
  | _, .inf n => if n then .gt else .lt
  | x, y => if x.real < y.real then .lt else if x.real = y.real then .eq else .gt

/-- Comparison under COND with its flags (03 R105; 05 R149). -/
def compareFp (c : Cond) (a b : Fp) : Bool × Flags :=
  let un := a.isNan || b.isNan
  let fl := flIf (a.isSig || b.isSig || (un && (c == .lt || c == .le || c == .gt || c == .ge))) flIV
  let o := cmpFp a b
  (match c with
    | .eq => !un && o == .eq | .ne => un || o != .eq | .lt => !un && o == .lt | .le => !un && o != .gt
    | .gt => !un && o == .gt | .ge => !un && o != .lt | .num => !un | .nan => un, fl)

/-- Minimum and maximum (05 R148): `number` is the minimumNumber form. The answer is a value; a NaN is canonical. -/
def minmaxFp (isMax number : Bool) (a b : Fp) : Fp × Flags :=
  let fl := flIf (a.isSig || b.isSig) flIV
  if a.isNan || b.isNan then
    (if !number || (a.isNan && b.isNan) then .nan false else if a.isNan then b else a, fl)
  else
    let lt := match cmpFp a b with | .lt => true | .gt => false | .eq => a.sign && !b.sign
    (if lt == isMax then b else a, fl)

/-- Round to an integral value under a mode: the sign is kept (05 R151). -/
def integral (mode : RM) (neg : Bool) (mag : Rat) : Int × Bool := roundAt mode neg mag 0 0

/-! ### Conversion (02 R59-R63) -/

/-- The answer of a conversion: bits, flags, and whether a range event met policy TRAP. -/
structure Conv where
  bits : Nat
  fl : Flags
  event : Bool := false
  deriving DecidableEq, Repr

/-- Sat(x, type) (00 R7). -/
def satInt (t : Ty) (x : Int) : Int :=
  let lo : Int := if t.signed then -((2 ^ (t.bits - 1) : Nat) : Int) else 0
  let hi : Int := ((2 ^ (if t.signed then t.bits - 1 else t.bits) : Nat) : Int) - 1
  if x < lo then lo else if x > hi then hi else x

/-- The two's-complement bits of an integer in a width. -/
def intBits (w : Nat) (x : Int) : Nat := (x % ((2 ^ w : Nat) : Int)).toNat

/-- The indefinite code of an integer type (02 R60). -/
def indefinite (t : Ty) : Nat := if t.signed then 2 ^ (t.bits - 1) else 0

/-- Convert into an integer type. `isInt` says that the source is of an integer type. -/
def convInt (t : Ty) (mode : RM) (ovp : Ovp) (isInt : Bool) (x : Fp) : Conv :=
  let out := fun (bits : Nat) (fl : Flags) => if ovp == .trap then ⟨0, 0, true⟩ else (⟨bits, fl, false⟩ : Conv)
  match x with
  | .nan _ => out (if ovp == .nan then indefinite t else 0) (flIV ||| flCS)
  | .inf n => out (if ovp == .nan then indefinite t else intBits t.bits (satInt t (if n then -(2 ^ 64) else 2 ^ 64))) (flIV ||| flCS)
  | .fin n m =>
    let (k, inx) := integral mode n m
    let v := if n then -k else k
    if satInt t v = v then ⟨intBits t.bits v, flIf inx flNX, false⟩
    else out (if ovp == .nan then indefinite t else intBits t.bits (satInt t v)) (if isInt then flCS else flIV ||| flCS)

/-- Convert into a floating or binary8 format. A negative non-zero value into an unsigned one sets IV and CS beside what else applies (R62). -/
def convFloat (f : Fmt) (mode : RM) (ovp : Ovp) (x : Fp) : Conv :=
  let event := fun (bits : Nat) (fl : Flags) => if ovp == .trap then ⟨0, 0, true⟩ else (⟨bits, fl, false⟩ : Conv)
  match x with
  | .nan s => ⟨f.nanBits, flIf s flIV, false⟩
  | .inf n =>
    if f.hasInf n then ⟨f.mkBits n (f.maxCode + 1), 0, false⟩
    else
      let negU := n && !f.signed
      event (if ovp == .nan then f.nanBits else if negU then 0 else f.mkBits n f.maxCode) (flCS ||| flIf negU flIV)
  | .fin n m =>
    let r := f.round mode n m
    if n && !f.signed then
      let neg := flIf (m != 0) (flIV ||| flCS)
      if r.code = 0 then ⟨0, flIf r.inexact flNX ||| flIf (r.inexact && r.tiny) flUF ||| neg, false⟩
      else event (if ovp == .nan then f.nanBits else 0) (flIf (r.code > f.maxCode) (flOF ||| flNX) ||| neg)
    else if r.code > f.maxCode then
      let rnd := f.mkBits n (if f.hasInf n && overInf mode n then f.maxCode + 1 else f.maxCode)
      let bits := match ovp with
        | .sat => f.mkBits n f.maxCode | .inf => rnd | _ => f.nanBits
      event bits (flOF ||| flNX ||| flIf (bits != rnd || !f.hasInf n) flCS)
    else ⟨f.mkBits n r.code, flIf r.inexact flNX ||| flIf (r.inexact && r.tiny) flUF, false⟩

/-- Convert(x, type, mode, policy) (00 R7; 02 R58-R62). -/
def convert (t : Ty) (mode : RM) (ovp : Ovp) (isInt : Bool) (x : Fp) : Conv :=
  match t.fmt with
  | some f => convFloat f mode ovp x
  | none => convInt t mode ovp isInt x

/-- The exact value of a source of a type (05 R156); the bits above its width are ignored. -/
def valueOf (t : Ty) (v : Nat) : Fp :=
  match t.fmt with
  | some f => f.decode false v
  | none =>
    let u := v % 2 ^ t.bits
    .ofInt (if t.signed && u ≥ 2 ^ (t.bits - 1) then (u : Int) - ((2 ^ t.bits : Nat) : Int) else (u : Int))

/-- The destination word or words of a converted value (05 R156): sign copies for narrow signed integers. -/
def placeOf (t : Ty) (v : Nat) : DWord :=
  if t.bits ≥ 32 then BitVec.ofNat 64 v
  else if t.signed && v / 2 ^ (t.bits - 1) % 2 == 1 then BitVec.ofNat 64 (v + (2 ^ 32 - 2 ^ t.bits)) else BitVec.ofNat 64 v

/-! ### FP32 helpers -/

def f32 (ftz : Bool) (w : Word) : Fp := Fmt.f32.decode ftz w.toNat
/-- An FP32 operation on exact values. -/
def f32op (mode : RM) (ftz : Bool) (x : Fp × Flags) : Word × Flags :=
  let r := Fmt.f32.finish mode ftz x
  (BitVec.ofNat 32 r.1, r.2)
def nan32 : Word := 0x7FC00000
/-- FP32 sum, product and fused product of words under RNE, or another mode. -/
def fadd32 (mode : RM) (ftz : Bool) (a b : Word) : Word × Flags := f32op mode ftz (addFp mode (f32 ftz a) (f32 ftz b))
def fsub32 (mode : RM) (ftz : Bool) (a b : Word) : Word × Flags := f32op mode ftz (addFp mode (f32 ftz a) (f32 ftz b).neg)
def fmul32 (mode : RM) (ftz : Bool) (a b : Word) : Word × Flags := f32op mode ftz (mulFp (f32 ftz a) (f32 ftz b))
def ffma32 (mode : RM) (ftz : Bool) (a b c : Word) : Word × Flags := f32op mode ftz (fmaFp mode (f32 ftz a) (f32 ftz b) (f32 ftz c))
/-- The FP32 word of an exact value, rounded under RNE. -/
def toF32 (x : Rat) : Word := (f32op .rne false (.ofRat x, 0)).1

/-- FP32 minimum and maximum: the word of the chosen operand, a flushed one as that zero. -/
def minmax32 (isMax number ftz : Bool) (a b : Word) : Word × Flags :=
  let r := minmaxFp isMax number (f32 ftz a) (f32 ftz b)
  (BitVec.ofNat 32 (Fmt.f32.roundTo .rne r.1).1, r.2)

/-- FCLASS (05 R150). -/
def fclass32 (w : Word) : Word :=
  let x := f32 false w
  let sub := (w &&& 0x7F800000) == 0
  let k := match x with
    | .nan s => if s then 8 else 9
    | .inf n => if n then 0 else 7
    | .fin n m => if m = 0 then (if n then 3 else 4) else if n then (if sub then 2 else 1) else (if sub then 5 else 6)
  BitVec.ofNat 32 (2 ^ k)

/-- FRND (05 R151). -/
def frnd32 (mode : RM) (ftz : Bool) (w : Word) : Word × Flags :=
  match f32 ftz w with
  | .nan s => (nan32, flIf s flIV)
  | .inf n => (if n then 0xFF800000 else 0x7F800000, 0)
  | .fin n m => ((f32op .rne ftz (.fin n ((integral mode n m).1 : Rat), 0)).1, 0)

/-- FEXP (05 R151). -/
def fexp32 (ftz : Bool) (w : Word) : Word × Flags :=
  match f32 ftz w with
  | .nan s => (0x80000000, flIf s flIV)
  | .inf _ => (0x7FFFFFFF, 0)
  | .fin _ m => (if m = 0 then 0x80000000 else BitVec.ofInt 32 (floorLog2 m), 0)

/-- FSCALE (05 R147): an exponent far outside the range gives the result of its clamped value. -/
def fscale32 (mode : RM) (ftz : Bool) (a b : Word) : Word × Flags :=
  let k := b.toInt
  let k := if k > 600 then 600 else if k < -600 then -600 else k
  match f32 ftz a with
  | .fin n m => f32op mode ftz (.fin n (m * pow2 k), 0)
  | .nan s => (nan32, flIf s flIV)
  | .inf n => (if n then 0xFF800000 else 0x7F800000, 0)

/-- The counter hash (02 R81). -/
def hash (key ctr : DWord) : DWord :=
  let z := ctr + key * 0x9E3779B97F4A7C15
  let z := (z ^^^ (z >>> 30)) * 0xBF58476D1CE4E5B9
  let z := (z ^^^ (z >>> 27)) * 0x94D049BB133111EB
  z ^^^ (z >>> 31)

/-! ### Integers (02 R45, R46) -/

/-- The integer of a word's low bits as a type. -/
def intOf (t : Ty) (v : DWord) : Int :=
  let u := v.toNat % 2 ^ t.bits
  if t.signed && u ≥ 2 ^ (t.bits - 1) then (u : Int) - ((2 ^ t.bits : Nat) : Int) else (u : Int)

/-- Division (02 R46): quotient, remainder, and whether the divisor was zero. -/
def divInt (t : Ty) (a b : DWord) : DWord × DWord × Bool :=
  let x := intOf t a
  let y := intOf t b
  if y = 0 then (BitVec.ofNat 64 (2 ^ t.bits - 1), BitVec.ofNat 64 (intBits t.bits x), true)
  else (BitVec.ofNat 64 (intBits t.bits (x.tdiv y)), BitVec.ofNat 64 (intBits t.bits (x.tmod y)), false)

/-- Integer comparison under COND. -/
def compareInt (c : Cond) (a b : Int) : Bool :=
  match c with | .eq => a == b | .ne => a != b | .lt => a < b | .le => a ≤ b | .gt => a > b | .ge => a ≥ b | .num | .nan => false

end Sys2Proof
end

