-- ==== Sys2Proof/Machine/Special.lean ====
section
/-! DEFINITION. The special functions (05 R161, R162): the exact function value rounded once. Irrational values are enclosed in an
interval of scaled integers and rounded when both ends agree; the working precision is raised once if they do not. -/

namespace Sys2Proof

/-! ### Roots, exact by integer square roots -/

/-- Integer square root by binary digits (structural on the digit). -/
def isqrtFrom (n : Nat) : Nat → Nat → Nat
  | 0, r => if (r + 1) * (r + 1) ≤ n then r + 1 else r
  | i + 1, r => let c := r + 2 ^ (i + 1); isqrtFrom n i (if c * c ≤ n then c else r)
def isqrt (n : Nat) : Nat := isqrtFrom n (n.log2 / 2 + 1) 0

/-- A root of a positive rational: exact where it is rational, else within an open gap of 2^-200 of itself, strictly between grid
points that any FP32 result or tie lies on. -/
def rootRat (x : Rat) : Rat :=
  let a := isqrt x.num.toNat
  let b := isqrt x.den
  if a * a = x.num.toNat ∧ b * b = x.den then mkRat a b
  else
    let n := isqrt ((x * pow2 800).floor.toNat)
    ((2 * n + 1 : Nat) : Int) * pow2 (-401)

/-! ### Scaled series: integers stand for multiples of 2^-k, each within 2^40 of the true multiple -/

def scaled (k : Nat) (x : Rat) : Int := (x * pow2 k).floor

/-- exp f for 0 ≤ f < 1, by its series. -/
def expTerms (k : Nat) (f : Int) : Nat → Nat → Int → Int
  | 0, _, _ => 0
  | n + 1, i, t => t + expTerms k f n (i + 1) (t * f / 2 ^ k / (i : Int))
def expS (k : Nat) (f : Int) : Int := expTerms k f (k / 4 + 20) 1 (2 ^ k)

/-- The odd series of atanh (sign 1) or atan (sign -1). -/
def atanTerms (k : Nat) (sg : Int) (zz : Int) : Nat → Nat → Int → Int
  | 0, _, _ => 0
  | n + 1, i, t => t / (i : Int) + atanTerms k sg zz n (i + 2) (sg * (t * zz / 2 ^ k))
def atanhS (k : Nat) (z : Int) : Int := atanTerms k 1 (z * z / 2 ^ k) (k / 3 + 20) 1 z
def atanInv (k : Nat) (d : Nat) : Int :=
  let z : Int := 2 ^ k / (d : Int)
  atanTerms k (-1) (z / (d : Int)) (k / 4 + 20) 1 z
def ln2S (k : Nat) : Int := 2 * atanhS k (2 ^ k / 3)
def piS (k : Nat) : Int := 4 * (4 * atanInv k 5 - atanInv k 239)

/-- e^-y for y ≥ 0. -/
def expNegS (k : Nat) (y : Rat) : Int :=
  if y > ((k + 64 : Nat) : Int) then 0
  else
    let ys := scaled (k + 16) y
    let l := ln2S (k + 16)
    let n := ys / l
    let f := (ys - n * l) / 2 ^ 16
    (2 ^ (2 * k) / expS k f) / 2 ^ n.toNat

/-- Sine and cosine series of r, about |r| ≤ 0.8. -/
def trigTerms (k : Nat) (rr : Int) : Nat → Nat → Int → Int
  | 0, _, _ => 0
  | n + 1, i, t => t + trigTerms k rr n (i + 2) (-(t * rr / 2 ^ k / ((i : Int) * (i + 1))))
def sinS (k : Nat) (r : Int) : Int := trigTerms k (r * r / 2 ^ k) (k / 8 + 20) 2 r
def cosS (k : Nat) (r : Int) : Int := trigTerms k (r * r / 2 ^ k) (k / 8 + 20) 1 (2 ^ k)

/-- Quadrant and remainder of an argument by multiples of half pi, the argument below 2^129. -/
def reduceS (k : Nat) (x : Rat) : Int × Int :=
  let xs := scaled (k + 180) x
  let p := piS (k + 180)
  let n := (4 * xs + p) / (2 * p)
  (n % 4, (xs - n * p / 2) / 2 ^ 180)

/-- Sine of a real, plus a quarter turn for each `q`. -/
def sineS (k : Nat) (x : Rat) (q : Int) : Int :=
  let (n, r) := reduceS k x
  let m := (n + q) % 4
  if m = 0 then sinS k r else if m = 1 then cosS k r else if m = 2 then -(sinS k r) else -(cosS k r)

/-- An enclosed value v·2^(sh-k), within 2^40 units: round both ends, and answer where they agree. -/
def encloseF32 (k : Nat) (v sh : Int) : Option (Fp × Rounded) :=
  let neg : Bool := v < 0
  let a : Int := if neg then -v else v
  let lo := if a > 2 ^ 40 then a - 2 ^ 40 else 1
  let r1 := Fmt.f32.round .rne neg ((lo : Int) * pow2 (sh - (k : Int)))
  let r2 := Fmt.f32.round .rne neg (((a + 2 ^ 40 : Int) : Rat) * pow2 (sh - (k : Int)))
  if r1.code = r2.code ∧ r1.tiny = r2.tiny then some (.fin neg ((lo : Int) * pow2 (sh - (k : Int))), r1) else none

/-- Round an irrational value given by its scaled approximations. -/
def irrational (ftz : Bool) (f : Nat → Int × Int) : Word × Flags :=
  let x := match encloseF32 400 (f 400).1 (f 400).2 with
    | some x => x.1
    | none => match encloseF32 1600 (f 1600).1 (f 1600).2 with
      | some x => x.1
      | none => .fin false 0
  f32op .rne ftz (x, flNX)

/-! ### The functions -/

/-- The nine special functions. -/
inductive SpecialFn where | rcp | rsq | sqrt | exp2 | log2 | sin | cos | tanh | sigm
  deriving DecidableEq, Repr

def infW (neg : Bool) : Word := if neg then 0xFF800000 else 0x7F800000
def zeroW (neg : Bool) : Word := if neg then 0x80000000 else 0
def oneW (neg : Bool) : Word := if neg then 0xBF800000 else 0x3F800000

/-- The exponent and mantissa in [1, 2) of a positive real. -/
def splitRat (x : Rat) : Int × Rat := let e := floorLog2 x; (e, x * pow2 (-e))

/-- Special operands first (05 R161), then the rounded value with the flags of R162. -/
def specialF (fn : SpecialFn) (mode : RM) (ftz : Bool) (w : Word) : Word × Flags :=
  match f32 ftz w with
  | .nan s => (nan32, flIf s flIV)
  | .inf n =>
    match fn with
    | .rcp => (zeroW n, 0)
    | .rsq | .sqrt => if n then (nan32, flIV) else (if fn == .sqrt then infW false else 0, 0)
    | .exp2 => (if n then 0 else infW false, 0)
    | .log2 => if n then (nan32, flIV) else (infW false, 0)
    | .sin | .cos => (nan32, flIV)
    | .tanh => (oneW n, 0)
    | .sigm => (if n then 0 else oneW false, 0)
  | .fin n m =>
    if m = 0 then
      match fn with
      | .rcp | .rsq => (infW n, flDZ)
      | .sqrt | .sin | .tanh => (zeroW n, 0)
      | .exp2 | .cos => (oneW false, 0)
      | .log2 => (infW true, flDZ)
      | .sigm => (0x3F000000, 0)
    else
      let x : Rat := if n then -m else m
      match fn with
      | .rcp => f32op .rne ftz (.fin n m⁻¹, 0)
      | .sqrt => if n then (nan32, flIV) else f32op mode ftz (.fin false (rootRat m), 0)
      | .rsq => if n then (nan32, flIV) else f32op .rne ftz (.fin false (rootRat m⁻¹), 0)
      | .exp2 =>
        if x ≥ 130 then (infW false, flOF ||| flNX)
        else if x ≤ -160 then (0, flUF ||| flNX)
        else
          let fl := x.floor
          if x = fl then f32op .rne ftz (.fin false (pow2 fl), 0)
          else irrational ftz fun k => (expS k (scaled (k + 16) (x - fl) * ln2S k / 2 ^ (k + 16)), fl)
      | .log2 =>
        if n then (nan32, flIV)
        else
          let (e, y) := splitRat m
          if y = 1 then f32op .rne ftz (.ofInt e, 0)
          else irrational ftz fun k => (e * 2 ^ k + 2 * atanhS k (scaled k ((y - 1) / (y + 1))) * 2 ^ k / ln2S k, 0)
      | .sin => irrational ftz fun k => (sineS k x 0, 0)
      | .cos => irrational ftz fun k => (sineS k x 1, 0)
      | .tanh => irrational ftz fun k =>
          let q := expNegS k (2 * m)
          let t := (2 ^ k - q) * 2 ^ k / (2 ^ k + q)
          (if n then -t else t, 0)
      | .sigm => irrational ftz fun k =>
          let q := expNegS k m
          (if n then q * 2 ^ k / (2 ^ k + q) else 2 ^ (2 * k) / (2 ^ k + q), 0)

/-! ### Constants of immediates (03 R95), to 60 digits -/

def ln2R : Rat := mkRat 693147180559945309417232121458176568075500134360255254120680 (10 ^ 60)
def log2eR : Rat := mkRat 1442695040888963407359924681001892137426645954152985934135449 (10 ^ 60)
def piR : Rat := mkRat 3141592653589793238462643383279502884197169399375105820974944 (10 ^ 60)
def inv2piR : Rat := 1 / (2 * piR)

end Sys2Proof
end

