-- ==== Sys2Proof/Machine/Operands.lean ====
section
/-! DEFINITION. Operand forms: guards and active lanes (01 R14; 03 R91, R92), sources with immediates, permutations and modifiers
(03 R94-R97), what must hold before an instruction issues (01 R26, R30, R31; 19 R378, R394), and results with their latches
(01 R28; 03 R93). -/

namespace Sys2Proof.Machine

/-! ### Guards and active lanes -/

/-- Active lanes: in the uniform form the whole split or none (03 R91, R92). -/
def Warp.active (w : Warp) (m : Mask) (h : Hdr) : Mask :=
  if h.u then (if w.qget h.guard.num.toNat != h.guard.neg then m else 0)
  else maskOf fun l => bit m l && (w.pget h.guard.num.toNat l != h.guard.neg)

/-- The value of a named predicate in a lane, or of a q-predicate in the uniform form. -/
def Warp.pref (w : Warp) (u : Bool) (p : PRef) (l : Nat) : Bool :=
  (if u then w.qget p.num.toNat else w.pget p.num.toNat l) != p.neg

/-! ### Lane sections (01 R15, R16) -/

def Warp.width (w : Warp) : Nat := 2 ^ w.part
def Warp.base (w : Warp) (l : Nat) : Nat := l / w.width * w.width
def Warp.pos (w : Warp) (l : Nat) : Nat := l % w.width

/-- The lane a permuted source of lane `l` reads; none reads zero (03 R96). -/
def Warp.permLane (w : Warp) (p : Perm) (l : Nat) : Option Nat :=
  let j := w.pos l
  let at_ := fun k => some (w.base l + k)
  match p with
  | .none => some l
  | .rot k => at_ ((j + 2 ^ k.val) % w.width)
  | .bfly k => if 2 ^ k.val ≥ w.width then some l else at_ (j ^^^ 2 ^ k.val)
  | .mirror => at_ (w.width - 1 - j)
  | .bcf => at_ 0
  | .bcl => at_ (w.width - 1)
  | .up1 => if j = 0 then none else at_ (j - 1)

/-! ### Immediates (03 R95) -/

/-- The floating value a code names: integers exactly, the constants as exact reals. -/
def immFp (n : Nat) : Fp :=
  if n < 0x40 then .ofInt n else if n < 0x80 then .ofInt ((n : Int) - 128)
  else match n with
    | 0x80 => .fin false 0 | 0x81 => .fin false (1 / 2) | 0x82 => .ofInt 1 | 0x83 => .ofInt 2 | 0x84 => .ofInt 4
    | 0x85 => .fin true (1 / 2) | 0x86 => .ofInt (-1) | 0x87 => .ofInt (-2) | 0x88 => .ofInt (-4)
    | 0x89 => .inf false | 0x8A => .inf true
    | 0x8C => .fin false ln2R | 0x8D => .fin false log2eR | 0x8E => .fin false piR | 0x8F => .fin false inv2piR
    | _ => .nan false

def immBits (f : Fmt) (n : Nat) : Nat := (f.roundTo .rne (immFp n)).1

/-- The words of an immediate source for a lane; `act` is the active mask of code 0x91. DESIGN CHOICE (log 64): LANEID is an integer
value, which a floating operand converts; the mask is bits, which every operand receives as they are. -/
def immWords (t : OpTy) (n l : Nat) (act : Mask) : List Word :=
  let int := fun (w : Word) (hi : Word) => w :: List.replicate (t.words - 1) hi
  if n = 0x91 then int act 0
  else
    let n := if n = 0x90 then l else n
    match t.lit with
    | .f32 => [BitVec.ofNat 32 (immBits .f32 n)]
    | .f64 => let b := BitVec.ofNat 64 (immBits .f64 n); [loWord b, hiWord b]
    | .f16 => [BitVec.ofNat 32 (immBits .f16 n)]
    | .bf16 => [BitVec.ofNat 32 (immBits .bf16 n)]
    | .pkf16 => [BitVec.ofNat 32 (immBits .f16 n * 65537)]
    | .pkbf16 => [BitVec.ofNat 32 (immBits .bf16 n * 65537)]
    | .int | .none =>
      if n < 0x40 then int (BitVec.ofNat 32 n) 0
      else
        let w : Word := BitVec.ofInt 32 ((n : Int) - 128)
        if t.na == .int 16 then [w &&& 0xFFFF] else int w 0xFFFFFFFF

/-! ### NEG and ABS (03 R97) -/

/-- The class F rule on the sign bits of a mask. -/
def modSign (sgn : DWord) (neg abs : Bool) (x : DWord) : DWord :=
  let y := if abs then x &&& ~~~sgn else x
  if neg then y ^^^ sgn else y

/-- The class I rule in a width. -/
def modInt (w : Nat) (neg abs : Bool) (x : DWord) : DWord :=
  let m := 2 ^ w
  let u := x.toNat % m
  let u := if abs && u ≥ m / 2 then (m - u) % m else u
  BitVec.ofNat 64 (if neg then (m - u) % m else u)

/-- The class B rule on one byte. -/
def modB8 (signed neg abs : Bool) (b : Nat) : Nat :=
  if !signed then b
  else
    let c := if abs && b != 0x80 then b % 128 else b
    if neg && c != 0 && c != 0x80 then c ^^^ 0x80 else c

def modify (na : NA) (neg abs : Bool) (x : DWord) : DWord :=
  match na with
  | .none => x
  | .int w => if neg || abs then modInt w neg abs x else x
  | .f32 => modSign 0x80000000 neg abs x
  | .f64 => modSign 0x8000000000000000 neg abs x
  | .h16 => modSign 0x8000 neg abs x
  | .pk16 => modSign 0x80008000 neg abs x
  | .amount => if neg then modInt 32 true false x else x
  | .b8 sg =>
    BitVec.ofNat 64 ((List.range 4).foldl (fun a i => a + modB8 sg neg abs (x.toNat / 256 ^ i % 256) * 256 ^ i) 0)

/-! ### Sources -/

/-- The lane whose values stand for a scalar operand: the lowest active lane. -/
def leadLane (m : Mask) : Nat := (lowest m).getD 0

/-- The words of a source of a lane, before modifiers. -/
def Warp.srcWords (w : Warp) (run : Option Run) (act : Mask) (x : SrcSpec) (l : Nat) : List Word :=
  let n := if x.range = 0 then x.ty.words else x.range
  let look := fun (f : Nat → List Word) => match w.permLane x.src.perm l with | some k => f k | none => List.replicate n 0
  match x.src.base with
  | .vec r => look fun k => (List.range n).map fun i => w.vlane (r.toNat + i) k
  | .scal r => (List.range n).map fun i => w.sget (r.toNat + i)
  | .latch j => look fun k => [((run.bind fun r => kget r.latches j.toNat).getD []).getD k 0]
  | .imm c => immWords x.ty c.toNat l act

/-- The 64-bit view of a list of words. -/
def wordsD : List Word → DWord
  | [] => 0
  | [a] => zext64 a
  | a :: b :: _ => pair a b

/-- A source of at most 64 bits, after permutation and modifiers. -/
def Warp.srcD (w : Warp) (run : Option Run) (act : Mask) (x : SrcSpec) (l : Nat) : DWord :=
  modify x.ty.na x.src.neg x.src.abs (wordsD (w.srcWords run act x l))

/-- The sources of an instruction in a lane; a scalar operation takes the lead lane. -/
def operandsOf (i : Instr) (v : View) (act : Mask) (l : Nat) : List DWord :=
  match i.sig with | some g => g.srcs.map (v.wp.srcD v.sp.run act · l) | none => []

/-- Source `k` of the map row. -/
def srcOf (i : Instr) (k : Nat) : Option SrcSpec := i.sig.bind fun g => g.srcs.find? (·.fld == k)
/-- Words of source `k` (0, 1, 2 for A, B, C) in a lane. -/
def wordsOf (i : Instr) (k : Nat) (v : View) (act : Mask) (l : Nat) : List Word :=
  match srcOf i k with | some x => v.wp.srcWords v.sp.run act x l | none => []
/-- Source `k` in a lane, as 64 bits. -/
def valOf (i : Instr) (k : Nat) (v : View) (act : Mask) (l : Nat) : DWord :=
  match srcOf i k with | some x => v.wp.srcD v.sp.run act x l | none => 0

/-! ### What is checked before an instruction acts -/

/-- TRAPINFO of a read of a poisoned register (19 R378). -/
def Poison.info (p : Poison) (reg : Nat) : DWord :=
  BitVec.ofNat 64 (reg + 256 * p.cause + 65536 * p.code + 2 ^ 24 * p.major + 2 ^ 48 * p.kind)

def poisonTrap (lane reg : Nat) (p : Poison) : Trap := { kind := .poisonOp, lane := some lane, info := p.info reg }

/-- Uncorrectable register error (19 R377, R394). -/
def regErr (lane : Option Nat) (kind reg : Nat) : Trap :=
  { kind := .regError, lane := lane, info := BitVec.ofNat 64 (reg + 256 * kind + 1024 * lane.getD 0) }

/-- A trap met on reading a register, with the warp as it leaves it. -/
abbrev Met := Option (Trap × Warp)

def Met.or (a : Met) (b : Met) : Met := match a with | some x => some x | none => b
def firstMet (l : List Met) : Met := l.foldr Met.or none

/-- Reading vector register `n` in some lanes (01 R26; 19 R394). -/
def Warp.readV (w : Warp) (lanes : List Nat) (n : Nat) : Met :=
  let r := w.vget n
  match r.tag with
  | .poisoned p => some (poisonTrap (lanes.head?.getD 0) n p, w)
  | _ => match lanes.find? (bit r.bad ·) with
    | some l => some (regErr (some l) 0 n, w.vset n { r with tag := .poisoned { cause := 4, code := 0, major := 0, kind := 0 } })
    | none => none

def Warp.readS (w : Warp) (k : Nat) : Met := if w.sbad.contains k then some (regErr none 1 k, w) else none
def Warp.readP (w : Warp) (u : Bool) (k : Nat) : Met :=
  if w.pbad.contains (if u then 8 + k else k) then some (regErr none 2 k, w) else none

/-- Reading a source in the active lanes: poison, uncorrectable words, lost latches (01 R26, R31; 19 R394). -/
def Warp.readSrc (w : Warp) (run : Option Run) (act : Mask) (x : SrcSpec) : Met :=
  let n := if x.range = 0 then x.ty.words else x.range
  match x.src.base with
  | .vec r =>
    let ls := (laneList act).filterMap (w.permLane x.src.perm ·)
    firstMet ((List.range n).map fun i => w.readV ls (r.toNat + i))
  | .scal r => firstMet ((List.range n).map fun i => w.readS (r.toNat + i))
  | .latch j =>
    if ((run.bind fun r => kget r.latches j.toNat).isNone) then
      some ({ kind := .latchLost, info := BitVec.ofNat 64 j.toNat }, w) else none
  | .imm _ => none

/-- Predicates an instruction reads beside its guard, and whether they are q-predicates. -/
def predReads : Instr → List PRef
  | .sel _ _ sp _ _ => [sp]
  | .ipred _ _ _ _ cp _ _ | .fpred _ _ _ cp _ _ | .dpred _ _ _ cp _ _ => [cp]
  | .pbool _ a b c _ => [a, b, c]
  | .poll _ _ vp => [vp]
  | .pmov _ _ none => (List.range 7).map fun k => { neg := false, num := BitVec.ofNat 3 k }
  | _ => []

/-- Registers beside the sources that an instruction reads: the records of RCALL and RRET. -/
def extraReads : Instr → List Nat
  | .rcall h n .. | .rret h n => (List.range (n.toNat + 1)).map (h.dst.num.toNat + ·)
  | _ => []

/-- The first trap met on reading what an instruction reads; a lane exchange reads its A in other lanes, judged there. -/
def metOf (i : Instr) (v : View) (act : Mask) : Met :=
  let w := v.wp
  firstMet
    (((predReads i).map fun p => w.readP i.hdr.u p.num.toNat)
     ++ (match i, i.sig with
        | .wait .., _ | _, none => []
        | .lxch .., some g | .lperm .., some g => (g.srcs.filter (·.fld != 0)).map (w.readSrc v.sp.run act)
        | _, some g => g.srcs.map (w.readSrc v.sp.run act))
     ++ (extraReads i).map (w.readV (laneList act)))

/-- A read of an LDA of some of these lanes is not performed yet (06 R174). -/
def Warp.ldaOpen (w : Warp) (lanes : Mask) : Bool :=
  w.flights.any fun f => match f.kind with | .lda eas .. => eas.any fun x => bit lanes x.1 | _ => false

/-- A source is pending, or a register to be written is (01 R26); or the instruction is ordered after an LDA of its split whose read
is not performed yet. -/
def mustWait (i : Instr) (w : Warp) (lanes : Mask) : Bool :=
  let pend := fun n => (w.vget n).tag == .pending
  i.reads.any pend || i.writes.any pend || (i.releases && w.ldaOpen lanes)

/-- The slots of the bound run that starts at a slot. -/
def runSlots (bind : Nat → Bool) : Nat → Nat → List Nat
  | 0, i => [i]
  | n + 1, i => if bind i then i :: runSlots bind n (i + 1) else [i]

/-- Some instruction of the bound run that starts at a slot of a line reads or writes a pending register (01 R26, R30). -/
def runPending (w : Warp) (b : List Byte) (slot : Nat) : Bool :=
  (runSlots (lineBind b) 4 slot).any fun k => match parse (lineSlot b k) with
    | some i => (i.reads ++ i.writes).any fun r => (w.vget r).tag == .pending
    | none => false

/-- Begin an instruction of the acting split: wait for pending registers, trap on what cannot be read, else act in the active
lanes. A guard whose predicate is uncorrectable traps first. -/
def start (i : Instr) (s : State) (k : View → Mask → Res) : Res :=
  match s.view with
  | none => .fault .noSuchSplit
  | some v =>
    match v.wp.readP i.hdr.u i.hdr.guard.num.toNat with
    | some (t, _) => .next (s.takeTrap v t)
    | none =>
      if mustWait i v.wp v.sp.mask then .next s
      else
        let act := v.wp.active v.sp.mask i.hdr
        if act = 0 then k v 0
        else match metOf i v act with
          | some (t, w) => .next (s.takeTrap { v with wp := w } t)
          | none => k v act

/-! ### Results and latches (01 R28; 03 R93) -/

/-- Record the latch of a slot while a bound run is under way. -/
def Split.latch (p : Split) (vals : Nat → Word) : Split :=
  { p with run := p.run.map fun r => { r with latches := kset r.latches (pcSlot p.pc) ((List.range 32).map vals) } }

/-- Write the words of a result to the destination in the active lanes. -/
def Warp.writeDst (w : Warp) (h : Hdr) (act : Mask) (vals : Nat → List Word) : Warp :=
  if act = 0 || h.ws then w else
  let ld := leadLane act
  match h.dst with
  | .none => w
  | .vec n => (List.range (vals ld).length).foldl (fun w i => w.vwrite (n.toNat + i) act fun l => (vals l).getD i 0) w
  | .scal n => (List.range (vals ld).length).foldl (fun w i => w.swrite (n.toNat + i) ((vals ld).getD i 0)) w
  | .pred n => if h.u then w.qwrite n.toNat ((vals ld).getD 0 0 != 0) else w.pwrite n.toNat act fun l => (vals l).getD 0 0 != 0

/-- Write a result, its latch, and complete the instruction. -/
def State.result (s : State) (v : View) (w : Warp) (h : Hdr) (act : Mask) (vals : Nat → List Word) : State :=
  let ld := leadLane act
  s.retire v (w.writeDst h act vals) (v.sp.latch fun l =>
    if h.u then (if act = 0 then 0 else (vals ld).getD 0 0) else if bit act l then (vals l).getD 0 0 else 0)

/-- Complete an instruction that has no register result: its latch is zero. -/
def State.done (s : State) (v : View) (w : Warp) : State := s.retire v w (v.sp.latch fun _ => 0)

end Sys2Proof.Machine
end

