-- ==== Sys2Proof/Machine/Flags.lean ====
section
/-! DEFINITION. FPSTAT and the trap enables of FPCTL (01 R36-R39; 02 R63), and the shape that every register-to-register
instruction shares. -/

namespace Sys2Proof.Machine

/-- FPCTL fields (01 R36). -/
def Warp.ftz (w : Warp) : Bool := w.fpctl.getLsbD 3
def Warp.enables (w : Warp) : Flags := w.fpctl.extractLsb' 5 6
/-- The rounding mode of an instruction, the dynamic one read at issue (01 R40; 02 R57). -/
def Warp.rm (w : Warp) (m : RM) : RM :=
  match m with
  | .rdyn => match (w.fpctl.extractLsb' 0 3).toNat with | 1 => .rtz | 2 => .rdn | 3 => .rup | 4 => .rna | _ => .rne
  | m => m

/-- Lowest set flag. -/
def lowFlag (f : Flags) : Option Nat := (List.range 6).find? (f.getLsbD ·)

/-- The floating-point exception of some lanes' flags: the lowest enabled flag raised and the first lane that raised it (01 R39). -/
def fpTrap (w : Warp) (ls : List Nat) (fl : Nat → Flags) : Option Trap :=
  match lowFlag ((ls.foldl (fun a l => a ||| fl l) 0) &&& w.enables) with
  | none => none
  | some k =>
    let l := (ls.find? fun l => (fl l).getLsbD k).getD 0
    some { kind := .fpExc, lane := some l, info := BitVec.ofNat 64 (k + 256 * l) }

/-- Set flags in FPSTAT. -/
def Warp.raise (w : Warp) (f : Flags) : Warp := { w with fpstat := w.fpstat ||| f.setWidth 32 }

/-- What an operation gives in one lane: its result, flags that may trap, the DZ of an integer division, a policy-TRAP event. -/
structure AluOut where
  val : DWord
  fl : Flags := 0
  quiet : Flags := 0
  event : Bool := false
  deriving DecidableEq

/-- The lanes in which an operation executes: once for a uniform form. -/
def execLanes (h : Hdr) (act : Mask) : List Nat := if h.u then (if act = 0 then [] else [leadLane act]) else laneList act

/-- The words of an answer. -/
def outWords (words : Nat) (out : Nat → AluOut) (l : Nat) : List Word :=
  let d := (out l).val
  if words = 2 then [loWord d, hiWord d] else [loWord d]

/-- The trap of an operation that gave each lane an answer, else the warp with its flags set (01 R39; 02 R63). -/
def aluFlags (w : Warp) (h : Hdr) (act : Mask) (out : Nat → AluOut) : Except Trap Warp :=
  let ls := execLanes h act
  match ls.find? fun l => (out l).event with
  | some l => .error { kind := .conversion, lane := some l, info := BitVec.ofNat 64 l }
  | none =>
    match fpTrap w ls fun l => (out l).fl with
    | some t => .error t
    | none => .ok (w.raise (ls.foldl (fun a l => a ||| (out l).fl ||| (out l).quiet) 0))

/-- Finish an operation: a trap, or its flags and result. -/
def finishAlu (s : State) (v : View) (h : Hdr) (words : Nat) (act : Mask) (out : Nat → AluOut) : Res :=
  match aluFlags v.wp h act out with
  | .error t => .next (s.takeTrap v t)
  | .ok w => .next (s.result v w h act (outWords words out))

/-- A register-to-register instruction: `f` gives a lane's answer from the warp, the lane and the operands. -/
def alu (i : Instr) (f : Warp → Nat → List DWord → AluOut) (s : State) : Res :=
  start i s fun v act =>
    finishAlu s v i.hdr (match i.sig with | some g => g.words | none => 1) act fun l => f v.wp l (operandsOf i v act l)

def op1 (f : DWord → AluOut) : List DWord → AluOut | a :: _ => f a | _ => ⟨0, 0, 0, false⟩
def op2 (f : DWord → DWord → AluOut) : List DWord → AluOut | a :: b :: _ => f a b | _ => ⟨0, 0, 0, false⟩
def op3 (f : DWord → DWord → DWord → AluOut) : List DWord → AluOut | a :: b :: c :: _ => f a b c | _ => ⟨0, 0, 0, false⟩

/-- Operations that only give a value. -/
def val1 (f : DWord → DWord) (_ : Warp) (_ : Nat) (xs : List DWord) : AluOut := op1 (fun a => { val := f a }) xs
def val2 (f : DWord → DWord → DWord) (_ : Warp) (_ : Nat) (xs : List DWord) : AluOut := op2 (fun a b => { val := f a b }) xs
def val3 (f : DWord → DWord → DWord → DWord) (_ : Warp) (_ : Nat) (xs : List DWord) : AluOut := op3 (fun a b c => { val := f a b c }) xs

/-- A word with its flags as an answer. -/
def ofW (r : Word × Flags) : AluOut := { val := zext64 r.1, fl := r.2 }
/-- A true or false result. -/
def ofB (b : Bool) : DWord := if b then 1 else 0
def ones32 (b : Bool) : DWord := if b then 0xFFFFFFFF else 0

end Sys2Proof.Machine
end

