-- ==== Sys2Proof/Machine/Faults.lean ====
section
/-! DEFINITION. Translation faults of warps: the fault buffer and the hold of an access (19 R399-R401). -/

namespace Sys2Proof.Machine

/-- Enter a fault into the buffer, or join the pending entry of its page and path; none when the buffer is full (19 R400).
Vector 1 of the function's MSI-X table is the fault buffer (21 R430). -/
def State.faultEntry (s : State) (n : Nat) (va : Nat) (path : Path) (write fetch : Bool) (sub cu vf : Nat) : Option State :=
  let page := va / 4096 * 4096
  let x := s.slice n
  if x.faults.any (fun e => e.page == page && e.path == path && e.vf == vf) then
    some (s.modSlice n fun x => { x with faults := x.faults.map fun e =>
      if e.page == page && e.path == path && e.vf == vf then { e with held := min 255 (e.held + 1) } else e })
  else if x.faults.length ≥ 4096 then none
  else
    let e : FaultEnt := { id := s.nextId, page := page, path := path, write := write, fetch := fetch, sub := sub, held := 1,
                          cu := cu, vf := vf, dtime := s.dtime }
    some { (s.modSlice n fun x => { x with faults := x.faults ++ [e] }) with nextId := s.nextId + 1, out := s.out ++ [.msix vf 1] }

/-- TRAPINFO and TRAPCAUSE of a page fault met by a lane. -/
def pageTrap (lane : Option Nat) (sub va : Nat) : Trap := { kind := .pageFault, lane := lane, sub := sub, info := BitVec.ofNat 64 va }

/-- The acting split meets a translation fault: a replayable one holds it on the fault buffer, or, acknowledged as failed, is a
fault with SUB 4; another traps. -/
def State.meetFault (s : State) (v : View) (lane : Option Nat) (va : Nat) (path : Path) (write fetch : Bool) (sub : Nat) (replay : Bool) : State :=
  if !replay then s.takeTrap v (pageTrap lane sub va)
  else if v.sp.hold == .faultFailed (va / 4096 * 4096) then s.takeTrap v (pageTrap lane 4 va)
  else match s.faultEntry v.cur.slice va path write fetch sub (s.cuGlobal v.cur.slice v.tm.cu) v.tm.vf with
    | some s1 => s1.holdAt v v.wp v.sp (.pageFault (va / 4096 * 4096) path)
    | none => s

end Sys2Proof.Machine
end

