-- ==== Sys2Proof/Machine/Kick.lean ====
section
/-! DEFINITION. Kick words and kick pages (20 R404, R408; 11 R309). -/

namespace Sys2Proof.Machine

/-- Slices of a function, as its slice list gives them: logical slices in ascending order, whatever they are doing (20 R404). -/
def State.sliceList (s : State) (vf : Nat) : List Nat :=
  (List.range s.slices.length).filter fun n =>
    let x := s.slice n
    x.lsl == n && x.st != 0 && (x.vf == vf || (x.tsh && (x.sharers.contains vf)))

/-- `v` is ahead of `w` modulo 2^32. -/
def ahead (v w : Word) : Bool := v != w && (v - w).toNat < 2 ^ 31

/-- The second row of R408: a write index in force. -/
def Queue.kick (q : Queue) (v : Word) : Queue :=
  if ahead v q.wridx && (v - q.rdidx).toNat ≤ 2 ^ q.log2n then { q with wridx := v } else q

/-- Latch a kick while the owner is descheduled, or the slice resets. -/
def Queue.latchKick (q : Queue) (v : Word) : Queue :=
  { q with latched := some (match q.latched with | some w => if ahead v w then v else w | none => v) }

/-- The write of a kick word of a function's slice (R408). Bits [63:32] must be zero. -/
def State.kickPutWord (s : State) (n vf q : Nat) (value : DWord) : State :=
  if q ≥ 64 ∨ hiWord value ≠ 0 then s
  else
    let v := loWord value
    s.modSlice n fun x =>
      if x.tsh && x.running != some vf then
        { x with savedFns := x.savedFns.map fun f =>
            if f.vf = vf then { f with queues := kset f.queues q (((kget f.queues q).getD {}).latchKick v) } else f }
      else if x.st = 3 then x.modQueue q (·.latchKick v)
      else x.modQueue q (·.kick v)

/-- The kick word of a queue as a read returns it: WRIDX. -/
def State.kickRead (s : State) (n vf q : Nat) : Nat :=
  let x := s.slice n
  if x.tsh && x.running != some vf then
    ((x.savedFns.find? (·.vf == vf)).map fun f => ((kget f.queues q).getD {}).wridx.toNat).getD 0
  else (x.queue q).wridx.toNat

/-- A virtual address in a function's kick pages: the slice and the byte of the page. -/
def State.kickAt (s : State) (vf va : Nat) : Option (Nat × Nat) :=
  match kget s.kickVa vf with
  | none => none
  | some base =>
    if base ≤ va ∧ va < base + 0x10000 then
      match (s.sliceList vf)[(va - base) / 4096]? with
      | some n => some (n, (va - base) % 4096)
      | none => none
    else none

/-- Read bytes of a kick page; bytes 512 and above read zero. -/
def State.kickBytes (s : State) (vf n off k : Nat) : Nat :=
  if off ≥ 512 then 0 else s.kickRead n vf (off / 8) / 256 ^ (off % 8) % 256 ^ k

/-- The watch key of a byte of a slice's kick page: kick words are watched like memory (06 R183). -/
def kickKey (n off : Nat) : Nat := 2 ^ 60 + n * 4096 + off

/-- The condition of a WAITV, as n64 (R410). -/
def waitvHolds (cond cur val : Nat) : Bool :=
  match cond with | 0 => cur == val | 1 => cur != val | 2 => val ≤ cur | _ => cur < val

/-- The 8 bytes at an address of a function, as an evaluation at a kick finds them: none where they cannot be read. -/
def State.kickLook (s : State) (n vf va : Nat) : Option Nat :=
  match s.kickAt vf va with
  | some (m, off) => some (s.kickBytes vf m off 8)
  | none => if va ≥ 2 ^ 48 then none else match s.xlate n vf none va false false with
    | .ok pa _ => s.physRead pa 8
    | _ => none

/-- A WAITV at the head of its queue whose condition holds at a kick of the slice's queues (R410). -/
def State.meetsWait (s : State) (n vf : Nat) (y : Queue) : Bool :=
  match y.head with
  | none => false
  | some h =>
    let f := fun (o k : Nat) => leNat ((h.raw.drop o).take k)
    f 0 1 == 4 && (f 1 1 % 2 == 0 || y.pkts.all (·.idx == h.idx)) &&
      (s.kickLook n vf (f 16 8)).any fun d => waitvHolds (f 32 1) d (f 24 8)

/-- The escapement evaluates the WAITVs of the slice's queues (R410). -/
def State.seeWaits (s : State) (n : Nat) : State :=
  let see := fun (vf : Nat) (y : Queue) => if s.meetsWait n vf y then { y with head := y.head.map fun h => { h with met := true } } else y
  s.modSlice n fun x => { x with queues := x.queues.map fun (e : Nat × Queue) => (e.1, see x.fn e.2) }

/-- A kick: the word is written, and WAITVs of the slice's queues are evaluated. -/
def State.kickWrite (s : State) (n vf q : Nat) (value : DWord) : State := (s.kickPutWord n vf q value).seeWaits n

/-- Evaluate the watches of a kick page. -/
def State.watchKick (s : State) (vf n : Nat) : State :=
  { s with watches := s.watches.map fun q =>
      if q.entry && q.obj.isNone && kickKey n 0 ≤ q.addr && q.addr < kickKey n 4096
          && watchHolds q.cond q.ty (BitVec.ofNat 64 (s.kickBytes vf n (q.addr - kickKey n 0) (watchBytes q.ty))) q.value
      then { q with hit := true } else q }

/-- Write bytes of a kick page: a write that covers bits [31:0] of a kick word writes the word, others change nothing. -/
def State.kickStore (s : State) (vf n off k v : Nat) : State :=
  if off ≥ 512 ∨ off % 8 ≠ 0 ∨ k < 4 then s
  else
    let s1 := s.kickWrite n vf (off / 8) (BitVec.ofNat 64 (v % 256 ^ (min k 8)))
    (if k ≥ 12 && off + 8 < 512 then s1.kickWrite n vf (off / 8 + 1) (BitVec.ofNat 64 (v / 2 ^ 64 % 256 ^ (min (k - 8) 8))) else s1).watchKick vf n

end Sys2Proof.Machine
end

