-- ==== Sys2Proof/Machine/MemOps.lean ====
section
/-! DEFINITION. Memory as a warp reaches it: spaces, checks in the order of 06 R169, the local and group windows (01 R19, R20;
06 R170), register words (01 R26; 19 R394), and performing one access at its home. -/

namespace Sys2Proof.Machine

/-! ### Where an access goes -/

/-- The home of a checked access. -/
inductive Loc where
  /-- global: physical address and ordering kind -/
  | glob (pa kind : Nat)
  /-- a kick page: slice and byte -/
  | kick (slice off : Nat)
  /-- a team scratchpad -/
  | scratch (slice team off : Nat)
  /-- register words of a warp of the team, by the offset in the warp's 64 KiB -/
  | reg (warp off : Nat)
  deriving DecidableEq, Repr

/-- Why an access is not performed. -/
inductive MemErr where
  | trap (t : Trap)
  /-- a translation fault -/
  | fault (lane : Option Nat) (va sub : Nat) (replay : Bool)
  /-- a pending register word: the access waits for the fill (01 R26) -/
  | wait
  deriving DecidableEq, Repr

/-- Classes of access to a scratchpad and to register words (01 R20; 06 R185). -/
inductive AccCls where
  | move | atomic | barrier
  /-- LDA, which reaches no register word -/
  | lda
  deriving DecidableEq, Repr

def memTrap (k : TrapKind) (lane : Option Nat) (info : Nat) : MemErr := .trap { kind := k, lane := lane, info := BitVec.ofNat 64 info }

/-- The window a SPACE and an address select; none for bits [63:48] that select nothing. -/
def spaceOf (sp : Space) (ea : Nat) : Option Space :=
  match sp with
  | .generic => if ea / 2 ^ 48 = 0 then some .global else if ea / 2 ^ 48 = 0xFFF0 then some .localw
      else if ea / 2 ^ 48 = 0xFFF1 then some .groupw else none
  | s => some s

/-- An access to the local window (01 R19, R20, R26). DESIGN CHOICE (log 68): a warp that has ended is not "a warp that exists", so that its
register words are out of bounds. -/
def localLoc (v : View) (lane : Option Nat) (o n : Nat) (cls : AccCls) : Except MemErr Loc :=
  let t := v.tm
  let bounds : Except MemErr Loc := .error (memTrap .bounds lane o)
  if o + n ≤ t.scratchSize then .ok (.scratch v.cur.slice t.id o)
  else if o < 0x100000 ∨ o ≥ 0x100000 + 32 * 0x10000 ∨ cls != .move then bounds
  else
    let wi := (o - 0x100000) / 0x10000
    let ro := (o - 0x100000) % 0x10000
    match t.warp wi with
    | none => bounds
    | some w =>
      if w.ended then bounds
      else if ro ≥ 0xFF00 then (if ro + n ≤ 0x10000 then .ok (.reg wi ro) else bounds)
      else if ro + n > 128 * w.n then bounds
      else match (w.vget (ro / 128)).tag with
        | .pending => .error .wait
        | .poisoned p => .error (.trap { kind := .poisonOp, lane := lane, info := p.info (ro / 128) })
        | .full => .ok (.reg wi ro)

/-- An access to the group window (06 R169, R170). -/
def groupLoc (s : State) (v : View) (lane : Option Nat) (ea o n : Nat) : Except MemErr Loc :=
  if o / 2 ^ 28 ≠ 0 then .error (memTrap .bounds lane ea)
  else match v.tm.groups.getD (bits o 26 2) none with
    | none => .error (memTrap .groupRevoked lane ea)
    | some (g, _) =>
      match ((s.slice v.cur.slice).group g).members.find? (·.idx == bits o 20 6) with
      | none => .error (memTrap .groupRevoked lane ea)
      | some m => match (s.slice v.cur.slice).anyTeam m.team with
        | none => .error (memTrap .groupRevoked lane ea)
        | some t => if bits o 0 20 + n ≤ t.scratchSize then .ok (.scratch v.cur.slice t.id (bits o 0 20))
            else .error (memTrap .bounds lane ea)

/-- The group through whose window an address is reached (06 R170). -/
def View.groupOf (v : View) (sp : Space) (ea : Nat) : Option Nat :=
  match spaceOf sp ea with
  | some .groupw => (v.tm.groups.getD (bits (ea % 2 ^ 48) 26 2) none).map (·.1)
  | _ => none

/-- Check one access in the order of R169. -/
def State.resolve (s : State) (v : View) (lane : Option Nat) (ea : DWord) (n : Nat) (sp : Space) (cls : AccCls) (wr : Bool) :
    Except MemErr Loc :=
  let a := ea.toNat
  let o := a % 2 ^ 48
  if a % n ≠ 0 then .error (memTrap .misalign lane a)
  else match spaceOf sp a with
    | none => .error (.trap (pageTrap lane 3 a))
    | some .localw => localLoc v lane o n cls
    | some .groupw => groupLoc s v lane a o n
    | some _ =>
      if cls == .barrier then .error (memTrap .bounds lane a)
      else match s.kickAt v.tm.vf o with
        | some (k, off) => .ok (.kick k off)
        | none => if v.sp.hold == .faultFailed (o / 4096 * 4096) then .error (.fault lane a 4 true) else match s.xlate v.cur.slice v.tm.vf (some v.tm.cu) o wr false with
          | .ok pa kind => .ok (.glob pa kind)
          | .kind3 => .error (memTrap .ordKind lane a)
          | .fault sub replay => .error (.fault lane a sub replay)

/-- Whether an access is of kind SO, and so commit-class (01 R33). -/
def Loc.isSO : Loc → Bool | .glob _ k => k == 1 | .kick .. => true | _ => false

/-! ### Scratchpads (19 R394; 06 R183, R201) -/

/-- A scratchpad's poisoned words over some bytes. -/
def wordPoison (m : Memory) (off n : Nat) : Bool := m.poison.any fun w => off / 4 ≤ w && w ≤ (off + n - 1) / 4

/-- Write bytes of a scratchpad: whole words lose their mark. -/
def scratchPut (m : Memory) (off : Nat) (b : List Byte) : Memory :=
  let m1 := m.writeBytes off b
  { m1 with poison := m1.poison.filter fun w => !(off ≤ 4 * w && 4 * w + 4 ≤ off + b.length) }

def State.scratchOf (s : State) (n t : Nat) : Memory := ((((s.slice n).teams ++ (s.slice n).saved ++ (s.slice n).held).find? (·.id == t)).map (·.scratch)).getD {}

/-- Evaluate the watches of a scratchpad over the bytes just written. -/
def State.watchScratch (s : State) (n t off k : Nat) : State :=
  let m := s.scratchOf n t
  { s with watches := s.watches.map fun q => match q.obj with
      | some o => if o.slice == n && o.team == t && o.off < off + k && off < o.off + watchBytes q.ty
            && watchHolds q.cond q.ty (BitVec.ofNat 64 (m.readN o.off (watchBytes q.ty))) q.value
          then { q with hit := true } else q
      | none => q }

/-- The phase field of a barrier object (06 R184). -/
def objPhase (m : Memory) (off : Nat) : Nat := (m.read (off + 4)).toNat % 16

/-- A BARW held on an object that overlaps some bytes just written, whose phase differs from the awaited one (06 R185, R189). -/
def barwPassed (m : Memory) (n t off k : Nat) : Hold → Bool
  | .barw o ph .. => o.slice == n && o.team == t && o.off < off + k && off < o.off + 16 && objPhase m o.off != ph
  | _ => false

/-- The BARWs of a warp that satisfy a test end with their result; R12 is still to be applied. -/
def Warp.passBarw (w : Warp) (test : Split → Bool) (b : Bool) : Warp :=
  let word : Word := if b then 1 else 0
  let hit := w.allSplits.filter test
  if hit.isEmpty then w
  else
    let w1 := hit.foldl (fun w p => match p.hold with
      | .barw _ _ _ dst u lanes => w.writeDst { guard := PRef.always, u := u, ws := false, dst := dst } lanes fun _ => [word]
      | _ => w) w
    w1.mapSplits fun p => if test p then (match p.hold with
      | .barw _ _ _ _ u lanes => (p.latch fun l => if u || bit lanes l then word else 0).finish
      | _ => p) else p

/-- End the BARWs of a warp that satisfy a test, with their result. -/
def Warp.endBarw (w : Warp) (marked : DWord → Bool) (test : Split → Bool) (b : Bool) : Warp :=
  if (w.allSplits.filter test).isEmpty then w else (w.passBarw test b).settle marked

/-- The CUs of a slice on which a split waits in BARW for what the bytes just written give. -/
def State.barwCus (s : State) (n t off k : Nat) : List Nat :=
  ((s.slice n).teams.filter fun tm => tm.warps.any fun w => w.allSplits.any fun p => barwPassed (s.scratchOf n t) n t off k p.hold).map
    fun tm => s.cuGlobal n tm.cu

/-- Wake the splits held in BARW on objects over the bytes just written: each wake is an acquire (06 R189). The acting warp applies R12 as its
instruction completes. -/
def State.wakeBarw (s : State) (n t off k : Nat) : State :=
  let m := s.scratchOf n t
  let cus := s.barwCus n t off k
  let acts := fun (tm : Team) (i : Nat) => s.cur.any fun c => c.slice == n && c.team == tm.id && c.warp == i
  ({ s with l1 := if cus.isEmpty then s.l1 else s.l1.filter (!cus.contains ·.cu) } : State).modSlice n fun x => { x with teams := x.teams.map fun tm =>
    { tm with warps := tm.warps.mapIdx fun i w =>
        let test := fun (p : Split) => barwPassed m n t off k p.hold
        if acts tm i then w.passBarw test true else w.endBarw (s.markedFor n tm) test true } }

/-- Write bytes of a team's scratchpad, held ones of departed teams too. -/
def State.scratchWrite (s : State) (n t off : Nat) (b : List Byte) : State :=
  let f := fun (tm : Team) => { tm with scratch := scratchPut tm.scratch off b }
  ((s.modSlice n fun x => { (x.modAnyTeam t f) with held := x.held.map fun tm => if tm.id = t then f tm else tm }).watchScratch n t off b.length).wakeBarw n t off b.length

/-! ### Register words through the local window -/

/-- The bytes of a register word. -/
def Warp.regWord (w : Warp) (off : Nat) : Word := if off ≥ 0xFF00 then w.sget ((off - 0xFF00) / 4) else w.vlane (off / 128) (off % 128 / 4)

/-- Read bytes; an access of up to four words. -/
def Warp.regRead (w : Warp) (off n : Nat) : Nat :=
  let k := (n + 3) / 4
  let all := (List.range k).foldl (fun a i => a + (w.regWord (off / 4 * 4 + 4 * i)).toNat * 2 ^ (32 * i)) 0
  all / 256 ^ (off % 4) % 256 ^ n

/-- Put one word: a whole word clears its mark, and a vector register keeps its tag. -/
def Warp.regPut (w : Warp) (off : Nat) (x : Word) (whole : Bool) : Warp :=
  if off ≥ 0xFF00 then
    let k := (off - 0xFF00) / 4
    { w with sregs := w.sregs.set k x, sbad := if whole then w.sbad.filter (· != k) else w.sbad }
  else
    let r := w.vget (off / 128)
    let l := off % 128 / 4
    w.vset (off / 128) { r with words := r.words.set l x, bad := if whole then r.bad &&& ~~~(oneLane l) else r.bad }

def Warp.regWrite (w : Warp) (off n v : Nat) : Warp :=
  if n < 4 then
    let old := (w.regWord off).toNat
    let sh := 256 ^ (off % 4)
    w.regPut off (BitVec.ofNat 32 (old - old / sh % 256 ^ n * sh + v % 256 ^ n * sh)) false
  else (List.range (n / 4)).foldl (fun w i => w.regPut (off + 4 * i) (BitVec.ofNat 32 (v / 2 ^ (32 * i))) true) w

/-- An uncorrectable register word that a read meets (19 R394), and the warp as it leaves it. -/
def Warp.regBad (w : Warp) (off n : Nat) (lane : Option Nat) : Option (Trap × Warp) :=
  ((List.range ((n + 3) / 4)).map (off / 4 * 4 + 4 * ·)).findSome? fun a =>
    if a ≥ 0xFF00 then (if w.sbad.contains ((a - 0xFF00) / 4) then some (regErr lane 1 ((a - 0xFF00) / 4), w) else none)
    else
      let r := w.vget (a / 128)
      if bit r.bad (a % 128 / 4) then
        some ({ kind := .regError, lane := lane, info := BitVec.ofNat 64 (a / 128 + 1024 * (a % 128 / 4)) },
              w.vset (a / 128) { r with tag := .poisoned { cause := 4, code := 0, major := 0, kind := 0 } })
      else none

/-! ### Performing an access -/

/-- Poisoned data met at a reading instruction (06 R169; 19 R378). -/
def poisonData (lane : Option Nat) (ea : DWord) : Trap := { kind := .poisonOp, lane := lane, sub := 1, info := ea }

/-- A slice meets an error; `SLICE_ERROR` deals with it (20 R422). -/
def State.noteError (s : State) (n : Nat) (c : ErrCause) : State :=
  s.modSlice n fun x => { x with errDue := if x.errDue.contains c then x.errDue else x.errDue ++ [c] }

/-- Read a datum at its home: the value, or the trap that the reading instruction takes; with the state as the read leaves it. -/
def State.readLoc (s : State) (v : View) (lane : Option Nat) (ea : DWord) (n : Nat) : Loc → State × Except Trap Nat
  | .glob pa _ =>
    match s.physRead pa n with
    | some x => (s, .ok x)
    | none => ((s.noteAccess v.cur.slice pa false).noteError v.cur.slice (.poison pa), .error (poisonData lane ea))
  | .kick k off => (s, .ok (s.kickBytes v.tm.vf k off n))
  | .scratch sl t off =>
    let m := s.scratchOf sl t
    if wordPoison m off n then (s, .error (poisonData lane ea)) else (s, .ok (m.readN off n))
  | .reg wi off =>
    match (s.team v.cur.slice v.tm.id).bind (·.warp wi) with
    | none => (s, .ok 0)
    | some w => match w.regBad off n lane with
      | some (t, w1) => (s.modTeam v.cur.slice v.tm.id fun tm => tm.modWarp wi fun _ => w1, .error t)
      | none => (s, .ok (w.regRead off n))

/-- The acting CU has no copy of some bytes from now on: its splits see what their home holds (09 R268). -/
def State.l1Shed (s : State) (v : View) (n : Nat) : Loc → State
  | .glob pa _ => match s.phys pa false, s.phys pa true with
    | .mem k, _ | .nowhere, .mem k => s.l1Drop (s.actingCu v) k n
    | .nowhere, .nowhere => s
  | _ => s

/-- Bytes of a CU's store that windows and scratchpads take (01 R17, R23). -/
def Slice.storeUsed (x : Slice) (cu : Nat) : Nat :=
  ((x.teams.filter (·.cu == cu)).map fun t => t.scratchSize + (t.warps.map fun w => 128 * w.n + 256).sum).sum
  + ((x.held.filter (·.cu == cu)).map (·.scratchSize)).sum

/-- Bring a line into the acting CU's L1, which is what windows and scratchpads leave of the 1 MiB store (00 R1; 01 R17); in a full L1 the
line replaced is free (log 72). -/
def State.l1Bring (s : State) (v : View) (line : Nat) : State :=
  let cu := s.actingCu v
  let rest := s.l1.filter fun e => !(e.cu == cu && e.line == line)
  let mine := rest.filter (·.cu == cu)
  let new : L1Line := { cu := cu, line := line }
  if 128 * (mine.length + 1) + (s.slice v.cur.slice).storeUsed v.tm.cu ≤ 2 ^ 20 then { s with l1 := new :: rest }
  else match mine[(Config.freeWord s.freeCtr).toNat % (max 1 mine.length)]? with
    | some e => { s with l1 := new :: rest.filter (· != e), freeCtr := s.freeCtr + 1 }
    | none => { s with l1 := rest }

/-- Read a datum through the acting CU's L1. A line there that its home has outrun may be the one that is read, or may have been
replaced (09 R270); a line that was not there is brought in. -/
def State.l1Read (s : State) (v : View) (lane : Option Nat) (ea : DWord) (n : Nat) (x : Loc) : State × Except Trap Nat :=
  match x with
  | .glob pa _ =>
    match s.phys pa false with
    | .nowhere => s.readLoc v lane ea n x
    | .mem k =>
      let cu := s.actingCu v
      let line := k / 128
      let home := fun (s : State) => match s.readLoc v lane ea n x with
        | (s1, .ok d) => (s1.l1Bring v line, .ok d)
        | r => r
      match s.l1.find? fun e => e.cu == cu && e.line == line with
      | some { old := some b, .. } =>
        let s1 := { s with freeCtr := s.freeCtr + 1 }
        if Config.freeBool s.freeCtr then (s1, .ok (leNat ((b.drop (k % 128)).take n))) else home s1
      | some { old := none, .. } => s.readLoc v lane ea n x
      | none => home s
  | _ => s.readLoc v lane ea n x

/-- How an instruction's reads reach memory. -/
inductive Through where | l1 | home
  deriving DecidableEq, Repr

/-- Read a datum for the acting split. -/
def State.readAs (s : State) (v : View) (lane : Option Nat) (ea : DWord) (n : Nat) (th : Through) (x : Loc) : State × Except Trap Nat :=
  match th with
  | .l1 => s.l1Read v lane ea n x
  | .home => (s.l1Shed v n x).readLoc v lane ea n x

/-- An acquire that reaches other CUs, or names a path, discards the CU's L1 (09, At the L2 banks; 09 R278). -/
def acquires (m : MemFn) : Bool :=
  (m.ord == .acq || m.ord == .acqrel) && (!(m.scope == .warp || m.scope == .team) || m.mp != .c)

/-- Begin the reads of an instruction: an SO read is an acquire at system scope (09 R265). -/
def State.acquire (s : State) (v : View) (b : Bool) : State := if b then s.l1Clear (s.actingCu v) else s

/-- Plain loads go through L1 where the cache policy lets them (06 R171), and a strongly ordered page does not forbid it. -/
def throughFor (m : MemFn) (xs : List (Nat × DWord × Loc)) : Through :=
  if acquires m || m.cp == .nol1 || xs.any (·.2.2.isSO) then .home else .l1

/-- Splits of a warp that send a store over the fabric await its fence marker at their next system-scope release (09 R284). -/
def State.sentFabric (s : State) (v : View) (xs : List (Nat × DWord × Loc)) : State :=
  if xs.any fun x => match x.2.2 with | .glob pa _ => sysBase ≤ pa | _ => false then
    s.modWarp v.ref fun w => { w with fabric := w.fabric ||| v.sp.mask }
  else s

/-- A release at system scope of the acting split awaits the fence markers of its fabric stores (09 R284). -/
def State.needsMarker (s : State) (v : View) : Bool := s.markers > 0 && v.wp.fabric &&& v.sp.mask != 0

/-- The split that writes, by its warp and lanes; none where an engine does. -/
def View.writer (v : View) : Option (WarpRef × Mask) := if v.sp.mask = 0 then none else some (v.ref, v.sp.mask)

/-- A strongly ordered write is a release at system scope: the split's earlier writes to host memory are accepted (09 R265, R286). -/
def State.acceptSO (s : State) (v : View) (so : Bool) : State :=
  match so, v.writer with | true, some w => s.accepted w.1 w.2 | _, _ => s

/-- Write the low `n` bytes of a datum at its home. -/
def State.writeLoc (s : State) (v : View) (n val : Nat) : Loc → State
  | .glob pa kind => (((s.acceptSO v (kind == 1)).noteAccess v.cur.slice pa true).post1 v.cur.slice pa n v.writer).physWrite pa (leBytes n val) v.writer
  | .kick k off => s.kickStore v.tm.vf k off n val
  | .scratch sl t off => s.scratchWrite sl t off (leBytes n val)
  | .reg wi off => s.modTeam v.cur.slice v.tm.id fun tm => tm.modWarp wi fun w => w.regWrite off n val

/-- Act on a failed access: trap, wait on the fault buffer, or stall. -/
def State.memFail (s : State) (v : View) (path : Path) (wr : Bool) : MemErr → State
  | .trap t => s.takeTrap v t
  | .fault lane va sub replay => s.meetFault v lane va path wr false sub replay
  | .wait => s

/-- The acting split after other state changed: its warp as the state holds it. -/
def State.review (s : State) (v : View) : View := s.view.getD v

/-! ### Shared shapes of memory instructions -/

/-- Effective address (03 R100). -/
def effective (base : DWord) {k : Nat} (off : BitVec k) : DWord := base + off.signExtend 64

/-- The lane a trap names: none for an access made once for the split. -/
def named (u : Bool) (l : Nat) : Option Nat := if u then none else some l

/-- Check every active lane; the lowest that fails decides (R169). -/
def State.resolveAll (s : State) (v : View) (u : Bool) (n : Nat) (sp : Space) (cls : AccCls) (wr : Bool) :
    List (Nat × DWord) → Except MemErr (List (Nat × DWord × Loc))
  | [] => .ok []
  | (l, ea) :: t =>
    match s.resolve v (named u l) ea n sp cls wr with
    | .error e => .error e
    | .ok x => match s.resolveAll v u n sp cls wr t with
      | .error e => .error e
      | .ok r => .ok ((l, ea, x) :: r)

/-- Read every lane's datum; the first trap stops the instruction. -/
def State.readAll (s : State) (v : View) (u : Bool) (n : Nat) (th : Through) : List (Nat × DWord × Loc) → State × Except Trap (List (Nat × Nat))
  | [] => (s, .ok [])
  | (l, ea, x) :: t =>
    match s.readAs v (named u l) ea n th x with
    | (s1, .error e) => (s1, .error e)
    | (s1, .ok d) => match s1.readAll v u n th t with
      | (s2, .ok r) => (s2, .ok ((l, d) :: r))
      | (s2, .error e) => (s2, .error e)

/-- A loaded datum as register words (03 R100). -/
def loadWords (z : MSize) (d : Nat) : List Word :=
  match z with
  | .s8 => [(BitVec.ofNat 8 d).signExtend 32]
  | .s16 => [(BitVec.ofNat 16 d).signExtend 32]
  | _ => (List.range z.words).map fun i => BitVec.ofNat 32 (d / 2 ^ (32 * i))

/-- The number that a list of words is, low word first. -/
def wordsNat : List Word → Nat
  | [] => 0
  | w :: t => w.toNat + 2 ^ 32 * wordsNat t

/-- Complete a memory instruction with its result: an SO access is commit-class (01 R33). -/
def State.resultC (s : State) (v : View) (commit : Bool) (h : Hdr) (act : Mask) (vals : Nat → List Word) : State :=
  if commit then
    let (w, sp) := s.accept v v.wp
    s.result { v with wp := w, sp := sp } w h act vals
  else s.result v v.wp h act vals

/-- Complete a memory instruction that writes no register. -/
def State.doneC (s : State) (v : View) (commit : Bool) : State :=
  if commit then
    let (w, sp) := s.accept v v.wp
    s.done { v with wp := w, sp := sp } w
  else s.done v v.wp

/-- Device bytes under some locations of a size, by key. -/
def State.locKeys (s : State) (n : Nat) (xs : List Loc) : List (Nat × Nat) :=
  xs.filterMap fun x => match x with | .glob pa _ => (match s.phys pa true with | .mem k => some (k, n) | .nowhere => none) | _ => none

/-- Poisoned lines that several stores of one instruction cover wholly together are clean (20 R422). -/
def State.joinStores (s : State) (ws : List (Nat × Nat)) : State :=
  if s.mem.poison.isEmpty then s
  else
    let covered := fun (a : Nat) => ws.any fun w => w.1 ≤ a && a < w.1 + w.2
    { s with mem := { s.mem with poison := s.mem.poison.filter fun l => !((List.range 128).all fun i => covered (128 * l + i)) } }

end Sys2Proof.Machine
end

