-- ==== Sys2Proof/Machine/Memory.lean ====
section
/-! DEFINITION. Loads, stores, prefetches and cache control: majors 0x80 to 0x86 (06 R169-R177). -/

namespace Sys2Proof.Machine

/-! ### Loads and stores (R173) -/

/-- A load of the active lanes, once for the split where `u` holds. -/
def loadWith (i : Instr) (u : Bool) (off : BitVec 24) (m : MemFn) (s : State) : Res :=
  start i s fun v act =>
    if act = 0 then .next (s.done v v.wp)
    else
      let ls := if u then [leadLane act] else laneList act
      match s.resolveAll v u m.size.bytes m.space .move false (ls.map fun l => (l, effective (valOf i 0 v act l) off)) with
      | .error e => .next (s.memFail v .c false e)
      | .ok xs => match (s.acquire v (acquires m || xs.any (·.2.2.isSO))).readAll v u m.size.bytes (throughFor m xs) xs with
        | (s1, .error t) => .next (s1.takeTrap (s1.review v) t)
        | (s1, .ok ds) =>
          .next (s1.resultC (s1.review v) (xs.any (·.2.2.isSO)) i.hdr act fun l =>
            loadWords m.size ((kget ds (if u then leadLane act else l)).getD 0))

def execLd (h : Hdr) (a : Src) (off : BitVec 24) (m : MemFn) (s : State) : Res := loadWith (.ld h a off m) false off m s
def execLdu (h : Hdr) (a : Src) (off : BitVec 24) (m : MemFn) (s : State) : Res := loadWith (.ldu h a off m) true off m s

/-- Write every lane's datum in ascending lane order, through the CU's L1. -/
def State.writeAll (s : State) (v : View) (n : Nat) (val : Nat → Nat) : List (Nat × DWord × Loc) → State
  | [] => s
  | (l, _, x) :: t => ((s.l1Shed v n x).writeLoc v n (val l) x).writeAll v n val t

/-- Global bytes that the stores of an instruction cover, by key. -/
def State.covered (s : State) (n : Nat) (xs : List (Nat × DWord × Loc)) : List (Nat × Nat) :=
  xs.filterMap fun x => match x.2.2 with
    | .glob pa _ => match s.phys pa true with | .mem k => some (k, n) | .nowhere => none
    | _ => none

def execSt (h : Hdr) (a b : Src) (off : BitVec 24) (m : MemFn) (s : State) : Res :=
  let i := Instr.st h a b off m
  start i s fun v act =>
    if act = 0 then .next (s.done v v.wp)
    else
      match s.resolveAll v false m.size.bytes m.space .move true ((laneList act).map fun l => (l, effective (valOf i 0 v act l) off)) with
      | .error e => .next (s.memFail v .c true e)
      | .ok xs =>
        if xs.any (·.2.2.isSO) && v.wp.ldaOpen v.sp.mask then .next s
        else if s.needsMarker v && (m.ord == .rel && m.scope == .sys || xs.any (·.2.2.isSO)) then .next (s.holdAt v v.wp v.sp .marker)
        else
        let s1 := (s.writeAll v m.size.bytes (fun l => wordsNat (wordsOf i 1 v act l)) xs).joinStores (s.covered m.size.bytes xs)
        let s2 := s1.sentFabric v xs
        .next (s2.doneC (s2.review v) (xs.any (·.2.2.isSO)))

/-! ### Asynchronous loads (R174) -/

/-- Begin an asynchronous producer: its registers become pending (01 R25). With WS set it has none (03 R93). -/
def Warp.launchFlight (w : Warp) (id major : Nat) (regs : List Nat) (lanes : Mask) (commit : Bool) (k : FlightKind) : Warp :=
  let w1 := regs.foldl (fun w r => w.vset r { w.vget r with tag := .pending }) w
  { w1 with flights := w1.flights ++ [{ id := id, major := major, regs := regs, lanes := lanes, prior := regs.map w.vget, commit := commit, kind := k, seen := w.gSeen }] }

def execLda (h : Hdr) (a : Src) (off : BitVec 24) (m : MemFn) (s : State) : Res :=
  let i := Instr.lda h a off m
  start i s fun v act =>
    if act = 0 then .next (s.done v v.wp)
    else
      let (id, s1) := s.fresh
      let eas := (laneList act).map fun l => (l, effective (valOf i 0 v act l) off)
      .next (s1.done v (v.wp.launchFlight id 0x83 (h.outRegs m.size.words) act false (.lda eas m [])))

/-! ### Prefetches (R175, R176; 01 R42) -/

/-- PREF has no architectural effect. -/
def execPref (h : Hdr) (a : Src) (off : BitVec 24) (m : MemFn) (s : State) : Res :=
  start (.pref h a off m) s fun v _ => .next (s.done v v.wp)

/-- Bring one line into the instruction cache, where it is mapped, not there, and of no SO page (09 R265). -/
def State.warmLine (s : State) (n vf cu : Nat) (va : DWord) : State :=
  match s.lineAddr n vf cu va with
  | .ok pa kind => if kind == 1 || ((s.slice n).ilineAt cu pa).isSome || (s.lineRead pa).2 then s else s.fillLine n cu pa
  | _ => s

def execIpref (h : Hdr) (nlines : BitVec 8) (a : Src) (s : State) : Res :=
  let i := Instr.ipref h nlines a
  start i s fun v act =>
    if act = 0 then .next (s.done v v.wp)
    else
      let base := pcLine (valOf i 0 v act (leadLane act))
      let s1 := (List.range (nlines.toNat + 1)).foldl (fun s k => s.warmLine v.cur.slice v.tm.vf v.tm.cu (base + BitVec.ofNat 64 (64 * k))) s
      .next (s1.done v v.wp)

/-! ### Cache control (R177) -/

/-- The global offset of each active lane's address; the lowest address outside the global space is an error. -/
def cctlAddrs (sp : Space) : List (Nat × DWord) → Except (Nat × DWord) (List Nat)
  | [] => .ok []
  | (l, ea) :: t =>
    match spaceOf sp ea.toNat with
    | some .global => match cctlAddrs sp t with | .ok r => .ok (ea.toNat % 2 ^ 48 :: r) | .error e => .error e
    | _ => .error (l, ea)

/-- A cache operation by address: `f` acts on each mapped physical address, given the slice and the acting CU. -/
def cctlWith (i : Instr) (off : BitVec 16) (m : MemFn) (f : Nat → Nat → Nat → State → State) (s : State) : Res :=
  start i s fun v act =>
    if act = 0 then .next (s.done v v.wp)
    else
      match cctlAddrs m.space ((execLanes i.hdr act).map fun l => (l, effective (valOf i 0 v act l) off)) with
      | .error (l, ea) => .next (s.takeTrap v { kind := .bounds, lane := named i.hdr.u l, info := ea })
      | .ok vas =>
        let s1 := vas.foldl (fun s va => match s.xlate v.cur.slice v.tm.vf (some v.tm.cu) va false false with
          | .ok pa _ => f v.cur.slice (s.actingCu v) pa s
          | _ => s) s
        .next (s1.done v v.wp)

/-- Write back the line of an address to its home memory: the home has its bytes from now on. -/
def State.writeBack (s : State) (pa : Nat) : State :=
  { s with mem := { s.mem with home := s.mem.home.filter (·.1 != pa / 128) } }

/-- Remove the cached copies of a physical instruction line (01 R43). -/
def Slice.dropLine (x : Slice) (pa : Nat) : Slice := { x with icache := x.icache.filter (·.pa != pa / 64 * 64) }

/-- Discard the line of an address from the acting CU's L1. -/
def State.l1Line (s : State) (cu pa : Nat) : State :=
  match s.phys pa false with | .mem k => s.l1Drop cu (k / 128 * 128) 128 | .nowhere => s

def execL1Inv (h : Hdr) (a : Src) (off : BitVec 16) (m : MemFn) (s : State) : Res :=
  cctlWith (.l1Inv h a off m) off m (fun _ cu pa s => s.l1Line cu pa) s
def execL1InvAll (h : Hdr) (m : MemFn) (s : State) : Res :=
  start (.l1InvAll h m) s fun v act =>
    if act = 0 then .next (s.done v v.wp) else
    let s1 := s.l1Clear (s.actingCu v)
    .next (s1.done v v.wp)
def execL2Wb (h : Hdr) (a : Src) (off : BitVec 16) (m : MemFn) (s : State) : Res :=
  cctlWith (.l2Wb h a off m) off m (fun _ _ pa s => s.writeBack pa) s
def execL2WbInv (h : Hdr) (a : Src) (off : BitVec 16) (m : MemFn) (s : State) : Res :=
  cctlWith (.l2WbInv h a off m) off m (fun _ _ pa s => s.writeBack pa) s
def execIcInv (h : Hdr) (a : Src) (off : BitVec 16) (m : MemFn) (s : State) : Res :=
  cctlWith (.icInv h a off m) off m (fun n _ pa s => s.modSlice n (·.dropLine pa)) s
def execIcInvAll (h : Hdr) (m : MemFn) (s : State) : Res :=
  start (.icInvAll h m) s fun v act =>
    if act = 0 then .next (s.done v v.wp) else
    let s1 := s.modSlice v.cur.slice fun x => { x with icache := [] }
    .next (s1.done v v.wp)

end Sys2Proof.Machine
end

