-- ==== Sys2Proof/Machine/Atomics.lean ====
section
/-! DEFINITION. Atomics, fences and watches: majors 0x87 to 0x8B (06 R178-R183; 09 R281-R284). -/

namespace Sys2Proof.Machine

/-! ### New values (R178) -/

/-- The integer type of AT's order. -/
def atomTypeOf : AtomTy → Ty
  | .n32 => .n32 | .s32 => .s32 | .n64 => .n64 | .s64 => .s64 | .f32 => .f32 | .f64 => .f64 | .f16x2 => .f16 | .bf16x2 => .bf16

def atomBytes (t : AtomTy) : Nat := if t.is64 then 8 else 4

/-- A floating sum rounded once under RNE, subnormals kept, NaN canonical. -/
def atomSum (f : Fmt) (o b : Nat) : Nat := (f.finish .rne false (addFp .rne (f.decode false o) (f.decode false b))).1

/-- The smaller or larger. -/
def atomMinmax (isMax : Bool) (t : AtomTy) (o b : Nat) : Nat :=
  match t with
  | .f32 => (Fmt.f32.finish .rne false (minmaxFp isMax false (Fmt.f32.decode false o) (Fmt.f32.decode false b))).1
  | .f64 => (Fmt.f64.finish .rne false (minmaxFp isMax false (Fmt.f64.decode false o) (Fmt.f64.decode false b))).1
  | _ =>
    let x := intOf (atomTypeOf t) (BitVec.ofNat 64 o)
    let y := intOf (atomTypeOf t) (BitVec.ofNat 64 b)
    if (if isMax then x ≥ y else x ≤ y) then o else b

/-- The new value from the old one and the operand, both below 2^width. -/
def atomNew (op : AtomOp) (t : AtomTy) (o b : Nat) : Nat :=
  let m := 256 ^ (atomBytes t)
  match op with
  | .add => (o + b) % m
  | .min => atomMinmax false t o b
  | .max => atomMinmax true t o b
  | .and => (BitVec.ofNat 64 o &&& BitVec.ofNat 64 b).toNat
  | .or => (BitVec.ofNat 64 o ||| BitVec.ofNat 64 b).toNat
  | .xor => (BitVec.ofNat 64 o ^^^ BitVec.ofNat 64 b).toNat
  | .exch => b
  | .inc => if o ≥ b then 0 else (o + 1) % m
  | .dec => if o = 0 ∨ o > b then b else o - 1
  | .fadd => match t with
    | .f64 => atomSum .f64 o b
    | .f16x2 => atomSum .f16 (o % 65536) (b % 65536) + 65536 * atomSum .f16 (o / 65536) (b / 65536)
    | .bf16x2 => atomSum .bf16 (o % 65536) (b % 65536) + 65536 * atomSum .bf16 (o / 65536) (b / 65536)
    | _ => atomSum .f32 o b

/-! ### Performing (R179-R181) -/

/-- What an atomic did: the old values of the lanes performed, and the trap of the first lane at poisoned data. -/
structure AtomRes where
  s : State
  olds : List (Nat × Nat)
  bad : Option Trap

/-- The read of an atomic: through a window that allows no write it is an access to an unassigned address (21 R434). -/
def State.atomRead (s : State) (v : View) (l : Nat) (ea : DWord) (n : Nat) (x : Loc) : State × Except Trap Nat :=
  match x with
  | .glob pa _ => match s.phys pa true with
    | .mem _ => s.readAs v (some l) ea n .home x
    | .nowhere => ((s.noteAccess v.cur.slice pa true).noteError v.cur.slice (.poison pa), .error (poisonData (some l) ea))
  | _ => s.readAs v (some l) ea n .home x

/-- Perform the lanes' steps in ascending lane order; a lane at a poisoned line is not performed. -/
def State.atomAll (s : State) (v : View) (n : Nat) (f : Nat → Nat → Nat) : List (Nat × DWord × Loc) → AtomRes
  | [] => ⟨s, [], none⟩
  | (l, ea, x) :: t =>
    match s.atomRead v l ea n x with
    | (s1, .error e) =>
      let r := s1.atomAll v n f t
      { r with bad := some e }
    | (s1, .ok o) =>
      let r := (s1.writeLoc v n (f l o) x).atomAll v n f t
      { r with olds := (l, o) :: r.olds }

/-- A system-scope release waits for its fence markers (09 R284); an SO access is one at system scope (09 R265). -/
def needsMarker (s : State) (v : View) (m : MemFn) (xs : List (Nat × DWord × Loc)) : Bool :=
  s.needsMarker v && ((m.ord == .rel || m.ord == .acqrel) && m.scope == .sys || xs.any (·.2.2.isSO))

/-- An atomic whose lane `l` turns the old value `o` into `f v act l o`. -/
def atomWith (i : Instr) (n : Nat) (off : BitVec 16) (m : MemFn) (f : View → Mask → Nat → Nat → Nat) (s : State) : Res :=
  start i s fun v act =>
    if act = 0 then .next (s.done v v.wp)
    else
      match s.resolveAll v false n m.space .atomic true ((laneList act).map fun l => (l, effective (valOf i 0 v act l) off)) with
      | .error e => .next (s.memFail v .c true e)
      | .ok xs =>
        if xs.any (·.2.2.isSO) && v.wp.ldaOpen v.sp.mask then .next s
        else if needsMarker s v m xs then .next (s.holdAt v v.wp v.sp .marker)
        else
          let r := (s.acquire v (acquires m || xs.any (·.2.2.isSO))).atomAll v n (f v act) xs
          let s1 := r.s.sentFabric v xs
          let v1 := s1.review v
          let words := fun l => let o := (kget r.olds l).getD 0
            if n = 8 then [BitVec.ofNat 32 o, BitVec.ofNat 32 (o / 2 ^ 32)] else [BitVec.ofNat 32 o]
          match r.bad with
          | some t =>
            let got := maskOf fun l => (kget r.olds l).isSome
            .next (s1.takeTrap { v1 with wp := v1.wp.writeDst i.hdr got words } t)
          | none => if i.hdr.dst == .none then .next (s1.doneC v1 true) else .next (s1.resultC v1 true i.hdr act words)

/-- The operand B of a lane as a number. -/
def atomB (i : Instr) (v : View) (act : Mask) (l : Nat) : Nat := wordsNat (wordsOf i 1 v act l)

def execAtom (h : Hdr) (op : AtomOp) (aty : AtomTy) (a b : Src) (off : BitVec 16) (m : MemFn) (s : State) : Res :=
  let i := Instr.atom h op aty a b off m
  atomWith i (atomBytes aty) off m (fun v act l o => atomNew op aty o (atomB i v act l)) s

/-- ATOMC: B holds the compare value, then the new value. -/
def execAtomc (h : Hdr) (aty : AtomTy) (a b : Src) (off : BitVec 16) (m : MemFn) (s : State) : Res :=
  let i := Instr.atomc h aty a b off m
  atomWith i (atomBytes aty) off m (fun v act l o =>
    let x := atomB i v act l
    if o = x % 256 ^ (atomBytes aty) then x / 256 ^ (atomBytes aty) else o) s

def execRed (h : Hdr) (op : AtomOp) (aty : AtomTy) (a b : Src) (off : BitVec 16) (m : MemFn) (s : State) : Res :=
  let i := Instr.red h op aty a b off m
  atomWith i (atomBytes aty) off m (fun v act l o => atomNew op aty o (atomB i v act l)) s

/-! ### Fences (R182) -/

/-- A release fence naming path G: what its split wrote, and what others have released, is what the split's later reads on path G find
(07 R223). -/
def State.gFence (s : State) (v : View) : State :=
  let s1 := s.gRelease v.ref v.sp.mask
  let seen := fun (w : Warp) => (List.range 32).map fun l => if bit v.sp.mask l then s1.gStamp else w.gSeen.getD l 0
  { s1.modWarp v.ref fun w => { w with gSeen := seen w } with gStamp := s1.gStamp + 1 }

/-- Every access but an LDA's is performed when its instruction completes, so that a fence waits for the LDAs of its split and for the
markers of its fabric stores; one that acquires beyond its CU, or on another path, discards the CU's L1. -/
def execFence (h : Hdr) (scope : Scope) (kind : FKind) (paths : BitVec 8) (s : State) : Res :=
  start (.fence h scope kind paths) s fun v act =>
    if act ≠ 0 && s.needsMarker v && scope == .sys && kind != .acq then .next (s.holdAt v v.wp v.sp .marker)
    else
      let s1 := s.acquire v (act ≠ 0 && kind != .rel && (!(scope == .warp || scope == .team) || paths &&& ~~~1 ≠ 0))
      if act ≠ 0 && kind != .acq && paths.getLsbD 3 then
        let s2 := s1.gFence v
        .next (s2.done (s2.review v) (s2.review v).wp)
      else .next (s1.done v v.wp)

/-! ### Watches (R183; 09 R281, R283) -/

/-- The home bank of a watched key: the bank number of R281, at the device that holds the line. -/
def watchBank (key : Nat) : Nat :=
  let pa := if key ≥ 2 ^ 56 then (key - 2 ^ 56) % 2 ^ 39 else key
  bankOf pa + 128 * (if key ≥ 2 ^ 56 then 1 + (key - 2 ^ 56) / 2 ^ 39 else 0)

/-- Entries of a bank's table, and whether requests wait for one. -/
def State.bankFull (s : State) (bank : Nat) : Bool :=
  (s.watches.filter fun q => q.entry && q.obj.isNone && watchBank q.addr == bank).length ≥ 2048
def State.bankQueued (s : State) (bank : Nat) : Bool := s.watches.any fun q => !q.entry && !q.hit && q.obj.isNone && watchBank q.addr == bank

/-- The key under which a location is watched. -/
def State.watchKey (s : State) : Loc → Option ObjRef × Nat
  | .scratch sl t off => (some { slice := sl, team := t, off := off }, 0)
  | .kick n off => (none, kickKey n off)
  | .glob pa _ => match s.phys pa false with | .mem k => (none, k) | .nowhere => (none, pa)
  | .reg .. => (none, 0)

def execWatch (h : Hdr) (cond : WCond) (aty : AtomTy) (a b : Src) (off : BitVec 16) (m : MemFn) (s : State) : Res :=
  let i := Instr.watch h cond aty a b off m
  start i s fun v act =>
    if act = 0 then .next (s.done v v.wp)
    else
      let ea := effective (valOf i 0 v act (leadLane act)) off
      let val := BitVec.ofNat 64 (atomB i v act (leadLane act))
      if v.sp.hold == .watchRevoked then .next (s.takeTrap v { kind := .groupRevoked, info := ea })
      else
        match s.resolve v none ea (atomBytes aty) m.space .atomic false with
        | .error e => .next (s.memFail v .c false e)
        | .ok x =>
          match s.readAs v none ea (atomBytes aty) .home x with
          | (s1, .error t) => .next (s1.takeTrap (s1.review v) t)
          | (s1, .ok d) =>
            if watchHolds cond aty (BitVec.ofNat 64 d) val then
              let s2 := s1.acquire v (acquires m || x.isSO)
              .next (s2.done (s2.review v) (s2.review v).wp)
            else
              let (obj, addr) := s1.watchKey x
              let (id, s2) := s1.fresh
              let bank := watchBank addr
              let entry := obj.isSome || !(s2.bankFull bank || s2.bankQueued bank)
              let q : WatchReq := { id := id, warp := v.ref, obj := obj, addr := addr, cond := cond, ty := aty, value := val, entry := entry,
                                    group := v.groupOf m.space ea.toNat, acq := m.ord == .acq || x.isSO, wide := acquires m || x.isSO }
              let s3 := { s2 with watches := s2.watches ++ [q] }
              .next (s3.holdAt v v.wp (v.sp.latch fun _ => 0) (.watch id))

end Sys2Proof.Machine
end

