-- ==== Sys2Proof/Machine/Barriers.lean ====
section
/-! DEFINITION. Barrier objects, the team barrier and groups: majors 0x90 to 0x98 (06 R184-R194). -/

namespace Sys2Proof.Machine

/-! ### The barrier object (R184, R185) -/

structure BarObj where
  exp : Nat
  rem : Nat
  ph : Nat
  ovr : Bool
  xb : Nat
  cnt : Nat
  deriving DecidableEq, Repr

/-- The object of 128 bits, low bits first. -/
def barOf (v : Nat) : BarObj :=
  { exp := bits v 0 16, rem := bits v 16 16, ph := bits v 32 4, ovr := nbit v 36, xb := bits v 40 24, cnt := bits v 64 64 }
def barBits (o : BarObj) : Nat :=
  o.exp + o.rem * 2 ^ 16 + o.ph * 2 ^ 32 + (if o.ovr then 2 ^ 36 else 0) + o.xb * 2 ^ 40 + o.cnt * 2 ^ 64

/-- The completion check. -/
def barCheck (o : BarObj) : BarObj :=
  if o.rem = 0 ∧ o.xb = 0 then { o with ph := (o.ph + 1) % 16, rem := o.exp, cnt := (o.cnt + 1) % 2 ^ 64 } else o

/-- The largest XB. -/
def xbMax : Nat := 0xFFFFFF

/-- An arrival of `n` that adds bytes; none is an overrun (R187, R188). -/
def barArrive (o : BarObj) (n bytes : Nat) : Option BarObj :=
  if n > o.rem ∨ o.xb + bytes > xbMax then none else some (barCheck { o with rem := o.rem - n, xb := o.xb + bytes })

/-- A landing of `k` bytes, and whether it overran (R188). -/
def barLand (o : BarObj) (k : Nat) : BarObj × Bool :=
  if k ≤ o.xb then (barCheck { o with xb := o.xb - k }, false) else (barCheck { o with xb := 0, ovr := true }, true)

/-- Find the object that A names (R185). -/
def barAt (i : Instr) (k : View → Mask → Loc → DWord → Res) (s : State) : Res :=
  start i s fun v act =>
    if act = 0 then .next (s.done v v.wp)
    else
      let ea := valOf i 0 v act (leadLane act)
      match s.resolve v none ea 16 .generic .barrier true with
      | .error e => .next (s.memFail v .c true e)
      | .ok x => k v act x ea

/-- Find and read the object that A names (R185). -/
def barWith (i : Instr) (k : View → Mask → State → Loc → DWord → BarObj → Res) (s : State) : Res :=
  barAt i (fun v act x ea => match s.readLoc v none ea 16 x with
    | (s1, .error t) => .next (s1.takeTrap (s1.review v) t)
    | (s1, .ok d) => k (s1.review v) act s1 x ea (barOf d)) s

/-- The value of source `k` that stands for the instruction, as n32. -/
def leadVal (i : Instr) (k : Nat) (v : View) (act : Mask) : Nat := (loWord (valOf i k v act (leadLane act))).toNat

/-! ### BARI, BARA, BART, BARW (R186-R189) -/

def fldA : Nat := 7
def fldB : Nat := 8

def execBari (h : Hdr) (a b : Src) (s : State) : Res :=
  let i := Instr.bari h a b
  barAt i (fun v act x _ =>
    let n := leadVal i 1 v act
    if n = 0 ∨ n > 65535 then .next (s.takeTrap v (illegal fldB))
    else
      let s1 := s.writeLoc v 16 (barBits { exp := n, rem := n, ph := 0, ovr := false, xb := 0, cnt := 0 }) x
      .next (s1.doneC (s1.review v) true)) s

/-- Write the result predicate of an arrival with NT. -/
def Warp.setPD (w : Warp) (u : Bool) (pd : BitVec 3) (act : Mask) (b : Bool) : Warp :=
  if u then w.qwrite pd.toNat b else w.pwrite pd.toNat act fun _ => b

/-- An arrival of the active lanes, or of a uniform count, with bytes. -/
def arriveWith (i : Instr) (nt : Bool) (pd : BitVec 3) (bytes : View → Mask → Nat) (s : State) : Res :=
  let h := i.hdr
  barWith i (fun v act s x ea o =>
    let n := if h.u then leadVal i 1 v act else (laneList act).length
    if h.u && (n = 0 ∨ n > 65535) then .next (s.takeTrap v (illegal fldB))
    else
      let res := fun (s1 : State) (b : Bool) =>
        let v1 := s1.review v
        let v2 := if nt then { v1 with wp := v1.wp.setPD h.u pd act b } else v1
        s1.resultC v2 true h act fun _ => [BitVec.ofNat 32 o.ph]
      match barArrive o n (bytes v act) with
      | some o1 => .next (res (s.writeLoc v 16 (barBits o1) x) true)
      | none =>
        let s1 := s.writeLoc v 16 (barBits { o with ovr := true }) x
        if nt then .next (res s1 false) else .next (s1.takeTrap (s1.review v) { kind := .overrun, info := ea })) s

def execBara (h : Hdr) (nt : Bool) (pd : BitVec 3) (a : Src) (b : Option Src) (s : State) : Res :=
  arriveWith (.bara h nt pd a b) nt pd (fun _ _ => 0) s

def execBart (h : Hdr) (nt : Bool) (pd : BitVec 3) (a : Src) (b : Option Src) (c : Src) (s : State) : Res :=
  let i := Instr.bart h nt pd a b c
  arriveWith i nt pd (fun v act => ((execLanes h act).map fun l => (loWord (valOf i 2 v act l)).toNat).sum) s

/-- BARW never waits forever where its timeout says not to. -/
def forever : Nat := 0xFFFFFFFF

def execBarw (h : Hdr) (a b c : Src) (s : State) : Res :=
  let i := Instr.barw h a b c
  barWith i (fun v act s x _ o =>
    let ph := leadVal i 1 v act % 16
    let t := leadVal i 2 v act
    if o.ph ≠ ph then .next ((s.l1Clear (s.actingCu v)).result v v.wp h act fun _ => [1])
    else if t = 0 then .next (s.result v v.wp h act fun _ => [0])
    else match x with
      | .scratch sl tm off =>
        .next (s.holdAt v v.wp v.sp (.barw { slice := sl, team := tm, off := off } ph
          (if t = forever then none else some (s.dtime + t)) (if h.ws then .none else h.dst) h.u act))
      | _ => .next s) s

/-! ### TBAR (R190) -/

def execTbar (h : Hdr) (s : State) : Res :=
  start (.tbar h) s fun v act =>
    if act = 0 then .next (s.done v v.wp)
    else
      let (w, sp) := s.accept v v.wp
      .next ((s.holdAt v w (sp.latch fun _ => 0) .tbar).checkTbar v.cur.slice v.cur.team)

/-! ### Groups (R191-R194) -/

/-- The member index of a team in a group. -/
def Team.memberOf (t : Team) (g : Nat) : Option Nat :=
  t.groups.findSome? fun x => match x with | some (g', m) => if g' = g then some m else none | none => none

def lowestFree (held : List Nat) (n : Nat) : Option Nat := (List.range n).find? fun k => !held.contains k

/-- GJOIN's result, and the slice after it. -/
def Slice.join (x : Slice) (t : Team) (g : Nat) : Word × Slice :=
  let e := x.group g
  if g > 255 ∨ !e.open_ ∨ e.closing then (0x80000003, x)
  else match t.memberOf g with
    | some m => (0x40000000 + BitVec.ofNat 32 m, x)
    | none =>
      match t.groups.findIdx? (·.isNone) with
      | none => (0x80000001, x)
      | some k =>
        match lowestFree (e.members.map (·.idx)) 64 with
        | none => (0x80000002, x)
        | some m =>
          let x1 := x.modAnyTeam t.id fun t => { t with groups := t.groups.set k (some (g, m)) }
          (BitVec.ofNat 32 m, { x1 with groups := kset x1.groups g { e with members := e.members ++ [{ idx := m, team := t.id }], joins := e.joins + 1 } })

def execGjoin (h : Hdr) (a : Src) (s : State) : Res :=
  let i := Instr.gjoin h a
  start i s fun v act =>
    if act = 0 then .next (s.done v v.wp)
    else
      let r := v.sl.join v.tm (leadVal i 0 v act)
      let s1 := (s.l1Clear (s.actingCu v)).setSlice v.cur.slice r.2
      .next (s1.resultC (s1.review v) true h act fun _ => [r.1])

/-- An LDA of the warp through a slot of the group window is still to be read. -/
def Warp.ldaThrough (w : Warp) (slot : Nat) : Bool :=
  w.flights.any fun f => match f.kind with
    | .lda eas m _ => eas.any fun x => spaceOf m.space x.2.toNat == some .groupw && bits (x.2.toNat % 2 ^ 48) 26 2 == slot
    | _ => false

/-- The slot in which a team holds a group. -/
def Team.slotOf (t : Team) (g : Nat) : Option Nat := t.groups.findIdx? fun x => x.any (·.1 == g)

/-- The team's accesses through the group's window that have already issued complete first (R192). -/
def Team.gleaveWaits (t : Team) (g : Nat) : Bool := match t.slotOf g with | some k => t.warps.any (·.ldaThrough k) | none => false

def execGleave (h : Hdr) (a : Src) (s : State) : Res :=
  let i := Instr.gleave h a
  start i s fun v act =>
    if act = 0 then .next (s.done v v.wp)
    else
      let g := leadVal i 0 v act
      if v.tm.gleaveWaits g then .next s else
      let s1 := s.doneC v true
      .next (if g ≤ 255 then s1.leaveGroup v.cur.slice v.cur.team g else s1)

/-- GBAR: the active lanes are held until the group's phase ends. A trap that names no address has a free TRAPINFO. -/
def execGbar (h : Hdr) (a : Src) (s : State) : Res :=
  let i := Instr.gbar h a
  start i s fun v act =>
    if act = 0 then .next (s.done v v.wp)
    else
      let g := leadVal i 0 v act
      if g > 255 ∨ (v.tm.memberOf g).isNone then
        let (d, s1) := s.freeD
        .next (s1.takeTrap v { kind := .groupRevoked, info := d })
      else
        let (w, sp) := s.accept v v.wp
        .next ((s.holdLanes v w (sp.latch fun _ => 0) act (.gbar g (v.sl.group g).phase)).arriveGbar v.cur.slice v.cur.team g)

def memberMask (e : GroupEnt) : Nat := (e.members.map fun m => 2 ^ m.idx).sum

/-- What GQRY reads of a group. -/
def groupItem (x : Slice) (t : Team) (g : Nat) : GItem → Word
  | .count => if g > 255 then 0 else BitVec.ofNat 32 (x.group g).members.length
  | .idx => match if g > 255 then none else t.memberOf g with | some m => BitVec.ofNat 32 m | none => 0xFFFFFFFF
  | .masklo => if g > 255 then 0 else BitVec.ofNat 32 (memberMask (x.group g))
  | .maskhi => if g > 255 then 0 else BitVec.ofNat 32 (memberMask (x.group g) / 2 ^ 32)

def execGqry (h : Hdr) (item : GItem) (a : Src) (s : State) : Res :=
  let i := Instr.gqry h item a
  start i s fun v act =>
    .next (s.result v v.wp h act fun _ => [groupItem v.sl v.tm (leadVal i 0 v act) item])

end Sys2Proof.Machine
end

