-- ==== Sys2Proof/Machine/Collate.lean ====
section
/-! DEFINITION. Records, bins and loads of the collator (11 R299-R305). -/

namespace Sys2Proof.Machine

/-- What a bin gathers for: a node, or a regroup key. -/
inductive BinKey where
  | node (k : Nat)
  | regroup (k : RKey)
  deriving DecidableEq, Repr

/-- A record on its way to a bin. -/
inductive BinRec where
  | node (k : Nat) (r : NodeRec)
  | regroup (k : RKey) (r : RRec)
  deriving DecidableEq, Repr

def BinRec.key : BinRec → BinKey | .node k _ => .node k | .regroup k _ => .regroup k

def CLoad.key : CLoad → BinKey | .node k _ => .node k | .regroup k _ => .regroup k
def CLoad.size : CLoad → Nat | .node _ r => r.length | .regroup _ r => r.length

/-- Records of a key in bins: collected ones and those of loads that wait for room. -/
def Slice.binned (x : Slice) (k : BinKey) : Nat :=
  (match k with | .node n => ((kget x.nodeRecs n).getD []).length | .regroup r => ((kget x.regroup r).getD []).length)
  + ((x.loads.filter (·.key == k)).map (·.size)).sum

def binsFor (n : Nat) : Nat := (n + 31) / 32

def Slice.binKeys (x : Slice) : List BinKey :=
  (x.nodeRecs.map (fun e => BinKey.node e.1) ++ x.regroup.map (fun e => BinKey.regroup e.1) ++ x.loads.map (·.key)).eraseDups

/-- Bins in use when some keys get one record more for each time they are listed. -/
def Slice.binsWith (x : Slice) (adds : List BinKey) : Nat :=
  (((x.binKeys ++ adds).eraseDups).map fun k => binsFor (x.binned k + adds.count k)).sum

/-- The pool of the slice: 4,096 bins (R300). -/
def poolBins : Nat := 4096

/-- Take one load of up to `n` records of a key, oldest first; it waits for room (R301). -/
def Slice.takeLoad (x : Slice) (n : Nat) : BinKey → Slice
  | .node k =>
    let rs := (kget x.nodeRecs k).getD []
    if rs.isEmpty then x else
    { x with nodeRecs := if (rs.drop n).isEmpty then kdel x.nodeRecs k else kset x.nodeRecs k (rs.drop n),
             loads := x.loads ++ [.node k (rs.take n)] }
  | .regroup k =>
    let rs := (kget x.regroup k).getD []
    if rs.isEmpty then x else
    { x with regroup := if (rs.drop n).isEmpty then kdel x.regroup k else kset x.regroup k (rs.drop n),
             loads := x.loads ++ [.regroup k (rs.take n)] }

/-- The load of a key: TEAMW·GSIZE records of a node, 32 of a regroup key (R301, R305). -/
def Slice.loadSize (x : Slice) : BinKey → Nat
  | .node k => match kget x.nodes k with | some d => d.teamw * d.gsize | none => 32
  | .regroup _ => 32

/-- Take every full load of a key, with fuel. -/
def Slice.takeFull (x : Slice) (k : BinKey) : Nat → Slice
  | 0 => x
  | n + 1 =>
    let have_ := match k with | .node j => ((kget x.nodeRecs j).getD []).length | .regroup r => ((kget x.regroup r).getD []).length
    if have_ ≥ x.loadSize k then (x.takeLoad (x.loadSize k) k).takeFull k n else x

/-- Append one record to its bin. -/
def Slice.putRec (x : Slice) : BinRec → Slice
  | .node k r => { x with nodeRecs := kset x.nodeRecs k ((kget x.nodeRecs k).getD [] ++ [r]) }
  | .regroup k r => { x with regroup := kset x.regroup k ((kget x.regroup k).getD [] ++ [r]) }

/-- Append the records of one instruction; none when the pool lacks the bins that all of them need (R209, R135). -/
def Slice.append (x : Slice) (rs : List BinRec) : Option Slice :=
  let keys := rs.map (·.key)
  if x.binsWith keys > poolBins then none
  else
    let x1 := rs.foldl Slice.putRec x
    let x2 := keys.eraseDups.foldl (fun y k => y.takeFull k 32) x1
    some { x2 with poolFull := if x2.binsWith [] ≥ poolBins ∧ x.binsWith [] < poolBins then x2.poolFull + 1 else x2.poolFull }

/-- Hold a split whose records find no bins; the pool counts as full. -/
def State.holdPool (s : State) (v : View) : State :=
  (s.modSlice v.cur.slice fun x => { x with poolFull := x.poolFull + 1 }).holdAt v v.wp v.sp .pool

/-- The regroup key of a lane's record: the launch that first issued its work gives all but target and key (R305). -/
def regroupKey (v : View) (l : Nat) (target : DWord) (key : Word) : RKey :=
  match v.sl.launch (v.wp.origin.getD l v.tm.launch) with
  | some y => { target := target, key := key, n := y.krec.regs, trapvec := y.krec.trapvec, fpctl := y.fpctl, graph := y.graph, queue := y.queue }
  | none => { target := target, key := key, n := v.wp.n, trapvec := v.wp.trapvec, fpctl := v.wp.fpctl, graph := v.tm.graph, queue := v.tm.queue }

/-- The record of a lane. -/
def regroupRec (s : State) (v : View) (l dn nlive : Nat) (stack : List DWord) : RRec :=
  { first := dn, words := (List.range nlive).map fun i => v.wp.vlane (dn + i) l, orig := v.wp.origlane.getD l 0, stack := stack,
    launch := v.wp.origin.getD l v.tm.launch, time := s.dtime }

end Sys2Proof.Machine
end

