-- ==== Sys2Proof/Machine/Control.lean ====
section
/-! DEFINITION. Transfers, ends, regions, waits, regrouped calls and handler returns: majors 0x30 to 0x3F (04 R128-R137). -/

namespace Sys2Proof.Machine

/-! ### Shared operations -/

/-- Move the active lanes to their targets; the others go on (R128). -/
def State.transfer (s : State) (v : View) (w : Warp) (act : Mask) (target : Nat → DWord) : State :=
  s.retireTo v w (v.sp.latch fun _ => 0) (fun l => if bit act l then target l else nextPc v.sp.pc) (bit act)

/-- The handler's lanes all stand at an RTE: the handler ends with the mode of the lowest (R137). With no lane left it ends as by
RTE.retry (R131). -/
def State.checkHandler (s : State) (r : WarpRef) : State :=
  match (s.team r.slice r.team).bind (fun t => (t.warp r.warp).map fun w => (t, w)) with
  | none => s
  | some (t, w) =>
    match w.handler with
    | none => s
    | some h =>
      if h.noVec then s
      else
        let ps := w.front ++ w.wait
        let mode := fun (p : Split) => match p.hold with | .rte m => some m | _ => none
        if ps.isEmpty then s.modWarp r fun w => s.endHandler r.slice t w .retry
        else if ps.all fun p => (mode p).isSome then
          match (isort (fun (a b : Split) => a.low ≤ b.low) ps).head? >>= mode with
          | some m => s.modWarp r fun w => s.endHandler r.slice t w m
          | none => s
        else s

/-- Lanes of a warp have left: barriers may complete, and a handler may end. -/
def State.afterExit (s : State) (r : WarpRef) : State :=
  let s1 := (s.checkHandler r).checkTbar r.slice r.team
  match (s1.slice r.slice).anyTeam r.team with
  | none => s1
  | some t => (t.groups.filterMap fun g => g.map (·.1)).foldl (fun s g => s.arriveGbar r.slice r.team g) s1

/-- Some lanes of the acting split leave the warp; the others go on (R131, R135). -/
def State.leaveLanes (s : State) (v : View) (w : Warp) (sp : Split) (act : Mask) : State :=
  let m := sp.mask &&& ~~~act
  let sp1 := { sp with mask := m, parts := restrictParts sp.parts m }
  (s.retire v { w with exited := w.exited ||| act } sp1).afterExit v.ref

/-! ### Transfers (R128-R130) -/

def execBra (h : Hdr) (loff : BitVec 29) (slot : BitVec 3) (s : State) : Res :=
  start (.bra h loff slot) s fun v act => .next (s.transfer v v.wp act fun _ => jTarget v.sp.pc loff slot)

/-- Targets by lane of a BRX: none falls through. -/
def brxTargets (ds : List (Nat × Nat)) (u : Bool) (l : Nat) : Option DWord :=
  if u then ds.head?.map fun d => BitVec.ofNat 64 d.2 else (kget ds l).map (BitVec.ofNat 64)

/-- An access of kind SO moves the region entry to what each lane executes next (01 R33). -/
def Split.enterAt (sp : Split) (live : DWord → Option (List Rng)) (pcOf : Nat → DWord) : Split :=
  { sp with parts := (counters pcOf (laneList sp.mask)).map fun p =>
      { entry := p, mask := maskOf fun l => bit sp.mask l && pcOf l == p, livein := live p } }

def execBrx (h : Hdr) (count : BitVec 16) (a b : Src) (s : State) : Res :=
  let i := Instr.brx h count a b
  start i s fun v act =>
    if act = 0 then .next (s.done v v.wp)
    else
      let base := valOf i 1 v act (leadLane act)
      let idx := fun l => lowW' (valOf i 0 v act l)
      if base.toNat % 8 ≠ 0 then .next (s.takeTrap v { kind := .misalign, info := base })
      else
        let ls := (execLanes h act).filter fun l => idx l < count.toNat
        match s.resolveAll v h.u 8 .generic .move false (ls.map fun l => (l, base + BitVec.ofNat 64 (8 * idx l))) with
        | .error e => .next (s.memFail v .c false e)
        | .ok xs =>
          match (s.acquire v (xs.any (·.2.2.isSO))).readAll v h.u 8 .home xs with
          | (s1, .error t) => .next (s1.takeTrap (s1.review v) t)
          | (s1, .ok ds) =>
            let goes := fun l => if bit act l then brxTargets ds h.u l else none
            let pcOf := fun l => (goes l).getD (nextPc v.sp.pc)
            let v1 := s1.review v
            let so := xs.any fun x => x.2.2.isSO
            let sp := if so then v1.sp.enterAt (s1.liveAt v.cur.slice v.tm) pcOf else v1.sp
            let w := if so then v1.wp.recordHits v1.sp.mask else v1.wp
            .next (s1.retireTo v1 w (sp.latch fun _ => 0) pcOf fun l => (goes l).isSome)
where
  /-- An index read as n32. -/
  lowW' (x : DWord) : Nat := (loWord x).toNat

def execJmp (h : Hdr) (a : Src) (s : State) : Res :=
  start (.jmp h a) s fun v act => .next (s.transfer v v.wp act fun l => valOf (.jmp h a) 0 v act l)

/-- The link (R130). -/
def Warp.link (w : Warp) (h : Hdr) (act : Mask) (pc : DWord) : Warp :=
  w.writeDst h act fun _ => [loWord (nextPc pc), hiWord (nextPc pc)]

def execCall (h : Hdr) (loff : BitVec 29) (slot : BitVec 3) (s : State) : Res :=
  start (.call h loff slot) s fun v act =>
    .next (s.transfer v (v.wp.link h act v.sp.pc) act fun _ => jTarget v.sp.pc loff slot)

def execCallx (h : Hdr) (a : Src) (s : State) : Res :=
  start (.callx h a) s fun v act =>
    .next (s.transfer v (v.wp.link h act v.sp.pc) act fun l => valOf (.callx h a) 0 v act l)

def execRet (h : Hdr) (a : Src) (s : State) : Res :=
  start (.ret h a) s fun v act => .next (s.transfer v v.wp act fun l => valOf (.ret h a) 0 v act l)

/-! ### Ends and regions (R131, R132) -/

def execExit (h : Hdr) (s : State) : Res :=
  start (.exit h) s fun v act =>
    if act = 0 then .next (s.done v v.wp) else .next (s.leaveLanes v v.wp (v.sp.latch fun _ => 0) act)

/-- A chained REGN adds to the live-in set of each part what the set does not hold. -/
def Split.extend (sp : Split) (rs : List Rng) : Split :=
  { sp with parts := sp.parts.map fun p => { p with livein := p.livein.map fun l => l ++ rs.filter (!l.contains ·) } }

def execRegn (r0 r1 r2 r3 : Rng) (ch : Bool) (s : State) : Res :=
  start (.regn r0 r1 r2 r3 ch) s fun v _ =>
    let rs := usedRanges [r0, r1, r2, r3]
    if ch then .next (s.retire v v.wp ((v.sp.extend rs).latch fun _ => 0))
    else .next (s.retire v (v.wp.recordHits v.sp.mask) ((v.sp.enter v.sp.pc (some (rs ++ s.chainFrom v.cur.slice v.tm 64 (nextPc v.sp.pc)))).latch fun _ => 0))

/-! ### Waiting (R133, R134) -/

/-- The split leaves the frontier and the longest-waiting split enters (R133, R13). -/
def Warp.yieldSplit (w : Warp) (idx : Nat) (sp : Split) (marked : DWord → Bool) : Warp :=
  match w.wait with
  | [] => w
  | p :: ps => Warp.settle marked { w with front := w.front.eraseIdx idx ++ [p], wait := ps ++ [sp] }

def execYield (h : Hdr) (s : State) : Res :=
  start (.yield h) s fun v act =>
    if act = 0 then .next (s.done v v.wp)
    else
      let s1 := s.setRotor v.cur.slice v.tm.cu v.wp.seq (v.wp.slot * 32 + 31)
      if v.wp.wait.isEmpty then .next (s1.done v v.wp)
      else
        let sp := (v.sp.latch fun _ => 0).finish
        .next (s1.putWarp v (v.wp.yieldSplit v.cur.split sp (v.marked s)))

/-- The largest of some numbers. -/
def maxOf (l : List Nat) : Nat := l.foldl max 0

def execSleep (h : Hdr) (a : Src) (s : State) : Res :=
  start (.sleep h a) s fun v act =>
    let d := maxOf ((execLanes h act).map fun l => (loWord (valOf (.sleep h a) 0 v act l)).toNat)
    if d = 0 then .next (s.done v v.wp)
    else .next (s.holdAt v v.wp (v.sp.latch fun _ => 0) (.sleep (s.dtime + d)))

/-- WAIT stalls: it is issued again until what it names is not pending. -/
def execWait (h : Hdr) (a : Option Src) (s : State) : Res :=
  start (.wait h a) s fun v act =>
    let pend := match a with
      | none => v.wp.anyPending
      | some x => match x.base with | .vec n => (v.wp.vget n.toNat).tag == .pending | _ => false
    if act ≠ 0 && pend then .next s else .next (s.done v v.wp)

/-! ### Regrouped calls (R135) -/

/-- Append the records of the active lanes, which leave the warp; held when the pool lacks bins. -/
def State.sendLanes (s : State) (v : View) (act : Mask) (recs : List BinRec) : State :=
  match v.sl.append recs with
  | none => s.holdPool v
  | some x =>
    let s1 := s.setSlice v.cur.slice x
    let (w, sp) := s.accept v v.wp
    s1.leaveLanes { v with wp := w, sp := sp } w (sp.latch fun _ => 0) act

/-- The field code of FN (03 R114). -/
def fldFN : Nat := 10

/-- The check of an RCALL's target, made before any append (R89): its fault or trap, or none. -/
def State.checkTarget (s : State) (v : View) (t : DWord) : Option State :=
  match s.lineAddr v.cur.slice v.tm.vf v.tm.cu t with
  | .kind3 => some (s.takeTrap v { kind := .ordKind, info := t })
  | .fault sub replay => some (s.meetFault v none t.toNat .c false true sub replay)
  | .ok _ _ =>
    if s.marked v.cur.slice v.tm.vf v.tm.cu t then none else some (s.takeTrap v { kind := .branchTarget, info := t })

def execRcall (h : Hdr) (nlive : BitVec 4) (loff : BitVec 29) (slot : BitVec 3) (a : Src) (s : State) : Res :=
  let i := Instr.rcall h nlive loff slot a
  start i s fun v act =>
    if act = 0 then .next (s.done v v.wp)
    else if v.wp.handler.isSome then .next (s.takeTrap v (illegal fldFN))
    else if (laneList act).any fun l => (v.wp.returns.getD l []).length ≥ 8 then .next (s.takeTrap v (illegal fldFN))
    else
      let t := jTarget v.sp.pc loff slot
      match s.checkTarget v t with
      | some s1 => .next s1
      | none => .next (s.sendLanes v act ((laneList act).map fun l =>
          .regroup (regroupKey v l t (loWord (valOf i 0 v act l)))
            (regroupRec s v l h.dst.num.toNat (nlive.toNat + 1) (nextPc v.sp.pc :: v.wp.returns.getD l []))))

def execRret (h : Hdr) (nlive : BitVec 4) (s : State) : Res :=
  start (.rret h nlive) s fun v act =>
    if act = 0 then .next (s.done v v.wp)
    else if v.wp.handler.isSome then .next (s.takeTrap v (illegal fldFN))
    else if (laneList act).any fun l => (v.wp.returns.getD l []).isEmpty then .next (s.takeTrap v (illegal fldFN))
    else .next (s.sendLanes v act ((laneList act).map fun l =>
      let st := v.wp.returns.getD l []
      .regroup (regroupKey v l (st.headD 0) 0) (regroupRec s v l h.dst.num.toNat (nlive.toNat + 1) st.tail)))

/-! ### Traps raised by instructions, and the return (R136, R137) -/

def execBkpt (h : Hdr) (imm : Word) (s : State) : Res :=
  start (.bkpt h imm) s fun v act =>
    if act = 0 then .next (s.done v v.wp) else .next (s.takeTrap v { kind := .bkpt, info := zext64 imm })

def execTrap (h : Hdr) (imm : Word) (s : State) : Res :=
  start (.trap h imm) s fun v act =>
    if act = 0 then .next (s.done v v.wp) else .next (s.takeTrap v { kind := .trap, info := zext64 imm })

/-- RTE: the active lanes stand at it, the others go on; the handler ends when every handler lane stands at one. -/
def execRte (h : Hdr) (mode : RteMode) (s : State) : Res :=
  start (.rte h mode) s fun v act =>
    if act = 0 then .next (s.done v v.wp)
    else if v.wp.handler.isNone then .next (s.takeTrap v (illegal fldFN))
    else .next ((s.holdLanes v v.wp (v.sp.latch fun _ => 0) act (.rte mode)).checkHandler v.ref)

end Sys2Proof.Machine
end

