-- ==== Sys2Proof/Machine/Codec.lean ====
section
/-! DEFINITION. The colour-delta coding of 8×8 blocks (13 R327-R329) and the block order of texels (13 R330). -/

namespace Sys2Proof.Machine

/-- The delta width of channel `c` in a mode byte (R327). -/
def deltaW (mode c : Nat) : Nat := match bits mode (2 * c) 2 with | 0 => 8 | 1 => 0 | 2 => 2 | _ => 4
/-- Bytes of a channel of a width. -/
def deltaL (w : Nat) : Nat := (63 * w + 7) / 8
def packedSize (mode : Nat) : Nat := 4 + ((List.range 4).map fun c => deltaL (deltaW mode c)).sum
/-- A valid delta mode: packed size at most 128. -/
def validMode (mode : Nat) : Bool := packedSize mode ≤ 128

/-- Byte offset of a channel's fields in a packed block. -/
def deltaOff (mode c : Nat) : Nat := 4 + ((List.range c).map fun k => deltaL (deltaW mode k)).sum

/-- The signed reading of the low `w` bits. -/
def signedOf (w x : Nat) : Int := if w = 0 then 0 else if x % 2 ^ w ≥ 2 ^ (w - 1) then (x % 2 ^ w : Int) - (2 ^ w : Nat) else (x % 2 ^ w : Int)

/-- Channel `c` of pixel `k` of a packed block (R328). -/
def deltaPix (mode : Nat) (block : List Byte) (k c : Nat) : Byte :=
  let base := (block.getD c 0).toNat
  let w := deltaW mode c
  if k = 0 ∨ w = 0 then BitVec.ofNat 8 base
  else
    let f := bits (leNat ((block.drop (deltaOff mode c)).take (deltaL w))) (w * (k - 1)) w
    BitVec.ofInt 8 (base + signedOf w f)

/-- The 256 raw bytes of a valid delta block. -/
def deltaDecode (mode : Nat) (block : List Byte) : List Byte :=
  ((List.range 64).map fun k => (List.range 4).map fun c => deltaPix mode block k c).flatten

/-- The delta of a channel of a raw block at a pixel, as a signed byte (R329). -/
def deltaOf (raw : List Byte) (k c : Nat) : Int := ((raw.getD (4 * k + c) 0) - raw.getD c 0).toInt

/-- The smallest width code that holds every delta of a channel, as a mode field. -/
def widthCode (raw : List Byte) (c : Nat) : Nat :=
  let ds := (List.range 64).map fun k => deltaOf raw k c
  if ds.all (· == 0) then 1 else if ds.all fun d => -2 ≤ d && d ≤ 1 then 2 else if ds.all fun d => -8 ≤ d && d ≤ 7 then 3 else 0

/-- The mode byte and stored bytes of a raw block: packed when its size is at most 128, else raw (R329). -/
def deltaEncode (raw : List Byte) : Nat × List Byte :=
  let mode := ((List.range 4).map fun c => widthCode raw c * 4 ^ c).sum
  if validMode mode then
    let chan := fun c =>
      let w := deltaW mode c
      leBytes (deltaL w) (((List.range 63).map fun k => intBits' w (deltaOf raw (k + 1) c) * 2 ^ (w * k)).sum)
    (mode, raw.take 4 ++ ((List.range 4).map chan).flatten)
  else (0, raw)
where
  /-- The low bits of an integer. -/
  intBits' (w : Nat) (x : Int) : Nat := (x % ((2 ^ w : Nat) : Int)).toNat

/-- log2 of the texels of a block across and down, by bytes per texel (R330). -/
def blockLog (e : Nat) : Nat × Nat := match e with | 1 => (4, 4) | 2 => (4, 3) | 4 => (3, 3) | 8 => (3, 2) | _ => (2, 2)

/-- The block index of a texel (R330). -/
def blockIndex (nb x y : Nat) : Nat :=
  ((List.range nb).map fun i => bits x i 1 * 4 ^ i + bits y i 1 * 2 * 4 ^ i).sum + (x / 2 ^ nb) * 4 ^ nb

end Sys2Proof.Machine
end

