-- ==== Sys2Proof/Machine/Engine.lean ====
section
/-! DEFINITION. What the engines share: their accesses to memory (06 R169, R195; 19 R399, R400), completion words (06 R195), and
the fill of an asynchronous producer (01 R25-R27, R34). -/

namespace Sys2Proof.Machine

/-! ### Accesses of an engine -/

/-- The agent of an engine access: the team and function it works for, its path, and the name under which it waits. -/
structure Agent where
  slice : Nat
  team : Nat
  vf : Nat
  cu : Nat
  path : Path
  id : Nat
  /-- an access made in the CU, of an LDA, TEX or TRACE: a fault-buffer entry names the CU (19 R400) -/
  inCu : Bool := false
  deriving DecidableEq, Repr

/-- Why an engine access did not give data. -/
inductive EngErr where
  /-- the access waits: on the fault buffer, or on room in it -/
  | wait
  /-- a non-replayable fault, with the trap kind an instruction would have raised -/
  | fault (kind sub : Nat)
  | poison
  /-- a local address touches a register word (01 R20) -/
  | reg
  deriving DecidableEq, Repr

/-- An agent as a view that carries its team: windows are those of the team it works for. -/
def Agent.view (a : Agent) (s : State) : View :=
  let x := s.slice a.slice
  let t : Team := ((x.teams ++ x.saved ++ x.held).find? (·.id == a.team)).getD
    { id := a.team, launch := 0, queue := 0, graph := 0, teamid := 0, cu := a.cu, pin := none, n := 0, scratchSize := 0, warps := [], vf := a.vf }
  { cur := { slice := a.slice, team := a.team, warp := 0, split := 0 }, sl := x, tm := { t with vf := a.vf },
    wp := { n := 0, vregs := [] }, sp := { pc := 0, mask := 0, parts := [] } }

/-- Landings through a window of a team that has ended go on to the scratchpad that the command holds, whether its team is resident, saved
or gone (11 R294). -/
def State.heldAt (s : State) (e : Agent) (holds : Option (Nat × Nat)) (a n : Nat) : Option Loc :=
  if ((s.slice e.slice).anyTeam e.team).isSome then none else
  match holds with
  | some (sl, t) =>
    match ((s.slice sl).teams ++ (s.slice sl).saved ++ (s.slice sl).held).find? (·.id == t) with
    | some tm => let o := a % 2 ^ 20
      if a / 2 ^ 48 ≥ 0xFFF0 && o + n ≤ tm.scratchSize then some (.scratch sl t o) else none
    | none => none
  | none => none

/-- The location lies in host memory: a slice whose function has left makes no new access there (20 R425). -/
def Loc.inHost : Loc → Bool
  | .glob pa _ => hostBase ≤ pa && pa < 2 * hostBase
  | _ => false

/-- Find where an engine's access goes; `sl` is the slice as the fault buffer leaves it. -/
def State.engLoc (s : State) (e : Agent) (holds : Option (Nat × Nat)) (a : DWord) (n : Nat) (wr : Bool) : State × Except EngErr Loc :=
  if (s.slice e.slice).ackFailed.contains (e.id, a.toNat / 4096 * 4096) then
    (s.modSlice e.slice fun x => { x with ackFailed := x.ackFailed.filter (· != (e.id, a.toNat / 4096 * 4096)) }, .error (.fault 6 4))
  else match s.resolve (e.view s) none a n .generic .move wr with
  | .ok (.reg ..) => (s, .error .reg)
  | .ok x => if (s.slice e.slice).leaving && x.inHost then (s, .error .wait) else (s, .ok x)
  | .error .wait => (s, .error .reg)
  | .error (.trap t) =>
    match s.heldAt e holds a.toNat n with
    | some x => (s, .ok x)
    | none => if t.kind == .poisonOp then (s, .error .reg) else (s, .error (.fault t.kind.code t.sub))
  | .error (.fault _ va sub replay) =>
    let page := va / 4096 * 4096
    if !replay then (s, .error (.fault 6 sub))
    else if (s.slice e.slice).faults.any (fun f => f.page == page && f.path == e.path && f.vf == e.vf && f.waiters.contains e.id) then (s, .error .wait)
    else match s.faultEntry e.slice va e.path wr false sub (if e.inCu then s.cuGlobal e.slice e.cu else 0xFFFF) e.vf with
      | some s1 => (s1.modSlice e.slice fun x => { x with faults := x.faults.map fun f =>
          if f.page == page && f.path == e.path && f.vf == e.vf then { f with waiters := f.waiters ++ [e.id] } else f }, .error .wait)
      | none => (s, .error .wait)

/-- Read `n` bytes, aligned. -/
def State.engRead (s : State) (e : Agent) (a : DWord) (n : Nat) : State × Except EngErr Nat :=
  match s.engLoc e none a n false with
  | (s1, .error x) => (s1, .error x)
  | (s1, .ok x) => match s1.readLoc (e.view s1) none a n x with
    | (s2, .ok d) => (s2, .ok d)
    | (s2, .error _) => (s2, .error .poison)

/-- An engine's SO write is a release at system scope: it awaits the markers of the stores the engine sent over the fabric
(09 R265, R284). -/
def State.engAwaits (s : State) (e : Agent) (x : Loc) : Bool := x.isSO && s.engMarkers.contains (e.slice, e.path, e.id)

/-- Perform an engine's write at its home. -/
def State.engPerform (s : State) (e : Agent) (n v : Nat) (x : Loc) : State :=
  let s1 := s.writeLoc (e.view s) n v x
  match x with
  | .glob pa _ => if sysBase ≤ pa && !s1.engMarkers.contains (e.slice, e.path, e.id) then
      { s1 with engMarkers := (e.slice, e.path, e.id) :: s1.engMarkers } else s1
  | _ => s1

/-- Write the low `n` bytes of a number, aligned. -/
def State.engWrite (s : State) (e : Agent) (holds : Option (Nat × Nat)) (a : DWord) (n v : Nat) : State × Except EngErr Unit :=
  match s.engLoc e holds a n true with
  | (s1, .error x) => (s1, .error x)
  | (s1, .ok x) => if s1.engAwaits e x then (s1, .error .wait) else (s1.engPerform e n v x, .ok ())

/-- Read bytes as chunks of a size: all of them, or the first failure. -/
def State.engBytes (s : State) (e : Agent) (a : DWord) (chunk : Nat) : Nat → State × Except EngErr (List Byte)
  | 0 => (s, .ok [])
  | k + 1 => match s.engRead e a chunk with
    | (s1, .error x) => (s1, .error x)
    | (s1, .ok d) => match s1.engBytes e (a + BitVec.ofNat 64 chunk) chunk k with
      | (s2, .error x) => (s2, .error x)
      | (s2, .ok r) => (s2, .ok (leBytes chunk d ++ r))

/-- Write bytes as chunks of a size; a failure leaves what was written before it. -/
def State.engPut (s : State) (e : Agent) (holds : Option (Nat × Nat)) (chunk : Nat) : Nat → DWord → List Byte → State × Except EngErr Unit
  | 0, _, _ => (s, .ok ())
  | k + 1, a, b => match s.engWrite e holds a chunk (leNat (b.take chunk)) with
    | (s1, .error x) => (s1, .error x)
    | (s1, .ok _) => s1.engPut e holds chunk k (a + BitVec.ofNat 64 chunk) (b.drop chunk)

/-- Whether every chunk of a range can be written: the location of each, or the first failure. -/
def State.engCheck (s : State) (e : Agent) (holds : Option (Nat × Nat)) (chunk : Nat) (wr : Bool) : Nat → DWord → State × Except EngErr (List Loc)
  | 0, _ => (s, .ok [])
  | k + 1, a => match s.engLoc e holds a chunk wr with
    | (s1, .error x) => (s1, .error x)
    | (s1, .ok x) => match s1.engCheck e holds chunk wr k (a + BitVec.ofNat 64 chunk) with
      | (s2, .error y) => (s2, .error y)
      | (s2, .ok r) => (s2, .ok (x :: r))

/-- Mark a destination as poisoned: its lines, or its scratchpad words (06 R201). `n0` is the slice of the engine. -/
def State.engSpoil (s : State) (n0 n : Nat) : Loc → State
  | .glob pa _ => match s.phys pa true with
    | .mem k =>
      let ls := (List.range (n / 128 + 2)).map (k / 128 + ·) |>.filter fun l => l * 128 < k + n
      { s with mem := { s.mem with poison := s.mem.poison ++ ls.filter fun l => !s.mem.poison.contains l } }
    | .nowhere => s.noteAccess n0 pa true
  | .scratch sl t off =>
    let ws := (List.range (n / 4 + 2)).map (off / 4 + ·) |>.filter fun w => w * 4 < off + n
    let f := fun (tm : Team) => if tm.id = t then { tm with scratch := { tm.scratch with poison := tm.scratch.poison ++ ws.filter fun w => !tm.scratch.poison.contains w } } else tm
    s.modSlice sl fun x => { x with teams := x.teams.map f, saved := x.saved.map f, held := x.held.map f }
  | _ => s

/-! ### Fills (01 R25-R27, R34, R131) -/

/-- Fill one register of a producer: the lanes that have exited are discarded. -/
def VReg.fill (r : VReg) (lanes : Mask) (f : Nat → Word) : VReg := r.put lanes f

/-- A producer of a warp fills its registers, `vals` by register index and lane. -/
def Warp.fillFlight (w : Warp) (id : Nat) (vals : Nat → Nat → Word) : Warp :=
  match w.flights.find? (·.id == id) with
  | none => w
  | some f =>
    let lanes := f.lanes &&& ~~~w.exited
    let w1 := (f.regs.mapIdx fun k r => (k, r)).foldl (fun w kr => w.vset kr.2 ((w.vget kr.2).fill lanes (vals kr.1))) w
    { w1 with flights := w1.flights.filter (·.id != id) }

/-- A producer fills its registers but for the lanes `bad`, whose words stay; with such a lane its registers are poisoned (01 R27). -/
def Warp.fillBut (w : Warp) (id : Nat) (bad : Mask) (p : Poison) (vals : Nat → Nat → Word) : Warp :=
  match w.flights.find? (·.id == id) with
  | none => w
  | some f =>
    let lanes := f.lanes &&& ~~~w.exited &&& ~~~bad
    let w1 := (f.regs.mapIdx fun k r => (k, r)).foldl (fun w kr =>
      let r := (w.vget kr.2).fill lanes (vals kr.1)
      w.vset kr.2 (if bad = 0 then r else { r with tag := .poisoned p })) w
    { w1 with flights := w1.flights.filter (·.id != id) }

/-- A producer fails: its registers are poisoned and keep their words (01 R27). -/
def Warp.failFlight (w : Warp) (id : Nat) (p : Poison) : Warp :=
  match w.flights.find? (·.id == id) with
  | none => w
  | some f =>
    let w1 := f.regs.foldl (fun w r => w.vset r { w.vget r with tag := .poisoned p }) w
    { w1 with flights := w1.flights.filter (·.id != id) }

/-- Change a warp and let its splits that wait on nothing go on. -/
def State.fillWarp (s : State) (r : WarpRef) (f : Warp → Warp) : State := s.modWarp r f

/-- Producers that are not commit-class are cancelled by the kill of their warp: their registers are poisoned (01 R27). -/
def Warp.cancelKilled (w : Warp) : Warp :=
  (w.flights.filter (!·.commit)).foldl (fun w f => w.failFlight f.id { cause := 2, code := 5, major := f.major, kind := 0 }) w

/-- Kill a warp (19 R384). -/
def State.kill (s : State) (r : WarpRef) : State := (s.modAnyWarp r Warp.cancelKilled).endWarp r 3

/-- The poison of a failed producer with a failure code (07 R215; 19 R378). -/
def failPoison (major code kind : Nat) : Poison := { cause := 1, code := code, major := major, kind := kind }

/-! ### Completion words (06 R195) -/

def compWord (st det : Nat) (fl : BitVec 6) : Word := BitVec.ofNat 32 (det + st * 2 ^ 16 + fl.toNat * 2 ^ 24)

/-- The kind under which an engine command without a completion register is logged. -/
def errCommand : Nat := 6

/-- The command fills a register: its producer has one (03 R93). -/
def State.hasReg (s : State) (r : WarpRef) (id : Nat) : Bool :=
  match ((s.slice r.slice).anyTeam r.team).bind (·.warp r.warp) with
  | some w => w.flights.any fun f => f.id == id && !f.regs.isEmpty
  | none => true

/-- Deliver a completion word: into the pending register of a resident warp, to be carried for a saved one (01 R34), else, for a
command without a register, a non-zero status goes to the slice's engine error log. -/
def State.complete (s : State) (n : Nat) (comp : Option (WarpRef × Nat)) (st det : Nat) (fl : BitVec 6) : State :=
  let word := compWord st det fl
  match comp with
  | some (r, id) =>
    let s := if st = 0 || s.hasReg r id then s else s.logErr n errCommand (word.toNat)
    match s.warp r with
    | some _ => s.fillWarp r (·.fillFlight id fun _ _ => word)
    | none => s.modAnyWarp r fun w => { w with flights := w.flights.map fun f => if f.id = id then { f with kind := .engine (some word) } else f }
  | none => if st = 0 then s else s.logErr n errCommand (word.toNat)

/-- A command of an engine or table ends the hold of the split that issued it (06 R203, R212; 07 R242). -/
def State.endCommand (s : State) (r : WarpRef) (id : Nat) : State :=
  s.modSlice r.slice fun x => x.modAnyTeam r.team fun t => t.modWarp r.warp fun w =>
    s.releaseIn r.slice t w (· == .command id) fun _ => false

/-- Begin a command that returns a completion word: its register becomes pending, unless it has none. -/
def State.beginComp (s : State) (v : View) (major : Nat) (h : Hdr) (act : Mask) : State × Warp × Option (WarpRef × Nat) :=
  match h.dst with
  | .vec _ =>
    let (id, s1) := s.fresh
    (s1, v.wp.launchFlight id major (h.outRegs 1) act true (.engine none), some (v.ref, id))
  | _ => (s, v.wp, none)

/-! ### Writing memory by an engine (07 R247; 20 R422) -/

/-- An address lies in the global space. -/
def isGlobal (a : DWord) : Bool := a.toNat / 2 ^ 48 == 0

/-- Write bytes in chunks: 64 bytes while they last, then 2. A failure gives its address; bytes before it stay written. `done`
lists the physical ranges written. -/
def State.engStream (s : State) (e : Agent) : Nat → DWord → List Byte → List (Nat × Nat) → State × Option (EngErr × DWord)
  | 0, _, _, done => (s.joinStores done, none)
  | n + 1, a, b, done =>
    if b.isEmpty then (s.joinStores done, none)
    else
      let k := if b.length ≥ 64 then 64 else 2
      match if isGlobal a then s.engLoc e none a k true else (s, .error (.fault 6 3)) with
      | (s1, .error x) => (s1.joinStores done, some (x, a))
      | (s1, .ok x) =>
        if s1.engAwaits e x then (s1.joinStores done, some (.wait, a))
        else
        let key := match x with | .glob pa _ => (match s1.phys pa true with | .mem q => [(q, k)] | .nowhere => []) | _ => []
        (s1.engPerform e k (leNat (b.take k)) x).engStream e n (a + BitVec.ofNat 64 k) (b.drop k) (key ++ done)

/-- Mark the destination lines of some chunks of 64 bytes as poisoned. -/
def State.spoilChunks (s : State) (e : Agent) (a : DWord) : List Nat → State
  | [] => s
  | k :: t =>
    let s1 := match s.engLoc e none (a + BitVec.ofNat 64 (64 * k)) 64 true with
      | (s1, .ok x) => s1.engSpoil e.slice 64 x
      | (s1, .error _) => s1
    s1.spoilChunks e a t

/-- Write bytes of which some chunks of 64 hold an uncorrectable word: those that were written are poison (17 R369). -/
def State.engImage (s : State) (e : Agent) (a : DWord) (b : List Byte) (bad : List Nat) : State × Option (EngErr × DWord) :=
  let r := s.engStream e (b.length + 1) a b []
  let n := match r.2 with | none => b.length / 64 + 1 | some x => (x.2 - a).toNat / 64
  (r.1.spoilChunks e a (bad.filter (· < n)), r.2)

/-- The rest of the last line of a range of whole lines: its poison is cleared with the line (20 R421). -/
def State.clearLast (s : State) (e : Agent) (a : DWord) (n : Nat) : State :=
  match s.engLoc e none (BitVec.ofNat 64 ((a.toNat + n - 1) / 128 * 128)) 1 true with
  | (s1, .ok (.glob pa _)) => match s1.phys pa true with | .mem k => s1.joinStores [(k / 128 * 128, 128)] | .nowhere => s1
  | (s1, _) => s1

end Sys2Proof.Machine
end

