-- ==== Sys2Proof/Machine/Copy.lean ====
section
/-! DEFINITION. Copies and decompression: CPY, CPYW, CPYC, DCMP and the steps of the copy channels (06 R197-R203, R211; 09 R280;
11 R294; 20 R420). -/

namespace Sys2Proof.Machine

/-! ### Reading a descriptor at acceptance (R201) -/

/-- What the read of a descriptor gives. -/
inductive DescRead where
  | bytes (b : List Byte)
  /-- the command ends at once with a status -/
  | ends (st : Nat)
  /-- the split is held by a replayable fault -/
  | held (s : State)

/-- Read global memory on path C in words of 8 bytes, for the acting split. -/
def State.readDesc (s : State) (v : View) (a : DWord) : Nat → State × DescRead
  | 0 => (s, .bytes [])
  | k + 1 =>
    match s.resolve v none a 8 .generic .move false with
    | .error (.fault lane va sub replay) =>
      if replay && v.sp.hold != .faultFailed (va / 4096 * 4096) then (s, .held (s.meetFault v lane va .c false false sub replay)) else (s, .ends 2)
    | .error _ => (s, .ends 2)
    | .ok x => match s.readLoc v none a 8 x with
      | (s1, .error _) => (s1, .ends 6)
      | (s1, .ok d) => match s1.readDesc v (a + 8) k with
        | (s2, .bytes r) => (s2, .bytes (leBytes 8 d ++ r))
        | r => r

/-! ### Descriptors (R197-R200) -/

/-- A field of a descriptor's bytes. -/
def fieldAt (b : List Byte) (off n : Nat) : Nat := leNat ((b.drop off).take n)
def sfieldAt (b : List Byte) (off n : Nat) : Int := signedOf (8 * n) (fieldAt b off n)

def copyCtl (b : List Byte) : Nat := fieldAt b 16 4
def copyNdim (b : List Byte) : Nat := bits (copyCtl b) 0 4

def parseCopy (b : List Byte) : CopyDesc :=
  let ctl := copyCtl b
  { src := BitVec.ofNat 64 (fieldAt b 0 8), dst := BitVec.ofNat 64 (fieldAt b 8 8), ndim := bits ctl 0 4, esz := bits ctl 4 3,
    mode := bits ctl 7 2, bind := nbit ctl 9, idx := BitVec.ofNat 64 (fieldAt b 24 8), meta_ := BitVec.ofNat 64 (fieldAt b 32 8),
    dmeta := BitVec.ofNat 64 (fieldAt b 40 8), bobj := BitVec.ofNat 64 (fieldAt b 48 8), fill := BitVec.ofNat 64 (fieldAt b 56 8),
    dims := (List.range (bits ctl 0 4)).map fun d =>
      let o := 64 + 32 * d
      (fieldAt b o 4, fieldAt b (o + 4) 4, sfieldAt b (o + 8) 4, sfieldAt b (o + 16) 8, sfieldAt b (o + 24) 8) }

def CopyDesc.elem (d : CopyDesc) : Nat := if d.mode = 2 then 256 else 2 ^ d.esz
def CopyDesc.total (d : CopyDesc) : Nat := (d.dims.map (·.1)).foldl (· * ·) 1

/-- The stride rules of MODE 0 and 1. -/
def stridesOk (e : Nat) : List (Nat × Nat × Int × Int × Int) → Bool
  | [] => true
  | [_] => true
  | (c0, _, _, _, d0) :: (c1, s1, t1, u1, d1) :: r => d1 ≥ c0 * d0 && stridesOk e ((c1, s1, t1, u1, d1) :: r)

/-- The descriptor rules of R200 but for BOBJ; `b` is all its bytes. -/
def copyOk (b : List Byte) : Bool :=
  let d := parseCopy b
  let e := d.elem
  1 ≤ d.ndim && d.ndim ≤ 14 && d.esz ≤ 4 && d.mode ≠ 3 && copyCtl b / 4096 == 0 && fieldAt b 20 4 == 0
  && d.dims.all (fun x => x.1 ≥ 1)
  && (List.range d.ndim).all (fun k => fieldAt b (64 + 32 * k + 12) 4 == 0)
  && d.total * e < 2 ^ 48
  && (if d.mode = 2 then
        d.ndim == 1 && d.esz == 0 && d.src.toNat % 4 == 0 && d.dst.toNat % 4 == 0
        && d.dims.all fun x => x.2.2.1 == 0 && x.2.1 ≥ x.1 && x.2.2.2.1 == 256 && x.2.2.2.2 == 256
      else
        (match d.dims with | x :: _ => x.2.2.2.2 == (e : Int) | [] => false) && stridesOk e d.dims
        && d.src.toNat % e == 0 && d.dst.toNat % e == 0
        && d.dims.all fun x => x.2.2.2.1 % (e : Int) == 0 && x.2.2.2.2 % (e : Int) == 0)

/-! ### Channels -/

def Slice.channel (x : Slice) (k : Nat) : Channel := (kget x.channels k).getD {}
def Slice.setChannel (x : Slice) (k : Nat) (c : Channel) : Slice := { x with channels := kset x.channels k c }
/-- The key of a channel: engines of a fused slice are numbered in member order (20 R420). -/
def chanKey (eng ch : Nat) : Nat := 4 * eng + ch
/-- Commands that a channel holds at most (R197). -/
def chanRoom : Nat := 16

/-- The channel that the slice chooses: fewest commands, then lowest engine and channel (R201). -/
def State.pickChannel (s : State) (n : Nat) : Nat :=
  let x := s.slice n
  let keys := List.range (32 * (s.members n).length)
  (isort (fun (a b : Nat × Nat) => a.1 < b.1 || (a.1 == b.1 && a.2 ≤ b.2)) (keys.map fun k => ((x.channel k).queue.length, k))).head?.elim 0 (·.2)

/-- Put a command at the end of a channel. When it becomes the first, the write pointer starts at its destination. -/
def Channel.push (c : Channel) (now : Nat) (q : CopyCmd) : Channel :=
  { queue := c.queue ++ [q], wptr := if c.queue.isEmpty then q.desc.dst else c.wptr, since := if c.queue.isEmpty then now else c.since }

/-- Take the first command off a channel. -/
def Channel.pop (c : Channel) (now : Nat) : Channel :=
  { queue := c.queue.tail, since := now, wptr := match c.queue.tail.head? with | some q => q.desc.dst | none => c.wptr }

/-- The scratchpad that a destination lies in (11 R294). -/
def State.destHold (s : State) (v : View) (a : DWord) : Option (Nat × Nat) :=
  match spaceOf .generic a.toNat with
  | some .localw => some (v.cur.slice, v.cur.team)
  | some .groupw => match v.tm.groups.getD (bits (a.toNat % 2 ^ 48) 26 2) none with
    | some (g, _) => (((s.slice v.cur.slice).group g).members.find? (·.idx == bits (a.toNat % 2 ^ 48) 20 6)).map fun m => (v.cur.slice, m.team)
    | none => none
  | _ => none

/-- The object that BOBJ names, where it meets R185. -/
def State.boundObj (s : State) (v : View) (a : DWord) : Option ObjRef :=
  match s.resolve v none a 16 .generic .barrier true with
  | .ok (.scratch sl t off) => some { slice := sl, team := t, off := off }
  | _ => none

/-- End a command at its acceptance: the register fills at once, or the status is logged. -/
def State.endNow (s : State) (v : View) (h : Hdr) (act : Mask) (st : Nat) (det : Nat := 0) : State :=
  match h.outRegs 1 with
  | n :: _ => s.doneC { v with wp := v.wp.vwrite n act fun _ => compWord st det 0 } true
  | [] => (if st = 0 then s else s.logErr v.cur.slice errCommand (compWord st det 0).toNat).doneC v true

/-- Accept a command into a channel. -/
def State.pushCopy (s : State) (v : View) (major key : Nat) (h : Hdr) (act : Mask) (d : CopyDesc) (dcmp : Bool) (obj : Option ObjRef) : State :=
  let (s1, w, comp) := s.beginComp v major h act
  let (id, s2) := s1.fresh
  let q : CopyCmd := { id := id, slice := v.cur.slice, desc := d, dcmp := dcmp, comp := comp, issuer := v.ref, vf := v.tm.vf, cu := v.tm.cu,
                       bobj := obj, holds := s2.destHold v d.dst }
  let s3 := s2.modSlice v.cur.slice fun x => x.setChannel key ((x.channel key).push s2.dtime q)
  s3.doneC { v with wp := w } true

/-! ### CPY, CPYW, CPYC, DCMP (R201-R203, R211) -/

def execCpy (h : Hdr) (eng : BitVec 3) (ch : BitVec 2) (any : Bool) (a : Src) (s : State) : Res :=
  let i := Instr.cpy h eng ch any a
  start i s fun v act =>
    if act = 0 then .next (s.done v v.wp)
    else
      let key := if any then s.pickChannel v.cur.slice else chanKey eng.toNat ch.toNat
      if ((s.slice v.cur.slice).channel key).queue.length ≥ chanRoom then .next s
      else
        let ad := valOf i 0 v act (leadLane act)
        if ad.toNat % 64 ≠ 0 ∨ (!isGlobal ad ∧ (spaceOf .generic ad.toNat).isSome) then .next (s.endNow v h act 3)
        else match s.readDesc v ad 8 with
          | (_, .held s1) => .next s1
          | (s1, .ends st) => .next (s1.endNow v h act st)
          | (s1, .bytes b0) =>
            match s1.readDesc v (ad + 64) (4 * min (copyNdim b0) 14) with
            | (_, .held s2) => .next s2
            | (s2, .ends st) => .next (s2.endNow v h act st)
            | (s2, .bytes b1) =>
              let d := parseCopy (b0 ++ b1)
              let obj := if d.bind then s2.boundObj v d.bobj else none
              if !copyOk (b0 ++ b1) || (d.bind && obj.isNone) then .next (s2.endNow v h act 3)
              else .next (s2.pushCopy v 0xA0 key h act d false obj)

def execCpyw (h : Hdr) (eng : BitVec 3) (ch : BitVec 2) (s : State) : Res :=
  start (.cpyw h eng ch) s fun v act =>
    let p := ((s.slice v.cur.slice).channel (chanKey eng.toNat ch.toNat)).wptr
    .next (s.result v v.wp h act fun _ => [loWord p, hiWord p])

/-- End the first command of a channel with a status, complete it and take it off. -/
def State.endCopy (s : State) (n key : Nat) (q : CopyCmd) (st : Nat) : State :=
  let s1 := s.modSlice n fun x => x.setChannel key ((x.channel key).pop s.dtime)
  s1.complete n q.comp st (if q.dcmp then q.written else 0) 0

/-- Cancel every command of a channel; one that had already ended keeps its status. -/
def State.cancelChannel (s : State) (n key : Nat) : List CopyCmd → State
  | [] => s
  | q :: t => (s.endCopy n key q (q.ended.getD 4)).cancelChannel n key t

def execCpyc (h : Hdr) (eng : BitVec 3) (ch : BitVec 2) (s : State) : Res :=
  start (.cpyc h eng ch) s fun v act =>
    if act = 0 then .next (s.done v v.wp)
    else
      let key := chanKey eng.toNat ch.toNat
      let c := (s.slice v.cur.slice).channel key
      let s0 := s.doneC v true
      let s1 := s0.cancelChannel v.cur.slice key c.queue
      .next (s1.modSlice v.cur.slice fun x => x.setChannel key { (x.channel key) with wptr := c.wptr })

/-- DCMP. DESIGN CHOICE (log 50): a count above 65,535 is judged after the room of the channel and before the descriptor is read. -/
def execDcmp (h : Hdr) (a b : Src) (s : State) : Res :=
  let i := Instr.dcmp h a b
  start i s fun v act =>
    if act = 0 then .next (s.done v v.wp)
    else
      let key := s.pickChannel v.cur.slice
      let n := leadVal i 1 v act
      let ad := valOf i 0 v act (leadLane act)
      if n = 0 then .next (s.endNow v h act 0)
      else if ((s.slice v.cur.slice).channel key).queue.length ≥ chanRoom then .next s
      else if n > 65535 then .next (s.endNow v h act 3)
      else if ad.toNat % 32 ≠ 0 ∨ (!isGlobal ad ∧ (spaceOf .generic ad.toNat).isSome) then .next (s.endNow v h act 3)
      else match s.readDesc v ad 4 with
        | (_, .held s1) => .next s1
        | (s1, .ends st) => .next (s1.endNow v h act st)
        | (s1, .bytes b) =>
          let blk := BitVec.ofNat 64 (fieldAt b 0 8)
          let m := BitVec.ofNat 64 (fieldAt b 8 8)
          if fieldAt b 20 12 ≠ 0 ∨ blk.toNat % 4 ≠ 0 then .next (s1.endNow v h act 3)
          else
            let d : CopyDesc := { src := blk, dst := blk, ndim := 1, mode := 2, meta_ := m, dmeta := m, fill := BitVec.ofNat 64 (fieldAt b 16 4),
                                  dims := [(n, n, 0, 256, 256)] }
            .next (s1.pushCopy v 0xA7 key h act d true none)

/-! ### Landing (R188, R198, R199, R201) -/

def CopyCmd.agent (q : CopyCmd) : Agent :=
  { slice := q.slice, team := q.issuer.team, vf := q.vf, cu := q.cu, path := .x, id := q.id }

/-- The index tuple of a position, dimension 0 fastest. -/
def tupleAt : List (Nat × Nat × Int × Int × Int) → Nat → List Nat
  | [], _ => []
  | x :: t, p => p % x.1 :: tupleAt t (p / x.1)

def offAddr (base : DWord) (o : Int) : DWord := base + BitVec.ofInt 64 o

/-- Sum of index times stride. -/
def dot (f : Nat × Nat × Int × Int × Int → Int) : List (Nat × Nat × Int × Int × Int) → List Int → Int
  | x :: t, c :: cs => c * f x + dot f t cs
  | _, _ => 0

/-- What one element or block did. -/
inductive Landed where
  | wait (s : State)
  /-- the command ends with a status -/
  | ends (s : State) (st : Nat)
  /-- bytes landed up to an address, poisoned or not -/
  | bytes (s : State) (k : Nat) (top : DWord) (poison : Bool)
  /-- a block of an invalid mode -/
  | skipped (s : State)

/-- The status with which a failed access ends a command. -/
def copyFail (s : State) : EngErr → Landed
  | .wait => .wait s
  | .reg => .ends s 8
  | .fault .. => .ends s 2
  | .poison => .ends s 6

/-- Write a destination as poisoned. -/
def spoilAt (s : State) (q : CopyCmd) (dst : DWord) (chunk k : Nat) : Landed :=
  match s.engCheck q.agent q.holds chunk true k dst with
  | (s1, .error e) => copyFail s1 e
  | (s1, .ok xs) => .bytes (xs.foldl (fun s x => s.engSpoil q.slice chunk x) s1) (chunk * k) (dst + BitVec.ofNat 64 (chunk * k)) true

/-- One element of MODE 0 or 1. -/
def landElem (s : State) (q : CopyCmd) : Landed :=
  let d := q.desc
  let e := d.elem
  let i := tupleAt d.dims q.pos
  let dst := offAddr d.dst (dot (·.2.2.2.2) d.dims (i.map Int.ofNat))
  let c0 := (d.dims.zip i).map fun x => x.1.2.2.1 + (x.2 : Int)
  let finish := fun (s : State) (c : List Int) =>
    let inb := (d.dims.zip c).all fun x => 0 ≤ x.2 && x.2 < (x.1.2.1 : Int)
    let put := fun (s : State) (v : Nat) => match s.engWrite q.agent q.holds dst e v with
      | (s1, .error x) => copyFail s1 x
      | (s1, .ok _) => .bytes s1 e (dst + BitVec.ofNat 64 e) false
    if inb then
      match s.engRead q.agent (offAddr d.src (dot (·.2.2.2.1) d.dims c)) e with
      | (s1, .error .poison) => spoilAt s1 q dst e 1
      | (s1, .error x) => copyFail s1 x
      | (s1, .ok v) => put s1 v
    else put s ((d.fill.toNat + 2 ^ 64 * d.fill.toNat) % 256 ^ e)
  if d.mode = 1 then
    match s.engRead q.agent (offAddr d.idx (4 * c0.getLastD 0)) 4 with
    | (s1, .error .poison) => spoilAt s1 q dst e 1
    | (s1, .error x) => copyFail s1 x
    | (s1, .ok g) => finish s1 (c0.dropLast ++ [(g : Int)])
  else finish s c0

/-- Write a block's raw bytes, then its mode byte; a line that the block covers is written whole (20 R422). -/
def landBlock (s : State) (q : CopyCmd) (b : List Byte) : Landed :=
  let d := q.desc
  let dst := d.dst + BitVec.ofNat 64 (256 * q.pos)
  match s.engCheck q.agent q.holds 4 true 64 dst with
  | (s1, .error x) => copyFail s1 x
  | (s1, .ok xs) =>
    let md := d.dmeta + BitVec.ofNat 64 q.pos
    let done := fun (s : State) => Landed.bytes (s.joinStores (s.locKeys 4 xs)) 256 (dst + 256) false
    if d.dmeta = 0 then (match s1.engPut q.agent q.holds 4 64 dst b with | (s2, .error x) => copyFail s2 x | (s2, .ok _) => done s2)
    else match s1.engLoc q.agent none md 1 true with
      | (s2, .error x) => copyFail s2 x
      | (s2, .ok _) => match s2.engPut q.agent q.holds 4 64 dst b with
        | (s3, .error x) => copyFail s3 x
        | (s3, .ok _) => match s3.engWrite q.agent none md 1 0 with
          | (s4, .error x) => copyFail s4 x
          | (s4, .ok _) => done s4

/-- One block of MODE 2. -/
def landMode2 (s : State) (q : CopyCmd) : Landed :=
  let d := q.desc
  let src := d.src + BitVec.ofNat 64 (256 * q.pos)
  let dst := d.dst + BitVec.ofNat 64 (256 * q.pos)
  match s.engRead q.agent (d.meta_ + BitVec.ofNat 64 q.pos) 1 with
  | (s1, .error .poison) => spoilAt s1 q dst 4 64
  | (s1, .error x) => copyFail s1 x
  | (s1, .ok m) =>
    if m = 0xFF then landBlock s1 q ((List.replicate 64 (leBytes 4 d.fill.toNat)).flatten)
    else if m ≠ 0 ∧ !validMode m then .skipped s1
    else
      let words := if m = 0 then 64 else (packedSize m + 3) / 4
      match s1.engBytes q.agent src 4 words with
      | (s2, .error .poison) => spoilAt s2 q dst 4 64
      | (s2, .error x) => copyFail s2 x
      | (s2, .ok b) => landBlock s2 q (if m = 0 then b else deltaDecode m b)

/-- Count landed bytes against the bound object (R188). -/
def State.landBound (s : State) (o : Option ObjRef) (k : Nat) : State × Bool :=
  match o with
  | none => (s, false)
  | some o =>
    let r := barLand (barOf ((s.scratchOf o.slice o.team).readN o.off 16)) k
    (s.scratchWrite o.slice o.team o.off (leBytes 16 (barBits r.1)), r.2)

/-- The status of a command whose last element is done. -/
def CopyCmd.final (q : CopyCmd) : Nat := if q.poisoned then 6 else if q.badMode then 9 else 0

/-- One step of a channel's first command: an element or a block. DESIGN CHOICE (log 70): a block of an invalid mode is counted in that the
command goes on after it; no bytes of it land on a bound object. -/
def State.landStep (s : State) (n key : Nat) (q : CopyCmd) : State :=
  let put := fun (s : State) (q : CopyCmd) (top : Option DWord) => s.modSlice n fun x =>
    let c := x.channel key
    let q1 := if q.pos ≥ q.desc.total && q.ended.isNone then { q with ended := some q.final } else q
    x.setChannel key { queue := q1 :: c.queue.tail, since := s.dtime, wptr := match top with | some p => p | none => c.wptr }
  match if q.desc.mode = 2 then landMode2 s q else landElem s q with
  | .wait s1 => s1
  | .ends s1 st => put s1 { q with ended := some st } none
  | .skipped s1 => put s1 { q with pos := q.pos + 1, badMode := true, gap := true } none
  | .bytes s1 k top bad =>
    let (s2, overrun) := s1.landBound q.bobj k
    let q1 := { q with pos := q.pos + 1, poisoned := q.poisoned || bad, written := if bad then q.written else q.written + 1,
                       ended := if overrun then some 7 else none }
    put s2 q1 (if q.gap then none else some top)

def execCopyElementLanding (slice eng ch : Nat) (s : State) : Res :=
  let key := chanKey eng ch
  match ((s.slice slice).channel key).queue.head? with
  | some q => if q.ended.isNone then .next (s.landStep slice key q) else .next s
  | none => .next s

/-! ### Completion -/

/-- The end address of a command. -/
def CopyCmd.endAddr (q : CopyCmd) : DWord :=
  let d := q.desc
  if d.mode = 2 then d.dst + BitVec.ofNat 64 (256 * d.total)
  else offAddr d.dst (dot (·.2.2.2.2) d.dims (d.dims.map fun x => (x.1 : Int) - 1)) + BitVec.ofNat 64 d.elem

/-- Complete the ended first command of a channel. -/
def completeCopy (slice eng ch : Nat) (dcmp : Bool) (s : State) : State :=
  let key := chanKey eng ch
  match ((s.slice slice).channel key).queue.head? with
  | some q =>
    match q.ended with
    | some st =>
      if q.dcmp != dcmp then s
      else
        let s1 := if st = 0 || st = 6 || st = 9 then
            s.modSlice slice fun x => x.setChannel key { (x.channel key) with wptr := q.endAddr } else s
        s1.endCopy slice key q st
    | none => s
  | none => s

def execCopyComplete (slice eng ch : Nat) (s : State) : Res := .next (completeCopy slice eng ch false s)
def execDcmpComplete (slice eng ch : Nat) (s : State) : Res := .next (completeCopy slice eng ch true s)

end Sys2Proof.Machine
end

