-- ==== Sys2Proof/Machine/Int.lean ====
section
/-! DEFINITION. Moves, integers, logic, shifts, bit fields, comparisons and addresses: majors 0x00 to 0x2A (04 R121-R127). -/

namespace Sys2Proof.Machine

/-! ### Shared computations -/

/-- The width of the W64 bit. -/
def wOf (w64 : Bool) : Nat := if w64 then 64 else 32
/-- A number in a width. -/
def inW (w : Nat) (x : Nat) : DWord := BitVec.ofNat 64 (x % 2 ^ w)
/-- A value read in the low bits of a width. -/
def lowW (w : Nat) (x : DWord) : Nat := x.toNat % 2 ^ w
/-- An exact integer wrapped to a width. -/
def wrap (w : Nat) (x : Int) : DWord := BitVec.ofNat 64 (intBits w x)
/-- The shift amount, read as n32 (R124). -/
def amount (b : DWord) : Nat := lowW 32 b

/-- BOOL3 and PBOOL: bit `k` of a look-up table. -/
def lutBit (lut : BitVec 8) (x y z : Bool) : Bool := lut.getLsbD (x.toNat + 2 * y.toNat + 4 * z.toNat)

def bool3 (w : Nat) (lut : BitVec 8) (a b c : DWord) : DWord :=
  BitVec.ofNat 64 ((List.range w).foldl (fun r k => r + (lutBit lut (a.getLsbD k) (b.getLsbD k) (c.getLsbD k)).toNat * 2 ^ k) 0)

def shiftL (w : Nat) (a b : DWord) : DWord := if amount b ≥ w then 0 else inW w (lowW w a * 2 ^ amount b)
def shiftR (w : Nat) (a b : DWord) : DWord := if amount b ≥ w then 0 else inW w (lowW w a / 2 ^ amount b)
/-- SAR: floor division of the signed value, so that a large amount leaves copies of the sign. -/
def shiftA (w : Nat) (a b : DWord) : DWord :=
  let t := if w = 64 then Ty.s64 else Ty.s32
  wrap w (intOf t a / ((2 ^ (min (amount b) w) : Nat) : Int))
def rotL (w : Nat) (a b : DWord) : DWord :=
  let n := amount b % w
  inW w (lowW w a * 2 ^ n + lowW w a / 2 ^ (w - n))
def funnelL (a b c : DWord) : DWord := inW 32 ((lowW 32 a * 2 ^ 32 + lowW 32 b) * 2 ^ min (amount c) 32 / 2 ^ 32)
def funnelR (a b c : DWord) : DWord := inW 32 ((lowW 32 a * 2 ^ 32 + lowW 32 b) / 2 ^ min (amount c) 32)

/-- BFE (R125). Bits past the top are zero, or copies of the sign bit. -/
def bitExtract (t : Ty) (a b c : DWord) : DWord :=
  let w := t.bits
  let len := min (amount c) w
  let x : Int := if t.signed then intOf t a else (lowW w a : Int)
  let f : Int := (x / ((2 ^ (min (amount b) (w + 1)) : Nat) : Int)) % ((2 ^ len : Nat) : Int)
  if len = 0 then 0
  else if t.signed && f ≥ ((2 ^ (len - 1) : Nat) : Int) then wrap w (f - ((2 ^ len : Nat) : Int)) else wrap w f

/-- BFI (R125). -/
def bitInsert (a b c : DWord) : DWord :=
  let p := bits c.toNat 0 8
  let len := bits c.toNat 8 8
  BitVec.ofNat 64 ((List.range 32).foldl (fun r k =>
    r + (if p ≤ k ∧ k < p + len then a.getLsbD (k - p) else b.getLsbD k).toNat * 2 ^ k) 0)

def popCount (w : Nat) (a : DWord) : Nat := ((List.range w).filter (a.getLsbD ·)).length
def leadZeros (w : Nat) (a : DWord) : Nat := if lowW w a = 0 then w else w - 1 - (lowW w a).log2
def trailZeros (w : Nat) (a : DWord) : Nat := ((List.range w).find? (a.getLsbD ·)).getD w
def bitReverse (w : Nat) (a : DWord) : DWord :=
  BitVec.ofNat 64 ((List.range w).foldl (fun r k => r + (a.getLsbD (w - 1 - k)).toNat * 2 ^ k) 0)

/-- BPERM (R125). -/
def bytePerm (a b c : DWord) : DWord :=
  let e := lowW 32 a + 2 ^ 32 * lowW 32 b
  BitVec.ofNat 64 ((List.range 4).foldl (fun r i =>
    let sel := bits c.toNat (4 * i) 4
    let v := bits e (8 * (sel % 8)) 8
    r + (if sel ≥ 8 then (if v ≥ 128 then 255 else 0) else v) * 256 ^ i) 0)

/-- IDOT4 (R123). -/
def dot4 (ta tb : Ty) (sat : Bool) (a b c : DWord) : DWord :=
  let el := fun (t : Ty) (x : DWord) (i : Nat) => intOf t (x >>> (8 * i))
  let t := intOf .s32 c + ((List.range 4).map fun i => el ta a i * el tb b i).sum
  wrap 32 (if sat then satInt .s32 t else t)

/-- A comparison combined with a predicate (R126). -/
def combine (k : Comb) (c e : Bool) : Bool := match k with | .and => c && e | .or => c || e | .xor => c != e

def cmpInt (cond : Cond) (t : Ty) (a b : DWord) : Bool := compareInt cond (intOf t a) (intOf t b)

/-- A comparison that writes a predicate (R126; 05 R149). -/
def predCmp (i : Instr) (k : Comb) (cp : PRef) (f : Warp → DWord → DWord → Bool × Flags) (s : State) : Res :=
  alu i (fun w l xs => op2 (fun a b =>
    let r := f w a b
    { val := ofB (combine k r.1 (w.pref i.hdr.u cp l)), fl := r.2 }) xs) s

/-- Sign-extend the low bits of a word (R127). -/
def sext (n : Nat) (a : DWord) : DWord :=
  let u := a.toNat % 2 ^ n
  wrap 32 (if u ≥ 2 ^ (n - 1) then (u : Int) - ((2 ^ n : Nat) : Int) else (u : Int))

/-! ### Moves and selects (R121) -/

def execNop (h : Hdr) (s : State) : Res := start (.nop h) s fun v _ => .next (s.done v v.wp)
def execMov (h : Hdr) (w64 : Bool) (a : Src) (s : State) : Res := alu (.mov h w64 a) (val1 fun x => x) s
def execMovi (h : Hdr) (ext : Ext) (imm : Word) (s : State) : Res :=
  alu (.movi h ext imm) (fun _ _ _ => { val := if ext == .sx then imm.signExtend 64 else zext64 imm }) s
def execSel (h : Hdr) (w64 : Bool) (sp : PRef) (a b : Src) (s : State) : Res :=
  alu (.sel h w64 sp a b) (fun w l xs => op2 (fun x y => { val := if w.pref h.u sp l then x else y }) xs) s

/-! ### Integer arithmetic (R122, R123; 02 R45, R46) -/

def execIadd (h : Hdr) (a b : Src) (s : State) : Res := alu (.iadd h a b) (val2 fun x y => inW 32 (x.toNat + y.toNat)) s
def execIsub (h : Hdr) (a b : Src) (s : State) : Res := alu (.isub h a b) (val2 fun x y => inW 32 (lowW 32 x + (2 ^ 32 - lowW 32 y))) s
def execIadd64 (h : Hdr) (a b : Src) (s : State) : Res := alu (.iadd64 h a b) (val2 fun x y => x + y) s
def execIsub64 (h : Hdr) (a b : Src) (s : State) : Res := alu (.isub64 h a b) (val2 fun x y => x - y) s
def execImul (h : Hdr) (a b : Src) (s : State) : Res := alu (.imul h a b) (val2 fun x y => inW 32 (x.toNat * y.toNat)) s
def execImulh (h : Hdr) (t : Ty) (a b : Src) (s : State) : Res :=
  alu (.imulh h t a b) (val2 fun x y => wrap 32 (intOf t x * intOf t y / 2 ^ 32)) s
def execImad (h : Hdr) (a b c : Src) (s : State) : Res :=
  alu (.imad h a b c) (val3 fun x y z => inW 32 (x.toNat * y.toNat + z.toNat)) s
def execImad64 (h : Hdr) (t : Ty) (a b c : Src) (s : State) : Res :=
  alu (.imad64 h t a b c) (val3 fun x y z => wrap 64 (intOf t x * intOf t y + z.toNat)) s
def execIdiv (h : Hdr) (t : Ty) (a b : Src) (s : State) : Res :=
  alu (.idiv h t a b) (fun _ _ xs => op2 (fun x y => { val := (divInt t x y).1, quiet := flIf (divInt t x y).2.2 flDZ }) xs) s
def execIrem (h : Hdr) (t : Ty) (a b : Src) (s : State) : Res :=
  alu (.irem h t a b) (fun _ _ xs => op2 (fun x y => { val := (divInt t x y).2.1, quiet := flIf (divInt t x y).2.2 flDZ }) xs) s
def execImin (h : Hdr) (t : Ty) (a b : Src) (s : State) : Res :=
  alu (.imin h t a b) (val2 fun x y => if intOf t y < intOf t x then y else x) s
def execImax (h : Hdr) (t : Ty) (a b : Src) (s : State) : Res :=
  alu (.imax h t a b) (val2 fun x y => if intOf t x < intOf t y then y else x) s
def execIabs (h : Hdr) (t : Ty) (a : Src) (s : State) : Res := alu (.iabs h t a) (val1 fun x => wrap t.bits ((intOf t x).natAbs : Int)) s
def execIneg (h : Hdr) (t : Ty) (a : Src) (s : State) : Res := alu (.ineg h t a) (val1 fun x => wrap t.bits (-(intOf t x))) s
def execIadds (h : Hdr) (t : Ty) (a b : Src) (s : State) : Res :=
  alu (.iadds h t a b) (val2 fun x y => wrap 32 (satInt t (intOf t x + intOf t y))) s
def execIdot4 (h : Hdr) (ta tb : Ty) (sat : Bool) (a b c : Src) (s : State) : Res :=
  alu (.idot4 h ta tb sat a b c) (val3 (dot4 ta tb sat)) s

/-! ### Logic and shifts (R124) -/

def execAnd (h : Hdr) (w64 : Bool) (a b : Src) (s : State) : Res := alu (.and h w64 a b) (val2 fun x y => x &&& y) s
def execOr (h : Hdr) (w64 : Bool) (a b : Src) (s : State) : Res := alu (.or h w64 a b) (val2 fun x y => x ||| y) s
def execXor (h : Hdr) (w64 : Bool) (a b : Src) (s : State) : Res := alu (.xor h w64 a b) (val2 fun x y => x ^^^ y) s
def execNot (h : Hdr) (w64 : Bool) (a : Src) (s : State) : Res := alu (.not h w64 a) (val1 fun x => inW (wOf w64) (~~~x).toNat) s
def execBool3 (h : Hdr) (w64 : Bool) (lut : BitVec 8) (a b c : Src) (s : State) : Res :=
  alu (.bool3 h w64 lut a b c) (val3 (bool3 (wOf w64) lut)) s
def execShl (h : Hdr) (w64 : Bool) (a b : Src) (s : State) : Res := alu (.shl h w64 a b) (val2 (shiftL (wOf w64))) s
def execShr (h : Hdr) (w64 : Bool) (a b : Src) (s : State) : Res := alu (.shr h w64 a b) (val2 (shiftR (wOf w64))) s
def execSar (h : Hdr) (w64 : Bool) (a b : Src) (s : State) : Res := alu (.sar h w64 a b) (val2 (shiftA (wOf w64))) s
def execRot (h : Hdr) (w64 : Bool) (a b : Src) (s : State) : Res := alu (.rot h w64 a b) (val2 (rotL (wOf w64))) s
def execFshl (h : Hdr) (a b c : Src) (s : State) : Res := alu (.fshl h a b c) (val3 funnelL) s
def execFshr (h : Hdr) (a b c : Src) (s : State) : Res := alu (.fshr h a b c) (val3 funnelR) s

/-! ### Bit fields and counts (R125) -/

def execBfe (h : Hdr) (t : Ty) (a b c : Src) (s : State) : Res := alu (.bfe h t a b c) (val3 (bitExtract t)) s
def execBfi (h : Hdr) (a b c : Src) (s : State) : Res := alu (.bfi h a b c) (val3 bitInsert) s
def execPopc (h : Hdr) (w64 : Bool) (a : Src) (s : State) : Res := alu (.popc h w64 a) (val1 fun x => BitVec.ofNat 64 (popCount (wOf w64) x)) s
def execClz (h : Hdr) (w64 : Bool) (a : Src) (s : State) : Res := alu (.clz h w64 a) (val1 fun x => BitVec.ofNat 64 (leadZeros (wOf w64) x)) s
def execCtz (h : Hdr) (w64 : Bool) (a : Src) (s : State) : Res := alu (.ctz h w64 a) (val1 fun x => BitVec.ofNat 64 (trailZeros (wOf w64) x)) s
def execBrev (h : Hdr) (w64 : Bool) (a : Src) (s : State) : Res := alu (.brev h w64 a) (val1 (bitReverse (wOf w64))) s
def execBperm (h : Hdr) (a b c : Src) (s : State) : Res := alu (.bperm h a b c) (val3 bytePerm) s

/-! ### Comparisons and addresses (R126, R127) -/

def execIpred (h : Hdr) (cond : Cond) (k : Comb) (t : Ty) (cp : PRef) (a b : Src) (s : State) : Res :=
  predCmp (.ipred h cond k t cp a b) k cp (fun _ x y => (cmpInt cond t x y, 0)) s
def execIcmp (h : Hdr) (cond : Cond) (t : Ty) (a b : Src) (s : State) : Res :=
  alu (.icmp h cond t a b) (val2 fun x y => ones32 (cmpInt cond t x y)) s
def execLea (h : Hdr) (sh : BitVec 6) (sx : Bool) (a b : Src) (s : State) : Res :=
  alu (.lea h sh sx a b) (val2 fun x y => x + ((if sx then (loWord y).signExtend 64 else zext64 (loWord y)) <<< sh.toNat)) s
def execSxt (h : Hdr) (width : BitVec 6) (a : Src) (s : State) : Res := alu (.sxt h width a) (val1 (sext width.toNat)) s
def execZxt (h : Hdr) (width : BitVec 6) (a : Src) (s : State) : Res := alu (.zxt h width a) (val1 fun x => inW width.toNat x.toNat) s

end Sys2Proof.Machine
end

