-- ==== Sys2Proof/Machine/Lanes.lean ====
section
/-! DEFINITION. Predicates and lanes: majors 0x40 to 0x4A (04 R138-R145; 02 R70, R71, R73, R74; 01 R15, R16). -/

namespace Sys2Proof.Machine

/-! ### Sections -/

/-- The lanes of the section that holds a lane. -/
def Warp.section_ (w : Warp) (l : Nat) : List Nat := (List.range w.width).map (w.base l + ·)
/-- The active set of a lane's section. -/
def Warp.activeIn (w : Warp) (act : Mask) (l : Nat) : List Nat := (w.section_ l).filter (bit act)
/-- A word with the position bits of some lanes of a section. -/
def Warp.posMask (w : Warp) (ls : List Nat) : DWord := zext64 (maskOf fun j => ls.any fun l => w.pos l == j)

/-! ### Trees (02 R73, R74) -/

/-- A value in a tree: the word, the flags of the steps under it, and whether an active lane contributes (01 R38). -/
structure Leaf where
  word : Word
  fl : Flags := 0
  real : Bool
  deriving DecidableEq

/-- One step: a step of identities alone sets no flag (R141). -/
def treeStep (op : Word → Word → Word × Flags) (a b : Leaf) : Leaf :=
  let r := op a.word b.word
  { word := r.1, fl := a.fl ||| b.fl ||| (if a.real || b.real then r.2 else 0), real := a.real || b.real }

/-- The tree value of the aligned block of 2^k positions at `lo`. -/
def treeAt (op : Word → Word → Word × Flags) (x : Nat → Leaf) : Nat → Nat → Leaf
  | 0, lo => x lo
  | k + 1, lo => treeStep op (treeAt op x k lo) (treeAt op x k (lo + 2 ^ k))

/-- The inclusive fold of the first `n` positions by aligned blocks in descending size. -/
def foldBlocks (op : Word → Word → Word × Flags) (x : Nat → Leaf) (n : Nat) : Nat → Nat → Option Leaf → Option Leaf
  | 0, pos, run => if nbit n 0 then some (match run with | some r => treeStep op r (treeAt op x 0 pos) | none => treeAt op x 0 pos) else run
  | k + 1, pos, run =>
    if nbit n (k + 1) then
      let b := treeAt op x (k + 1) pos
      foldBlocks op x n k (pos + 2 ^ (k + 1)) (some (match run with | some r => treeStep op r b | none => b))
    else foldBlocks op x n k pos run

/-- The identity of a reduction (R73). -/
def identityOf (t : Ty) (op : RedOp) : Word :=
  match op with
  | .add => if t == .f32 then 0x80000000 else 0
  | .min => if t == .f32 then 0x7F800000 else if t == .s32 then 0x7FFFFFFF else 0xFFFFFFFF
  | .max => if t == .f32 then 0xFF800000 else if t == .s32 then 0x80000000 else 0
  | .and => 0xFFFFFFFF | .or | .xor => 0

/-- One combination of a reduction (R141). -/
def reduceOp (t : Ty) (op : RedOp) (mode : RM) (ftz : Bool) (a b : Word) : Word × Flags :=
  let less : Bool := if t == .s32 then a.slt b else a.ult b
  match op with
  | .add => if t == .f32 then fadd32 mode ftz a b else (a + b, 0)
  | .min => if t == .f32 then minmax32 false true ftz a b else (if less then a else b, 0)
  | .max => if t == .f32 then minmax32 true true ftz a b else (if less then b else a, 0)
  | .and => (a &&& b, 0) | .or => (a ||| b, 0) | .xor => (a ^^^ b, 0)

/-- The leaves of a lane's section: an inactive lane gives the identity. -/
def sectionLeaf (w : Warp) (act : Mask) (l : Nat) (ident : Word) (val : Nat → Word) (j : Nat) : Leaf :=
  let k := w.base l + j
  if bit act k then { word := val k, real := true } else { word := ident, real := false }

/-- LRED in a lane (R141). -/
def lredLane (w : Warp) (act : Mask) (t : Ty) (rm : RM) (op : RedOp) (val : Nat → Word) (l : Nat) : Leaf :=
  treeAt (reduceOp t op (w.rm rm) w.ftz) (sectionLeaf w act l (identityOf t op) val) w.part 0

/-- LSCAN in a lane (R141). -/
def lscanLane (w : Warp) (act : Mask) (t : Ty) (rm : RM) (excl : Bool) (op : RedOp) (val : Nat → Word) (l : Nat) : Leaf :=
  let n := if excl then w.pos l else w.pos l + 1
  (foldBlocks (reduceOp t op (w.rm rm) w.ftz) (sectionLeaf w act l (identityOf t op) val) n 5 0 none).getD
    { word := identityOf t op, real := false }

def leafOut (x : Leaf) : AluOut := { val := zext64 x.word, fl := x.fl }

/-! ### Hadamard transform (02 R70, R71; R144) -/

/-- One butterfly stage over a list of words with the flags that reach them. -/
def hadStage (ftz : Bool) (t : Nat) (x : List (Word × Flags)) : List (Word × Flags) :=
  x.mapIdx fun i me =>
    let j := i ^^^ 2 ^ t
    let o := x.getD j (0, 0)
    let r := if nbit i t then fsub32 .rne ftz o.1 me.1 else fadd32 .rne ftz me.1 o.1
    (r.1, r.2 ||| me.2 ||| o.2)

def hadStages (ftz : Bool) : Nat → Nat → List (Word × Flags) → List (Word × Flags)
  | 0, _, x => x
  | n + 1, t, x => hadStages ftz n (t + 1) (hadStage ftz t x)

/-- The transform of 16 or 32 words with the scale of its side. -/
def hadamard (ftz : Bool) (size32 sideB : Bool) (x : List Word) : List (Word × Flags) :=
  let s : Word := if size32 && !sideB then 0x3E000000 else 0x3E800000
  (hadStages ftz (if size32 then 5 else 4) 0 (x.map fun w => (w, 0))).map fun r =>
    let m := fmul32 .rne ftz r.1 s
    (m.1, m.2 ||| r.2)

/-! ### The instructions -/

def execPbool (h : Hdr) (pa pb pc : PRef) (lut : BitVec 8) (s : State) : Res :=
  alu (.pbool h pa pb pc lut) (fun w l _ =>
    { val := ofB (lutBit lut (w.pref h.u pa l) (w.pref h.u pb l) (w.pref h.u pc l)) }) s

/-- PMOV with DIR 0 reads the predicates of a lane as a word; with DIR 1 it writes those its mask names (R138). -/
def execPmov (h : Hdr) (mask : BitVec 7) (a : Option Src) (s : State) : Res :=
  match a with
  | none => alu (.pmov h mask none) (fun w l _ =>
      { val := BitVec.ofNat 64 ((List.range 7).foldl (fun r k => r + (w.pref h.u { neg := false, num := BitVec.ofNat 3 k } l).toNat * 2 ^ k) 0) }) s
  | some a => start (.pmov h mask (some a)) s fun v act =>
      let val := fun l => valOf (.pmov h mask (some a)) 0 v act l
      let w := if act = 0 then v.wp else (List.range 7).foldl (fun w k =>
        if !mask.getLsbD k then w
        else if h.u then w.qwrite k ((val (leadLane act)).getLsbD k)
        else w.pwrite k act fun l => (val l).getLsbD k) v.wp
      .next (s.done v w)

def execPoll (h : Hdr) (mode : PollMode) (vp : PRef) (s : State) : Res :=
  start (.poll h mode vp) s fun v act =>
    let w := v.wp
    let p := fun l => w.pref false vp l
    finishAlu s v h 1 act fun l =>
      let set := w.activeIn act l
      { val := match mode with
          | .all => ofB (set.all p)
          | .any => ofB (set.any p)
          | .same => ofB (set.all p || set.all (!p ·))
          | .mask => match h.dst with
            | .scal _ => zext64 (maskOf fun k => bit act k && p k)
            | _ => w.posMask (set.filter p) }

/-- The lane whose A a lane of LXCH reads (R140). -/
def lxchLane (w : Warp) (mode : LxchMode) (l m : Nat) : Nat :=
  let j := w.pos l
  let k := match mode with
    | .src => m % 32
    | .below => if m ≤ j then j - m else w.width
    | .above => j + m
    | .flip => j ^^^ (m % 32)
  if k < w.width then w.base l + k else l

/-- A lane exchange: uncorrectable words are met in the lanes that are read. -/
def exchange (i : Instr) (lane : Warp → Nat → Nat → Nat) (words : Nat) (s : State) : Res :=
  start i s fun v act =>
    let from_ := fun l => lane v.wp l (lowW 32 (valOf i 1 v act l))
    match if act = 0 then none else (srcOf i 0).bind fun x => v.wp.readSrc v.sp.run (maskOf fun k => (laneList act).any (from_ · == k)) x with
    | some (t, w) => .next (s.takeTrap { v with wp := w } t)
    | none => finishAlu s v i.hdr words act fun l => { val := valOf i 0 v act (from_ l) }

def execLxch (h : Hdr) (mode : LxchMode) (w64 : Bool) (a b : Src) (s : State) : Res :=
  exchange (.lxch h mode w64 a b) (fun w l m => lxchLane w mode l m) (if w64 then 2 else 1) s
def execLperm (h : Hdr) (w64 : Bool) (a b : Src) (s : State) : Res :=
  exchange (.lperm h w64 a b) (fun w l m => w.base l + m % w.width) (if w64 then 2 else 1) s

def execLred (h : Hdr) (t : Ty) (rm : RM) (op : RedOp) (a : Src) (s : State) : Res :=
  start (.lred h t rm op a) s fun v act =>
    finishAlu s v h 1 act fun l => leafOut (lredLane v.wp act t rm op (fun k => loWord (valOf (.lred h t rm op a) 0 v act k)) l)
def execLscan (h : Hdr) (t : Ty) (rm : RM) (excl : Bool) (op : RedOp) (a : Src) (s : State) : Res :=
  start (.lscan h t rm excl op a) s fun v act =>
    finishAlu s v h 1 act fun l =>
      leafOut (lscanLane v.wp act t rm excl op (fun k => loWord (valOf (.lscan h t rm excl op a) 0 v act k)) l)

def execPeers (h : Hdr) (all w64 : Bool) (a : Src) (s : State) : Res :=
  start (.peers h all w64 a) s fun v act =>
    let val := valOf (.peers h all w64 a) 0 v act
    finishAlu s v h 1 act fun l =>
      let set := v.wp.activeIn act l
      { val := if all then (if set.all (val · == val l) then v.wp.posMask set else 0) else v.wp.posMask (set.filter (val · == val l)) }

def execLead (h : Hdr) (s : State) : Res :=
  start (.lead h) s fun v act =>
    finishAlu s v h 1 act fun l => { val := ofB ((v.wp.activeIn act l).head? == some l) }

/-- PARTSET: a value outside 1 to 5 is an illegal instruction naming A (R143; 01 R15). -/
def execPartset (h : Hdr) (a : Src) (s : State) : Res :=
  start (.partset h a) s fun v act =>
    if act = 0 then .next (s.done v v.wp)
    else
      let x := (valOf (.partset h a) 0 v act (leadLane act)).toNat
      if 1 ≤ x ∧ x ≤ 5 then .next (s.done v { v.wp with part := x }) else .next (s.takeTrap v (illegal 7))

def execHad (h : Hdr) (size32 sideB : Bool) (a : Src) (s : State) : Res :=
  start (.had h size32 sideB a) s fun v act =>
    let n := if size32 then 32 else 16
    if act ≠ 0 ∧ n > v.wp.width then .next (s.takeTrap v (illegal 10))
    else
      let val := fun k => if bit act k then loWord (valOf (.had h size32 sideB a) 0 v act k) else 0
      let blocks := (List.range (32 / n)).map fun b => hadamard v.wp.ftz size32 sideB ((List.range n).map fun i => val (n * b + i))
      finishAlu s v h 1 act fun l => ofW ((blocks.getD (l / n) []).getD (l % n) (0, 0))

end Sys2Proof.Machine
end

