-- ==== Sys2Proof/Machine/Float.lean ====
section
/-! DEFINITION. Floating point: majors 0x50 to 0x69 (05 R146-R155). -/

namespace Sys2Proof.Machine

/-! ### Shapes -/

/-- FP32 operations of one, two and three operands with the warp's mode and FTZ. -/
def fop1 (f : RM → Bool → Word → Word × Flags) (rm : RM) (w : Warp) (_ : Nat) (xs : List DWord) : AluOut :=
  op1 (fun a => ofW (f (w.rm rm) w.ftz (loWord a))) xs
def fop2 (f : RM → Bool → Word → Word → Word × Flags) (rm : RM) (w : Warp) (_ : Nat) (xs : List DWord) : AluOut :=
  op2 (fun a b => ofW (f (w.rm rm) w.ftz (loWord a) (loWord b))) xs
def fop3 (f : RM → Bool → Word → Word → Word → Word × Flags) (rm : RM) (w : Warp) (_ : Nat) (xs : List DWord) : AluOut :=
  op3 (fun a b c => ofW (f (w.rm rm) w.ftz (loWord a) (loWord b) (loWord c))) xs

/-- The half `i` of a packed word. -/
def half (x : DWord) (i : Nat) : Nat := bits x.toNat (16 * i) 16

/-- A packed operation on two elements of a format (R152). -/
def packed (f : Fmt) (op : RM → List Fp → Fp × Flags) (rm : RM) (w : Warp) (_ : Nat) (xs : List DWord) : AluOut :=
  let m := w.rm rm
  let el := fun i => f.finish m w.ftz (op m (xs.map fun x => f.decode w.ftz (half x i)))
  { val := BitVec.ofNat 64 ((el 0).1 + 65536 * (el 1).1), fl := (el 0).2 ||| (el 1).2 }

def addList (m : RM) : List Fp → Fp × Flags | a :: b :: _ => addFp m a b | _ => (.nan false, 0)
def mulList (_ : RM) : List Fp → Fp × Flags | a :: b :: _ => mulFp a b | _ => (.nan false, 0)
def fmaList (m : RM) : List Fp → Fp × Flags | a :: b :: c :: _ => fmaFp m a b c | _ => (.nan false, 0)

/-- An FP64 operation; FTZ never applies (R153). -/
def dop (op : RM → List Fp → Fp × Flags) (rm : RM) (w : Warp) (_ : Nat) (xs : List DWord) : AluOut :=
  let m := w.rm rm
  let r := Fmt.f64.finish m false (op m (xs.map fun x => Fmt.f64.decode false x.toNat))
  { val := BitVec.ofNat 64 r.1, fl := r.2 }

/-- Dot products into FP32 (R154, R155): c plus the products, one rounding. -/
def dotOut (w : Warp) (rm : RM) (c : DWord) (prods : List (Fp × Fp)) : AluOut :=
  let m := w.rm rm
  ofW (f32op m w.ftz (dotFp m [f32 w.ftz (loWord c)] prods))

/-- FP32 comparison operands under FTZ (R149). -/
def fcompare (cond : Cond) (w : Warp) (a b : DWord) : Bool × Flags := compareFp cond (f32 w.ftz (loWord a)) (f32 w.ftz (loWord b))

/-! ### FP32 (R147-R151) -/

def execFadd (h : Hdr) (rm : RM) (a b : Src) (s : State) : Res := alu (.fadd h rm a b) (fop2 fadd32 rm) s
def execFsub (h : Hdr) (rm : RM) (a b : Src) (s : State) : Res := alu (.fsub h rm a b) (fop2 fsub32 rm) s
def execFmul (h : Hdr) (rm : RM) (a b : Src) (s : State) : Res := alu (.fmul h rm a b) (fop2 fmul32 rm) s
def execFfma (h : Hdr) (rm : RM) (a b c : Src) (s : State) : Res := alu (.ffma h rm a b c) (fop3 ffma32 rm) s
def execFscale (h : Hdr) (rm : RM) (a b : Src) (s : State) : Res := alu (.fscale h rm a b) (fop2 fscale32 rm) s
def execFmin (h : Hdr) (a b : Src) (s : State) : Res := alu (.fmin h a b) (fop2 (fun _ z x y => minmax32 false false z x y) .rne) s
def execFmax (h : Hdr) (a b : Src) (s : State) : Res := alu (.fmax h a b) (fop2 (fun _ z x y => minmax32 true false z x y) .rne) s
def execFminn (h : Hdr) (a b : Src) (s : State) : Res := alu (.fminn h a b) (fop2 (fun _ z x y => minmax32 false true z x y) .rne) s
def execFmaxn (h : Hdr) (a b : Src) (s : State) : Res := alu (.fmaxn h a b) (fop2 (fun _ z x y => minmax32 true true z x y) .rne) s
def execFpred (h : Hdr) (cond : Cond) (k : Comb) (cp : PRef) (a b : Src) (s : State) : Res :=
  predCmp (.fpred h cond k cp a b) k cp (fcompare cond) s
def execFcmp (h : Hdr) (cond : Cond) (a b : Src) (s : State) : Res :=
  alu (.fcmp h cond a b) (fun w _ xs => op2 (fun x y => let r := fcompare cond w x y; { val := ones32 r.1, fl := r.2 }) xs) s
def execFclass (h : Hdr) (a : Src) (s : State) : Res := alu (.fclass h a) (val1 fun x => zext64 (fclass32 (loWord x))) s
def execFrnd (h : Hdr) (rm : RM) (a : Src) (s : State) : Res := alu (.frnd h rm a) (fop1 frnd32 rm) s
def execFexp (h : Hdr) (a : Src) (s : State) : Res := alu (.fexp h a) (fop1 (fun _ z x => fexp32 z x) .rne) s
def execFcopysign (h : Hdr) (a b : Src) (s : State) : Res :=
  alu (.fcopysign h a b) (val2 fun x y => (x &&& 0x7FFFFFFF) ||| (y &&& 0x80000000)) s

/-! ### Packed, FP64 and dot products (R152-R155) -/

def execPkaddh (h : Hdr) (rm : RM) (a b : Src) (s : State) : Res := alu (.pkaddh h rm a b) (packed .f16 addList rm) s
def execPkmulh (h : Hdr) (rm : RM) (a b : Src) (s : State) : Res := alu (.pkmulh h rm a b) (packed .f16 mulList rm) s
def execPkfmah (h : Hdr) (rm : RM) (a b c : Src) (s : State) : Res := alu (.pkfmah h rm a b c) (packed .f16 fmaList rm) s
def execPkfmab (h : Hdr) (rm : RM) (a b c : Src) (s : State) : Res := alu (.pkfmab h rm a b c) (packed .bf16 fmaList rm) s
def execPkdoth (h : Hdr) (rm : RM) (bf : Bool) (a b c : Src) (s : State) : Res :=
  alu (.pkdoth h rm bf a b c) (fun w _ xs => op3 (fun x y z =>
    let f := if bf then Fmt.bf16 else Fmt.f16
    dotOut w rm z ((List.range 2).map fun i => (f.decode w.ftz (half x i), f.decode w.ftz (half y i)))) xs) s
def execB8dot4 (h : Hdr) (ta tb : Ty) (rm : RM) (a b c : Src) (s : State) : Res :=
  alu (.b8dot4 h ta tb rm a b c) (fun w _ xs => op3 (fun x y z =>
    dotOut w rm z ((List.range 4).map fun i => (valueOf ta (bits x.toNat (8 * i) 8), valueOf tb (bits y.toNat (8 * i) 8)))) xs) s
def execDadd (h : Hdr) (rm : RM) (a b : Src) (s : State) : Res := alu (.dadd h rm a b) (dop addList rm) s
def execDmul (h : Hdr) (rm : RM) (a b : Src) (s : State) : Res := alu (.dmul h rm a b) (dop mulList rm) s
def execDfma (h : Hdr) (rm : RM) (a b c : Src) (s : State) : Res := alu (.dfma h rm a b c) (dop fmaList rm) s
def execDpred (h : Hdr) (cond : Cond) (k : Comb) (cp : PRef) (a b : Src) (s : State) : Res :=
  predCmp (.dpred h cond k cp a b) k cp (fun _ x y => compareFp cond (Fmt.f64.decode false x.toNat) (Fmt.f64.decode false y.toNat)) s

end Sys2Proof.Machine
end

