-- ==== Sys2Proof/Machine/Convert.lean ====
section
/-! DEFINITION. Conversion, tables and special functions: majors 0x70 to 0x7D, and the fused softmax idiom (05 R156-R167;
02 R64-R68). -/

namespace Sys2Proof.Machine

/-! ### Tables (02 R64-R68; 05 R163-R165) -/

/-- Field `f` (0 to 3) of segment `k` of a table image. -/
def segField (img : List Byte) (k f : Nat) : Word := BitVec.ofNat 32 (leNat ((img.drop (16 * k + 4 * f)).take 4))

/-- Largest segment whose breakpoint (field `f`) is not above a finite value, or 0. -/
def segmentOf (img : List Byte) (n f : Nat) (x : Fp) : Nat :=
  (List.range n).foldl (fun b k => if k = 0 then b else if cmpFp x (f32 false (segField img k f)) != .lt then k else b) 0

/-- A companding curve: forward with XK, YK, MK, inverse with YK, XK, QK (02 R66-R68). -/
def curve (inverse : Bool) (b : Bank) (a : Word) : Word × Flags :=
  match b, f32 false a with
  | .identity, .nan _ => (nan32, 0)
  | .identity, _ => (a, 0)
  | .image _, .nan s => (nan32, flIf s flIV)
  | .image _, .inf n => (infW n, 0)
  | .image img, x =>
    let (fx, fy, fm) := if inverse then (1, 0, 3) else (0, 1, 2)
    let k := segmentOf img 16 fx x
    let d := fsub32 .rne false a (segField img k fx)
    let y := ffma32 .rne false d.1 (segField img k fm) (segField img k fy)
    (y.1, d.2 ||| y.2)

/-- ACT at a value (05 R164). DESIGN CHOICE (log 23): FTZ flushes the operand and the finite result, and nothing between them; on the
infinity path the coefficients stand as they are. -/
def activation (b : Bank) (ftz : Bool) (a : Word) : Word × Flags :=
  match b with
  | .identity => (if (f32 false a).isNan then nan32 else a, 0)
  | .image img =>
    match f32 ftz a with
    | .nan s => (nan32, flIf s flIV)
    | .inf n =>
      let k := if n then 0 else 63
      let c2 := f32 false (segField img k 3)
      let c1 := f32 false (segField img k 2)
      if !c2.isZero then (infW c2.sign, 0) else if !c1.isZero then (infW (c1.sign != n), 0) else (segField img k 1, 0)
    | .fin n m =>
      let x : Word := if m = 0 then zeroW n else a
      let k := segmentOf img 64 0 (.fin n m)
      let t := fsub32 .rne false x (segField img k 0)
      let u := ffma32 .rne false (segField img k 3) t.1 (segField img k 2)
      let d := ffma32 .rne false u.1 t.1 (segField img k 1)
      let r := Fmt.f32.flush ftz (d.1.toNat, t.2 ||| u.2 ||| d.2)
      (BitVec.ofNat 32 r.1, r.2)

/-- The active bank of a table of a slice, latched at issue (05 R165). -/
def Slice.bank (x : Slice) (act : Bool) (k : Nat) : Bank :=
  let t := (kget (if act then x.act else x.comp) k).getD {}
  t.banks.getD t.active .identity

/-! ### Conversions (R156-R160) -/

def ofConv (t : Ty) (c : Conv) : AluOut := { val := placeOf t c.bits, fl := c.fl, event := c.event }

def execCvt (h : Hdr) (td ts : Ty) (rm : RM) (ovp : Ovp) (a : Src) (s : State) : Res :=
  alu (.cvt h td ts rm ovp a) (fun w _ xs => op1 (fun x => ofConv td (convert td (w.rm rm) ovp ts.isInt (valueOf ts x.toNat))) xs) s

/-- CVTC through the companding table's active bank (R158). -/
def execCvtc (h : Hdr) (td ts : Ty) (rm : RM) (ovp : Ovp) (inv : Bool) (tabl : BitVec 3) (a : Src) (s : State) : Res :=
  start (.cvtc h td ts rm ovp inv tabl a) s fun v act =>
    let bank := v.sl.bank false tabl.toNat
    finishAlu s v h 1 act fun l =>
      let x := valOf (.cvtc h td ts rm ovp inv tabl a) 0 v act l
      if inv then ofW (curve true bank (convert .f32 .rne .sat false (valueOf ts x.toNat)).bits)
      else
        let y := curve false bank (loWord x)
        let c := convert td (v.wp.rm rm) ovp false (f32 false y.1)
        { val := placeOf td c.bits, fl := y.2 ||| c.fl, event := c.event }

def execPack8 (h : Hdr) (td : Ty) (rm : RM) (ovp : Ovp) (hi : Bool) (a b c : Src) (s : State) : Res :=
  alu (.pack8 h td rm ovp hi a b c) (fun w _ xs => op3 (fun x y z =>
    let p := convert td (w.rm rm) ovp false (f32 false (loWord x))
    let q := convert td (w.rm rm) ovp false (f32 false (loWord y))
    let sh := if hi then 65536 else 1
    { val := BitVec.ofNat 64 ((p.bits + 256 * q.bits) * sh + (if hi then bits z.toNat 0 16 else bits z.toNat 16 16 * 65536))
      fl := p.fl ||| q.fl, event := p.event || q.event }) xs) s

def execUnpack8 (h : Hdr) (ts : Ty) (elem : BitVec 2) (a : Src) (s : State) : Res :=
  alu (.unpack8 h ts elem a) (val1 fun x =>
    placeOf .f32 (convert .f32 .rne .sat false (valueOf ts (bits x.toNat (8 * elem.toNat) 8))).bits) s

/-! ### Special functions (R161, R162) and ACT (R164) -/

/-- One special function. -/
def special (fn : SpecialFn) (rm : RM) (w : Warp) (l : Nat) (xs : List DWord) : AluOut := fop1 (specialF fn) rm w l xs

def execRcp (h : Hdr) (a : Src) (s : State) : Res := alu (.rcp h a) (special .rcp .rne) s
def execRsq (h : Hdr) (a : Src) (s : State) : Res := alu (.rsq h a) (special .rsq .rne) s
def execSqrt (h : Hdr) (rm : RM) (a : Src) (s : State) : Res := alu (.sqrt h rm a) (special .sqrt rm) s
def execExp2 (h : Hdr) (a : Src) (s : State) : Res := alu (.exp2 h a) (special .exp2 .rne) s
def execLog2 (h : Hdr) (a : Src) (s : State) : Res := alu (.log2 h a) (special .log2 .rne) s
def execSin (h : Hdr) (a : Src) (s : State) : Res := alu (.sin h a) (special .sin .rne) s
def execCos (h : Hdr) (a : Src) (s : State) : Res := alu (.cos h a) (special .cos .rne) s
def execTanh (h : Hdr) (a : Src) (s : State) : Res := alu (.tanh h a) (special .tanh .rne) s
def execSigm (h : Hdr) (a : Src) (s : State) : Res := alu (.sigm h a) (special .sigm .rne) s
def execAct (h : Hdr) (tabl : BitVec 3) (a : Src) (s : State) : Res :=
  start (.act h tabl a) s fun v act =>
    finishAlu s v h 1 act fun l => ofW (activation (v.sl.bank true tabl.toNat) v.wp.ftz (loWord (valOf (.act h tabl a) 0 v act l)))

/-! ### The softmax idiom (R166, R167) -/

/-- One part of the idiom: its trap, or the warp with flags and register written. -/
def idiomPart (w : Warp) (h : Hdr) (act : Mask) (dst : BitVec 8) (out : Nat → AluOut) : Except Trap Warp :=
  (aluFlags w h act out).map fun w => w.writeDst { h with dst := .vec dst } act (outWords 1 out)

/-- The line that holds the fourth instruction, where that one is bound to its successor: the run it begins. -/
def idiomRun (s : State) (v : View) : Option (List Byte × Nat) :=
  let pc := nextPc (nextPc (nextPc v.sp.pc))
  match s.lineBytes v.cur.slice v.tm.vf v.tm.cu pc with
  | some b => if lineBind b (pcSlot pc) then some (b, pcSlot pc) else none
  | none => none

/-- The four parts in turn; a trap of any is taken at I1 with the warp as it was: that of an I4 whose register is at or above N among
them (05 R166, R167). The fourth may begin a bound run, which then
finds its latch. -/
def execSoftmaxIdiom (h : Hdr) (rmSub rmAdd : RM) (vx vm vd ve vs : BitVec 8) (s : State) : Res :=
  match s.view with
  | none => .fault .noSuchSplit
  | some v =>
    let w := v.wp
    let run := idiomRun s v
    match w.readP false h.guard.num.toNat with
    | some (t, _) => .next (s.takeTrap v t)
    | none =>
    if [vx, vm, vd, ve, vs].any (fun r => (w.vget r.toNat).tag == .pending)
        || (match run with | some r => runPending w r.1 r.2 | none => false) then .next s
    else
      let act := w.active v.sp.mask h
      match (if act = 0 then none else w.readV (laneList act) vx.toNat) with
      | some (t, w) => .next (s.takeTrap { v with wp := w } t)
      | none =>
        let reg := fun (w : Warp) (r : BitVec 8) (l : Nat) => w.vlane r.toNat l
        let r : Except Trap Warp := do
          let w1 ← idiomPart w h act vm fun l => leafOut (lredLane w act .f32 .rne .max (reg w vx) l)
          let w2 ← idiomPart w1 h act vd fun l => ofW (fsub32 (w1.rm rmSub) w1.ftz (reg w1 vx l) (reg w1 vm l))
          let w3 ← idiomPart w2 h act ve fun l => ofW (specialF .exp2 .rne w2.ftz (reg w2 vd l))
          if vs.toNat < v.wp.n then idiomPart w3 h act vs fun l => leafOut (lredLane w3 act .f32 rmAdd .add (reg w3 ve) l)
          else .error (illegal 6)
        match r with
        | .error t => .next (s.takeTrap v t)
        | .ok w' =>
          let latch := (List.range 32).map fun l => if bit act l then reg w' vs l else 0
          let sp := { v.sp with run := run.map fun r => { latches := [(r.2, latch)], last := false } }
          .next (s.retireTo v w' sp (fun _ => nextPc (nextPc (nextPc (nextPc v.sp.pc)))) (fun _ => false))

end Sys2Proof.Machine
end

