-- ==== Sys2Proof/Machine/Matrix.lean ====
section
/-! DEFINITION. The arithmetic of matrix tasks: the format word, ordered and exact accumulation, and the drain (02 R72, R75-R84;
06 R205, R207). -/

namespace Sys2Proof.Machine

/-! ### The format word (02 R82, R83) -/

structure FmtWord where
  atype : Option Ty
  btype : Option Ty
  accm : Nat
  otype : Option Ty
  rnd : RM
  rndCode : Nat
  ovp : Ovp
  cmpa : Bool
  cmpb : Bool
  cmpd : Bool
  hadm : Nat
  high : Nat

def fmtWord (w : Nat) : FmtWord :=
  { atype := Ty.ofCode (BitVec.ofNat 6 w), btype := Ty.ofCode (BitVec.ofNat 6 (w / 2 ^ 6)), accm := bits w 12 2,
    otype := Ty.ofCode (BitVec.ofNat 6 (w / 2 ^ 14)), rnd := RM.ofCode (BitVec.ofNat 3 (w / 2 ^ 20)), rndCode := bits w 20 3,
    ovp := Ovp.ofCode (BitVec.ofNat 2 (w / 2 ^ 23)), cmpa := nbit w 25, cmpb := nbit w 26, cmpd := nbit w 27,
    hadm := bits w 28 2, high := bits w 30 2 }

/-- A type a matrix operand may have. -/
def operandTy : Option Ty → Bool | some .f16 | some .bf16 => true | some (.b8 ..) => true | _ => false
def isB8 : Option Ty → Bool | some (.b8 ..) => true | _ => false
/-- The types of exact mode (R78). -/
def exactTy : Option Ty → Bool
  | some .f16 => true
  | some (.b8 _ signed p) => if signed then p.val + 1 ≥ 2 else p.val + 1 ≥ 4
  | _ => false

/-- The lowest bit of the first failing field, in the order of R83. -/
def fmtBad (w : Nat) : Option Nat :=
  let f := fmtWord w
  let pair := (f.atype == some .f16 && f.btype == some .f16) || (f.atype == some .bf16 && f.btype == some .bf16) || (isB8 f.atype && isB8 f.btype)
  let outTy := match f.otype with | some .f32 => true | t => operandTy t
  if f.high ≠ 0 then some 30
  else if !operandTy f.atype then some 0
  else if !operandTy f.btype || !pair then some 6
  else if f.accm ≥ 2 then some 12
  else if f.accm = 1 && (!exactTy f.atype || !exactTy f.btype || f.cmpa || f.cmpb) then some 12
  else if !outTy then some 14
  else if f.rndCode ≥ 6 then some 20
  else if f.cmpa && !isB8 f.atype then some 25
  else if f.cmpb && !isB8 f.btype then some 26
  else if f.cmpd && !isB8 f.otype then some 27
  else if f.hadm = 3 then some 28
  else none

/-- A dynamic rounding code resolved (02 R84). -/
def fmtResolve (w : Nat) (m : RM) : Nat := if bits w 20 3 = 5 then w - 5 * 2 ^ 20 + m.code.toNat * 2 ^ 20 else w

/-- Bytes of an element. -/
def tyBytes (t : Option Ty) : Nat := match t with | some x => x.bits / 8 | none => 1

/-! ### Accumulators (02 R75-R79) -/

/-- The three special codes and the ends of the ordinary range, as integers. -/
def longMax : Int := 2 ^ 127 - 1
def longMin : Int := -(2 ^ 127)
def longNan : Int := -(2 ^ 127) + 1
def longOrd (v : Int) : Bool := longNan < v && v < longMax
def longInt (b : BitVec 128) : Int := b.toInt
def longBits (v : Int) : BitVec 128 := BitVec.ofInt 128 v

/-- The value a long accumulator drains as (R79). -/
def longFp (v : Int) : Fp :=
  if v = longNan then .nan false else if v = longMax then .inf false else if v = longMin then .inf true
  else .ofRat ((v : Rat) / (2 ^ 64 : Nat))

/-- FP32 into long (R79); a signalling NaN sets IV (R48). -/
def longOf (x : Fp) : Int × Flags :=
  match x with
  | .nan sig => (longNan, flIf sig flIV)
  | .inf n => (if n then longMin else longMax, 0)
  | .fin n m =>
    let r := integral .rne n (m * (2 ^ 64 : Nat))
    let v := if n then -r.1 else r.1
    if !longOrd v then (if n then longMin else longMax, flOF)
    else (v, flIf r.2 flNX ||| flIf (r.2 && v == 0) flUF)

/-- A group of four products into an FP32 accumulator (R75). -/
def groupF32 (acc : Word) (ps : List (Fp × Fp)) : Word × Flags := f32op .rne false (dotFp .rne [f32 false acc] ps)

/-- A group of four products into a long accumulator (R77). -/
def groupLong (v : Int) (ps : List (Fp × Fp)) : Int × Flags :=
  let qs := ps.map fun p => mulFp p.1 p.2
  let fl := qs.foldl (fun f q => f ||| q.2) 0
  let xs := qs.map (·.1)
  let pinf := xs.any fun x => x.isInf && !x.sign
  let ninf := xs.any fun x => x.isInf && x.sign
  if v = longNan ∨ xs.any (·.isNan) then (longNan, fl)
  else if (pinf && ninf) || (v = longMax && ninf) || (v = longMin && pinf) then (longNan, fl ||| flIV)
  else if v = longMax ∨ v = longMin then (v, fl)
  else if pinf then (longMax, fl)
  else if ninf then (longMin, fl)
  else
    let g : Rat := (xs.map (·.real)).foldl (· + ·) 0
    let t := v + (g * ((2 ^ 64 : Nat) : Rat)).floor
    if longOrd t then (t, fl) else (if t > 0 then longMax else longMin, fl ||| flOF)

/-- One group into an accumulator of either mode. -/
def groupAcc (exact : Bool) (acc : BitVec 128) (ps : List (Fp × Fp)) : BitVec 128 × Flags :=
  if exact then let r := groupLong (longInt acc) ps; (longBits r.1, r.2)
  else let r := groupF32 (BitVec.ofNat 32 acc.toNat) ps; (r.1.setWidth 128, r.2)

/-- A row of products in groups of four. -/
def accRow (exact : Bool) : Nat → BitVec 128 → List (Fp × Fp) → BitVec 128 × Flags
  | 0, acc, _ => (acc, 0)
  | n + 1, acc, ps =>
    if ps.isEmpty then (acc, 0)
    else
      let r := groupAcc exact acc (ps.take 4)
      let t := accRow exact n r.1 (ps.drop 4)
      (t.1, r.2 ||| t.2)

/-- An accumulator-in element: FP32 or long, into the mode's form. -/
def accIn (exact long : Bool) (v : Nat) : BitVec 128 × Flags :=
  if exact then (if long then (BitVec.ofNat 128 v, 0) else let r := longOf (f32 false (BitVec.ofNat 32 v)); (longBits r.1, r.2))
  else if long then let r := f32op .rne false (longFp (BitVec.ofNat 128 v).toInt, 0); (r.1.setWidth 128, r.2)
  else (BitVec.ofNat 128 (v % 2 ^ 32), 0)

/-- An accumulator-out element in FP32 or long form. -/
def accOut (exact long : Bool) (acc : BitVec 128) : Nat × Flags :=
  if exact then (if long then (acc.toNat, 0) else let r := f32op .rne false (longFp (longInt acc), 0); (r.1.toNat, r.2))
  else if long then let r := longOf (f32 false (BitVec.ofNat 32 acc.toNat)); ((longBits r.1).toNat, r.2)
  else (acc.toNat % 2 ^ 32, 0)

/-! ### The drain (06 R207; 02 R72) -/

/-- The value an accumulator drains as. -/
def drainIn (exact : Bool) (acc : BitVec 128) : Fp := if exact then longFp (longInt acc) else f32 false (BitVec.ofNat 32 acc.toNat)

/-- A stage: rounded to FP32 in mode 0, exact in mode 1. -/
def stage (exact : Bool) (x : Fp × Flags) : Fp × Flags :=
  if exact then x else let r := f32op .rne false x; (f32 false r.1, r.2)

/-- What the drain needs of the record. -/
structure DrainCfg where
  exact : Bool
  eres : Bool
  edrop : Bool
  ebias : Bool
  eact : Bool
  drate : Nat
  dscale : Word
  dkey : DWord
  row0 : Nat
  col0 : Nat
  ld : Nat
  qscale : Word
  act : Bank
  ctd : Bank
  hadm : Nat
  cmpd : Bool
  otype : Ty
  rnd : RM
  ovp : Ovp

/-- Rounding to FP32 before the first of activation, Hadamard and companding. -/
def toWord (x : Fp) : Word × Flags := f32op .rne false (x, 0)

/-- An element up to its activation. -/
def drainElem (d : DrainCfg) (i j : Nat) (acc : BitVec 128) (res bias : Fp) : Fp × Flags :=
  let x0 : Fp × Flags := (drainIn d.exact acc, 0)
  let join := fun (a : Fp × Flags) (f : Fp → Fp × Flags) => let r := stage d.exact (f a.1); (r.1, a.2 ||| r.2)
  let x1 := if d.eres then join x0 fun x => addFp .rne x res else x0
  let x2 := if d.edrop then
      (if ((hash d.dkey (BitVec.ofNat 64 ((d.row0 + i) * d.ld + d.col0 + j))).toNat / 2 ^ 32) ≥ d.drate then join x1 fun x => mulFp x (f32 false d.dscale)
       else (.fin false 0, x1.2)) else x1
  let x3 := if d.ebias then join x2 fun x => addFp .rne x bias else x2
  if d.eact || d.hadm ≠ 0 || d.cmpd then
    let w := toWord x3.1
    let y := if d.eact then activation d.act false w.1 else (w.1, 0)
    (f32 false y.1, x3.2 ||| w.2 ||| y.2)
  else x3

/-- The Hadamard runs of a row. -/
def hadRow (size32 : Bool) (xs : List Word) : Nat → List (Word × Flags)
  | 0 => []
  | n + 1 =>
    let k := if size32 then 32 else 16
    if xs.isEmpty then [] else hadamard false size32 false (xs.take k) ++ hadRow size32 (xs.drop k) n

/-- Scale, compand and convert one element: bits, flags, range event. -/
def requant (d : DrainCfg) (x : Fp) : Conv :=
  let m := mulFp x (f32 false d.qscale)
  if d.cmpd then
    let p := f32op .rne false m
    let y := curve false d.ctd p.1
    let c := convert d.otype d.rnd d.ovp false (f32 false y.1)
    { c with fl := c.fl ||| p.2 ||| y.2 }
  else let c := convert d.otype d.rnd d.ovp false m.1; { c with fl := c.fl ||| m.2 }

/-- A row of the output. -/
def drainRow (d : DrainCfg) (xs : List (Fp × Flags)) : List Conv × Flags :=
  let fl := xs.foldl (fun f x => f ||| x.2) 0
  let ys : List (Fp × Flags) :=
    if d.hadm = 0 then xs.map fun x => (x.1, 0)
    else (hadRow (d.hadm == 2) (xs.map fun x => (toWord x.1).1) 4).map fun r => (f32 false r.1, r.2)
  let cs := ys.map fun y => requant d y.1
  (cs, cs.foldl (fun f c => f ||| c.fl) (ys.foldl (fun f y => f ||| y.2) fl))

end Sys2Proof.Machine
end

