-- ==== Sys2Proof/Machine/Tasks.lean ====
section
/-! DEFINITION. Tile tasks: TSUB, tokens, the scheduler and the matrix engines (06 R204-R208; 18 R372-R374; 20 R421). -/

namespace Sys2Proof.Machine

/-! ### Records (R205) -/

def taskW (ws : List Word) (k : Nat) : Nat := (ws.getD k 0).toNat
def taskA (ws : List Word) (k : Nat) : DWord := pair (ws.getD k 0) (ws.getD (k + 1) 0)

def taskM (ws : List Word) : Nat := bits (taskW ws 0) 0 7
def taskN (ws : List Word) : Nat := bits (taskW ws 0) 8 7
def taskK (ws : List Word) : Nat := taskW ws 1
def taskAin (ws : List Word) : Nat := bits (taskW ws 0) 16 2
def taskAout (ws : List Word) : Nat := bits (taskW ws 0) 18 2
def taskBit (ws : List Word) (k : Nat) : Bool := nbit (taskW ws 0) k
def taskFmt (ws : List Word) : FmtWord := fmtWord (taskW ws 31)
def taskSig (ws : List Word) : Nat := bits (taskW ws 30) 0 16
def taskAwait (ws : List Word) : List Nat := ([bits (taskW ws 29) 0 16, bits (taskW ws 29) 16 16]).filter (· ≠ 0)
/-- Bytes of an accumulator form: 1 FP32, 2 long. -/
def formBytes (f : Nat) : Nat := if f = 2 then 16 else 4

/-- The residual type. -/
def taskRes (ws : List Word) : Option Ty := Ty.ofCode (BitVec.ofNat 6 (bits (taskW ws 15) 22 6))

/-- The first failing word of a record that TSUB appended. DESIGN CHOICE (log 51): the address and stride of a part that the record does not
enable are not checked. -/
def taskBad (ws : List Word) : Option Nat :=
  let f := taskFmt ws
  let m := taskM ws
  let n := taskN ws
  let k := taskK ws
  let za := tyBytes f.atype
  let zb := tyBytes f.btype
  let zo := tyBytes f.otype
  let zr := tyBytes (taskRes ws)
  let al := fun (w z : Nat) => (taskA ws w).toNat % z ≠ 0
  let eres := taskBit ws 20
  let out := taskBit ws 24
  let resOk := taskRes ws == some .f32 || taskRes ws == some .f16 || taskRes ws == some .bf16
  let tests : List (Nat × Bool) :=
    [(0, m = 0 || m > 64 || n = 0 || n > 64 || taskAin ws = 3 || taskAout ws = 3 || nbit (taskW ws 0) 7 || nbit (taskW ws 0) 15
          || bits (taskW ws 0) 27 5 ≠ 0 || (f.hadm = 1 && n % 16 ≠ 0) || (f.hadm = 2 && n % 32 ≠ 0)),
     (1, k = 0 || k % 4 ≠ 0),
     (2, al 2 za), (4, taskW ws 4 < (if taskBit ws 25 then m else k) * za),
     (5, al 5 zb), (7, taskW ws 7 < (if taskBit ws 26 then k else n) * zb),
     (8, taskAin ws ≠ 0 && al 8 (formBytes (taskAin ws))), (10, taskAout ws ≠ 0 && al 10 (formBytes (taskAout ws))),
     (12, out && al 12 zo), (14, out && taskW ws 14 < n * zo),
     (15, bits (taskW ws 15) 28 4 ≠ 0 || (eres && !resOk)),
     (16, eres && resOk && al 16 zr), (18, eres && resOk && taskW ws 18 < n * zr),
     (19, taskBit ws 22 && al 19 4),
     (30, bits (taskW ws 30) 16 16 ≠ 0)]
  (tests.find? (·.2)).map (·.1)

/-! ### Tokens (R206, R208) -/

/-- Every token is set after reset. -/
def Slice.token (x : Slice) (k : Nat) : Token := (kget x.tokens k).getD .set
/-- A token takes a state. A task that has not started and awaits a token that becomes cancelled ends with ST 5. -/
def Slice.setToken (x : Slice) (k : Nat) (t : Token) : Slice :=
  if k = 0 then x
  else
    let dead := fun (y : Task) => t == .cancelled && y.eng.isNone && y.failed.isNone && !y.cancelled && (taskAwait y.words).contains k
    { x with tokens := kset x.tokens k t, tasks := x.tasks.map fun (y : Task) => if dead y then { y with failed := some (5, taskSig y.words) } else y }
def Token.word : Token → Word | .clear => 0 | .set => 1 | .cancelled => 2

def Slice.modTask (x : Slice) (id : Nat) (f : Task → Task) : Slice := { x with tasks := x.tasks.map fun t => if t.id = id then f t else t }

/-- A task enters the scheduler: one that awaits a cancelled token ends with ST 5. -/
def Slice.pushTask (x : Slice) (t : Task) : Slice :=
  let dead := (taskAwait t.words).any fun k => x.token k == .cancelled
  { x with tasks := x.tasks ++ [{ t with failed := t.failed <|> if dead then some (5, taskSig t.words) else none }] }

/-! ### TSUB (R204) -/

/-- The lowest free slot of the ring. -/
def Slice.freeSlot (x : Slice) (r : TaskRing) : Option Nat := lowestFree (x.tasks.map (·.ringSlot)) r.slots

/-- Bytes of a record. -/
def recordBytes (ws : List Word) : List Byte := ((List.range 32).map fun k => leBytes 4 (taskW ws k)).flatten

/-- Write a record into its slot on path C; a failure gives its status, a replayable fault holds the split. -/
inductive Stored where
  | ok (s : State)
  | ends (st : Nat)
  | held (s : State)

def State.storeRecord (s : State) (v : View) (a : DWord) (ws : List Word) : Stored :=
  match s.resolve v none a 16 .generic .move true with
  | .error (.fault lane va sub replay) =>
    if replay && v.sp.hold != .faultFailed (va / 4096 * 4096) then .held (s.meetFault v lane va .c true false sub replay) else .ends 2
  | .error _ => .ends 2
  | .ok (.glob pa _) =>
    match s.phys pa true with
    | .mem k => if s.mem.poison.contains (lineOfKey k) then .ends 6 else .ok (s.physWrite pa (recordBytes ws))
    | .nowhere => .ok (s.noteAccess v.cur.slice pa true)
  | .ok _ => .ends 2

def execTsub (h : Hdr) (a b : Src) (s : State) : Res :=
  let i := Instr.tsub h a b
  start i s fun v act =>
    if act = 0 then .next (s.done v v.wp)
    else
      let fmt := fun l => (loWord (valOf i 1 v act l)).toNat
      let fw := fmt (leadLane act)
      match (laneList act).find? fun l => fmt l ≠ fw with
      | some l => .next (s.takeTrap v { kind := .divergence, info := BitVec.ofNat 64 l })
      | none =>
        match fmtBad fw with
        | some k => .next (s.takeTrap v (illegal (8 + 256 * k)))
        | none =>
          let fw := fmtResolve fw (v.wp.rm .rdyn)
          let ws := (List.range 31).map (fun l => if bit act l then loWord (valOf i 0 v act l) else 0) ++ [BitVec.ofNat 32 fw]
          match v.sl.ring with
          | none => .next (s.endNow v h act 3 31)
          | some r =>
            match v.sl.freeSlot r with
            | none => .next s
            | some slot =>
              match s.storeRecord v (BitVec.ofNat 64 (r.base + 128 * slot)) ws with
              | .held s1 => .next s1
              | .ends st => .next ((s.modSlice v.cur.slice (·.setToken (taskSig ws) .cancelled)).endNow v h act st)
              | .ok s1 =>
                let (s2, w, comp) := s1.beginComp v 0xA3 h act
                let (id, s3) := s2.fresh
                let t : Task := { id := id, words := ws, ringSlot := slot, comp := comp, issuer := v.ref, vf := v.tm.vf, cu := v.tm.cu,
                                  failed := (taskBad ws).map fun d => (3, d) }
                let s4 := s3.modSlice v.cur.slice fun x => (x.setToken (taskSig ws) .clear).pushTask t
                .next (s4.doneC { v with wp := w } true)

/-! ### TTOK (R208) -/

/-- A token operation: the state before it is the result. -/
def tokenWith (i : Instr) (f : Slice → Nat → Slice) (s : State) : Res :=
  start i s fun v act =>
    if act = 0 then .next (s.done v v.wp)
    else
      let k := leadVal i 0 v act
      if k = 0 ∨ k > 65535 then .next (s.resultC v true i.hdr act fun _ => [0xFFFFFFFF])
      else
        let s1 := s.modSlice v.cur.slice fun x => f x k
        .next (s1.resultC v true i.hdr act fun _ => [(v.sl.token k).word])

def execTokenQuery (h : Hdr) (a : Src) (s : State) : Res := tokenWith (.tokenQuery h a) (fun x _ => x) s
def execTokenSignal (h : Hdr) (a : Src) (s : State) : Res := tokenWith (.tokenSignal h a) (fun x k => x.setToken k .set) s
def execTokenCancel (h : Hdr) (a : Src) (s : State) : Res :=
  tokenWith (.tokenCancel h a) (fun x k =>
    let y := x.setToken k .cancelled
    { y with tasks := y.tasks.map fun (t : Task) => if taskSig t.words = k then { t with cancelled := true } else t }) s

/-! ### Starting (R206, R373) -/

/-- The physical engine a number of a logical slice names. -/
def State.engineOf (s : State) (n e : Nat) : Nat × Nat := ((s.members n).getD (e / 6) n, e % 6)

def State.engine (s : State) (m e : Nat) : Engine := (kget (s.slice m).engines e).getD {}

/-- A task holds the engine. -/
def State.engineBusy (s : State) (m e : Nat) : Bool :=
  s.slices.any fun x => x.tasks.any fun t => match t.eng with | some r => r.slice == m && r.eng == e | none => false

/-- Engines that a slice may use, in the order in which it takes them: its own, then those of its leases by entry. -/
def State.engines (s : State) (n : Nat) : List EngRef :=
  let own := (List.range (6 * (s.members n).length)).map (fun e => (s.engineOf n e)) |>.filter fun r => (s.engine r.1 r.2).lent.isNone
  let leased := (isort (fun (a b : Nat × Lease) => a.1 ≤ b.1) (s.leases.filter fun l => l.2.st == 2 && l.2.borrower == n)).map fun l =>
    ((List.range 6).filter fun e => l.2.engs.getLsbD e).map fun e => ({ slice := l.2.lender, eng := e, lease := some l.1 } : EngRef)
  own.map (fun r => { slice := r.1, eng := r.2 }) ++ leased.flatten

def State.freeEngine (s : State) (n : Nat) : Option EngRef := (s.engines n).find? fun r => !s.engineBusy r.slice r.eng

/-- The lowest free spill slot. -/
def Slice.freeSpill (x : Slice) : Option Nat := match x.ring with
  | none => none
  | some r => lowestFree (x.tasks.filterMap (·.spill)) r.nspill

/-- The task may start: nothing ends it first, and the tokens it awaits are set. -/
def Slice.startable (x : Slice) (t : Task) : Bool :=
  t.eng.isNone && t.failed.isNone && !t.cancelled && (taskAwait t.words).all fun k => x.token k == .set

/-- The banks a task that starts now uses and latches (R207). -/
def Slice.banksUsed (x : Slice) (ws : List Word) : List (Bool × Nat × Nat) :=
  let f := taskFmt ws
  let c := fun b => bits (taskW ws 15) b 3
  let one := fun (use act : Bool) (k : Nat) => if use then [(act, k, ((kget (if act then x.act else x.comp) k).getD {}).active)] else []
  one f.cmpa false (c 0) ++ one f.cmpb false (c 3) ++ one f.cmpd false (c 6) ++ one (taskBit ws 23) true (c 9)

/-- No task starts at the end of a quantum, in a reset, or in a slice whose function leaves (20 R418, R423, R425). -/
def execTaskStart (slice : Nat) (s : State) : Res :=
  let x := s.slice slice
  match if x.drain ≠ 0 || x.st == 3 || x.leaving then none else x.tasks.find? x.startable with
  | none => .next s
  | some t =>
    match s.freeEngine slice, (t.spill <|> x.freeSpill) with
    | some e, some k =>
      let c := fun b => bits (taskW t.words 15) b 3
      .next (s.modSlice slice fun x => x.modTask t.id fun t =>
        { t with eng := some e, spill := some k, kdone := 0, acc := [], fl := (taskW t.words 30 / 2 ^ 16 : Nat), meterFrom := s.dtime,
                 latched := [x.bank false (c 0), x.bank false (c 3), x.bank false (c 6), x.bank true (c 9)],
                 banksHeld := x.banksUsed t.words })
    | _, _ => .next s

/-! ### Metering (18 R374) -/

/-- Charge a lease with the lender's engine clocks that a borrower task has held since it was last charged. -/
def State.chargeTask (s : State) (n : Nat) (t : Task) : State :=
  if t.stopped then s else
  match t.eng with
  | some { slice := m, lease := some k, .. } =>
    let at_ := fun (d : Nat) => d * (s.slice m).clock / 1000
    let clocks := at_ s.dtime - at_ t.meterFrom
    { (s.modSlice n fun x => x.modTask t.id fun t => { t with meterFrom := s.dtime }) with
        leases := s.leases.map fun l => if l.1 = k then (k, { l.2 with meter := l.2.meter - clocks }) else l }
  | _ => s.modSlice n fun x => x.modTask t.id fun t => { t with meterFrom := s.dtime }

/-! ### K-blocks (R206, R207) -/

def Task.agent (t : Task) (n : Nat) : Agent := { slice := n, team := t.issuer.team, vf := t.vf, cu := t.cu, path := .m, id := t.id }

/-- Do something for each of a list with the state; the first failure ends it. -/
def engMap {α β : Type} (f : State → α → State × Except EngErr β) (s : State) : List α → State × Except EngErr (List β)
  | [] => (s, .ok [])
  | x :: t => match f s x with
    | (s1, .error e) => (s1, .error e)
    | (s1, .ok y) => match engMap f s1 t with
      | (s2, .error e) => (s2, .error e)
      | (s2, .ok ys) => (s2, .ok (y :: ys))

/-- Read an element of `z` bytes wherever it lies. -/
def State.engNum (s : State) (e : Agent) (a : DWord) (z : Nat) : State × Except EngErr Nat :=
  if a.toNat % z = 0 then s.engRead e a z
  else match s.engBytes e a 1 z with
    | (s1, .error x) => (s1, .error x)
    | (s1, .ok b) => (s1, .ok (leNat b))

/-- An operand's value: through the inverse curve of a latched table, or as its type decodes (02 R67). -/
def operandVal (t : Option Ty) (cmp : Bool) (b : Bank) (raw : Nat) : Fp × Flags :=
  match t with
  | none => (.fin false 0, 0)
  | some ty =>
    if cmp then
      let r := curve true b (BitVec.ofNat 32 (convert .f32 .rne .sat false (valueOf ty raw)).bits)
      (f32 false r.1, r.2)
    else (valueOf ty raw, 0)

def stepAddr (base : DWord) (i si j sj : Nat) : DWord := base + BitVec.ofNat 64 (i * si + j * sj)

/-- The rows of a K-block of A, and the columns of B: each a list of `kb` raw elements. -/
def blockA (ws : List Word) (k0 kb : Nat) : List (List DWord) :=
  let z := tyBytes (taskFmt ws).atype
  (List.range (taskM ws)).map fun i => (List.range kb).map fun k =>
    if taskBit ws 25 then stepAddr (taskA ws 2) (k0 + k) (taskW ws 4) i z else stepAddr (taskA ws 2) i (taskW ws 4) (k0 + k) z
def blockB (ws : List Word) (k0 kb : Nat) : List (List DWord) :=
  let z := tyBytes (taskFmt ws).btype
  (List.range (taskN ws)).map fun j => (List.range kb).map fun k =>
    if taskBit ws 26 then stepAddr (taskA ws 5) j (taskW ws 7) (k0 + k) z else stepAddr (taskA ws 5) (k0 + k) (taskW ws 7) j z

def readVecs (e : Agent) (ty : Option Ty) (cmp : Bool) (b : Bank) (s : State) (rows : List (List DWord)) :
    State × Except EngErr (List (List (Fp × Flags))) :=
  engMap (fun s row => engMap (fun s a => match s.engNum e a (tyBytes ty) with
    | (s1, .error x) => (s1, .error x)
    | (s1, .ok raw) => (s1, .ok (operandVal ty cmp b raw))) s row) s rows

def flagsOf (rows : List (List (Fp × Flags))) : Flags := rows.foldl (fun f r => r.foldl (fun f x => f ||| x.2) f) 0

/-- The accumulators at the task's start. -/
def readAin (e : Agent) (ws : List Word) (exact : Bool) (s : State) : State × Except EngErr (List (BitVec 128) × Flags) :=
  let n := taskM ws * taskN ws
  let f := taskAin ws
  if f = 0 then (s, .ok (List.replicate n 0, 0))
  else match engMap (fun s i => s.engRead e (stepAddr (taskA ws 8) i (formBytes f) 0 0) (formBytes f)) s (List.range n) with
    | (s1, .error x) => (s1, .error x)
    | (s1, .ok vs) =>
      let rs := vs.map (accIn exact (f == 2))
      (s1, .ok (rs.map (·.1), rs.foldl (fun a r => a ||| r.2) 0))

/-- The accumulators after one K-block. -/
def accBlock (exact : Bool) (acc : List (BitVec 128)) (a b : List (List (Fp × Flags))) (n : Nat) : List (BitVec 128) × Flags :=
  let rs := acc.mapIdx fun q v => accRow exact 17 v (((a.getD (q / n) []).map (·.1)).zip ((b.getD (q % n) []).map (·.1)))
  (rs.map (·.1), rs.foldl (fun f r => f ||| r.2) 0)

/-- The status with which a failed access ends a task. -/
def taskFail (s : State) (n : Nat) (t : Task) : EngErr → State
  | .wait => s
  | e => s.modSlice n fun x => x.modTask t.id fun y =>
      { y with failed := some (match e with | .poison => 6 | .reg => 8 | _ => 2, taskSig t.words) }

/-- One K-block of a running task. -/
def State.kBlock (s : State) (n : Nat) (t : Task) : State :=
  let ws := t.words
  let f := taskFmt ws
  let exact := f.accm == 1
  let e := t.agent n
  let k0 := 64 * t.kdone
  let kb := min 64 (taskK ws - k0)
  match if t.kdone = 0 then readAin e ws exact s else (s, .ok (t.acc, 0)) with
  | (s1, .error x) => taskFail s1 n t x
  | (s1, .ok (acc, f0)) =>
    match readVecs e f.atype f.cmpa (t.latched.getD 0 .identity) s1 (blockA ws k0 kb) with
    | (s2, .error x) => taskFail s2 n t x
    | (s2, .ok a) =>
      match readVecs e f.btype f.cmpb (t.latched.getD 1 .identity) s2 (blockB ws k0 kb) with
      | (s3, .error x) => taskFail s3 n t x
      | (s3, .ok b) =>
        let r := accBlock exact acc a b (taskN ws)
        s3.modSlice n fun x => x.modTask t.id fun y =>
          { y with kdone := y.kdone + 1, acc := r.1, fl := y.fl ||| f0 ||| r.2 ||| flagsOf a ||| flagsOf b,
                   failed := if y.cancelled then some (4, taskSig ws) else y.failed }

/-- Every K-block is done. -/
def Task.past (t : Task) : Bool := 64 * t.kdone ≥ taskK t.words

/-- A task stands at the K-block boundary where it stops: its lease is being revoked, or its slice's quantum ends (18 R375; 20 R418). -/
def State.taskHalts (s : State) (n : Nat) (t : Task) : Bool :=
  t.stopped || (t.kdone ≠ 0 && ((s.slice n).drain ≠ 0 || match t.eng with
    | some { lease := some k, .. } => ((kget s.leases k).map (·.st)) == some 3
    | _ => false))

def execTaskKBlock (slice task : Nat) (s : State) : Res :=
  match (s.slice slice).tasks.find? (·.id == task) with
  | some t =>
    if t.eng.isSome && t.failed.isNone && !t.past && !s.taskHalts slice t then
      .next ((s.kBlock slice t).chargeTask slice t)
    else .next s
  | none => .next s

/-! ### The end of a task (R206-R208) -/

/-- End a task: its slots are freed, its token moves, its completion word fills. -/
def State.endTask (s : State) (n : Nat) (t : Task) (st det : Nat) (fl : Flags) : State :=
  let sig := taskSig t.words
  let tok := if st = 0 && !t.cancelled then Token.set else .cancelled
  let s1 := s.modSlice n fun x => let y := x.setToken sig tok; { y with tasks := y.tasks.filter (·.id != t.id) }
  s1.complete n t.comp st det fl

/-- What the drain reads and computes for one row: accumulator-out elements, converted outputs and flags. -/
def drainCfg (t : Task) : DrainCfg :=
  let ws := t.words
  let f := taskFmt ws
  { exact := f.accm == 1, eres := taskBit ws 20, edrop := taskBit ws 21, ebias := taskBit ws 22, eact := taskBit ws 23,
    drate := taskW ws 21, dscale := ws.getD 22 0, dkey := taskA ws 23, row0 := taskW ws 25, col0 := taskW ws 26, ld := taskW ws 27,
    qscale := ws.getD 28 0, act := t.latched.getD 3 .identity, ctd := t.latched.getD 2 .identity, hadm := f.hadm, cmpd := f.cmpd,
    otype := f.otype.getD .f32, rnd := f.rnd, ovp := f.ovp }

/-- The residual of a row, and the bias. -/
def readRes (e : Agent) (ws : List Word) (i : Nat) (s : State) : State × Except EngErr (List Fp) :=
  if taskBit ws 20 then
    match taskRes ws with
    | some ty =>
      engMap (fun s j => match s.engNum e (stepAddr (taskA ws 16) i (taskW ws 18) j (ty.bits / 8)) (ty.bits / 8) with
        | (s1, .error x) => (s1, .error x)
        | (s1, .ok raw) => (s1, .ok (valueOf ty raw))) s (List.range (taskN ws))
    | none => (s, .ok [])
  else (s, .ok [])
def readBias (e : Agent) (ws : List Word) (s : State) : State × Except EngErr (List Fp) :=
  if taskBit ws 22 then
    engMap (fun s j => match s.engRead e (stepAddr (taskA ws 19) j 4 0 0) 4 with
      | (s1, .error x) => (s1, .error x)
      | (s1, .ok raw) => (s1, .ok (f32 false (BitVec.ofNat 32 raw)))) s (List.range (taskN ws))
  else (s, .ok [])

/-- Write a list of numbers of `z` bytes at given addresses, all checked first; a line that they cover whole is written whole. -/
def engStore (e : Agent) (z : Nat) (s : State) (xs : List (DWord × Nat)) : State × Except EngErr Unit :=
  let unit := fun (a : DWord) => if a.toNat % z = 0 then z else 1
  match engMap (fun s (x : DWord × Nat) => s.engCheck e none (unit x.1) true (z / unit x.1) x.1) s xs with
  | (s1, .error x) => (s1, .error x)
  | (s1, .ok ls) =>
    let keys := ((ls.zip xs).map fun lx => lx.1.filterMap fun l => match l with
      | .glob pa _ => (match s1.phys pa true with | .mem k => some (k, unit lx.2.1) | .nowhere => none)
      | _ => none).flatten
    match engMap (fun s (x : DWord × Nat) => s.engPut e none (unit x.1) (z / unit x.1) x.1 (leBytes z x.2)) s1 xs with
    | (s2, .error x) => (s2, .error x)
    | (s2, .ok _) => (s2.joinStores keys, .ok ())

/-- KEEP: the engine's tile control register KEEPB names the B of the task (R206). A hint: B is read afresh by every task. -/
def State.keepB (s : State) (t : Task) : State :=
  let ws := t.words
  match t.eng with
  | some r =>
    if nbit (taskW ws 15) 16 then
      s.modSlice r.slice fun x =>
        let e := (kget x.engines r.eng).getD {}
        let b : Tile := { ty := ((taskFmt ws).btype.map (fun t => (Ty.code t).toNat)).getD 0, rows := taskK ws, cols := taskN ws,
                          bbase := (taskA ws 5).toNat, bstr := taskW ws 7, btr := taskBit ws 26 }
        { x with engines := kset x.engines r.eng { e with tiles := kset e.tiles (bits (taskW ws 15) 12 4) b } }
    else s
  | none => s

/-- Drain a task whose K-blocks are done. -/
def State.drainTask (s : State) (n : Nat) (t : Task) : State :=
  let ws := t.words
  let e := t.agent n
  let d := drainCfg t
  let cols := taskN ws
  match engMap (fun s i => readRes e ws i s) s (List.range (taskM ws)) with
  | (s1, .error x) => taskFail s1 n t x
  | (s1, .ok res) =>
    match readBias e ws s1 with
    | (s2, .error x) => taskFail s2 n t x
    | (s2, .ok bias) =>
      let rows := (List.range (taskM ws)).map fun i =>
        drainRow d ((List.range cols).map fun j =>
          drainElem d i j (t.acc.getD (i * cols + j) 0) ((res.getD i []).getD j (.fin false 0)) (bias.getD j (.fin false 0)))
      let aout := t.acc.map (accOut d.exact (taskAout ws == 2))
      let fl := (rows.foldl (fun f r => f ||| r.2) t.fl) ||| (if taskAout ws ≠ 0 then aout.foldl (fun f a => f ||| a.2) 0 else 0)
      let ev := d.ovp == .trap && rows.any fun r => r.1.any (·.event)
      let zo := d.otype.bits / 8
      let outs := (rows.mapIdx fun i r => r.1.mapIdx fun j c => (stepAddr (taskA ws 12) i (taskW ws 14) j zo, c.bits)).flatten
      let aouts := aout.mapIdx fun q a => (stepAddr (taskA ws 10) q (formBytes (taskAout ws)) 0 0, a.1)
      match if taskAout ws ≠ 0 then engStore e (formBytes (taskAout ws)) s2 aouts else (s2, .ok ()) with
      | (s3, .error x) => taskFail s3 n t x
      | (s3, .ok _) =>
        match if taskBit ws 24 && !ev then engStore e zo s3 outs else (s3, .ok ()) with
        | (s4, .error x) => taskFail s4 n t x
        | (s4, .ok _) => ((s4.chargeTask n t).keepB t).endTask n t (if ev then 1 else 0) (taskSig ws) fl

/-- A task ends: cancelled or failed before or during its run, or drained. -/
def execTaskComplete (slice task : Nat) (s : State) : Res :=
  let x := s.slice slice
  match x.tasks.find? (·.id == task) with
  | none => .next s
  | some t =>
    match t.failed with
    | some (st, det) => .next ((s.chargeTask slice t).endTask slice t st det t.fl)
    | none =>
      if t.eng.isNone then
        if t.cancelled then .next (s.endTask slice t 4 (taskSig t.words) t.fl)
        else if (taskAwait t.words).any fun k => x.token k == .cancelled then .next (s.endTask slice t 5 (taskSig t.words) t.fl)
        else .next s
      else if t.past then .next (s.drainTask slice t)
      else .next s

/-! ### Stopping a task: resumable records (20 R421) -/

/-- The words of the resumable record. -/
def resumeWords (t : Task) (spillAddr : DWord) : List Word :=
  let ws := t.words
  let f := taskFmt ws
  let j := t.kdone
  let a := taskA ws 2 + BitVec.ofNat 64 (64 * j * (if taskBit ws 25 then taskW ws 4 else tyBytes f.atype))
  let b := taskA ws 5 + BitVec.ofNat 64 (64 * j * (if taskBit ws 26 then tyBytes f.btype else taskW ws 7))
  let ctl := taskW ws 0 - taskAin ws * 2 ^ 16 + (if f.accm = 1 then 2 else 1) * 2 ^ 16
  let put := fun (ws : List Word) (k v : Nat) => ws.set k (BitVec.ofNat 32 v)
  let w1 := put (put ws 0 ctl) 1 (taskK ws - 64 * j)
  let w2 := put (put w1 2 (loWord a).toNat) 3 (hiWord a).toNat
  let w3 := put (put w2 5 (loWord b).toNat) 6 (hiWord b).toNat
  let w4 := put (put w3 8 (loWord spillAddr).toNat) 9 (hiWord spillAddr).toNat
  put (put w4 29 0) 30 (bits (taskW ws 30) 0 16 + t.fl.toNat * 2 ^ 16)

/-- Write whole lines: the bytes, and the end of the poison of the last line. -/
def State.engLines (s : State) (e : Agent) (a : DWord) (b : List Byte) : State × Option EngErr :=
  match s.engStream e (b.length + 1) a b [] with
  | (s1, some x) => (s1, some x.1)
  | (s1, none) => (s1.clearLast e a b.length, none)

/-- Stop a running task at a K-block boundary: a resumable record in its own ring slot; a write that fails ends it with ST 2. After a
replayable fault the task, stopped, waits for the replay. -/
def State.stopTask (s0 : State) (n : Nat) (t : Task) : State :=
  let s := s0.modSlice n fun x => x.modTask t.id fun (t : Task) => { t with stopped := true }
  match (s.slice n).ring, t.spill with
  | some r, some k =>
    let sp := BitVec.ofNat 64 (r.spill + 65536 * k)
    let z := if (taskFmt t.words).accm = 1 then 16 else 4
    let ws := resumeWords t sp
    let e := t.agent n
    match s.engLines e sp (t.acc.map fun a => leBytes z a.toNat).flatten with
    | (s1, some .wait) => s1
    | (s1, some _) => s1.endTask n t 2 (taskSig t.words) t.fl
    | (s1, none) =>
      match s1.engLines e (BitVec.ofNat 64 (r.base + 128 * t.ringSlot)) (recordBytes ws) with
      | (s2, some .wait) => s2
      | (s2, some _) => s2.endTask n t 2 (taskSig t.words) t.fl
      | (s2, none) => s2.modSlice n fun x =>
          { x with tasks := (x.tasks.filter (·.id != t.id)) ++
              [{ t with words := ws, eng := none, kdone := 0, acc := [], latched := [], banksHeld := [], stopped := false }] }
  | _, _ => s0

end Sys2Proof.Machine
end

