-- ==== Sys2Proof/Machine/Collator.lean ====
section
/-! DEFINITION. CAPP, QUIES and TBLD with the steps that end them: majors 0xA5, 0xA6, 0xA8 (06 R209, R210, R212; 02 R64, R65;
05 R163; 11 R300, R306-R308). -/

namespace Sys2Proof.Machine

/-! ### CAPP (R209) -/

/-- A node that can take records. -/
def Slice.configured (x : Slice) (k : Nat) : Option NodeDesc := (kget x.nodes k).filter (·.rsize ≠ 0)

/-- The lowest active lane that fails decides the field: A for a node not configured, FN for too many words. -/
def cappBad (x : Slice) (words : Nat) : List Nat → Option Nat
  | [] => none
  | k :: t => match x.configured k with
    | none => some 7
    | some d => if words > d.rsize then some fldFN else cappBad x words t

def execCapp (h : Hdr) (nwords : BitVec 4) (a b : Src) (s : State) : Res :=
  let i := Instr.capp h nwords a b
  start i s fun v act =>
    if act = 0 then .next (s.done v v.wp)
    else
      let nw := nwords.toNat + 1
      let node := fun l => (loWord (valOf i 0 v act l)).toNat
      match cappBad v.sl nw ((laneList act).map node) with
      | some f => .next (s.takeTrap v (illegal f))
      | none =>
        let recs := (laneList act).map fun l =>
          let size := ((v.sl.configured (node l)).map (·.rsize)).getD nw
          BinRec.node (node l) { words := wordsOf i 1 v act l ++ List.replicate (size - nw) 0, time := s.dtime }
        match v.sl.append recs with
        | none => .next (s.holdPool v)
        | some x => .next ((s.setSlice v.cur.slice x).doneC v true)

/-! ### Quiescence (R210, R306-R308) -/

/-- A warp held in QUIES of a graph. -/
def Warp.inQuies (w : Warp) (g : Nat) : Bool := w.allSplits.any fun p => match p.hold with | .quies g' _ => g' == g | _ => false

/-- Records of a graph that have counted and are not yet in a launched warp. -/
def Slice.graphRecords (x : Slice) (g : Nat) : Bool :=
  let ofNode := fun k => ((kget x.nodes k).map (·.graph)) == some g
  x.nodeRecs.any (fun e => ofNode e.1 && !e.2.isEmpty) || x.regroup.any (fun e => e.1.graph == g && !e.2.isEmpty)
  || x.loads.any fun l => match l with | .node k _ => ofNode k | .regroup k _ => k.graph == g

/-- Warps of a graph that run: those that issue QUIES of it are not counted (R307); `self` is a warp about to. -/
def Slice.graphWarps (x : Slice) (g : Nat) (self : Option (Nat × Nat)) : Bool :=
  (x.teams ++ x.saved).any fun t => t.graph == g &&
    (t.warps.mapIdx fun k w => !w.ended && !w.inQuies g && some (t.id, k) != self).any id

def Slice.quiescent (x : Slice) (g : Nat) (self : Option (Nat × Nat)) : Bool := !x.graphRecords g && !x.graphWarps g self

def execQuies (h : Hdr) (a : Src) (s : State) : Res :=
  let i := Instr.quies h a
  start i s fun v act =>
    if act = 0 then .next (s.done v v.wp)
    else
      let g := leadVal i 0 v act
      if g > 63 then .next (s.result v v.wp h act fun _ => [0xFFFFFFFF])
      else if v.sl.quiescent g (some (v.cur.team, v.cur.warp)) then .next ((s.l1Clear (s.actingCu v)).result v v.wp h act fun _ => [0])
      else .next (s.holdLanes v v.wp v.sp act (.quies g (if h.ws then .none else h.dst)))

/-- End the QUIES of a warp: each writes 0. -/
def Warp.endQuies (w : Warp) (marked : DWord → Bool) (g : Nat) : Warp :=
  if !w.inQuies g then w
  else
    let w1 := w.allSplits.foldl (fun w p => match p.hold with
      | .quies g' (.scal n) => if g' = g then w.swrite n.toNat 0 else w
      | _ => w) w
    Warp.settle marked <| w1.mapSplits fun p => match p.hold with
      | .quies g' _ => if g' = g then (p.latch fun _ => 0).finish else p
      | _ => p

/-- Both counts of a graph are zero: the QUIES held on it end (R307), each an acquire. -/
def execQuiescence (slice graph : Nat) (s : State) : Res :=
  if (s.slice slice).quiescent graph none then
    .next ((s.l1ClearSlice slice).modSlice slice fun x => { x with teams := x.teams.map fun t =>
      { t with warps := t.warps.map fun w => w.endQuies (s.markedFor slice t) graph } })
  else .next s

/-! ### TBLD (R212) -/

/-- Finite fields, and field `f` strictly rising over `n` segments. -/
def finiteFields (img : List Byte) (n : Nat) : Bool :=
  (List.range (4 * n)).all fun k => match f32 false (segField img (k / 4) (k % 4)) with | .fin .. => true | _ => false
def risingField (img : List Byte) (n f : Nat) : Bool :=
  (List.range (n - 1)).all fun k => cmpFp (f32 false (segField img k f)) (f32 false (segField img (k + 1) f)) == .lt
def positiveField (img : List Byte) (n f : Nat) : Bool :=
  (List.range n).all fun k => cmpFp (.fin false 0) (f32 false (segField img k f)) == .lt

/-- The rules of a table image (02 R65; 05 R163). -/
def imageOk (act : Bool) (img : List Byte) : Bool :=
  if act then finiteFields img 64 && risingField img 64 0
  else finiteFields img 16 && risingField img 16 0 && risingField img 16 1 && positiveField img 16 2 && positiveField img 16 3

def execTbld (h : Hdr) (tabl : BitVec 3) (act_ : Bool) (a : Src) (s : State) : Res :=
  let i := Instr.tbld h tabl act_ a
  start i s fun v act =>
    if act = 0 then .next (s.done v v.wp)
    else
      let ad := valOf i 0 v act (leadLane act)
      if ad.toNat % 64 ≠ 0 then .next (s.takeTrap v { kind := .misalign, info := ad })
      else
        let (id, s1) := s.fresh
        let job : TbldJob := { id := id, act := act_, tabl := tabl.toNat, addr := ad, issuer := v.ref, vf := v.tm.vf, cu := v.tm.cu }
        let (w, sp) := s.accept v v.wp
        .next ((s1.modSlice v.cur.slice fun x => { x with tblds := x.tblds ++ [job] }).holdLanes v w sp act (.command id))

def Slice.table (x : Slice) (act : Bool) (k : Nat) : Table := (kget (if act then x.act else x.comp) k).getD {}

/-- Write an image to the inactive bank and flip (05 R165). -/
def Table.flip (t : Table) (img : List Byte) : Table :=
  let k := 1 - t.active
  { banks := t.banks.set k (.image img), active := k }

/-- A task has latched the inactive bank of a table (R207, R212). -/
def Slice.bankHeld (x : Slice) (act : Bool) (k : Nat) : Bool :=
  x.tasks.any fun t => t.banksHeld.contains (act, k, 1 - (x.table act k).active)

/-- End a table load with its status word. -/
def State.endTbld (s : State) (n : Nat) (j : TbldJob) (status : Nat) : State :=
  (s.modSlice n fun x => { x with tableStatus := status, tblds := x.tblds.filter (·.id != j.id) }).endCommand j.issuer j.id

/-- The next load of a table is performed once its inactive bank is released: the image is read on path A, judged, and flipped in. -/
def execTableFlip (slice : Nat) (act : Bool) (tabl : Nat) (s : State) : Res :=
  let x := s.slice slice
  match x.tblds.find? fun j => j.act == act && j.tabl == tabl with
  | none => .next s
  | some j =>
    if x.bankHeld act tabl then .next s
    else if !isGlobal j.addr then .next (s.endTbld slice j 2)
    else
      let e : Agent := { slice := slice, team := j.issuer.team, vf := j.vf, cu := j.cu, path := .a, id := j.id }
      match s.engBytes e j.addr 64 (if act then 16 else 4) with
      | (s1, .error .wait) => .next s1
      | (s1, .error .poison) => .next (s1.endTbld slice j 3)
      | (s1, .error _) => .next (s1.endTbld slice j 2)
      | (s1, .ok img) =>
        if !imageOk act img then .next (s1.endTbld slice j 1)
        else
          let s2 := s1.modSlice slice fun x =>
            if act then { x with act := kset x.act tabl ((x.table act tabl).flip img) }
            else { x with comp := kset x.comp tabl ((x.table act tabl).flip img) }
          .next (s2.endTbld slice j 0)

end Sys2Proof.Machine
end

