-- ==== Sys2Proof/Machine/Placement.lean ====
section
/-! DEFINITION. Stopping a warp and restoring it, and where a team goes: region restart (01 R34, R35; 19 R384-R393), store and
sequencers (01 R17, R18), the choice of a CU (11 R290, R291), and the starting state of a warp (01 R11). -/

namespace Sys2Proof.Machine

/-! ### Room of a CU (R17, R18) -/

/-- Store that a team takes: its windows and its scratchpad. -/
def storeBytes (warps regs scratch : Nat) : Nat := warps * (regs * 128 + 256) + scratch

/-- Store of a CU, and what L1 keeps at least. -/
def cuStore : Nat := 0x100000
def l1Least : Nat := 0x10000

/-- Room of a CU: free store, and the warps of each sequencer. -/
structure Room where
  free : Nat
  cnt : List Nat
  deriving DecidableEq, Repr

/-- What a team asks for. -/
structure Need where
  warps : Nat
  regs : Nat
  scratch : Nat
  pin : Option Nat
  deriving DecidableEq, Repr

def Team.need (t : Team) : Need := { warps := t.warps.length, regs := t.n, scratch := t.scratchSize, pin := t.pin }

def Launch.need (y : Launch) : Need := { warps := y.krec.warps, regs := y.krec.regs, scratch := y.krec.scratch, pin := y.pin }

/-- Room of a CU beside some teams; scratchpads that copies hold keep their store (11 R294). -/
def roomWith (ts held : List Team) : Room :=
  { free := cuStore - ((ts.map fun t => storeBytes t.warps.length t.n t.scratchSize).sum + (held.map (·.scratchSize)).sum),
    cnt := (List.range 4).map fun q => (ts.map fun t => (t.warps.filter (·.seq == q)).length).sum }

def emptyRoom : Room := { free := cuStore, cnt := [0, 0, 0, 0] }

/-- Room of a CU of a slice once some teams have left it. -/
def Slice.room (x : Slice) (cu : Nat) (gone : List Nat) : Room :=
  roomWith (x.teams.filter fun t => t.cu == cu && !gone.contains t.id) (x.held.filter (·.cu == cu))

/-- The next sequencer in ascending order that holds fewer than 24 warps. -/
def nextSeq (cnt : List Nat) (cur : Nat) : Option Nat :=
  ((List.range 4).map fun k => (cur + k) % 4).find? fun q => cnt.getD q 24 < 24

/-- Sequencers of the following warps of a team. -/
def assignSeqs : Nat → List Nat → Nat → Option (List Nat × List Nat)
  | 0, cnt, _ => some ([], cnt)
  | n + 1, cnt, cur => match nextSeq cnt cur with
    | none => none
    | some q => match assignSeqs n (lmod (· + 1) cnt q) (q + 1) with
      | none => none
      | some (l, c) => some (q :: l, c)

/-- The sequencer with the fewest warps, the lowest on a tie. -/
def fewest (cnt : List Nat) : Nat :=
  ((List.range 4).find? fun q => (List.range 4).all fun p => cnt.getD q 0 ≤ cnt.getD p 0).getD 0

/-- Place a team in a room: its warps' sequencers, and the room that is left (R17, R18). -/
def Room.take (r : Room) (d : Need) : Option (List Nat × Room) :=
  let b := storeBytes d.warps d.regs d.scratch
  if b + l1Least > r.free ∨ r.cnt.sum + d.warps > 96 then none
  else (assignSeqs d.warps r.cnt (fewest r.cnt)).map fun p => (p.1, { free := r.free - b, cnt := p.2 })

/-- CUs that a team may go to. -/
def Need.cus (d : Need) (count : Nat) : List Nat :=
  match d.pin with | some c => (List.range count).filter (· == c) | none => List.range count

/-- The team fits on an empty CU of the slice (01 R10). -/
def Need.fitsEmpty (d : Need) (count : Nat) : Bool := !(d.cus count).isEmpty && (emptyRoom.take d).isSome

/-- The CU with the most free store among those on which the team fits, the lower number on a tie (R290). -/
def pickCu (rooms : List (Nat × Room)) (d : Need) : Option (Nat × List Nat × Room) :=
  let ok := rooms.filterMap fun c => (c.2.take d).map fun p => (c.1, c.2.free, p)
  (ok.find? fun a => ok.all fun b => b.2.1 < a.2.1 || (b.2.1 == a.2.1 && a.1 ≤ b.1)).map fun a => (a.1, a.2.2.1, a.2.2.2)

/-- Rooms of the CUs a team may go to, but some. -/
def State.rooms (s : State) (n : Nat) (d : Need) (blocked : List Nat) : List (Nat × Room) :=
  ((d.cus (s.cuCount n)).filter (!blocked.contains ·)).map fun c => (c, (s.slice n).room c [])

/-! ### A new warp and team (R11, R302) -/

/-- Free warp slots of a CU, lowest first. -/
def Slice.freeSlots (x : Slice) (cu : Nat) : List Nat :=
  let used := ((x.teams.filter (·.cu == cu)).map fun t => t.warps.map (·.slot)).flatten
  (List.range 96).filter (!used.contains ·)

/-- A warp as a launch starts it (R11), before what the launch fills in. -/
def freshWarp (y : Launch) (wi : Nat) : Warp :=
  let all := BitVec.allOnes 32
  { n := y.krec.regs, vregs := List.replicate y.krec.regs {}, fpctl := y.fpctl, trapvec := y.krec.trapvec,
    origlane := (List.range 32).map fun l => BitVec.ofNat 32 (l + 32 * wi), origin := List.replicate 32 y.id,
    sregs := (List.range 64).map fun k => if 4 ≤ k then y.args.getD (k - 4) 0 else 0,
    front := [{ pc := y.krec.entry, mask := all, parts := [{ entry := y.krec.entry, mask := all }], check := some y.krec.entry }] }

/-- Give the warps of a team their sequencers and slots. -/
def seatWarps (ws : List Warp) (seqs slots : List Nat) : List Warp :=
  ws.mapIdx fun k w => { w with seq := seqs.getD k 0, slot := slots.getD k 0 }

/-- Start a team of a launch on a CU: an acquire (09 R276), on path G too (07 R223). A scratchpad without zero fill holds free bytes (R11, R293). -/
def State.startTeam (s : State) (n : Nat) (y : Launch) (cu : Nat) (seqs : List Nat) (teamid : Nat) (kind : TeamKind) (ws : List Warp) : State :=
  let t : Team :=
    { id := s.nextId, launch := y.id, queue := y.queue, graph := y.graph, teamid := teamid, cu := cu, pin := y.pin, kind := kind,
      n := y.krec.regs, scratchSize := y.krec.scratch,
      scratch := if y.zfill || y.krec.scratch = 0 then {} else { hazy := [{ base := 0, len := y.krec.scratch, seed := s.nextId }] },
      warps := seatWarps (ws.map fun w => { w with gSeen := List.replicate 32 s.gStamp }) seqs ((s.slice n).freeSlots cu), placedAt := s.nextId, vf := (s.slice n).fn }
  { ((s.l1Clear (s.cuGlobal n cu)).modSlice n fun x => { x with teams := x.teams ++ [t] }) with nextId := s.nextId + 1 }

/-! ### Region restart (R34, R384-R387) -/

/-- A warp stops only between bound runs (R384). -/
def Warp.inRun (w : Warp) : Bool := w.allSplits.any (·.run.isSome)
def Team.inRun (t : Team) : Bool := t.warps.any (·.inRun)

/-- A hold that outlasts the stop (R385, R386). -/
def Hold.saved : Hold → Hold
  | .tbar | .tbarAfter => .tbarAfter
  | .gbar g p | .gbarAfter g p => .gbarAfter g p
  | .esc => .esc
  | _ => .none

/-- A split as it is saved: its parts go on from their entries when it resumes (R34, R391). -/
def Split.stop (p : Split) : Split := { p with hold := p.hold.saved, run := none, resumed := false }

/-- A saved split restarts at its region parts' entries, each part on its own (R34, R445). -/
def Split.restart (p : Split) : List Split :=
  p.parts.map fun q => { pc := q.entry, mask := q.mask, parts := [q], hold := p.hold.saved, check := if p.pc == q.entry then p.check else none }

/-- Cancel a producer: its registers return to what they held before (R34). -/
def Warp.cancelFlight (w : Warp) (f : Flight) : Warp :=
  (f.regs.zip f.prior).foldl (fun w rp => w.vset rp.1 rp.2) w

/-- Vector registers that the image saves (R391). -/
def Warp.savedRegs (w : Warp) : List Bool :=
  let ps := (w.allSplits.map (·.parts)).flatten
  let whole := w.handler.isSome || ps.any (·.livein.isNone)
  let named := fun (n : Nat) => ps.any fun p => (p.livein.getD []).any fun r => r.start.toNat ≤ n && n < r.start.toNat + r.len.toNat
  (List.range w.n).map fun n => whole || (w.vget n).tag == .pending || named n

/-- A register as it is saved: one with an uncorrectable word is poisoned (R387). -/
def VReg.image (r : VReg) : VReg :=
  if r.bad ≠ 0 && r.tag != .pending then { r with tag := .poisoned { cause := 4, code := 0, major := 0, kind := 0 } } else r

/-- Stop a warp for region restart: producers that are not commit-class are cancelled, hit tables go back to their recorded counts
(07 R232), and what is not saved reads zero. -/
def Warp.restart (w : Warp) : Warp :=
  if w.ended then w else
  let w1 := ((w.flights.filter (!·.commit)).reverse).foldl Warp.cancelFlight w
  let keep := w1.savedRegs
  let regs := w1.vregs.mapIdx fun n (r : VReg) => if keep.getD n false then r.image else {}
  let counts := w1.hits.map fun (h : LaneHits) => { h with k := h.recorded }
  let w2 : Warp := { w1 with flights := w1.flights.filter (·.commit), vregs := regs, hits := counts, kept := (List.range w1.n).filter fun n => keep.getD n false }
  w2.mapSplits Split.stop

/-- The splits of a saved warp restart. -/
def Warp.unfold (w : Warp) : Warp :=
  let back := fun (l : List Split) => (l.map Split.restart).flatten
  { w with front := back w.front, wait := back w.wait, kept := [],
           handler := w.handler.map fun h => { h with frozenFront := back h.frozenFront, frozenWait := back h.frozenWait } }

/-! ### Room in the save area (R389-R391) -/

/-- Bytes to the next 64-byte boundary. -/
def round64 (n : Nat) : Nat := (n + 63) / 64 * 64

/-- The HITS section is present (R391). -/
def Warp.hasHits (w : Warp) : Bool := w.hits.any fun (h : LaneHits) => h.k ≠ 0 || h.recorded ≠ 0
/-- The RSTK section of the warp of a number is present (R391). -/
def Warp.hasStack (w : Warp) (wi : Nat) : Bool :=
  w.returns.any (fun l => !l.isEmpty) || w.origlane != (List.range 32).map fun l => BitVec.ofNat 32 (l + 32 * wi)

/-- The SIZE of a saved warp's record. -/
def Warp.recSize (w : Warp) (wi : Nat) : Nat :=
  1024 + (if w.hasHits then 3200 else 0) + (if w.hasStack wi then 2208 else 0) + 128 * w.kept.length

/-- The bytes that a saved team's records take: its own and those of its warps that have not ended. -/
def Team.recSize (t : Team) : Nat :=
  round64 (64 + t.scratchSize) + ((t.warps.zipIdx.filter fun p => !p.1.ended).map fun p => round64 (p.1.recSize p.2)).sum

/-- The save area: 64 MiB of each member (20 R420). -/
def State.saveSize (s : State) (n : Nat) : Nat := 0x4000000 * (s.members n).length

/-- The bytes that a saved render context takes (R392): eight resident tiles, and its held and draining payload slots. -/
def Slice.renderRoom (x : Slice) : Nat :=
  if x.savedRender.isNone then 0 else 128 + 8 * 0x14000 + (x.payloads.filter fun p => p.2.state != .free).length * (64 + 0x8000 + 64)

/-- The records of a team would fit in the save area (R389). -/
def State.saveFits (s : State) (n : Nat) (t : Team) : Bool :=
  4096 + ((s.slice n).saved.map Team.recSize).sum + (s.slice n).renderRoom + Team.recSize { t with warps := t.warps.map Warp.restart } ≤ s.saveSize n

/-- Watches of a warp go (06 R183). -/
def State.dropWatches (s : State) (n id : Nat) : State :=
  { s with watches := s.watches.filter fun q => !(q.warp.slice == n && q.warp.team == id) }

/-- A team can be stopped now: no bound run is open, and no copy holds its scratchpad (R384, R386). -/
def State.stoppable (s : State) (n : Nat) (t : Team) : Bool := !t.inRun && !s.scratchHeld n t.id

/-- The save of a team that cannot stop yet is awaited (20 R422): its warps issue nothing but the rest of an open bound run (R34). -/
def State.awaitSave (s : State) (n id : Nat) (why : SaveFor) : State :=
  s.modTeam n id fun t => if t.saveFrom.isSome then t else { t with saveFrom := some s.dtime, saveFor := why }

/-- Save a team: its warps stop, and it leaves its CU (R34, R385-R391). One that was asked to make room is counted (20 R417). -/
def State.saveTeam (s : State) (n id : Nat) (halt : Bool) : State :=
  match (s.slice n).team id with
  | none => s
  | some t =>
    let t1 := { t with warps := t.warps.map Warp.restart, halted := halt, saveFrom := none, saveFor := .stop, edits := [], headEdits := [] }
    (s.dropWatches n id).modSlice n fun x =>
      { x with teams := x.teams.filter (·.id != id), saved := x.saved ++ [t1], saveTime := s.dtime,
               counters := if t.saveFor == .room then lmod (· + 1) x.counters 1 else x.counters }

/-- Save a team whose save is awaited, once it can stop (R386). -/
def State.finishSave (s : State) (n id : Nat) : State :=
  match (s.slice n).team id with
  | some t => if t.saveFrom.isSome && s.stoppable n t && s.saveFits n t then s.saveTeam n id (t.saveFor == .halt) else s
  | none => s

/-! ### Restoring (R385, R393) -/

/-- What the slice core's answer to an escalation, posted in a handler or not, does to a warp (R259; R382, R385): none kills it. -/
def State.answered (s : State) (n : Nat) (t : Team) (w : Warp) (inHandler : Bool) (lane : Nat) (a : EscAnswer) : Option Warp :=
  if inHandler then
    match a with
    | .retry => some (s.endHandler n t w .retry)
    | .skip => some (s.endHandler n t w .skip)
    | .region => some (s.endHandler n t w .region)
    | _ => none
  else match a with
    | .next => some (Warp.settle (s.markedFor n t) (w.mapSplits fun p =>
        if p.hold == .esc && bit p.mask lane then
          { p with pc := ((p.parts.find? fun q => bit q.mask p.low).map (·.entry)).getD p.pc, hold := .none, run := none }
        else p))
    | _ => none

/-- A saved warp as it starts again: an answer that came meanwhile is applied; none kills it. -/
def State.resumeWarp (s : State) (n : Nat) (t : Team) (w : Warp) : Option Warp :=
  if w.ended then some w
  else
    let w1 := Warp.settle (s.markedFor n t) { w.unfold with escAnswer := none, escOf := none }
    match w.escAnswer with
    | some a =>
      let of_ := w.escOf.getD (w.handler.isSome && w.escFrozen, ((w1.allSplits.find? fun (p : Split) => p.hold == .esc).map Split.low).getD 0)
      s.answered n t w1 of_.1 of_.2 a
    | none => some w1

/-- A saved render context goes on with its tiles as they were (13 R326). -/
def State.resumeRender (s : State) (n : Nat) : State :=
  s.modSlice n fun x => if x.render.isNone then { x with render := x.savedRender, savedRender := none } else x

/-- Put a saved team back on a CU chosen by R290. One whose image cannot be restored is killed, with code 3. -/
def State.restoreTeam (s : State) (n : Nat) (t : Team) (cu : Nat) (seqs : List Nat) : State :=
  if t.broken then (List.range t.warps.length).foldl (fun s k => s.kill { slice := n, team := t.id, warp := k }) s else
  let t1 := { t with cu := cu, warps := seatWarps t.warps seqs ((s.slice n).freeSlots cu), placedAt := s.nextId, halted := false, saveFrom := none, saveFor := .stop, edits := [] }
  let ws := t1.warps.map fun w => (s.resumeWarp n t1 w, w)
  let t2 := { t1 with warps := ws.map fun p => p.1.getD p.2 }
  let sc := s.l1Clear (s.cuGlobal n cu)
  let s0 := if t.kind == .plain then sc else sc.resumeRender n
  let s1 := { (s0.modSlice n fun x => { x with teams := x.teams ++ [t2], saved := x.saved.filter (·.id != t.id) }) with nextId := s.nextId + 1 }
  (ws.mapIdx fun k p => (k, p.1.isNone)).foldl (fun s kp =>
    if kp.2 then s.kill { slice := n, team := t.id, warp := kp.1 } else s) s1

end Sys2Proof.Machine
end

