-- ==== Sys2Proof/Machine/SaveArea.lean ====
section
/-! DEFINITION. The image of a save area, byte by byte, and reading an edited image back (19 R384, R389-R393). -/

namespace Sys2Proof.Machine

/-! ### Writing the image (R389-R392) -/

/-- Pad bytes with zeros to a length. -/
def padTo (n : Nat) (b : List Byte) : List Byte := b ++ List.replicate (n - b.length) 0

/-- The bytes of some words. -/
def wordBytes (l : List Word) : List Byte := (l.map fun w => leBytes 4 w.toNat).flatten

/-- SPLITS entries of splits whose positions count from `base`: one for each region part. -/
def splitEntries (ps : List Split) (base : Nat) (frozen : Bool) : List Byte :=
  (ps.mapIdx fun k p => (p.parts.map fun q =>
    leBytes 8 q.entry.toNat ++ leBytes 4 q.mask.toNat ++ leBytes 4 (base + k + (if frozen then 256 else 0))).flatten).flatten

/-- The SPLITS entries of a saved warp, and their number. -/
def Warp.splitField (w : Warp) : List Byte :=
  splitEntries w.front 0 false ++ splitEntries w.wait 4 false
    ++ (match w.handler with | some h => splitEntries h.frozenFront 0 true ++ splitEntries h.frozenWait 4 true | none => [])

/-- FLAGS of a saved warp. -/
def Warp.recFlags (w : Warp) (wi : Nat) : Nat :=
  let f := fun (b : Bool) (k : Nat) => if b then 2 ^ k else 0
  f w.handler.isSome 0 + f (w.kept.length == w.n) 1 + f (w.escFrozen || w.allSplits.any (·.hold == .esc)) 2
    + f (w.allSplits.any (·.hold == .tbarAfter)) 3 + f w.hasHits 4 + f (w.hasStack wi) 5

def escCode : Option EscAnswer → Nat
  | none => 0 | some .retry => 1 | some .skip => 2 | some .region => 3 | some .next => 4 | some .kill => 5

/-- TAGS: two bits a register. -/
def Warp.tagField (w : Warp) : Nat :=
  ((List.range w.n).map fun n => (match (w.vget n).tag with | .full => 0 | .pending => 1 | .poisoned _ => 2) * 4 ^ n).sum

def Warp.keptField (w : Warp) : Nat := (w.kept.map fun n => 2 ^ n).sum

/-- The region entry that the first lane of a handler had at its trap. -/
def Handler.entry (h : Handler) : DWord := ((h.parts.find? fun q => bit q.mask ((lowest h.mask).getD 0)).map (·.entry)).getD 0

/-- The fixed part of a warp record (R391), its team's record at an offset. -/
def Warp.recHead (w : Warp) (wi teamAt : Nat) : List Byte :=
  let (hr, hm) := match w.handler with | some h => (h.entry.toNat, h.mask.toNat) | none => (0, 0)
  padTo 128 (leBytes 4 1 ++ leBytes 4 (w.recSize wi) ++ leBytes 4 teamAt ++ leBytes 4 wi ++ leBytes 4 w.n ++ leBytes 4 (w.recFlags wi)
    ++ leBytes 4 w.part ++ leBytes 4 w.fpctl.toNat ++ leBytes 4 w.fpstat.toNat ++ leBytes 4 (w.splitField.length / 16)
    ++ leBytes 8 w.trappc.toNat ++ leBytes 4 w.trapcause.toNat ++ leBytes 4 (escCode w.escAnswer) ++ leBytes 8 w.trapinfo.toNat
    ++ leBytes 8 w.trapvec.toNat ++ leBytes 8 hr ++ leBytes 4 hm)
  ++ padTo 512 w.splitField ++ leBytes 32 w.keptField ++ leBytes 64 w.tagField ++ wordBytes w.sregs
  ++ wordBytes w.preds ++ leBytes 4 w.qpreds.toNat

/-- A lane's hit table in the HITS section. -/
def hitField (h : LaneHits) : List Byte :=
  (h.ents.map fun e => wordBytes [e.u, e.v, e.prim, e.inst, e.leaf]
    ++ leBytes 4 (e.gen % 16 + (if e.valid then 16 else 0) + (if e.hit then 32 else 0) + (if e.front then 64 else 0))).flatten
  ++ leBytes 4 (h.k % 64 + 256 * (h.recorded % 64))

/-- The RSTK section: ORIGLANE, the depth of each stack, and its addresses from the bottom. -/
def Warp.stackField (w : Warp) : List Byte :=
  wordBytes w.origlane ++ w.returns.map (fun l => BitVec.ofNat 8 l.length)
    ++ (w.returns.map fun l => padTo 64 ((l.reverse.map fun a => leBytes 8 a.toNat).flatten)).flatten

/-- A warp record. -/
def Warp.record (w : Warp) (wi teamAt : Nat) : List Byte :=
  w.recHead wi teamAt ++ (if w.hasHits then (w.hits.map hitField).flatten else []) ++ (if w.hasStack wi then w.stackField else [])
    ++ (w.kept.map fun n => wordBytes (w.vget n).words).flatten

/-- A membership slot of GROUPS (01 R24). -/
def slotField : Option (Nat × Nat) → Nat | some (g, m) => g + 256 * m + 32768 | none => 0

/-- The phase at which a team arrived through a membership slot, where it did. -/
def Team.arrivedAt (t : Team) (k : Nat) : Option Nat :=
  match t.groups.getD k none with | some (g, _) => (t.gbarAt.find? (·.1 == g)).map (·.2) | none => none

/-- GBARS of a team record (R390). -/
def Team.gbarField (t : Team) : Nat :=
  ((List.range 4).map fun k => match t.arrivedAt k with | some p => p % 16 * 16 ^ k + 2 ^ (16 + k) | none => 0).sum

/-- A warp stands at the TBAR in progress. -/
def Warp.atTbar (w : Warp) : Bool := !w.ended && w.arrived (· == .tbarAfter)

/-- A team record with its scratchpad (R390). -/
def Team.record (t : Team) : List Byte :=
  padTo 64 (leBytes 4 2 ++ leBytes 4 (64 + t.scratchSize) ++ leBytes 4 t.queue ++ leBytes 4 t.teamid ++ leBytes 4 t.warps.length
    ++ leBytes 4 t.scratchSize ++ leBytes 8 (t.groups.mapIdx fun k g => slotField g * 65536 ^ k).sum
    ++ leBytes 4 (t.warps.mapIdx fun k w => if w.atTbar then 2 ^ k else 0).sum ++ leBytes 4 t.gbarField ++ leBytes 4 (t.pin.getD 0xFF))
  ++ t.scratch.readBytes 0 t.scratchSize

/-- A team's records from an offset on, each with its own. Warps that have ended have none. -/
def Team.records (t : Team) (at_ : Nat) : List (Nat × List Byte) :=
  (t.warps.zipIdx.filter fun p => !p.1.ended).foldl (fun l p =>
    let o := match l.getLast? with | some (o, b) => o + round64 b.length | none => at_
    l ++ [(o, p.1.record p.2 at_)]) [(at_, t.record)]

/-- The number of a tile's state, in the order of R322. -/
def TileSt.num : TileSt → Nat | .idle => 0 | .loading => 1 | .resolving => 2 | .shading => 3 | .writing => 4 | .done => 5

/-- The tiles of a render that its on-chip stores hold. -/
def Render.resident (r : Render) : List RTile := r.tiles.filter fun t => t.st != .idle && t.st != .done

/-- A tile's identifier store and tile store. -/
def RTile.stores (t : RTile) : List Byte :=
  padTo 0x10000 ((t.ids.map fun e => wordBytes [e.depth, e.order, e.ref, 0]).flatten) ++ padTo 0x4000 (wordBytes t.px)

/-- 256 records of 16 words, those never written as zeros. -/
def indexed (l : List (Nat × List Word)) : List Byte := ((List.range 256).map fun k => padTo 64 (wordBytes ((kget l k).getD []))).flatten

/-- The number of a slot's state. -/
def SlotState.num : SlotState → Nat | .free => 0 | .held => 1 | .draining => 2

/-- A payload slot in the image, `at_` 4·CU + slot: a header of 64 bytes, the records, and the written-index bitmap (R392). DESIGN CHOICE
(log 31): the header's fields are words in the order in which the rule names them. -/
def Payload.field (p : Payload) (at_ team : Nat) : List Byte :=
  let marks := fun (l : List (Nat × List Word)) => (List.range 32).map fun b =>
    BitVec.ofNat 8 ((List.range 8).map fun k => if (kget l (8 * b + k)).isSome then 2 ^ k else 0).sum
  padTo 64 (([at_ / 4, at_ % 4, p.state.num, at_ % 4 + 4 * p.gen, team].map (leBytes 4)).flatten) ++ indexed p.vtx ++ indexed p.prims ++ marks p.vtx ++ marks p.prims

/-- A render context record (R392). -/
def Slice.renderRecord (x : Slice) (r : Render) : List Byte :=
  let y := x.queue r.queue
  let ts := r.resident
  let team := fun (p : Payload) => ((x.anyTeam p.team).map (·.teamid)).getD 0
  let slots := (x.payloads.filter fun p => p.2.state != .free).map fun p => p.2.field p.1 (team p.2)
  let body := (ts.map RTile.stores).flatten ++ slots.flatten
  padTo 128 (leBytes 4 3 ++ leBytes 4 (128 + body.length) ++ leBytes 8 (y.base + 64 * (r.pkt % 2 ^ y.log2n)) ++ leBytes 4 r.batch
    ++ leBytes 4 ts.length ++ (ts.map fun t => leBytes 4 (t.num % 2 ^ 24 + 2 ^ 24 * t.st.num)).flatten) ++ body

/-- Saved teams one after another from an offset on. -/
def teamsFrom : Nat → List Team → List (Nat × Team)
  | _, [] => []
  | a, t :: ts => (a, t) :: teamsFrom (a + t.recSize) ts

/-- Offset past some teams. -/
def pastTeams (a : Nat) (ts : List Team) : Nat := a + (ts.map Team.recSize).sum

/-- The render context record of a slice's save area, where it has one. -/
def State.renderRecord (s : State) (n : Nat) : Option (List Byte) := (s.slice n).savedRender.map (s.slice n).renderRecord

/-- The saved teams with their offsets: those of the render, then, after its record, the others. -/
def State.saveTeams (s : State) (n : Nat) : List (Nat × Team) :=
  let rs := (s.slice n).saved.filter (·.kind != .plain)
  let ps := (s.slice n).saved.filter (·.kind == .plain)
  let a := pastTeams 4096 rs
  teamsFrom 4096 rs ++ teamsFrom (a + ((s.renderRecord n).map fun b => round64 b.length).getD 0) ps

/-- Edits of bytes, by offset in the save area, on a record. -/
def patch (edits : List (Nat × Byte)) (r : Nat × List Byte) : List Byte :=
  if edits.isEmpty then r.2 else r.2.mapIdx fun k b => (kget edits (r.1 + k)).getD b

/-- The bytes that the debugger has written of a team's records, by their offset in the save area. -/
def Team.editsAt (t : Team) (at_ : Nat) : List (Nat × Byte) := t.edits.map fun e => (at_ + e.1, e.2)

/-- The records of a saved team, as the debugger has left them (R384). -/
def Team.image (t : Team) (at_ : Nat) : List (Nat × List Byte) := (t.records at_).map fun r => (r.1, patch (t.editsAt at_) r)

/-- The records of a slice's save area with their offsets. -/
def State.saveRecords (s : State) (n : Nat) : List (Nat × List Byte) :=
  let rs := (s.slice n).saved.filter (·.kind != .plain)
  let ts := (s.saveTeams n).map fun e => e.2.image e.1
  (ts.take rs.length).flatten ++ (match s.renderRecord n with | some b => [(pastTeams 4096 rs, b)] | none => []) ++ (ts.drop rs.length).flatten

/-- The header of a save area (R389). -/
def State.saveHeader (s : State) (n : Nat) : List Byte :=
  let l := s.saveRecords n
  let end_ := match l.getLast? with | some (o, b) => o + b.length | none => 4096
  let edits := ((s.slice n).saved.map (·.headEdits)).flatten
  patch edits (0, padTo 4096 (leBytes 4 0x64165A5E ++ leBytes 4 1 ++ leBytes 4 n ++ leBytes 4 (s.slice n).fn ++ leBytes 8 (s.slice n).saveTime
    ++ leBytes 4 l.length ++ leBytes 4 0 ++ leBytes 8 end_))

/-- A byte of a save area, as the slice core, the host and the debugger read it. -/
def State.saveByte (s : State) (n off : Nat) : Byte :=
  if off < 4096 then (s.saveHeader n).getD off 0
  else match (s.saveRecords n).find? fun r => r.1 ≤ off && off < r.1 + r.2.length with
    | some r => r.2.getD (off - r.1) 0
    | none => 0

/-! ### Reading a record back (R384, R393) -/

/-- The field of `n` bytes at an offset. -/
def recAt (b : List Byte) (off n : Nat) : Nat := leNat ((b.drop off).take n)
def wordsAt (b : List Byte) (off k : Nat) : List Word := (List.range k).map fun i => BitVec.ofNat 32 (recAt b (off + 4 * i) 4)

/-- A SPLITS entry: entry, lane mask, position, frozen. -/
structure SplitEnt where
  entry : DWord
  mask : Mask
  pos : Nat
  frozen : Bool
  deriving DecidableEq, Repr

def splitEnt (b : List Byte) (k : Nat) : SplitEnt :=
  let o := 128 + 16 * k
  { entry := BitVec.ofNat 64 (recAt b o 8), mask := BitVec.ofNat 32 (recAt b (o + 8) 4), pos := recAt b (o + 12) 1,
    frozen := nbit (recAt b (o + 13) 1) 0 }

/-- The split that some entries of one position make. What the image does not hold, a hold and the live-in sets, is the saved split's
where the lanes are the same. -/
def joinEnts (old : List Split) (tbar esc : Bool) (es : List SplitEnt) : Split :=
  let mask := es.foldl (fun a e => a ||| e.mask) (0 : Mask)
  let o := old.find? (·.mask == mask)
  let livein := fun (e : SplitEnt) => match o with
    | some p => ((p.parts.find? fun q => q.mask == e.mask && q.entry == e.entry).map (·.livein)).getD none
    | none => none
  let hold := match o.map (·.hold) with
    | some .tbarAfter => if tbar then .tbarAfter else .none
    | some .esc => if esc then .esc else .none
    | some h => h
    | none => .none
  { pc := (o.map (·.pc)).getD ((es.head?.map (·.entry)).getD 0), mask := mask, hold := hold, check := o.bind (·.check),
    parts := es.map fun e => { entry := e.entry, mask := e.mask, livein := livein e } }

/-- The splits of the entries that satisfy a test, by position. -/
def splitsOf (es : List SplitEnt) (old : List Split) (tbar esc : Bool) (p : SplitEnt → Bool) : List Split :=
  let es := es.filter p
  (isort (· ≤ ·) (es.map (·.pos)).eraseDups).map fun k => joinEnts old tbar esc (es.filter (·.pos == k))

/-- No lane stands in two entries, and none is empty. -/
def entsApart : List SplitEnt → Bool
  | [] => true
  | e :: t => e.mask != 0 && t.all (fun f => e.mask &&& f.mask == 0) && entsApart t

def escOf : Nat → Option (Option EscAnswer)
  | 0 => some none | 1 => some (some .retry) | 2 => some (some .skip) | 3 => some (some .region) | 4 => some (some .next)
  | 5 => some (some .kill) | _ => none

/-- A lane's hit table as the image holds it. -/
def readHits (b : List Byte) (o : Nat) : LaneHits :=
  let c := recAt b (o + 96) 4
  { k := c % 64, recorded := c / 256 % 64,
    ents := (List.range 4).map fun i =>
      let ws := wordsAt b (o + 24 * i) 6
      let f := (ws.getD 5 0).toNat
      { u := ws.getD 0 0, v := ws.getD 1 0, prim := ws.getD 2 0, inst := ws.getD 3 0, leaf := ws.getD 4 0,
        gen := f % 16, valid := nbit f 4, hit := nbit f 5, front := nbit f 6 } }

/-- The tag of a register as the image holds it. A poisoned register keeps its detail; the image gives none for another. -/
def readTag (old : Tag) (seed : Nat) : Nat → Option Tag
  | 0 => some .full
  | 1 => some .pending
  | 2 => match old with
    | .poisoned p => some (.poisoned p)
    | _ => let w := (Config.freeWord seed).toNat
      some (.poisoned { cause := 1 + w % 4, code := w / 4 % 8, major := w / 32 % 256, kind := w / 8192 % 32 })
  | _ => none

/-- Read a warp record over the warp as it was saved: none where a field is out of its range. `at_` is the team's offset. -/
def readWarp (old : Warp) (wi at_ seed : Nat) (b : List Byte) : Option Warp :=
  let n := recAt b 16 4
  let fl := recAt b 20 4
  let ns := recAt b 36 4
  let es := (List.range ns).map (splitEnt b)
  let kept := (List.range 256).filter fun k => nbit (recAt b 640 32) k
  let tags := (List.range n).map fun k => readTag (old.vget k).tag seed (recAt b (672 + k / 4) 1 / 4 ^ (k % 4) % 4)
  let hitsAt := 1024
  let stackAt := hitsAt + (if nbit fl 4 then 3200 else 0)
  let regsAt := stackAt + (if nbit fl 5 then 2208 else 0)
  let size := regsAt + 128 * kept.length
  let ok := recAt b 0 4 == 1 && recAt b 4 4 == size && b.length == size && recAt b 8 4 == at_ && recAt b 12 4 == wi
    && 16 ≤ n && n ≤ 256 && n % 8 == 0 && fl < 64 && 1 ≤ ns && ns ≤ 32 && entsApart es && recAt b 24 4 ≤ 5
    && kept.all (· < n) && (!nbit fl 1 || kept.length == n) && tags.all (·.isSome) && (nbit fl 0 || es.all (!·.frozen)) && recAt b 84 44 == 0
    && ((!nbit fl 5) || (List.range 32).all fun l => recAt b (stackAt + 128 + l) 1 ≤ 8)
  match ok, escOf (recAt b 52 4) with
  | true, some ans =>
    let tb := nbit fl 3
    let ec := nbit fl 2
    let alive := es.foldl (fun a e => a ||| e.mask) (0 : Mask)
    let entry : DWord := BitVec.ofNat 64 (recAt b 72 8)
    let mask : Mask := BitVec.ofNat 32 (recAt b 80 4)
    let oldH := old.handler.getD { mask := 0, parts := [], frozenFront := [], frozenWait := [] }
    let hd : Handler :=
      { mask := mask, parts := if oldH.mask = mask ∧ oldH.entry = entry then oldH.parts else [{ entry := entry, mask := mask }],
        frozenFront := splitsOf es oldH.frozenFront tb ec fun e => e.frozen && e.pos < 4,
        frozenWait := splitsOf es oldH.frozenWait tb ec fun e => e.frozen && e.pos ≥ 4, noVec := oldH.noVec }
    some { old with
      n := n, part := recAt b 24 4, fpctl := BitVec.ofNat 32 (recAt b 28 4), fpstat := BitVec.ofNat 32 (recAt b 32 4),
      trappc := BitVec.ofNat 64 (recAt b 40 8), trapcause := BitVec.ofNat 32 (recAt b 48 4),
      trapinfo := BitVec.ofNat 64 (recAt b 56 8), trapvec := BitVec.ofNat 64 (recAt b 64 8), escAnswer := ans,
      front := splitsOf es old.front tb ec fun e => !e.frozen && e.pos < 4,
      wait := splitsOf es old.wait tb ec fun e => !e.frozen && e.pos ≥ 4,
      handler := if nbit fl 0 then some hd else none, escFrozen := old.escFrozen && ec, exited := ~~~alive, kept := kept,
      sregs := wordsAt b 736 64, preds := wordsAt b 992 7, qpreds := BitVec.ofNat 7 (recAt b 1020 4),
      hits := if nbit fl 4 then (List.range 32).map fun l => readHits b (hitsAt + 100 * l) else List.replicate 32 {},
      origlane := if nbit fl 5 then wordsAt b stackAt 32 else (List.range 32).map fun l => BitVec.ofNat 32 (l + 32 * wi),
      returns := if nbit fl 5 then (List.range 32).map fun l =>
          ((List.range (recAt b (stackAt + 128 + l) 1)).map fun k => BitVec.ofNat 64 (recAt b (stackAt + 160 + 64 * l + 8 * k) 8)).reverse
        else List.replicate 32 [],
      vregs := (List.range n).map fun k =>
        { (if kept.contains k then old.vget k else {}) with
            tag := (tags.getD k none).getD .full,
            words := match kept.findIdx? (· == k) with | some i => wordsAt b (regsAt + 128 * i) 32 | none => List.replicate 32 0 } }
  | _, _ => none

/-- Read the records of a team's warps, those that have not ended. -/
def readWarps (at_ seed : Nat) : List (Warp × Nat) → List (List Byte) → Option (List Warp)
  | [], [] => some []
  | (w, wi) :: t, bs =>
    if w.ended then (readWarps at_ seed t bs).map (w :: ·)
    else match bs with
      | [] => none
      | b :: r => match readWarp w wi at_ seed b with
        | none => none
        | some w1 => (readWarps at_ seed t r).map (w1 :: ·)
  | [], _ :: _ => none

/-- A membership slot read back. -/
def readSlot (v : Nat) : Option (Nat × Nat) := if nbit v 15 then some (v % 256, v / 256 % 64) else none

/-- TBARM as it was edited: the bit of a warp that differs from what the team held makes every split of the warp stand at the TBAR, or none. -/
def Warp.readTbar (old w : Warp) (at_ : Bool) : Warp :=
  if at_ == old.atTbar || w.ended then w
  else w.mapSplits fun p => { p with hold := if at_ then .tbarAfter else if p.hold == .tbarAfter then .none else p.hold }

/-- Read a team's records over the team as it was saved: none where one cannot be restored. -/
def readTeam (old : Team) (cus at_ seed : Nat) (rs : List (List Byte)) : Option Team :=
  match rs with
  | [] => none
  | b :: ws =>
    let size := recAt b 20 4
    let gs := (List.range 4).map fun k => readSlot (recAt b (24 + 2 * k) 2)
    let pin := recAt b 40 4
    let bars := recAt b 36 4
    let ok := recAt b 0 4 == 2 && recAt b 4 4 == 64 + size && b.length == 64 + size && size % 256 == 0 && size ≤ 0xC0000
      && recAt b 8 4 < 64 && recAt b 16 4 == old.warps.length && bars < 2 ^ 20 && (pin == 0xFF || pin < cus) && recAt b 44 20 == 0
    match ok, readWarps at_ seed old.warps.zipIdx ws with
    | true, some ws =>
      if ws.all (fun w => w.ended || some w.n == (ws.find? (!·.ended)).map (·.n)) then
        some { old with
          queue := recAt b 8 4, teamid := recAt b 12 4, scratchSize := size, groups := gs,
          pin := if pin = 0xFF then none else some pin, n := ((ws.find? (!·.ended)).map (·.n)).getD old.n,
          warps := (old.warps.zip ws).zipIdx.map fun p => p.1.1.readTbar p.1.2 (nbit (recAt b 32 4) p.2),
          gbarAt := (List.range 4).filterMap fun k => match nbit bars (16 + k), gs.getD k none with
            | true, some (g, _) => some (g, bits bars (4 * k) 4)
            | _, _ => none,
          scratch := { old.scratch with cells := [], hazy := [] }.writeBytes 0 (b.drop 64) }
      else none
    | _, _ => none

/-- Where a saved team's records begin. -/
def State.savedAt (s : State) (n : Nat) (t : Team) : Nat := (((s.saveTeams n).find? (·.2.id == t.id)).map (·.1)).getD 4096

/-- Bytes of the save area that the debugger writes while a team is halted: those of the header, and those of the team's records (R384). -/
def State.editTeam (s : State) (n : Nat) (t : Team) (edits : List (Nat × Byte)) : Team :=
  let at_ := s.savedAt n t
  let put := fun (l : List (Nat × Byte)) (e : Nat × Byte) => kset l e.1 e.2
  { t with headEdits := (edits.filter (·.1 < 4096)).foldl put t.headEdits,
           edits := ((edits.filter fun e => at_ ≤ e.1 && e.1 < at_ + t.recSize).map fun e => (e.1 - at_, e.2)).foldl put t.edits }

/-- The debugger's edits of a halted team's image: the team as its records then give it, or one whose restore fails. -/
def State.editImage (s : State) (n : Nat) (t0 : Team) (edits : List (Nat × Byte)) : Team :=
  let at_ := s.savedAt n t0
  let t := s.editTeam n t0 edits
  let head := patch t.headEdits (0, (s.saveHeader n).take 8)
  let rs := (t.image at_).map (·.2)
  match recAt head 0 4 == 0x64165A5E && recAt head 4 4 == 1, readTeam t (s.cuCount n) at_ s.nextId rs with
  | true, some t1 => t1
  | _, _ => { t with broken := true }

end Sys2Proof.Machine
end

