-- ==== Sys2Proof/Machine/Packets.lean ====
section
/-! DEFINITION. Kick words and packets (20 R408-R413; 11 R292, R299; 13 R316). A packet is taken when its slot is read; it starts
when its FENCE bit and its kind allow. -/

namespace Sys2Proof.Machine

/-- A team number that no team has. -/
def noTeam : Nat := 2 ^ 64

/-- The escapement as it reads and writes its owner's memory for a queue (R410). -/
def State.escAgent (s : State) (n q : Nat) : Agent :=
  { slice := n, team := noTeam, vf := (s.slice n).fn, cu := 0xFFFF, path := .c, id := 2 ^ 40 + 64 * n + q }

/-- Read bytes of the owner's global memory. -/
def State.escRead (s : State) (n q a len : Nat) : State × Except EngErr (List Byte) :=
  if a ≥ 2 ^ 48 then (s, .error (.fault 6 3))
  else if a % 8 = 0 ∧ len % 8 = 0 then s.engBytes (s.escAgent n q) (BitVec.ofNat 64 a) 8 (len / 8)
  else s.engBytes (s.escAgent n q) (BitVec.ofNat 64 a) 1 len

/-- Write bytes of the owner's global memory. -/
def State.escWrite (s : State) (n q a : Nat) (b : List Byte) : State × Except EngErr Unit :=
  if a ≥ 2 ^ 48 then (s, .error (.fault 6 3))
  else if a % 8 = 0 ∧ b.length % 8 = 0 then s.engPut (s.escAgent n q) none 8 (b.length / 8) (BitVec.ofNat 64 a) b
  else s.engPut (s.escAgent n q) none 1 b.length (BitVec.ofNat 64 a) b

/-! ### Fields and their ranges (R410, R411) -/

def byteAt (b : List Byte) (k : Nat) : Nat := (b.getD k 0).toNat
/-- Bytes `a` up to `z` are zero. -/
def zeroBytes (b : List Byte) (a z : Nat) : Bool := ((b.drop a).take (z - a)).all (· == 0)

/-- A legal FPCTL value (01 R36). -/
def fpctlOk (x : Nat) : Bool := x % 8 ≤ 4 && !nbit x 4 && x < 2 ^ 11

def regsOk (r : Nat) : Bool := 16 ≤ r && r ≤ 256 && r % 8 == 0
def scratchOk (k : Nat) : Bool := k ≤ 786432 && k % 256 == 0

/-- A launch record (R410). -/
def parseK (b : List Byte) : KRec :=
  { entry := BitVec.ofNat 64 (fieldAt b 0 8), trapvec := BitVec.ofNat 64 (fieldAt b 8 8), warps := fieldAt b 16 2, regs := fieldAt b 18 2,
    scratch := fieldAt b 20 4 }
def krecOk (b : List Byte) : Bool :=
  let k := parseK b
  1 ≤ k.warps && k.warps ≤ 32 && regsOk k.regs && scratchOk k.scratch && zeroBytes b 24 64

/-- A node descriptor (11 R299). -/
def parseNode (b : List Byte) : NodeDesc :=
  { target := BitVec.ofNat 64 (fieldAt b 0 8), trapvec := BitVec.ofNat 64 (fieldAt b 8 8), timer := fieldAt b 16 4, scratch := fieldAt b 20 4,
    regs := fieldAt b 24 2, rsize := byteAt b 26, gsize := byteAt b 27, teamw := byteAt b 28, graph := byteAt b 29 % 64,
    zfill := byteAt b 30 % 2 == 1, cupin := byteAt b 31, fpctl := BitVec.ofNat 32 (fieldAt b 32 4), queue := byteAt b 36 % 64 }
def nodeOk (b : List Byte) (cus : Nat) : Bool :=
  let d := parseNode b
  scratchOk d.scratch && regsOk d.regs && d.rsize ≤ 16 && 1 ≤ d.gsize && d.gsize ≤ 32 && 1 ≤ d.teamw && d.teamw ≤ 32
  && byteAt b 29 < 64 && byteAt b 30 < 2 && (d.cupin == 0xFF || d.cupin < cus) && fpctlOk d.fpctl.toNat && fieldAt b 36 4 < 64
  && zeroBytes b 40 48

def pktKind (raw : List Byte) : Nat := byteAt raw 0
def pktFence (raw : List Byte) : Bool := nbit (byteAt raw 1) 0
def pktCmpl (raw : List Byte) : Bool := nbit (byteAt raw 1) 1
def pktIcinv (raw : List Byte) : Bool := nbit (byteAt raw 1) 2
def pktGraph (raw : List Byte) : Nat := byteAt raw 2 % 64

/-- A packet that launches teams: team count, FPCTL and arguments in range. -/
def launchFieldsOk (raw : List Byte) : Bool :=
  let nt := fieldAt raw 24 4
  let na := fieldAt raw 36 4
  let ar := fieldAt raw 40 8
  1 ≤ nt && nt ≤ 65535 && byteAt raw 28 < 4 && zeroBytes raw 30 32 && fpctlOk (fieldAt raw 32 4) && na ≤ 16
  && (if na = 0 then ar == 0 else ar % 4 == 0) && zeroBytes raw 48 64

/-- The packet breaks no rule of R410 that its own bytes decide. -/
def packetOk (raw : List Byte) (cus : Nat) : Bool :=
  let k := pktKind raw
  1 ≤ k && k ≤ 7 && byteAt raw 1 < 8 && !(pktIcinv raw && k > 2) && byteAt raw 2 < 64 && (k == 6 || byteAt raw 3 == 0)
  && zeroBytes raw 4 8 && !(pktCmpl raw && fieldAt raw 8 8 % 64 != 0)
  && (match k with
    | 1 => launchFieldsOk raw && (byteAt raw 29 == 0xFF || byteAt raw 29 < cus)
    | 2 => launchFieldsOk raw && byteAt raw 29 == 0
    | 3 => zeroBytes raw 28 64
    | 4 => fieldAt raw 16 8 % 8 == 0 && byteAt raw 32 < 4 && zeroBytes raw 33 64
    | 5 => fieldAt raw 16 8 % 8 == 0 && byteAt raw 32 < 2 && zeroBytes raw 33 64
    | 6 => nodeOk (raw.drop 16) cus
    | _ => fieldAt raw 16 8 % 4096 == 0 && 4 ≤ byteAt raw 24 && byteAt raw 24 ≤ 12 && zeroBytes raw 25 32 && fieldAt raw 32 8 % 65536 == 0
        && 6 ≤ fieldAt raw 40 2 && fieldAt raw 40 2 ≤ 1024 && zeroBytes raw 42 64)

/-- The render descriptor and the launch records it names are in range (R410; 13 R316, R323). -/
def renderOk (d geo shade : List Byte) : Bool :=
  let x := fieldAt d 16 2
  let y := fieldAt d 18 2
  let w := fieldAt d 20 2
  let h := fieldAt d 22 2
  let bin := fieldAt d 56 4
  let cd := f32 false (BitVec.ofNat 32 (fieldAt d 44 4))
  [x, y, w, h, fieldAt d 88 2, fieldAt d 90 2].all (· % 8 == 0) && 0 < w && w ≤ 16384 && 0 < h && h ≤ 16384
  && x + w ≤ fieldAt d 88 2 && y + h ≤ fieldAt d 90 2 && 2 ^ 20 ≤ bin && bin ≤ 2 ^ 30 && bin % 65536 == 0
  && (match cd with | .fin .. => cmpFp (.fin false 0) cd != .gt && cmpFp cd (.fin false 1) != .gt | _ => false)
  && zeroBytes d 60 64 && zeroBytes d 92 256 && krecOk geo && krecOk shade && (parseK shade).warps == 2

/-! ### Taking a packet (R409, R410) -/

/-- The bytes that a packet names are read with it: what was read, a wait, or a failure. -/
inductive Gathered (α : Type) where
  | ok (s : State) (x : α)
  | wait (s : State)
  | bad (s : State)

def gather {α : Type} (f : List Byte → α) : State × Except EngErr (List Byte) → Gathered α
  | (s, .ok b) => .ok s (f b)
  | (s, .error .wait) => .wait s
  | (s, .error _) => .bad s

/-- Bytes as 32-bit words. -/
def wordsOfBytes (b : List Byte) (n : Nat) : List Word := (List.range n).map fun k => BitVec.ofNat 32 (fieldAt b (4 * k) 4)

/-- Read the argument block of a LAUNCH or RENDER. -/
def State.gatherArgs (s : State) (n q : Nat) (raw : List Byte) : Gathered (List Word) :=
  let na := fieldAt raw 36 4
  if na = 0 then .ok s [] else gather (wordsOfBytes · na) (s.engBytes (s.escAgent n q) (BitVec.ofNat 64 (fieldAt raw 40 8)) 4 na)

/-- Read the records of a LAUNCH: its launch record; of a RENDER: its descriptor and both launch records. -/
def State.gatherRecs (s : State) (n q : Nat) (raw : List Byte) : Gathered (List (List Byte)) :=
  if pktKind raw = 1 then gather (fun b => [b]) (s.escRead n q (fieldAt raw 16 8) 64)
  else match gather id (s.escRead n q (fieldAt raw 16 8) 256) with
    | .wait s => .wait s
    | .bad s => .bad s
    | .ok s1 d => match gather id (s1.escRead n q (fieldAt d 72 8) 64) with
      | .wait s => .wait s
      | .bad s => .bad s
      | .ok s2 g => gather (fun h => [d, g, h]) (s2.escRead n q (fieldAt d 80 8) 64)

/-- A read packet, with what it names; none while the reads wait. -/
def State.gatherHead (s : State) (n q idx : Nat) (raw : List Byte) : State × Option Head :=
  if !packetOk raw (s.cuCount n) || (pktKind raw ≠ 1 && pktKind raw ≠ 2) then (s, some { idx := idx, raw := raw })
  else match s.gatherArgs n q raw with
    | .wait s1 => (s1, none)
    | .bad s1 => (s1, some { idx := idx, raw := raw, args := none })
    | .ok s1 a => match s1.gatherRecs n q raw with
      | .wait s2 => (s2, none)
      | .bad s2 => (s2, some { idx := idx, raw := raw, args := some a, recs := none })
      | .ok s2 r => (s2, some { idx := idx, raw := raw, args := some a, recs := some r })

/-- Something makes the packet rejected (R411): its fields, its launch record, or a surface that does not match ENCSIZE (R427). -/
def State.rejects (s : State) (n : Nat) (h : Head) : Bool :=
  !packetOk h.raw (s.cuCount n)
  || (match pktKind h.raw, h.recs with
    | 1, some [k] => !krecOk k
    | 2, some [d, g, k] => renderOk d g k && byteAt h.raw 28 % 2 == 1 &&
        (fieldAt d 20 2 != (s.slice n).encoder.regs.w || fieldAt d 22 2 != (s.slice n).encoder.regs.h)
    | _, _ => false)

/-- The packet's record. A FRAME stands in no frame, and keeps its own frame number. -/
def Queue.pktOf (q : Queue) (h : Head) : Pkt :=
  let f := if pktKind h.raw = 3 then none else q.frames.getLast?
  { idx := h.idx, kind := pktKind h.raw, frame := f.map (·.seq),
    frameno := if pktKind h.raw = 3 then fieldAt h.raw 24 4 else (f.map (·.frameno)).getD 0,
    cmpl := pktCmpl h.raw, caddr := fieldAt h.raw 8 8 }

/-- Take packet RDIDX where its KIND satisfies a test: KIND := 0, RDIDX := RDIDX + 1; a rejected one completes with STATUS 1. -/
def State.takePacket (s : State) (n q : Nat) (test : Nat → Bool) : State :=
  let x := s.slice n
  let y := x.queue q
  if !y.en || y.rdidx == y.wridx || y.head.isSome || x.st ≠ 1 || x.drain ≠ 0 || x.leaving then s
  else
    let a := y.base + 64 * (y.rdidx.toNat % 2 ^ y.log2n)
    match s.escRead n q a 64 with
    | (s1, .error _) => s1
    | (s1, .ok raw) =>
      if pktKind raw = 0 || !test (pktKind raw) then s1
      else match s1.gatherHead n q y.rdidx.toNat raw with
        | (s2, none) => s2
        | (s2, some h) =>
          match s2.escWrite n q a [0] with
          | (s3, .error .wait) => s3
          | (s3, _) => s3.modSlice n fun x => x.modQueue q fun y =>
            let p := y.pktOf h
            let y1 := { y with rdidx := y.rdidx + 1 }
            if s3.rejects n h then { y1 with pkts := y1.pkts ++ [{ p with status := some 1 }] }
            else { y1 with pkts := y1.pkts ++ [p], head := some h }

/-- A taken packet may start: FENCE and SIGV wait for every earlier packet of the queue, a RENDER for the slice's render, a NODE
for the node's records, a TASKRING for the ring's tasks (R410; 11 R299; 13 R316). -/
def Slice.ready (x : Slice) (q : Nat) (h : Head) : Bool :=
  let first := (x.queue q).pkts.all (·.idx == h.idx)
  match pktKind h.raw with
  | 2 => (first || !pktFence h.raw) && x.render.isNone && x.savedRender.isNone
  | 5 => first
  | 6 => (first || !pktFence h.raw) && x.binned (.node (byteAt h.raw 3)) == 0
  | 7 => (first || !pktFence h.raw) && x.tasks.isEmpty
  | _ => first || !pktFence h.raw

/-- The taken packet starts: it leaves the head. -/
def Slice.begun (x : Slice) (q : Nat) (h : Head) : Slice :=
  x.modQueue q fun y => { y with head := none, pkts := y.pkts.map fun p => if p.idx = h.idx then { p with started := true } else p }

/-- Take a packet of a kind, or one already taken, and start it when it may. -/
def packetStep (kind : Nat) (f : State → Nat → Nat → Head → State) (slice q : Nat) (s : State) : State :=
  let s1 := s.takePacket slice q (· == kind)
  match ((s1.slice slice).queue q).head with
  | some h => if pktKind h.raw = kind && (s1.slice slice).ready q h then f s1 slice q h else s1
  | none => s1

/-- End a packet's work at once. -/
def State.endWork (s : State) (n q idx status : Nat) : State := s.modSlice n fun x => x.endPkt q idx status []

/-! ### LAUNCH (R410; 11 R291, R292) -/

/-- The packet empties the instruction caches before any team of it is placed (01 R43). -/
def State.pktIc (s : State) (n : Nat) (h : Head) : State := if pktIcinv h.raw then s.modSlice n fun x => { x with icache := [] } else s

/-- Placing teams in turn on some rooms: the CU and sequencers of each. -/
def placeAll (d : Need) : Nat → List (Nat × Room) → Option (List (Nat × List Nat))
  | 0, _ => some []
  | k + 1, rooms => match pickCu rooms d with
    | none => none
    | some (cu, seqs, r) => (placeAll d k (rooms.map fun c => if c.1 = cu then (cu, r) else c)).map ((cu, seqs) :: ·)

/-- The co-launched set fits the slice with no team resident. -/
def Launch.coFits (y : Launch) (count : Nat) : Bool := (placeAll y.need y.total ((y.need.cus count).map fun c => (c, emptyRoom))).isSome

def startLaunch (s : State) (n q : Nat) (h : Head) : State :=
  let s := (s.modSlice n fun x => x.begun q h).pktIc n h
  match h.args, h.recs with
  | some a, some [k] =>
    let pin := if byteAt h.raw 29 = 0xFF then none else some (byteAt h.raw 29)
    let y : Launch :=
      { id := s.nextId, queue := q, pkt := some h.idx, kind := .packet, krec := parseK k, total := fieldAt h.raw 24 4,
        co := nbit (byteAt h.raw 28) 0, zfill := nbit (byteAt h.raw 28) 1, pin := pin, fpctl := BitVec.ofNat 32 (fieldAt h.raw 32 4),
        args := a, graph := pktGraph h.raw }
    if !y.need.fitsEmpty (s.cuCount n) then s.endWork n q h.idx 1
    else if y.co && !y.coFits (s.cuCount n) then s.endWork n q h.idx 2
    else { (s.modSlice n fun x => { x with launches := x.launches ++ [y] }) with nextId := s.nextId + 1 }
  | _, _ => s.endWork n q h.idx 5

def execPacketLaunch (slice q : Nat) (s : State) : Res := .next (packetStep 1 startLaunch slice q s)

/-! ### RENDER (R410; 13 R316) -/

/-- The render context that a packet starts. -/
def renderOf (s : State) (n q : Nat) (h : Head) (d g k : List Byte) : Render :=
  { queue := q, pkt := h.idx, vf := (s.slice n).fn, surface := fieldAt d 0 8, meta_ := fieldAt d 8 8, compressed := nbit (byteAt h.raw 28) 1,
    enc := nbit (byteAt h.raw 28) 0, x0 := fieldAt d 16 2, y0 := fieldAt d 18 2, width := fieldAt d 20 2, height := fieldAt d 22 2,
    surfW := fieldAt d 88 2, surfH := fieldAt d 90 2, vxs := BitVec.ofNat 32 (fieldAt d 24 4), vys := BitVec.ofNat 32 (fieldAt d 28 4),
    vxo := BitVec.ofNat 32 (fieldAt d 32 4), vyo := BitVec.ofNat 32 (fieldAt d 36 4), clear := BitVec.ofNat 32 (fieldAt d 40 4),
    clearDepth := BitVec.ofNat 32 (fieldAt d 44 4), binBase := fieldAt d 48 8, binSize := fieldAt d 56 4, tileArea := fieldAt d 64 8,
    geo := parseK g, shade := parseK k, fpctl := BitVec.ofNat 32 (fieldAt h.raw 32 4), args := h.args.getD [], graph := pktGraph h.raw,
    geoLaunch := s.nextId,
    frameno := (((s.slice n).queue q).pkts.find? (·.idx == h.idx)).map (·.frameno) |>.getD 0 }

/-- Tiles across and down the render area (13 R316). -/
def Render.tileCols (r : Render) : Nat := (r.width + 63) / 64
def Render.tileRows (r : Render) : Nat := (r.height + 63) / 64

/-- The encoder lane's frame of a render that binds it (R427). -/
def Render.encFrame (r : Render) : EncFrame :=
  { frameno := r.frameno, queue := r.queue, pkt := r.pkt, ntiles := r.tileCols * r.tileRows, tileCols := r.tileCols, surfW := r.surfW, surface := r.surface,
    meta_ := r.meta_, compressed := r.compressed, clear := r.clear, vf := r.vf, x0 := r.x0, y0 := r.y0 }

def startRender (s : State) (n q : Nat) (h : Head) : State :=
  let s := (s.modSlice n fun x => x.begun q h).pktIc n h
  let fin := fun (code : Nat) => s.modSlice n fun x => x.endPkt q h.idx code (List.replicate 7 0)
  match h.args, h.recs with
  | some a, some [d, g, k] =>
    if !renderOk d g k then fin 7
    else
      let r := renderOf s n q h d g k
      let need := fun (k : KRec) => ({ warps := k.warps, regs := k.regs, scratch := k.scratch, pin := none } : Need)
      if !((need r.geo).fitsEmpty (s.cuCount n) && (need r.shade).fitsEmpty (s.cuCount n)) then fin 1
      else
        let y : Launch := { id := s.nextId, queue := q, kind := .geometry, krec := r.geo, total := fieldAt h.raw 24 4, fpctl := r.fpctl,
                            args := a, graph := r.graph }
        { (s.modSlice n fun x => { x with
            launches := x.launches ++ [y], render := some r,
            encoder := if r.enc && x.encoder.regs.en then { x.encoder with frames := x.encoder.frames ++ [r.encFrame] } else x.encoder })
          with nextId := s.nextId + 1 }
  | _, _ => fin 8

def execPacketRender (slice q : Nat) (s : State) : Res := .next (packetStep 2 startRender slice q s)

/-! ### FRAME, WAITV, SIGV, NODE, TASKRING (R410, R413) -/

def startFrame (s : State) (n q : Nat) (h : Head) : State :=
  let f : Frame := { seq := s.nextId, deadline := fieldAt h.raw 16 8, frameno := fieldAt h.raw 24 4 }
  { ((s.modSlice n fun x => (x.begun q h).modQueue q fun y => { y with frames := y.frames ++ [f] }).endWork n q h.idx 0) with
      nextId := s.nextId + 1 }

def execPacketFrame (slice q : Nat) (s : State) : Res := .next (packetStep 3 startFrame slice q s)

/-- A WAITV stays the head of its queue: later packets wait for it. -/
def startWaitv (s : State) (n q : Nat) (h : Head) : State :=
  s.modSlice n fun x => x.modQueue q fun y => { y with pkts := y.pkts.map fun p => if p.idx = h.idx then { p with started := true } else p }

def execPacketWaitv (slice q : Nat) (s : State) : Res := .next (packetStep 4 startWaitv slice q s)

/-- A started WAITV is evaluated, where no kick has found its condition true yet; one whose word cannot be read goes on waiting. -/
def execWaitvEvaluation (slice q : Nat) (s : State) : Res :=
  match ((s.slice slice).queue q).head with
  | none => .next s
  | some h =>
    if pktKind h.raw ≠ 4 || !(s.slice slice).ready q h then .next s
    else if h.met then .next ((s.modSlice slice fun x => x.begun q h).endWork slice q h.idx 0)
    else match s.escRead slice q (fieldAt h.raw 16 8) 8 with
      | (s1, .error _) => .next s1
      | (s1, .ok b) =>
        if waitvHolds (byteAt h.raw 32) (leNat b) (fieldAt h.raw 24 8) then
          .next ((s1.modSlice slice fun x => x.begun q h).endWork slice q h.idx 0)
        else .next s1

/-- SIGV: a write, or an atomic add. Where its word cannot be accessed nothing is written, and its status is a free value. -/
def startSigv (s : State) (n q : Nat) (h : Head) : State :=
  let a := fieldAt h.raw 16 8
  let fin := fun (s : State) (st : Nat) => (s.modSlice n fun x => x.begun q h).endWork n q h.idx st
  let lost := fun (s : State) => fin { s with freeCtr := s.freeCtr + 1 } (Config.freeWord s.freeCtr).toNat
  let put := fun (s : State) (v : Nat) => match s.escWrite n q a (leBytes 8 v) with
    | (s1, .error .wait) => s1
    | (s1, .error _) => lost s1
    | (s1, .ok _) => fin s1 0
  if byteAt h.raw 32 = 0 then put s (fieldAt h.raw 24 8)
  else match s.escRead n q a 8 with
    | (s1, .error .wait) => s1
    | (s1, .error _) => lost s1
    | (s1, .ok b) => put s1 ((leNat b + fieldAt h.raw 24 8) % 2 ^ 64)

def execPacketSigv (slice q : Nat) (s : State) : Res := .next (packetStep 5 startSigv slice q s)

def startNode (s : State) (n q : Nat) (h : Head) : State :=
  let k := byteAt h.raw 3
  let d := parseNode (h.raw.drop 16)
  ((s.modSlice n fun x => { (x.begun q h) with nodes := kset x.nodes k d })).endWork n q h.idx 0

def execPacketNode (slice q : Nat) (s : State) : Res := .next (packetStep 6 startNode slice q s)

def startTaskring (s : State) (n q : Nat) (h : Head) : State :=
  let r : TaskRing := { base := fieldAt h.raw 16 8, slots := 2 ^ byteAt h.raw 24, spill := fieldAt h.raw 32 8, nspill := fieldAt h.raw 40 2 }
  (s.modSlice n fun x => { (x.begun q h) with ring := some r }).endWork n q h.idx 0

def execPacketTaskring (slice q : Nat) (s : State) : Res := .next (packetStep 7 startTaskring slice q s)

def execPacketInvalidKind (slice q : Nat) (s : State) : Res := .next (s.takePacket slice q (8 ≤ ·))

/-! ### Completion (R412) -/

/-- The completion record. -/
def Pkt.record (p : Pkt) (q dtime : Nat) : List Byte :=
  leBytes 4 (p.status.getD 0) ++ [BitVec.ofNat 8 p.kind, BitVec.ofNat 8 q, 0, 0] ++ leBytes 8 dtime ++ leBytes 4 p.frameno
  ++ ((List.range 7).map fun k => leBytes 4 (p.counters.getD k 0)).flatten ++ List.replicate 16 0

/-- Drop a completed packet, and the frames that are finished but for the open one. -/
def Queue.drop (y : Queue) (idx : Nat) : Queue :=
  let y1 := { y with pkts := y.pkts.filter (·.idx != idx) }
  { y1 with frames := y1.frames.filter fun f => y1.frameBusy f || y1.frames.getLast?.map (·.seq) == some f.seq }

def execPacketCompletion (slice q idx : Nat) (s : State) : Res :=
  match ((s.slice slice).queue q).pkts.find? fun p => p.idx == idx && p.status.isSome with
  | none => .next s
  | some p =>
    let out := fun (s : State) => s.modSlice slice fun x => x.modQueue q (·.drop idx)
    -- the MSI-X vector, 2 to 63, is chosen by the queue (21 R430); the map is not given (log 60)
    let tell := fun (s : State) => { s with out := s.out ++ [.msix (s.slice slice).fn (2 + Config.queueVector q % 62)] }
    if !p.cmpl || p.caddr % 64 ≠ 0 then .next (out s)
    else match s.escWrite slice q p.caddr (p.record q s.dtime) with
      | (s1, .error .wait) => .next s1
      | (s1, _) => .next (tell (out s1))

/-! ### Kick words (R408) -/

def execKickWordWrite (slice q : Nat) (value : DWord) (s : State) : Res :=
  .next (s.kickWrite slice (s.slice slice).fn q value)

end Sys2Proof.Machine
end

