-- ==== Sys2Proof/Machine/Escapement.lean ====
section
/-! DEFINITION. The escapement's placement of teams (11 R290, R291; 13 R319; 20 R413-R415), missed deadlines (20 R416), and the
collator's launches (11 R299-R305; 04 R135). -/

namespace Sys2Proof.Machine

/-! ### Ranks (R413) -/

/-- A queue's rank: urgency, then the higher PRIO, then the lower index. -/
def Slice.rank (x : Slice) (q : Nat) : Nat × Nat × Nat := ((x.queue q).urgency, 7 - (x.queue q).prio, q)
def rankLe (a b : Nat × Nat × Nat) : Bool :=
  a.1 < b.1 || (a.1 == b.1 && (a.2.1 < b.2.1 || (a.2.1 == b.2.1 && a.2.2 ≤ b.2.2)))

/-! ### The collator's launches (11 R302; 04 R135) -/

/-- The launch that a load makes. -/
def Slice.loadLaunch (x : Slice) (id : Nat) : CLoad → Launch
  | .node k _ =>
    match kget x.nodes k with
    | some d => { id := id, queue := d.queue, kind := .node k, total := 1, placed := 1, zfill := d.zfill, fpctl := d.fpctl, graph := d.graph,
                  pin := if d.cupin = 0xFF then none else some d.cupin,
                  krec := { entry := d.target, trapvec := d.trapvec, warps := d.teamw, regs := d.regs, scratch := d.scratch } }
    | none => { id := id, queue := 0, kind := .node k, total := 1, placed := 1, krec := {} }
  | .regroup k _ => { id := id, queue := k.queue, kind := .regroup, total := 1, placed := 1, fpctl := k.fpctl, graph := k.graph,
                      krec := { entry := k.target, trapvec := k.trapvec, warps := 1, regs := k.n, scratch := 0 } }

/-- Lanes that have no record begin exited; a warp with none begins ended (R302). -/
def Warp.startLanes (w : Warp) (m : Mask) : Warp :=
  { w with exited := ~~~m, ended := m == 0,
           front := if m = 0 then [] else w.front.map fun p => { p with mask := m, parts := p.parts.map fun q => { q with mask := m } } }

/-- A warp of a node's team: record k goes to warp k div GSIZE, lane k mod GSIZE (R302). -/
def nodeWarp (y : Launch) (gsize : Nat) (rs : List NodeRec) (wi : Nat) : Warp :=
  let rec_ := fun l => if l < gsize then rs[wi * gsize + l]? else none
  let m := maskOf fun l => (rec_ l).isSome
  let w := (freshWarp y wi).startLanes m
  { w with vregs := w.vregs.mapIdx fun k r =>
      if k < 16 then { r with words := (List.range 32).map fun l => match rec_ l with | some e => e.words.getD k 0 | none => 0 } else r }

/-- A warp of regrouped lanes (R135). -/
def regroupWarp (y : Launch) (rs : List RRec) : Warp :=
  let m := maskOf fun l => l < rs.length
  let w := (freshWarp y 0).startLanes m
  { w with
    vregs := w.vregs.mapIdx fun (k : Nat) (r : VReg) => { r with words := (List.range 32).map fun l => match rs[l]? with
      | some e => if e.first ≤ k then e.words.getD (k - e.first) 0 else 0
      | none => 0 }
    origlane := (List.range 32).map fun l => match rs[l]? with | some e => e.orig | none => BitVec.ofNat 32 l
    origin := (List.range 32).map fun l => match rs[l]? with | some e => e.launch | none => y.id
    returns := (List.range 32).map fun l => match rs[l]? with | some e => e.stack | none => [] }

/-- The warps of a load's team. -/
def Slice.loadWarps (x : Slice) (y : Launch) : CLoad → List Warp
  | .node k rs => (List.range y.krec.warps).map (nodeWarp y (((kget x.nodes k).map (·.gsize)).getD 32) rs)
  | .regroup _ rs => [regroupWarp y rs]

/-! ### What a queue has to place (R414) -/

inductive Cand where
  | saved (t : Team)
  | co (y : Launch)
  | fresh (y : Launch)
  /-- a waiting load of the collator, by its place, and the launch it makes (11 R301, R305) -/
  | load (k : Nat) (y : Launch)

def Cand.need : Cand → Need | .saved t => t.need | .co y => y.need | .fresh y => y.need | .load _ y => y.need

/-- Teams of the launches that packets made, not the collator's. -/
def Launch.waits (y : Launch) (q : Nat) : Bool :=
  y.queue == q && y.placed < y.total && (match y.kind with | .node _ | .regroup => false | _ => true)

/-- The first waiting load of a queue. -/
def Slice.loadOf (x : Slice) (q : Nat) : Option Cand :=
  ((x.loads.mapIdx fun k c => (k, x.loadLaunch 0 c)).find? fun e => e.2.queue == q).map fun e => .load e.1 e.2

/-- The team or co-launch a queue places next: saved teams before new ones, a render's shading teams before its geometry teams (13 R319).
DESIGN CHOICE (log 34): loads of the collator come after the launches of the queue's packets. -/
def Slice.cand (x : Slice) (q : Nat) : Option Cand :=
  let saved := x.saved.filter fun t => t.queue == q && !t.halted
  let ys := x.launches.filter (·.waits q)
  ((saved.find? (·.kind != .geometry)).map Cand.saved)
    <|> ((ys.find? fun y => match y.kind with | .shading => true | _ => false).map Cand.fresh)
    <|> (saved.head?.map Cand.saved)
    <|> (ys.head?.map fun y => if y.co then .co y else .fresh y)
    <|> x.loadOf q

def Slice.waitingQueues (x : Slice) : List Nat := (List.range 64).filter fun q => (x.cand q).isSome

/-- The place in its launch of the next team: its TEAMID and what it is for (13 R323). -/
def State.nextTeam (s : State) (n : Nat) (y : Launch) : Nat × TeamKind :=
  match y.kind with
  | .shading =>
    let (t, b) := y.blocks.getD y.placed (0, 0)
    match (s.slice n).render with
    | some r =>
      let x := (t % r.tileCols) * 8 + b % 8
      let z := (t / r.tileCols) * 8 + b / 8
      (x + z * (r.width / 8), .shading t b)
    | none => (0, .plain)
  | .geometry => (y.placed, .geometry)
  | _ => (y.placed, .plain)

/-- Start the next team of a launch. -/
def State.placeNext (s : State) (n : Nat) (id cu : Nat) (seqs : List Nat) : State :=
  match (s.slice n).launch id with
  | none => s
  | some y =>
    let (tid, kind) := s.nextTeam n y
    let s1 := s.startTeam n y cu seqs tid kind ((List.range y.krec.warps).map (freshWarp y))
    s1.modSlice n fun x => x.modLaunch id fun y => { y with placed := y.placed + 1 }

/-- The rooms a co-launch has, and where all its teams go. -/
def State.coPlaces (s : State) (n : Nat) (y : Launch) (blocked : List Nat) : Option (List (Nat × List Nat)) :=
  placeAll y.need (y.total - y.placed) (s.rooms n y.need blocked)

/-- Appenders held for want of bins try again (11 R301). -/
def Slice.freePool (x : Slice) : Slice :=
  let free (p : Split) : Split := if p.hold == .pool then { p with hold := .none } else p
  { x with teams := x.teams.map fun (t : Team) => { t with warps := t.warps.map fun (w : Warp) => w.mapSplits free } }

/-- Start the team of a waiting load. -/
def State.placeLoad (s : State) (n k : Nat) (c : CLoad) (cu : Nat) (seqs : List Nat) : State :=
  let x := s.slice n
  let y := x.loadLaunch s.nextId c
  let s1 := s.modSlice n fun x => { x with loads := x.loads.eraseIdx k, launches := x.launches ++ [y] }
  (({ s1 with nextId := s1.nextId + 1 } : State).startTeam n y cu seqs 0 .plain (x.loadWarps y c)).modSlice n (·.freePool)

/-- Place a candidate where it fits. -/
def State.placeCand (s : State) (n : Nat) (c : Cand) (blocked : List Nat) : Option State :=
  match c with
  | .co y => (s.coPlaces n y blocked).map fun l => l.foldl (fun s p => s.placeNext n y.id p.1 p.2) s
  | .saved t => (pickCu (s.rooms n t.need blocked) t.need).map fun p => s.restoreTeam n t p.1 p.2.1
  | .fresh y => (pickCu (s.rooms n y.need blocked) y.need).map fun p => s.placeNext n y.id p.1 p.2.1
  | .load k y => match (s.slice n).loads[k]? with
    | some l => (pickCu (s.rooms n y.need blocked) y.need).map fun p => s.placeLoad n k l p.1 p.2.1
    | none => none

/-! ### Pre-emption for a team (R415) -/

def isShading : Cand → Bool
  | .fresh y => (match y.kind with | .shading => true | _ => false)
  | .saved t => (match t.kind with | .shading .. => true | _ => false)
  | .co _ | .load .. => false

/-- A resident team may be pre-empted for a team of a queue; a render's geometry team for its shading team (13 R319). A best-effort queue is
served in slack only. -/
def Slice.eligible (x : Slice) (q : Nat) (shade : Bool) (y : Team) : Bool :=
  let d := (x.queue q).urgency
  let u := (x.queue y.queue).urgency
  (!(x.queue q).be && ((x.queue y.queue).be || (d < 2 ^ 64 && (u ≥ 2 ^ 64 || u ≥ d + min x.hyst 10000000))))
  || (shade && y.queue == q && y.kind == .geometry)

/-- The order in which eligible teams are pre-empted. -/
def Slice.firstOut (x : Slice) (a b : Team) : Bool :=
  let k := fun (t : Team) => [(x.queue t.queue).urgency, 7 - (x.queue t.queue).prio, t.queue, t.placedAt, t.cu]
  lexGe (k a) (k b)
where
  lexGe : List Nat → List Nat → Bool
    | a :: as, b :: bs => a > b || (a == b && lexGe as bs)
    | _, _ => true

/-- The shortest run of teams at the front of a list whose leaving makes room. -/
def Slice.makeRoom (x : Slice) (cu : Nat) (d : Need) : List Nat → List Nat → Option (List Nat)
  | gone, [] => if ((x.room cu gone).take d).isSome then some gone else none
  | gone, t :: ts => if ((x.room cu gone).take d).isSome then some gone else x.makeRoom cu d (gone ++ [t]) ts

/-- Room of a slice for a co-launch once some teams have left. -/
def State.coRoom (s : State) (n : Nat) (y : Launch) (blocked gone : List Nat) : Bool :=
  let cus := (y.need.cus (s.cuCount n)).filter (!blocked.contains ·)
  (placeAll y.need (y.total - y.placed) (cus.map fun c => (c, (s.slice n).room c gone))).isSome

/-- The teams to pre-empt for a candidate: on the first CU, in the rank of its first eligible team, that can be cleared. DESIGN CHOICE
(log 34): for a co-launch, whose teams start together, as few as make room for all of them, in rank order. -/
def State.evicts (s : State) (n q : Nat) (c : Cand) (blocked : List Nat) : Option (List Nat) :=
  let x := s.slice n
  let cus := (c.need.cus (s.cuCount n)).filter (!blocked.contains ·)
  let el := isort x.firstOut (x.teams.filter fun t => cus.contains t.cu && x.eligible q (isShading c) t && s.saveFits n t)
  match c with
  | .co y => ((List.range el.length).map fun k => (el.take (k + 1)).map (·.id)).find? (s.coRoom n y blocked)
  | _ => ((el.map (·.cu)).eraseDups).findSome? fun cu => x.makeRoom cu c.need [] ((el.filter (·.cu == cu)).map (·.id))

/-- Pre-empt teams: those that can stop now are saved, where their records fit (19 R389); the others once they can. Each is counted when it
is saved (R417). -/
def State.evict (s : State) (n : Nat) (ids : List Nat) : State :=
  ids.foldl (fun s id => match (s.slice n).team id with
    | some t => if !s.saveFits n t then s else (s.awaitSave n id .room).finishSave n id
    | none => s) s

/-! ### Placement (R291, R414) -/

/-- A waiting co-launch keeps back every queue whose urgency is not earlier, but a co-launch that ranks before it. -/
def State.coBlocked (s : State) (n : Nat) (qs : List Nat) (q : Nat) : Bool :=
  let x := s.slice n
  let isCo := fun q => match x.cand q with | some (.co _) => true | _ => false
  qs.any fun w => w != q && (match x.cand w with | some (.co y) => (s.coPlaces n y []).isNone | _ => false)
    && (x.queue w).urgency ≤ (x.queue q).urgency && !(isCo q && rankLe (x.rank q) (x.rank w))

/-- What the escapement does next: it places a team, pre-empts for one that fits nowhere, waits behind a co-launch, or serves the
best-effort queues, but for the CUs that it keeps for teams that wait. -/
inductive Choice where
  | place (q : Nat) (c : Cand) (blocked : List Nat)
  | clear (q : Nat) (c : Cand) (blocked ids : List Nat)
  | wait
  | slack (blocked : List Nat)

/-- The queues of the other classes in rank order: the first team that gets a place, or that pre-emption gives one. `blocked` are CUs kept for
teams that wait; with the number of placements refused (R414, R415). -/
def State.choose (s : State) (n : Nat) : List Nat → List Nat → Nat → Choice × Nat
  | [], blocked, h => (.slack blocked, h)
  | q :: qs, blocked, h =>
    match (s.slice n).cand q with
    | none => s.choose n qs blocked h
    | some c =>
      if (s.placeCand n c blocked).isSome then (.place q c blocked, h)
      else match s.evicts n q c blocked with
        | some ids => (.clear q c blocked ids, h)
        | none => match c with
          | .co _ => (.wait, h + 1)
          | _ => s.choose n qs (blocked ++ c.need.cus (s.cuCount n)) (h + 1)

/-- Best-effort queues in slack: weighted round robin in ascending index. The queue and team that fits, and whether a new round begins. -/
def State.slackChoice (s : State) (n : Nat) (qs blocked : List Nat) : Option (Nat × Cand × Bool) :=
  let x := s.slice n
  let fits := qs.filterMap fun q => (x.cand q).bind fun c => if (s.placeCand n c blocked).isSome then some (q, c) else none
  match fits.find? fun f => (x.queue f.1).credit > 0 with
  | some (q, c) => some (q, c, false)
  | none => fits.head?.map fun f => (f.1, f.2, true)

/-- A best-effort shading team that fits nowhere takes the place of its render's geometry teams (13 R319). -/
def State.slackClear (s : State) (n : Nat) (qs blocked : List Nat) : Option (Nat × Cand × List Nat) :=
  qs.findSome? fun q => match (s.slice n).cand q with
    | some c => if isShading c && (s.placeCand n c blocked).isNone then (s.evicts n q c blocked).map fun ids => (q, c, ids) else none
    | none => none

/-- Teams that a candidate starts. -/
def Cand.teams : Cand → Nat | .co y => y.total - y.placed | _ => 1

/-- Place a candidate; the teams of a best-effort queue are counted and use up its weight (R414, R417). -/
def State.seat (s : State) (n q : Nat) (c : Cand) (blocked : List Nat) : Option State :=
  (s.placeCand n c blocked).map fun s1 =>
    if ((s.slice n).queue q).be then s1.modSlice n fun x =>
      { (x.modQueue q fun y => { y with credit := y.credit - c.teams }) with counters := lmod (· + BitVec.ofNat 32 c.teams) x.counters 4 }
    else s1

/-- A new round of the best-effort queues. -/
def Slice.newRound (x : Slice) : Slice := { x with queues := x.queues.map fun e => (e.1, { e.2 with credit := max 1 e.2.weight }) }

/-- Placements refused are counted (R417). -/
def State.refusals (s : State) (n h : Nat) : State :=
  if h = 0 then s else s.modSlice n fun x => { x with counters := lmod (· + BitVec.ofNat 32 h) x.counters 3 }

/-- Queues that may place a team, and those of them in rank order that are not best-effort. -/
def State.open_ (s : State) (n : Nat) : List Nat := ((s.slice n).waitingQueues).filter fun q => !s.coBlocked n (s.slice n).waitingQueues q
def State.rankedQueues (s : State) (n : Nat) : List Nat :=
  let x := s.slice n
  isort (fun a b => rankLe (x.rank a) (x.rank b)) ((s.open_ n).filter fun q => !(x.queue q).be)

/-- The slice places teams. -/
def Slice.placing (x : Slice) : Bool := x.st == 1 && x.drain < 2 && !x.leaving

/-- One placement by the rules of R414: none where the team it is for does not satisfy a test, or nothing is to be placed. -/
def State.placement (s : State) (n : Nat) (ok : Cand → Bool) : Option State :=
  if !(s.slice n).placing then none
  else
    let clear := fun (h q : Nat) (c : Cand) (b ids : List Nat) =>
      if ok c then (let s1 := (s.refusals n h).evict n ids; some ((s1.seat n q c b).getD s1)) else none
    match s.choose n (s.rankedQueues n) [] 0 with
    | (.place q c b, h) => if ok c then (s.refusals n h).seat n q c b else none
    | (.clear q c b ids, h) => clear h q c b ids
    | (.wait, _) => none
    | (.slack b, h) =>
      let qs := (s.open_ n).filter fun q => ((s.slice n).queue q).be
      match s.slackChoice n qs b with
      | some (q, c, fresh) => if ok c then ((if fresh then (s.refusals n h).modSlice n Slice.newRound else s.refusals n h)).seat n q c b else none
      | none => match s.slackClear n qs b with
        | some (q, c, ids) => clear h q c b ids
        | none => none

/-- The escapement's choice pre-empts the team. -/
def State.wantsOut (s : State) (n id : Nat) : Bool :=
  (s.slice n).placing && match s.choose n (s.rankedQueues n) [] 0 with
    | (.clear _ _ _ ids, _) => ids.contains id
    | (.slack b, _) => (s.slackClear n ((s.open_ n).filter fun q => ((s.slice n).queue q).be) b).any fun e => e.2.2.contains id
    | _ => false

/-- One placement by the rules of R414. -/
def execTeamPlacement (slice : Nat) (s : State) : Res :=
  let x := s.slice slice
  if !x.placing then .next s
  else if x.savedRender.isSome && x.render.isNone then .next (s.resumeRender slice)
  else .next ((s.placement slice fun _ => true).getD (s.refusals slice (s.choose slice (s.rankedQueues slice) [] 0).2))

/-- The highest-ranked waiting co-launch is checked again: placed whole, failed, or left to wait (R291). -/
def execCoLaunchCheck (slice : Nat) (s : State) : Res :=
  let x := s.slice slice
  let cos := (isort (fun a b => rankLe (x.rank a) (x.rank b)) x.waitingQueues).filterMap fun q => match x.cand q with
    | some (.co y) => some y
    | _ => none
  match cos.head?.filter fun _ => x.placing with
  | none => .next s
  | some y =>
    let stop := fun (code : Nat) => s.modSlice slice fun x =>
      (x.modLaunch y.id fun y => { (y.fail code) with total := y.placed }).endLaunches
    if !y.need.fitsEmpty (s.cuCount slice) then .next (stop 1)
    else if !y.coFits (s.cuCount slice) then .next (stop 2)
    else .next ((s.placement slice fun c => match c with | .co z => z.id == y.id | _ => false).getD s)

/-! ### Missed deadlines (R416) -/

/-- Kinds of event records. -/
def evMiss : Nat := 0
def evHang : Nat := 1
def evGrandmaster : Nat := 2
def evThrottle : Nat := 3
def evRail : Nat := 4

/-- Post an event record; vector 0 of the function's MSI-X table is the event queue (21 R430). -/
def State.post (s : State) (vf kind arg frameno : Nat) : State :=
  { s with out := s.out ++ [.msix vf 0], events := kset s.events vf ((kget s.events vf).getD [] ++ [{ kind := kind, arg := arg, frameno := frameno, dtime := s.dtime }]) }

def execDeadlineMiss (slice q : Nat) (s : State) : Res :=
  let x := s.slice slice
  let y := x.queue q
  match y.frames.find? fun f => y.frameBusy f && !f.missed && f.deadline ≤ s.dtime with
  | none => .next s
  | some f =>
    let s1 := s.modSlice slice fun x =>
      { (x.modQueue q fun y => { y with miss := y.miss + 1, frames := y.frames.map fun g => if g.seq = f.seq then { g with missed := true } else g })
        with counters := lmod (· + 1) x.counters 2 }
    .next (s1.post x.fn evMiss q f.frameno)

/-! ### The collator's launches (11 R299-R305; 04 R135) -/

def execCollatorTimerExpiry (slice node : Nat) (s : State) : Res :=
  let x := s.slice slice
  match kget x.nodes node, ((kget x.nodeRecs node).getD []).head? with
  | some d, some r =>
    if r.time + d.timer ≤ s.dtime then .next (s.modSlice slice fun x => x.takeLoad (x.loadSize (.node node)) (.node node)) else .next s
  | _, _ => .next s

/-- The regroup key of a place in the list of keys. -/
def execRegroupTimerExpiry (slice key : Nat) (s : State) : Res :=
  let x := s.slice slice
  match x.regroup[key]? with
  | some (k, r :: _) =>
    if r.time + x.rgtim ≤ s.dtime then .next (s.modSlice slice fun x => x.takeLoad 32 (.regroup k)) else .next s
  | _ => .next s

/-- No bin is free, or an appender is held. -/
def Slice.poolShort (x : Slice) : Bool :=
  x.binsWith [] ≥ poolBins || x.teams.any fun t => t.warps.any fun w => w.allSplits.any (·.hold == .pool)

/-- Every node with records, in ascending number, and then every key launches up to one load. -/
def execPoolFullLaunch (slice : Nat) (s : State) : Res :=
  let x := s.slice slice
  if !x.poolShort then .next s
  else
    let nodes := isort (· ≤ ·) (x.nodeRecs.map (·.1))
    let keys := nodes.map BinKey.node ++ x.regroup.map (fun e => BinKey.regroup e.1)
    .next (s.modSlice slice fun x => keys.foldl (fun x k => x.takeLoad (x.loadSize k) k) x)

/-- The waiting load that the escapement places next starts its team; appenders held for bins try again (R301, R302). One that fits no empty
CU ends with code 1 (01 R10). -/
def execCollatorLaunchPlaced (slice : Nat) (s : State) : Res :=
  let x := s.slice slice
  let y := fun (c : CLoad) => x.loadLaunch s.nextId c
  match x.loads.findIdx? fun c => x.placing && !(y c).need.fitsEmpty (s.cuCount slice) with
  | some k => match x.loads[k]? with
    | some c => .next ((((s.modSlice slice fun x => { x with loads := x.loads.eraseIdx k }).logErr slice errLaunch ((y c).queue + 256)).modSlice slice
        (·.endLaunches)).modSlice slice (·.freePool))
    | none => .next s
  | none => .next ((s.placement slice fun c => match c with | .load .. => true | _ => false).getD s)

end Sys2Proof.Machine
end

