-- ==== Sys2Proof/Machine/Texture.lean ====
section
/-! DEFINITION. Textures: descriptors (07 R216-R218), the layout of texels (13 R330), and the arithmetic of the filters
(13 R331-R337). -/

namespace Sys2Proof.Machine

/-! ### FP32 steps: RNE, subnormals kept, no flags -/

def fmulT (a b : Word) : Word := (fmul32 .rne false a b).1
def faddT (a b : Word) : Word := (fadd32 .rne false a b).1
def fsubT (a b : Word) : Word := (fsub32 .rne false a b).1
def ffmaT (a b c : Word) : Word := (ffma32 .rne false a b c).1
def natT (n : Nat) : Word := toF32 (n : Rat)
def negT (a : Word) : Word := a ^^^ 0x80000000
def absT (a : Word) : Word := a &&& 0x7FFFFFFF
def isNanT (a : Word) : Bool := (f32 false a).isNan

/-- Round(a / b, FP32, RNE). -/
def fdivT (a b : Word) : Word :=
  match f32 false a, f32 false b with
  | .nan _, _ | _, .nan _ => nan32
  | .inf _, .inf _ => nan32
  | .inf n, .fin m _ => infW (n != m)
  | .fin n _, .inf m => if n != m then 0x80000000 else 0
  | .fin n x, .fin m y => if y = 0 then (if x = 0 then nan32 else infW (n != m)) else (f32op .rne false (.fin (n != m) (x / y), 0)).1

/-- a ≤ b of words that are not NaN, and a < b. -/
def leT (a b : Word) : Bool := cmpFp (f32 false a) (f32 false b) != .gt
def ltT (a b : Word) : Bool := cmpFp (f32 false a) (f32 false b) == .lt

/-! ### Descriptors (07 R216-R218) -/

structure TexDesc where
  raw : List Byte
  base : Nat
  meta_ : Nat
  w : Nat
  h : Nat
  dm1 : Nat
  levels : Nat
  fmt : Nat
  samp : Nat
  bias : Word
  border : List Word
  fseed : DWord
  minlod : Word
  maxlod : Word
  deriving DecidableEq, Repr

/-- The DIM code of a texture's dimension (R217). -/
def dimNum : TexDim → Nat | .d2 => 0 | .d3 => 1 | .cube => 2 | .d2arr => 3

/-- Bytes per texel and components of a format. -/
def texFmt : Nat → Nat × Nat
  | 0 => (1, 1) | 1 => (2, 2) | 2 => (4, 4) | 3 => (2, 1) | 4 => (4, 2) | 5 => (8, 4) | 6 => (4, 1) | 7 => (8, 2) | 8 => (16, 4)
  | 9 => (2, 1) | _ => (8, 4)

def parseTex (b : List Byte) : TexDesc :=
  let f := fun (o n : Nat) => leNat ((b.drop o).take n)
  let w := fun (o : Nat) => BitVec.ofNat 32 (f o 4)
  { raw := b, base := f 0 8, meta_ := f 8 8, w := f 16 2 + 1, h := f 18 2 + 1, dm1 := f 20 2, levels := f 22 1, fmt := f 23 1, samp := f 24 4,
    bias := w 28, border := [w 32, w 36, w 40, w 44], fseed := BitVec.ofNat 64 (f 48 8), minlod := w 56, maxlod := w 60 }

def TexDesc.dim (d : TexDesc) : Nat := bits d.samp 0 2
def TexDesc.depth (d : TexDesc) : Nat := if d.dim = 1 then d.dm1 + 1 else 1
def TexDesc.cmpr (d : TexDesc) : Bool := nbit d.samp 15

/-- The descriptor rules of R218, but for the agreement of DIM with the instruction. DESIGN CHOICE (log 54): a WM1 or HM1 above the 32,767 of
R216 is invalid too. -/
def TexDesc.valid (d : TexDesc) : Bool :=
  let fin := fun (x : Word) => match f32 false x with | .fin .. => true | _ => false
  d.fmt ≤ 10 && bits d.samp 16 16 == 0 && d.w ≤ 32768 && d.h ≤ 32768
  && (!d.cmpr || (d.fmt == 2 && d.meta_ != 0))
  && 1 ≤ d.levels && d.levels ≤ 1 + (max (max d.w d.h) d.depth).log2
  && (d.dim != 2 || (d.w == d.h && d.dm1 == 5)) && (d.dim != 0 || d.dm1 == 0)
  && d.base % 65536 == 0
  && fin d.bias && fin d.minlod && fin d.maxlod && leT d.minlod d.maxlod
  && bits d.samp 4 2 != 3 && bits d.samp 6 3 ≤ 4

/-! ### Layout (13 R330) -/

def TexDesc.wl (d : TexDesc) (l : Nat) : Nat := max 1 (d.w / 2 ^ l)
def TexDesc.hl (d : TexDesc) (l : Nat) : Nat := max 1 (d.h / 2 ^ l)
def TexDesc.dl (d : TexDesc) (l : Nat) : Nat := if d.dim = 1 then max 1 ((d.dm1 + 1) / 2 ^ l) else 1
def TexDesc.e (d : TexDesc) : Nat := (texFmt d.fmt).1
def TexDesc.bw (d : TexDesc) : Nat := 2 ^ (blockLog d.e).1
def TexDesc.bh (d : TexDesc) : Nat := 2 ^ (blockLog d.e).2
/-- Macro tiles across a level, and the bytes of one depth slice of it. -/
def TexDesc.mw (d : TexDesc) (l : Nat) : Nat := (d.wl l + 16 * d.bw - 1) / (16 * d.bw)
def TexDesc.slice (d : TexDesc) (l : Nat) : Nat := d.mw l * ((d.hl l + 16 * d.bh - 1) / (16 * d.bh)) * 65536
/-- Byte offset of level `l` in its layer. -/
def TexDesc.levelOff (d : TexDesc) (l : Nat) : Nat := ((List.range l).map fun k => d.slice k * d.dl k).sum

/-- Where a texel lies: the byte offset of its 256-byte block from BASE, and its block index. -/
def TexDesc.place (d : TexDesc) (l x y z layer : Nat) : Nat × Nat :=
  let off := layer * d.levelOff d.levels + d.levelOff l + z * d.slice l
  let macro_ := (y / (16 * d.bh)) * d.mw l + x / (16 * d.bw)
  let block := (y / d.bh % 16) * 16 + x / d.bw % 16
  (off + macro_ * 65536 + 256 * block, blockIndex (blockLog d.e).2 (x % d.bw) (y % d.bh))

/-! ### Texels (07 R216, R220; 06 R199) -/

/-- A way of reading memory: `n` bytes at an aligned address, or an error of the reader's kind. -/
abbrev Reader (ε : Type) := State → DWord → Nat → State × Except ε Nat

def canonT (w : Word) : Word := if isNanT w then nan32 else w

/-- A stored component as FP32. -/
def texComp (fmt k : Nat) : Word :=
  match fmt with
  | 0 | 1 | 2 => toF32 ((k : Rat) / 255)
  | 9 | 10 => toF32 ((k : Rat) / 65535)
  | 3 | 4 | 5 => BitVec.ofNat 32 (Fmt.f32.roundTo .rne (Fmt.f16.decode false k)).1
  | _ => canonT (BitVec.ofNat 32 k)

/-- The four components of a texel's stored value. -/
def texWords (fmt raw : Nat) : List Word :=
  let (e, nc) := texFmt fmt
  let c := e / nc
  (List.range 4).map fun i => if i < nc then texComp fmt (bits raw (8 * c * i) (8 * c)) else if i = 3 then 0x3F800000 else 0

/-- Read `k` words of 4 bytes. -/
def readWords {ε : Type} (rd : Reader ε) (a : DWord) : Nat → State → State × Except ε (List Byte)
  | 0, s => (s, .ok [])
  | k + 1, s => match rd s a 4 with
    | (s1, .error x) => (s1, .error x)
    | (s1, .ok d) => match readWords rd (a + 4) k s1 with
      | (s2, .error x) => (s2, .error x)
      | (s2, .ok r) => (s2, .ok (leBytes 4 d ++ r))

/-- One texel: through its mode byte on a compressed surface; a fast-cleared block has the descriptor's free colour. -/
def texel {ε : Type} (rd : Reader ε) (d : TexDesc) (l x y z layer : Nat) (s : State) : State × Except ε (List Word) :=
  let (o, m) := d.place l x y z layer
  let blk := BitVec.ofNat 64 (d.base + o)
  let raw := fun (s : State) => match rd s (blk + BitVec.ofNat 64 (d.e * m)) d.e with
    | (s1, .error e) => (s1, Except.error e)
    | (s1, .ok v) => (s1, .ok (texWords d.fmt v))
  if d.cmpr then
    match rd s (BitVec.ofNat 64 (d.meta_ + o / 256)) 1 with
    | (s1, .error e) => (s1, .error e)
    | (s1, .ok mode) =>
      if mode = 0 then raw s1
      else if mode = 0xFF then (s1, .ok (texWords 2 (Config.fastClear d.raw).toNat))
      else if validMode mode then
        match readWords rd blk ((packedSize mode + 3) / 4) s1 with
        | (s2, .error e) => (s2, .error e)
        | (s2, .ok b) => (s2, .ok (texWords 2 (leNat ((List.range 4).map fun c => deltaPix mode b m c))))
      else (s1, .ok (List.replicate 4 nan32))
  else raw s

/-! ### Mapping a coordinate (13 R331) -/

/-- The floor of a scaled coordinate: an infinite one lies beyond every extent, or, where the mode divides, is a free index. -/
def floorT (u : Word) (mode : Nat) : Int :=
  match f32 false u with
  | .fin n m => (if n then -m else m).floor
  | .inf n => if mode = 1 ∨ mode = 3 then (if n then -(2 ^ 200 : Nat) else (2 ^ 200 : Nat)) else (Config.farTexel u).toNat
  | .nan _ => 0

/-- The quantised weight of a scaled coordinate, 0 to 256. -/
def weightT (u : Word) : Nat :=
  match f32 false u with
  | .fin n m => let x : Rat := if n then -m else m
    (integral .rne false ((x - x.floor) * 256)).1.toNat
  | _ => (Config.farTexel u).toNat / 65536 % 257

/-- An index through its address mode; none is a border tap. -/
def addrMode (mode : Nat) (n : Nat) (i : Int) : Option Nat :=
  match mode with
  | 0 => some (i % (n : Int)).toNat
  | 1 => some (if i < 0 then 0 else if i ≥ n then n - 1 else i.toNat)
  | 2 => let j := (i % (2 * n : Int)).toNat
         some (if j < n then j else 2 * n - 1 - j)
  | _ => if 0 ≤ i ∧ i < n then some i.toNat else none

/-- The two indices and the weight along an axis; a nearest filter has one. -/
def axisT (linear : Bool) (c : Word) (n mode : Nat) : Option Nat × Option Nat × Nat :=
  if linear then
    let u := ffmaT c (natT n) 0xBF000000
    let i := floorT u mode
    (addrMode mode n i, addrMode mode n (i + 1), weightT u)
  else
    let i := addrMode mode n (floorT (fmulT c (natT n)) mode)
    (i, i, 0)

/-! ### Footprints (13 R331-R337) -/

/-- A texel of a footprint: level, x, y, z, layer; none is a border tap. -/
abbrev Tap := Option (Nat × Nat × Nat × Nat × Nat)

/-- The part of a footprint in one level. -/
structure Foot where
  wl : Nat
  linear : Bool
  d3 : Bool
  a : Nat
  b : Nat
  e : Nat
  taps : List Tap
  deriving DecidableEq, Repr

/-- The taps of one sample in one level, in the order of R337. -/
def levelFoot (d : TexDesc) (linear : Bool) (l wl layer : Nat) (s t r : Word) : Foot :=
  let md := fun k => if d.dim = 2 then 1 else bits d.samp (9 + 2 * k) 2
  let (x0, x1, a) := axisT linear s (d.wl l) (md 0)
  let (y0, y1, b) := axisT linear t (d.hl l) (md 1)
  let d3 := d.dim == 1
  let (z0, z1, e) := if d3 then axisT linear r (d.dl l) (md 2) else (some 0, some 0, 0)
  let tap := fun (x y z : Option Nat) => match x, y, z with
    | some x, some y, some z => (some (l, x, y, z, layer) : Tap)
    | _, _, _ => none
  let four := fun z => [tap x0 y0 z, tap x1 y0 z, tap x0 y1 z, tap x1 y1 z]
  { wl := wl, linear := linear, d3 := d3, a := a, b := b, e := e,
    taps := if linear then (if d3 then four z0 ++ four z1 else four z0) else [tap x0 y0 z0] }

/-- Integer weights of the taps of a level (R337). -/
def Foot.weights (f : Foot) : List Nat :=
  if f.linear then
    let four := fun k => [(256 - f.a) * (256 - f.b), f.a * (256 - f.b), (256 - f.a) * f.b, f.a * f.b].map fun w => w * k * f.wl
    if f.d3 then four (256 - f.e) ++ four f.e else four 1
  else [65536 * (if f.d3 then 256 else 1) * f.wl]

/-- A bilinear sample of one component (R333). -/
def bilinear (a b : Nat) (c : List Word) : Word :=
  let m0 := ffmaT (c.getD 1 0) (natT a) (fmulT (c.getD 0 0) (natT (256 - a)))
  let m1 := ffmaT (c.getD 3 0) (natT a) (fmulT (c.getD 2 0) (natT (256 - a)))
  fmulT (ffmaT m1 (natT b) (fmulT m0 (natT (256 - b)))) 0x37800000

/-- Combine two values with a weight of 256ths. -/
def blend (f0 f1 : Word) (k : Nat) : Word := fmulT (ffmaT f1 (natT k) (fmulT f0 (natT (256 - k)))) 0x3B800000

/-- The value of a level's taps, by component. -/
def Foot.value (f : Foot) (tx : List (List Word)) : List Word :=
  (List.range 4).map fun c =>
    let col := tx.map (·.getD c 0)
    if !f.linear then col.getD 0 0
    else if f.d3 then blend (bilinear f.a f.b (col.take 4)) (bilinear f.a f.b (col.drop 4)) f.e
    else bilinear f.a f.b col

/-- The face of a direction with its coordinates and major component (R332). -/
def cubeFace (x y z : Word) : Nat × Word × Word × Word :=
  let ax := absT x
  let ay := absT y
  let az := absT z
  let neg := fun (w : Word) => ltT w 0
  let (face, sc, tc, ma) :=
    if leT ay ax && leT az ax && !(f32 false x).isZero then
      (if neg x then (1, z, negT y, x) else (0, negT z, negT y, x))
    else if leT az ay && !(f32 false y).isZero then
      (if neg y then (3, x, negT z, y) else (2, x, z, y))
    else if neg z then (5, negT x, negT y, z) else (4, x, negT y, z)
  (face, ffmaT (fdivT sc (absT ma)) 0x3F000000 0x3F000000, ffmaT (fdivT tc (absT ma)) 0x3F000000 0x3F000000, ma)

/-- The layer of a 2D array (07 R219). -/
def layerOf (d : TexDesc) (c : Word) : Nat :=
  match f32 false c with
  | .nan _ => 0
  | .inf n => if n then 0 else d.dm1
  | .fin n m => let i := (integral .rne n m).1
    if n then 0 else min i.toNat d.dm1

/-- The length of a derivative vector on level 0 (R334). -/
def rhoT (d : TexDesc) (ma : Word) (v : List Word) : Word :=
  let c := fun k => v.getD k 0
  let sqrt := fun g => (specialF .sqrt .rne false g).1
  if d.dim = 2 then
    let g := ffmaT (c 2) (c 2) (ffmaT (c 1) (c 1) (fmulT (c 0) (c 0)))
    fmulT (fmulT (sqrt g) (fmulT 0x3F000000 (natT d.w))) (fdivT 0x3F800000 (absT ma))
  else
    let g0 := fmulT (c 0) (natT d.w)
    let t := fmulT (c 1) (natT d.h)
    let g := ffmaT t t (fmulT g0 g0)
    let r := fmulT (c 2) (natT (d.dm1 + 1))
    sqrt (if d.dim = 1 then ffmaT r r g else g)

/-- The tap count of an anisotropic footprint (R334): it doubles while n < N and n·ρmin < ρmaj. -/
def anisoCount (lim : Nat) (rmin rmaj : Word) : Nat → Nat → Nat
  | 0, n => n
  | k + 1, n =>
    if n < lim && (cmpFp (match f32 false rmin with | .fin s m => .fin s (m * n) | x => x) (f32 false rmaj) == .lt)
    then anisoCount lim rmin rmaj k (2 * n) else n

/-- Clamp a word that is not NaN. -/
def clampT (lo hi x : Word) : Word := if ltT hi x then hi else if ltT x lo then lo else x

/-- λ before LODBIAS, the tap count and the larger derivative vector (R334, R336). -/
def lodOf (d : TexDesc) (mode : TexMode) (lop : List Word) (dx dy : List Word) (ma : Word) : Word × Nat × List Word :=
  match mode with
  | .lod => (lop.getD 0 0, 1, [])
  | _ =>
    let op := fun k => lop.getD k 0
    let bad := mode == .cone && (List.range 4).any fun k => isNanT (op k) || ltT (op k) 0
    let b := fmulT (fmulT (op 3) (op 0)) (faddT 0x3F800000 (op 1))
    let mx := if ltT (op 2) 0x3D800000 then 0x3D800000 else op 2
    let (dx, dy) := if mode == .cone then ([fmulT b (fdivT 0x3F800000 mx), 0], [0, b]) else (dx, dy)
    let rx := rhoT d ma dx
    let ry := rhoT d ma dy
    if isNanT rx || isNanT ry then (nan32, 1, dx)
    else
      let xl := leT ry rx
      let rmaj := if xl then rx else ry
      let rmin := if xl then ry else rx
      let lim := 2 ^ bits d.samp 6 3
      let n := if lim = 1 then 1 else if (f32 false rmin).isZero then lim else anisoCount lim rmin rmaj 5 1
      let l0 := (specialF .log2 .rne false rmaj).1
      (if bad then nan32 else if lim = 1 then l0 else faddT l0 (toF32 (-(n.log2 : Rat))), n, if xl then dx else dy)

/-- λ after bias and clamps, and whether the magnification filter serves. -/
def lambdaT (d : TexDesc) (l0 : Word) : Word × Bool :=
  let l := faddT l0 d.bias
  let l := if isNanT l then 0 else l
  let l := clampT d.minlod d.maxlod l
  (clampT 0 (natT (d.levels - 1)) l, leT l 0)

/-- Levels with their weights (R335). -/
def levelsT (d : TexDesc) (lam : Word) : List (Nat × Nat) :=
  let x := (f32 false lam).real
  match bits d.samp 4 2 with
  | 0 => [(0, 256)]
  | 1 => [((x + 1 / 2).floor.toNat, 256)]
  | _ =>
    let l0 := x.floor.toNat
    if l0 + 1 ≥ d.levels then [(d.levels - 1, 256)]
    else
      let c := (integral .rne false ((x - x.floor) * 256)).1.toNat
      [(l0, 256 - c), (l0 + 1, c)]

/-- The footprint of a lane: for each tap along the derivative vector, its levels; none where a coordinate is NaN. -/
def footprint (d : TexDesc) (mode : TexMode) (crd lop dx dy : List Word) : Option (List (List Foot)) :=
  let c := fun k => crd.getD k 0
  let nc := if d.dim = 0 ∨ d.dim = 3 then 2 else 3
  if (List.range nc).any fun k => isNanT (c k) then none
  else
    let ma := if d.dim = 2 then (cubeFace (c 0) (c 1) (c 2)).2.2.2 else 0
    let (l0, n, v) := lodOf d mode lop dx dy ma
    let (lam, mag) := lambdaT d l0
    let linear := nbit d.samp (if mag then 2 else 3)
    let one := fun (p : List Word) =>
      let q := fun k => p.getD k 0
      let (layer, s, t) := if d.dim = 2 then (let f := cubeFace (q 0) (q 1) (q 2); (f.1, f.2.1, f.2.2.1))
        else (if d.dim = 3 then layerOf d (c 2) else 0, q 0, q 1)
      if isNanT s || isNanT t || (d.dim = 1 && isNanT (q 2)) then none
      else some ((levelsT d lam).map fun lw => levelFoot d linear lw.1 lw.2 layer s t (q 2))
    ((List.range n).map fun (j : Nat) =>
      one ((List.range nc).map fun k =>
        if n = 1 then c k else ffmaT (toF32 (((2 * (j : Int) + 1 - (n : Int) : Int) : Rat) / (2 * (n : Rat)))) (v.getD k 0) (c k))).mapM id

/-- The texel of a stochastic tap (R337): the first whose running sum of weights exceeds τ. -/
def pickTap (tau : Nat) : Nat → List (Tap × Nat) → Tap
  | _, [] => none
  | acc, (t, w) :: r => if acc + w > tau then t else pickTap tau (acc + w) r

/-- Read the taps of a footprint. -/
def readTaps {ε : Type} (rd : Reader ε) (d : TexDesc) : List Tap → State → State × Except ε (List (List Word))
  | [], s => (s, .ok [])
  | none :: r, s => match readTaps rd d r s with
    | (s1, .error e) => (s1, .error e)
    | (s1, .ok xs) => (s1, .ok (d.border.map canonT :: xs))
  | some (l, x, y, z, layer) :: r, s => match texel rd d l x y z layer s with
    | (s1, .error e) => (s1, .error e)
    | (s1, .ok v) => match readTaps rd d r s1 with
      | (s2, .error e) => (s2, .error e)
      | (s2, .ok xs) => (s2, .ok (v :: xs))

/-- The value of one tap's levels, from the texels of all of them in order. Under MIP 2 the last level stands alone with c = 0; DESIGN CHOICE
(log 76): f1, the sample of a level that does not exist, is +0. -/
def combineLevels (mip2 : Bool) (fs : List Foot) (tx : List (List Word)) : List Word :=
  match fs with
  | [f] => if mip2 then (f.value tx).map fun x => blend x 0 0 else f.value tx
  | f0 :: f1 :: _ =>
    let v0 := f0.value (tx.take f0.taps.length)
    let v1 := f1.value (tx.drop f0.taps.length)
    (List.range 4).map fun c => blend (v0.getD c 0) (v1.getD c 0) f1.wl
  | [] => List.replicate 4 0

/-- The sum of the taps' values times 1/n (R335). -/
def combineTaps (vs : List (List Word)) : List Word :=
  match vs with
  | [v] => v
  | v :: r =>
    let sum := r.foldl (fun a x => (List.range 4).map fun c => faddT (a.getD c 0) (x.getD c 0)) v
    sum.map fun x => fmulT x (toF32 (1 / (vs.length : Rat)))
  | [] => List.replicate 4 0

/-- The values of the taps of a footprint, consuming their texels in order. -/
def tapValues (mip2 : Bool) : List (List Foot) → List (List Word) → List (List Word)
  | [], _ => []
  | fs :: r, tx =>
    let n := (fs.map (·.taps.length)).sum
    combineLevels mip2 fs (tx.take n) :: tapValues mip2 r (tx.drop n)

/-- TEX in one lane (07 R220; 13 R331-R337): four components. -/
def sampleLane {ε : Type} (rd : Reader ε) (d : TexDesc) (mode : TexMode) (key : Option Word) (crd lop dx dy : List Word) (s : State) :
    State × Except ε (List Word) :=
  match footprint d mode crd lop dx dy with
  | none => (s, .ok (List.replicate 4 nan32))
  | some fp =>
    match key with
    | none => match readTaps rd d (fp.flatten.map (·.taps)).flatten s with
      | (s1, .error e) => (s1, .error e)
      | (s1, .ok tx) => (s1, .ok (combineTaps (tapValues (bits d.samp 4 2 == 2) fp tx)))
    | some k =>
      let ws := (fp.flatten.map fun f => f.taps.zip f.weights).flatten
      let u := (hash d.fseed (zext64 k)).toNat / 2 ^ 32
      match readTaps rd d [pickTap (u * (ws.map (·.2)).sum / 2 ^ 32) 0 ws] s with
      | (s1, .error e) => (s1, .error e)
      | (s1, .ok tx) => (s1, .ok (tx.getD 0 []))

/-! ### Quads (07 R221) -/

/-- ∂c/∂x and ∂c/∂y of a coordinate in a lane. -/
def quadDiff (c : Nat → Word) (l : Nat) : Word × Word :=
  let k := fun i => c (l / 4 * 4 + i)
  (if l % 4 < 2 then fsubT (k 1) (k 0) else fsubT (k 3) (k 2), if l % 2 = 0 then fsubT (k 2) (k 0) else fsubT (k 3) (k 1))

end Sys2Proof.Machine
end

