-- ==== Sys2Proof/Machine/Traverse.lean ====
section
/-! DEFINITION. Box hierarchies and exact traversal (07 R226-R232). -/

namespace Sys2Proof.Machine

/-! ### Extended reals -/

/-- -∞, a real or +∞ as a class -1, 0, 1 with a value. -/
abbrev XR := Int × Rat

def xfin (q : Rat) : XR := (0, q)
def xle (a b : XR) : Bool := a.1 < b.1 || (a.1 == b.1 && a.2 ≤ b.2)
def xmin (a b : XR) : XR := if xle a b then a else b
def xmax (a b : XR) : XR := if xle a b then b else a

/-- An FP32 word as an extended real; none is a NaN. -/
def xr (w : Word) : Option XR :=
  match f32 false w with
  | .nan _ => none
  | .inf n => some (if n then -1 else 1, 0)
  | .fin n m => some (0, if n then -m else m)

/-- The finite value of a word. -/
def finT (w : Word) : Option Rat := match xr w with | some (0, q) => some q | _ => none

/-- (b - o) / d of an extended bound. -/
def slab (b : XR) (o d : Rat) : XR :=
  if b.1 = 0 then xfin ((b.2 - o) / d) else (if d < 0 then -b.1 else b.1, 0)

/-! ### Rays, boxes, triangles (R229, R230) -/

abbrev V3 := List Rat
def vc (v : V3) (k : Nat) : Rat := v.getD k 0
def vsub (a b : V3) : V3 := [vc a 0 - vc b 0, vc a 1 - vc b 1, vc a 2 - vc b 2]
def vdot (a b : V3) : Rat := vc a 0 * vc b 0 + vc a 1 * vc b 1 + vc a 2 * vc b 2
def vcross (a b : V3) : V3 :=
  [vc a 1 * vc b 2 - vc a 2 * vc b 1, vc a 2 * vc b 0 - vc a 0 * vc b 2, vc a 0 * vc b 1 - vc a 1 * vc b 0]
def vzero (a : V3) : Bool := vc a 0 == 0 && vc a 1 == 0 && vc a 2 == 0

structure Ray where
  o : V3
  d : V3
  tmin : XR
  tmax : XR

/-- The ray of eight operand words, where it meets the conditions of R229. -/
def rayOf (w : List Word) : Option Ray := do
  let f := fun k => finT (w.getD k 0)
  let o ← [f 0, f 1, f 2].mapM id
  let d ← [f 3, f 4, f 5].mapM id
  let a ← xr (w.getD 6 0)
  let b ← xr (w.getD 7 0)
  if vzero d then none else some { o := o, d := d, tmin := a, tmax := b }

/-- A word of a 64-byte entry, kept as a number. -/
def entW (e k : Nat) : Word := BitVec.ofNat 32 (bits e (32 * k) 32)

/-- The exact distance at which a ray enters an entry's box, within its bounds. -/
def enterBox (r : Ray) (e : Nat) : Option XR :=
  let axis := fun (k : Nat) (iv : Option (XR × XR)) => do
    let (lo, hi) ← iv
    let a ← xr (entW e k)
    let b ← xr (entW e (3 + k))
    if !xle a b then none
    else if vc r.d k = 0 then (if xle a (xfin (vc r.o k)) && xle (xfin (vc r.o k)) b then some (lo, hi) else none)
    else
      let t1 := slab a (vc r.o k) (vc r.d k)
      let t2 := slab b (vc r.o k) (vc r.d k)
      some (xmax lo (xmin t1 t2), xmin hi (xmax t1 t2))
  match axis 2 (axis 1 (axis 0 (some (r.tmin, r.tmax)))) with
  | some (lo, hi) => if xle lo hi && lo.1 ≠ 1 && hi.1 ≠ -1 then some lo else none
  | none => none

structure Hit where
  t : Rat
  u : Rat
  v : Rat
  front : Bool
  entry : Nat
  leaf : Nat
  prim : Word
  inst : Word

/-- The exact hit test of a triangle record. -/
def hitTri (r : Ray) (cull : Bool) (e entry leaf : Nat) : Option Hit := do
  let f := fun k => finT (entW e k)
  let v0 ← [f 0, f 1, f 2].mapM id
  let v1 ← [f 3, f 4, f 5].mapM id
  let v2 ← [f 6, f 7, f 8].mapM id
  let e1 := vsub v1 v0
  let e2 := vsub v2 v0
  let n := vcross e1 e2
  let nd := vdot n r.d
  if vzero n || nd == 0 then none
  else
    let t := vdot n (vsub v0 r.o) / nd
    let p := vsub [vc r.o 0 + t * vc r.d 0, vc r.o 1 + t * vc r.d 1, vc r.o 2 + t * vc r.d 2] v0
    let nn := vdot n n
    let u := vdot (vcross p e2) n / nn
    let v := vdot (vcross e1 p) n / nn
    let front := decide (nd < 0)
    if u < 0 || v < 0 || u + v > 1 || !xle r.tmin (xfin t) || !xle (xfin t) r.tmax then none
    else if cull && !(entW e 11).getLsbD 0 && !front then none
    else some { t := t, u := u, v := v, front := front, entry := entry, leaf := leaf, prim := entW e 9, inst := entW e 10 }

/-! ### Traversal (R227, R228, R230) -/

/-- Why a traversal gives no result: an access, or a failure code of R215. -/
inductive TravErr where
  | mem (e : EngErr)
  | code (k : Nat)

/-- Read an entry as its four parts (R234). -/
def readEntry (rd : Reader EngErr) (root : DWord) (e : Nat) (s : State) : State × Except EngErr Nat :=
  let a := root + BitVec.ofNat 64 (64 * e)
  match rd s a 16 with
  | (s, .error x) => (s, .error x)
  | (s, .ok p0) => match rd s (a + 16) 16 with
    | (s, .error x) => (s, .error x)
    | (s, .ok p1) => match rd s (a + 32) 16 with
      | (s, .error x) => (s, .error x)
      | (s, .ok p2) => match rd s (a + 48) 16 with
        | (s, .error x) => (s, .error x)
        | (s, .ok p3) => (s, .ok (p0 + p1 * 2 ^ 128 + p2 * 2 ^ 256 + p3 * 2 ^ 384))

/-- An entered entry that waits for its visit. -/
structure Visit where
  dist : XR
  idx : Nat
  leaf : Bool
  bytes : Nat
  path : List Nat

/-- The better of the best hit so far and a new one: nearer, then the lower entry. -/
def betterHit (best : Option Hit) (h : Hit) : Option Hit :=
  match best with
  | none => some h
  | some b => if h.t < b.t || (h.t == b.t && h.entry < b.entry) then some h else some b

/-- Test the records of a leaf in ascending order. -/
def testLeaf (rd : Reader EngErr) (root : DWord) (r : Ray) (any_ cull : Bool) (leaf : Nat) :
    Nat → Nat → Option Hit → State → State × Except TravErr (Option Hit)
  | 0, _, best, s => (s, .ok best)
  | n + 1, e, best, s =>
    match readEntry rd root e s with
    | (s1, .error x) => (s1, .error (.mem x))
    | (s1, .ok b) => match hitTri r cull b e leaf with
      | none => testLeaf rd root r any_ cull leaf n (e + 1) best s1
      | some h => if any_ then (s1, .ok (some h)) else testLeaf rd root r any_ cull leaf n (e + 1) (betterHit best h) s1

/-- The entered children of a node: child `k` is checked against the path, read and tested. -/
def childOf (rd : Reader EngErr) (root : DWord) (r : Ray) (x : Visit) (k : Nat) (s : State) : State × Except TravErr (Option Visit) :=
  let c := entW x.bytes (6 + k)
  if c = 0xFFFFFFFF then (s, .ok none)
  else
    let idx := c.toNat % 2 ^ 31
    if (x.idx :: x.path).contains idx then (s, .error (.code 4))
    else match readEntry rd root idx s with
      | (s1, .error e) => (s1, .error (.mem e))
      | (s1, .ok b) => (s1, .ok ((enterBox r b).map fun d => { dist := d, idx := idx, leaf := c.getLsbD 31, bytes := b, path := x.idx :: x.path }))

/-- Visit limit of a TRACE. -/
def visitLimit : Nat := 2 ^ 20

/-- Depth-first traversal with a stack; `count` entries have been visited. -/
def traverse (rd : Reader EngErr) (root : DWord) (r : Ray) (any_ cull : Bool) :
    Nat → List Visit → Option Hit → Nat → State → State × Except TravErr (Option Hit)
  | 0, _, _, _, s => (s, .error (.code 4))
  | _ + 1, [], best, _, s => (s, .ok best)
  | f + 1, x :: st, best, count, s =>
    if best.any fun b => !xle x.dist (xfin b.t) then traverse rd root r any_ cull f st best count s
    else if x.leaf then
      let n := (entW x.bytes 7).toNat
      if n = 0 ∨ n > 16 ∨ count + 1 + n > visitLimit then (s, .error (.code 4))
      else match testLeaf rd root r any_ cull x.idx n (entW x.bytes 6).toNat best s with
        | (s1, .error e) => (s1, .error e)
        | (s1, .ok b) => if any_ && b.isSome then (s1, .ok b) else traverse rd root r any_ cull f st b (count + 1 + n) s1
    else if count + 1 > visitLimit then (s, .error (.code 4))
    else match childOf rd root r x 0 s with
      | (s1, .error e) => (s1, .error e)
      | (s1, .ok a) => match childOf rd root r x 1 s1 with
        | (s2, .error e) => (s2, .error e)
        | (s2, .ok b) =>
          let kids := match a, b with
            | some p, some q => if xle p.dist q.dist then [p, q] else [q, p]
            | some p, none => [p]
            | none, some q => [q]
            | none, none => []
          traverse rd root r any_ cull f (kids ++ st) best (count + 1) s2

/-- TRACE in one lane: a ray that fails its conditions misses. -/
def traceLane (rd : Reader EngErr) (root : DWord) (any_ cull : Bool) (w : List Word) (s : State) : State × Except TravErr (Option Hit) :=
  match rayOf w with
  | none => (s, .ok none)
  | some r => match readEntry rd root 0 s with
    | (s1, .error e) => (s1, .error (.mem e))
    | (s1, .ok b) => match enterBox r b with
      | none => (s1, .ok none)
      | some d => traverse rd root r any_ cull (2 ^ 22) [{ dist := d, idx := 0, leaf := false, bytes := b, path := [] }] none 0 s1

end Sys2Proof.Machine
end

