-- ==== Sys2Proof/Machine/Graphics.lean ====
section
/-! DEFINITION. Textures, traversal, geometry and pixels: majors 0xB0 to 0xB8 with the fills of TEX and TRACE (07 R214-R239). -/

namespace Sys2Proof.Machine

/-! ### Readers on path G (R215, R223) -/

/-- Who reads on path G: the lanes of a split, and the stamp of the last release fence naming G of each lane of its warp. -/
structure GParty where
  lanes : Mask
  seen : List Nat

def View.gParty (v : View) : GParty := { lanes := v.sp.mask, seen := v.wp.gSeen }

/-- The write is released, and a release fence of the reader naming G has followed (R223). -/
def GStale.shows (e : GStale) (p : GParty) : Bool :=
  match e.released with
  | some r => (laneList p.lanes).all fun l => r < p.seen.getD l 0
  | none => false

/-- The writes that touch some bytes, oldest first, and how many of them, from the oldest on, a reader must see. -/
def State.gTouch (s : State) (k n : Nat) : List GStale := s.gStale.filter fun e => e.key < k + n && k < e.key + e.old.length
def gMust (p : GParty) (es : List GStale) : Nat := ((es.mapIdx fun i e => if e.shows p then i + 1 else 0).max?).getD 0

/-- Bytes as they were before some writes. -/
def State.gBefore (s : State) (k n : Nat) (es : List GStale) : Nat :=
  leNat ((List.range n).map fun j => match es.find? fun e => e.key ≤ k + j && k + j < e.key + e.old.length with
    | some e => e.old.getD (k + j - e.key) 0
    | none => (s.mem.readBytes (k + j) 1).getD 0 0)

/-- Read a datum on path G: as its home holds it, or as it was before some of the writes that the reader need not see yet, which is free
(R223). DEDUCED (log 74). -/
def State.gRead {ε : Type} (s : State) (p : GParty) (n : Nat) (x : Loc) (home : State → State × Except ε Nat) : State × Except ε Nat :=
  match x with
  | .glob pa _ => match s.phys pa false with
    | .mem k =>
      let es := s.gTouch k n
      let must := gMust p es
      if es.length ≤ must then home s
      else
        let s1 := { s with freeCtr := s.freeCtr + 1 }
        let cut := must + (Config.freeWord s.freeCtr).toNat % (es.length - must + 1)
        if cut = es.length then home s1 else (s1, .ok (s1.gBefore k n (es.drop cut)))
    | .nowhere => home s
  | _ => home s

/-- Reads of global memory by a producer of a split. -/
def engReader (p : GParty) (e : Agent) : Reader EngErr := fun s a n =>
  if !isGlobal a then (s, .error (.fault 6 3))
  else match s.engLoc e none a n false with
    | (s1, .error x) => (s1, .error x)
    | (s1, .ok x) => s1.gRead p n x fun s => match s.readLoc (e.view s) none a n x with
      | (s2, .ok d) => (s2, .ok d)
      | (s2, .error _) => (s2, .error .poison)

/-- Precise reads of global memory for a lane of the acting split (R224). -/
def preciseReader (v : View) (lane : Option Nat) : Reader MemErr := fun s a n =>
  if !isGlobal a then (s, .error (.trap (pageTrap lane 3 a.toNat)))
  else match s.resolve v lane a n .global .move false with
    | .error e => (s, .error e)
    | .ok x => s.gRead v.gParty n x fun s => match s.readLoc v lane a n x with
      | (s1, .error t) => (s1, .error (.trap t))
      | (s1, .ok d) => (s1, .ok d)

/-- The failure code of a producer (R215); none while the access waits. -/
def EngErr.code : EngErr → Option Nat
  | .wait => none
  | .fault kind _ => some (if kind = 7 then 6 else 2)
  | .poison => some 3
  | .reg => some 2

/-- The agent of a producer of a warp. -/
def State.producer (s : State) (r : WarpRef) (path : Path) (id : Nat) : Agent :=
  let t := (s.slice r.slice).anyTeam r.team
  { slice := r.slice, team := r.team, vf := (t.map (·.vf)).getD 0, cu := (t.map (·.cu)).getD 0, path := path, id := id, inCu := true }

/-- Read a 64-byte descriptor as words. -/
def readTexDesc {ε : Type} (rd : Reader ε) (a : DWord) (s : State) : State × Except ε (List Byte) := readWords rd a 16 s

/-! ### TEX (R219-R223) -/

def execTex (h : Hdr) (mode : TexMode) (stoch : Bool) (dim : TexDim) (ncomp : BitVec 2) (a b : Src) (c : Option Src) (s : State) : Res :=
  let i := Instr.tex h mode stoch dim ncomp a b c
  start i s fun v act =>
    if act = 0 then .next (s.done v v.wp)
    else
      let (id, s1) := s.fresh
      let ad := valOf i 1 v act (leadLane act)
      let got := if ad.toNat % 64 ≠ 0 then (s1, .error .reg) else readTexDesc (engReader v.gParty (s1.producer v.ref .g id)) ad s1
      let desc := match got.2 with | .ok b => some b | .error _ => none
      let s1 := { s1 with freeCtr := got.1.freeCtr }
      let crd := (List.range 32).map fun l => (l, wordsOf i 0 v act l)
      let ex := (laneList act).map fun l => (l, wordsOf i 2 v act l)
      .next (s1.done v (v.wp.launchFlight id 0xB0 (h.outRegs (ncomp.toNat + 1)) act false (.tex mode stoch dim ad desc crd ex)))

/-- The result of a TEX in one lane. -/
def texLane (rd : Reader EngErr) (d : TexDesc) (mode : TexMode) (stoch : Bool) (crd ex : List (Nat × List Word)) (l : Nat) (s : State) :
    State × Except EngErr (List Word) :=
  let c := fun l => (kget crd l).getD []
  let x := (kget ex l).getD []
  let ng := if d.dim = 1 ∨ d.dim = 2 then 3 else 2
  let qd := (List.range ng).map fun k => quadDiff (fun j => (c j).getD k 0) l
  let key := if stoch then x.getLast? else none
  match mode with
  | .implicit => sampleLane rd d mode key (c l) [] (qd.map (·.1)) (qd.map (·.2)) s
  | .grad => sampleLane rd d mode key (c l) [] (x.take ng) ((x.drop ng).take ng) s
  | m => sampleLane rd d m key (c l) x [] [] s

/-- Run a function over lanes, stopping at the first error. -/
def overLanes {ε α : Type} (f : Nat → State → State × Except ε α) : List Nat → State → State × Except ε (List (Nat × α))
  | [], s => (s, .ok [])
  | l :: r, s => match f l s with
    | (s1, .error e) => (s1, .error e)
    | (s1, .ok x) => match overLanes f r s1 with
      | (s2, .error e) => (s2, .error e)
      | (s2, .ok xs) => (s2, .ok ((l, x) :: xs))

/-- A producer of a resident warp. -/
def State.flightOf (s : State) (w : WarpRef) (id : Nat) : Option Flight := (s.warp w).bind fun x => x.flights.find? (·.id == id)

/-- The fill of a TEX: its results, or poison with a failure code. -/
def execTexFill (w : WarpRef) (flight : Nat) (s : State) : Res :=
  match s.flightOf w flight with
  | some { kind := .tex mode stoch dim ad desc crd ex, lanes := lanes, seen := seen, .. } =>
    let rd := engReader { lanes := lanes, seen := seen } (s.producer w .g flight)
    let fail := fun (s : State) (e : EngErr) => match e.code with
      | some k => s.fillWarp w (·.failFlight flight (failPoison 0xB0 k 0))
      | none => s
    if ad.toNat % 64 ≠ 0 then .next (s.fillWarp w (·.failFlight flight (failPoison 0xB0 1 0)))
    else match (match desc with | some b => (s, Except.ok b) | none => readTexDesc rd ad s) with
      | (s1, .error e) => .next (fail s1 e)
      | (s1, .ok b) =>
        let d := parseTex b
        let one := fun l s => if d.valid && d.dim == dimNum dim then texLane rd d mode stoch crd ex l s else (s, .ok (List.replicate 4 nan32))
        match overLanes one (laneList lanes) s1 with
        | (s2, .error e) => .next (fail s2 e)
        | (s2, .ok xs) => .next (s2.fillWarp w (·.fillFlight flight fun k l => ((kget xs l).getD []).getD k 0))
  | _ => .next s

/-! ### TLD and TQRY (R224, R225) -/

/-- The addresses that reading a texel touches. -/
def texelAddrs (d : TexDesc) (l x y z layer : Nat) : List DWord :=
  let (o, m) := d.place l x y z layer
  BitVec.ofNat 64 (d.base + o + d.e * m) :: (if d.cmpr then [BitVec.ofNat 64 (d.meta_ + o / 256)] else [])

/-- An access to a page of kind SO (01 R33). -/
def State.soAt (s : State) (v : View) (a : DWord) : Bool :=
  match s.resolve v none a 1 .global .move false with | .ok x => x.isSO | .error _ => false

/-- The place of a TLD texel: level, x, y, z and layer, where the level and coordinates lie inside. -/
def tldPlace (d : TexDesc) (lv : Nat) (c : List Word) : Option (Nat × Nat × Nat × Nat × Nat) :=
  let k := fun i => (c.getD i 0).toInt
  let third := match d.dim with | 0 => 1 | 1 => d.dl lv | 2 => 6 | _ => d.dm1 + 1
  let z : Int := if d.dim = 0 then 0 else k 2
  if lv < d.levels && 0 ≤ k 0 && k 0 < d.wl lv && 0 ≤ k 1 && k 1 < d.hl lv && 0 ≤ z && z < third then
    some (lv, (k 0).toNat, (k 1).toNat, if d.dim = 1 then z.toNat else 0, if d.dim = 1 then 0 else z.toNat)
  else none

def execTld (h : Hdr) (dim : TexDim) (ncomp : BitVec 2) (a b c : Src) (s : State) : Res :=
  let i := Instr.tld h dim ncomp a b c
  start i s fun v act =>
    if act = 0 then .next (s.done v v.wp)
    else
      let ad := valOf i 1 v act (leadLane act)
      if ad.toNat % 64 ≠ 0 then .next (s.takeTrap v { kind := .misalign, info := ad })
      else match readTexDesc (preciseReader v none) ad s with
        | (s1, .error e) => .next (s1.memFail v .g false e)
        | (s1, .ok bs) =>
          let d := parseTex bs
          let ok := d.valid && d.dim == dimNum dim
          let place := fun l => tldPlace d (loWord (valOf i 2 v act l)).toNat (wordsOf i 0 v act l)
          let one := fun l s => if !ok then (s, Except.ok (List.replicate 4 nan32)) else match place l with
            | some (lv, x, y, z, layer) => texel (preciseReader v (some l)) d lv x y z layer s
            | none => (s, .ok (List.replicate 4 0))
          match overLanes one (laneList act) s1 with
          | (s2, .error e) => .next (s2.memFail v .g false e)
          | (s2, .ok xs) =>
            let so := s.soAt v ad || (ok && (laneList act).any fun l => match place l with
              | some (lv, x, y, z, layer) => (texelAddrs d lv x y z layer).any (s.soAt v)
              | none => false)
            .next (s2.resultC (s2.review v) so h act fun l => ((kget xs l).getD []).take (ncomp.toNat + 1))

/-- The word of a query. -/
def tqryWord (d : TexDesc) (item : TqItem) (c : Nat) : Word :=
  if !d.valid then 0xFFFFFFFF
  else match item with
    | .size => BitVec.ofNat 32 (d.wl c + 65536 * d.hl c)
    | .levels => BitVec.ofNat 32 (d.levels + 65536 * (match d.dim with | 0 => 1 | 1 => d.dl c | _ => d.dm1 + 1))
    | .fmt => BitVec.ofNat 32 (d.fmt + (if d.cmpr then 256 else 0) + 512 * d.dim)

def execTqry (h : Hdr) (item : TqItem) (b c : Src) (s : State) : Res :=
  let i := Instr.tqry h item b c
  start i s fun v act =>
    if act = 0 then .next (s.done v v.wp)
    else
      let ad := valOf i 1 v act (leadLane act)
      if ad.toNat % 64 ≠ 0 then .next (s.takeTrap v { kind := .misalign, info := ad })
      else match readTexDesc (preciseReader v none) ad s with
        | (s1, .error e) => .next (s1.memFail v .g false e)
        | (s1, .ok bs) => .next (s1.resultC (s1.review v) (s.soAt v ad) h act fun l => [tqryWord (parseTex bs) item ((valOf i 2 v act l).toNat % 16)])

/-! ### TRACE and THIT (R228, R231-R233) -/

def Warp.laneHits (w : Warp) (l : Nat) : LaneHits := w.hits.getD l {}

/-- A TRACE in flight has allocated an entry of a lane. -/
def Warp.traceInFlight (w : Warp) (l ent : Nat) : Bool :=
  w.flights.any fun f => match f.kind with | .trace _ _ _ _ al => al.any (fun a => a.1 == l && a.2.1 == ent) | _ => false

/-- Count one allocation in each active lane (R231). -/
def Warp.allocHits (w : Warp) (act : Mask) : Warp :=
  { w with hits := w.hits.mapIdx fun l (x : LaneHits) => if bit act l then { x with k := (x.k + 1) % 64 } else x }

def execTrace (h : Hdr) (any_ cullb : Bool) (a b : Src) (s : State) : Res :=
  let i := Instr.trace h any_ cullb a b
  start i s fun v act =>
    if act = 0 then .next (s.done v v.wp)
    else
      let w := v.wp
      let ls := laneList act
      let k := fun l => (w.laneHits l).k
      if ls.any fun l => w.traceInFlight l (k l % 4) then .next s
      else
        let (id, s1) := s.fresh
        let alloc := ls.map fun l => (l, k l % 4, k l / 4 % 16)
        let rays := ls.map fun l => (l, wordsOf i 0 v act l)
        let w1 := w.allocHits act
        .next (s1.done v (w1.launchFlight id 0xB3 (h.outRegs 2) act false (.trace (valOf i 1 v act (leadLane act)) any_ cullb rays alloc)))

/-- The hit-table entry and the handle of a result. -/
def hitEnt (gen : Nat) (r : Option Hit) : HitEnt :=
  match r with
  | none => { u := 0, v := 0, prim := 0xFFFFFFFF, inst := 0xFFFFFFFF, leaf := 0xFFFFFFFF, gen := gen, valid := true }
  | some x => { u := toF32 x.u, v := toF32 x.v, prim := x.prim, inst := x.inst, leaf := BitVec.ofNat 32 x.leaf, gen := gen, valid := true,
                hit := true, front := x.front }
def hitHandle (ent gen : Nat) (r : Option Hit) : Word :=
  BitVec.ofNat 32 (ent + 4 * gen + (match r with | some x => 64 + (if x.front then 128 else 0) | none => 0))

/-- Record one lane's result in its hit table. -/
def LaneHits.record (x : LaneHits) (ent gen : Nat) (r : Option Hit) : LaneHits := { x with ents := x.ents.set ent (hitEnt gen r) }

/-- Record the results of a TRACE in the hit tables. -/
def Warp.recordTrace (w : Warp) (alloc : List (Nat × Nat × Nat)) (xs : List (Nat × Option Hit)) : Warp :=
  { w with hits := w.hits.mapIdx fun l x => match alloc.find? (·.1 == l), kget xs l with
      | some (_, ent, gen), some r => LaneHits.record x ent gen r
      | _, _ => x }

def execTraceFill (w : WarpRef) (flight : Nat) (s : State) : Res :=
  match s.flightOf w flight with
  | some { kind := .trace root any_ cull rays alloc, lanes := lanes, seen := seen, .. } =>
    let fail := fun (s : State) (k : Nat) => s.fillWarp w (·.failFlight flight (failPoison 0xB3 k 0))
    if root.toNat % 64 ≠ 0 then .next (fail s 1)
    else
      let rd := engReader { lanes := lanes, seen := seen } (s.producer w .g flight)
      match overLanes (fun l s => traceLane rd root any_ cull ((kget rays l).getD []) s) (rays.map (·.1)) s with
      | (s1, .error (.code k)) => .next (fail s1 k)
      | (s1, .error (.mem e)) => .next (match e.code with | some k => fail s1 k | none => s1)
      | (s1, .ok xs) =>
        let word := fun (k l : Nat) => match kget xs l, alloc.find? (·.1 == l) with
          | some r, some (_, ent, gen) =>
            if k = 0 then (match r with | some x => toF32 x.t | none => 0x7F800000) else hitHandle ent gen r
          | _, _ => 0
        .next (s1.fillWarp w fun x => (x.recordTrace alloc xs).fillFlight flight word)
  | _ => .next s

/-- The item a handle names, where the handle is good. -/
def Warp.hitItem (w : Warp) (item : ThItem) (l : Nat) (hd : Word) : Option Word :=
  let e := (w.laneHits l).ents.getD (bits hd.toNat 0 2) {}
  if hd.toNat ≥ 256 || !e.valid || e.gen != bits hd.toNat 2 4 then none
  else some (match item with | .u => e.u | .v => e.v | .prim => e.prim | .inst => e.inst | .leaf => e.leaf)

/-- The register number of a source. -/
def srcNum (a : Src) : Nat := match a.base with | .vec n | .scal n | .latch n | .imm n => n.toNat

def execThit (h : Hdr) (item : ThItem) (a : Src) (s : State) : Res :=
  let i := Instr.thit h item a
  start i s fun v act =>
    let get := fun l => v.wp.hitItem item l (loWord (valOf i 0 v act l))
    match (laneList act).find? fun l => (get l).isNone with
    | some l => .next (s.takeTrap v { kind := .poisonOp, lane := some l, sub := 2, info := BitVec.ofNat 64 (srcNum a) })
    | none => .next (s.result v v.wp h act fun l => [(get l).getD 0])

/-! ### RING and EMIT (R235-R237) -/

/-- A warp of a geometry team whose render runs. -/
def View.geometry (v : View) : Bool := v.tm.kind == .geometry && v.sl.render.any fun r => !r.ended && r.geoLaunch == v.tm.launch

def slotHandle (k gen : Nat) : Word := BitVec.ofNat 32 (k + 4 * gen)

/-- The slot that the team holds: its CU's number, its own, and its contents. DEDUCED (log 31): a team restored on another CU keeps the
slot of the ring where it acquired it. -/
def View.ownSlot (v : View) : Option (Nat × Nat × Payload) :=
  (v.sl.payloads.find? fun (e : Nat × Payload) => e.2.state == .held && e.2.team == v.tm.id).map fun e => (e.1 / 4, e.1 % 4, e.2)

/-- The slot that a handle names, held and of its generation: the team's own, or one of its CU. -/
def View.heldSlot (v : View) (hd : Word) : Option (Nat × Nat) :=
  let k := hd.toNat % 4
  let ok := fun (p : Payload) => hd.toNat < 2 ^ 18 && p.state == .held && p.gen == hd.toNat / 4
  match v.ownSlot.filter fun o => o.2.1 == k && ok o.2.2 with
  | some o => some (o.1, k)
  | none => if ok (v.sl.payload v.tm.cu k) then some (v.tm.cu, k) else none

/-- Count ring errors of the render. -/
def Slice.ringErrors (x : Slice) (n : Nat) : Slice :=
  { x with render := x.render.map fun r => { r with counters := lmod (· + BitVec.ofNat 32 n) r.counters 0 } }

def execRingAcquire (h : Hdr) (s : State) : Res :=
  start (.ringAcquire h) s fun v act =>
    if act = 0 then .next (s.done v v.wp)
    else if !v.geometry then .next (s.takeTrap v (illegal fldFN))
    else
      let slot := v.sl.payload v.tm.cu
      match v.ownSlot with
      | some (_, k, p) => .next (s.result v v.wp h act fun _ => [slotHandle k p.gen])
      | none => match (List.range 4).find? fun k => (slot k).state == .free with
        | none => .next s
        | some k =>
          let gen := ((slot k).gen + 1) % 65536
          let s1 := s.modSlice v.cur.slice fun x => x.setPayload v.tm.cu k { state := .held, gen := gen, team := v.tm.id }
          .next (s1.result v v.wp h act fun _ => [slotHandle k gen])

def execRingRelease (h : Hdr) (b : Src) (s : State) : Res :=
  let i := Instr.ringRelease h b
  start i s fun v act =>
    if act = 0 then .next (s.done v v.wp)
    else if !v.geometry then .next (s.takeTrap v (illegal fldFN))
    else match v.heldSlot (loWord (valOf i 1 v act (leadLane act))) with
      | none => .next (s.done v v.wp)
      | some (cu, k) =>
        let (order, s1) := s.fresh
        .next ((s1.modSlice v.cur.slice fun x => x.setPayload cu k { (x.payload cu k) with state := .draining, order := order }).done v v.wp)

/-- Write one record into a slot; none is a record that counts as an error. -/
def Payload.emit (p : Payload) (prim : Bool) (ws : List Word) : Option Payload :=
  let idx := bits (ws.getD 0 0).toNat 0 8
  if prim then some { p with prims := kset p.prims idx ws }
  else match p.nv with
    | none => some { p with nv := some ws.length, vtx := kset p.vtx idx ws }
    | some n => if n = ws.length then some { p with vtx := kset p.vtx idx ws } else none

/-- Write the records of an EMIT in order; with the count of those that had no effect. -/
def Payload.emitAll (prim : Bool) : List (List Word) → Payload → Payload × Nat
  | [], p => (p, 0)
  | w :: r, p => match p.emit prim w with
    | some q => Payload.emitAll prim r q
    | none => let (q, n) := Payload.emitAll prim r p
              (q, n + 1)

def execEmit (h : Hdr) (prim : Bool) (nwords : BitVec 4) (a b : Src) (s : State) : Res :=
  let i := Instr.emit h prim nwords a b
  start i s fun v act =>
    if act = 0 then .next (s.done v v.wp)
    else if !v.geometry then .next (s.takeTrap v (illegal fldFN))
    else
      let recs := (laneList act).map fun l => wordsOf i 0 v act l
      match v.heldSlot (loWord (valOf i 1 v act (leadLane act))) with
      | none => .next ((s.modSlice v.cur.slice (·.ringErrors recs.length)).done v v.wp)
      | some (cu, k) =>
        let (p, bad) := (v.sl.payload cu k).emitAll prim recs
        .next ((s.modSlice v.cur.slice fun x => (x.setPayload cu k p).ringErrors bad).done v v.wp)

/-! ### VRD and PXW (R238, R239; 13 R321, R323) -/

/-- The pixel of a lane of a shading warp within its tile: block `b` of 8×8, block index 32·warp + lane. -/
def blockPixel (b m : Nat) : Nat × Nat :=
  (b % 8 * 8 + bits m 0 1 + 2 * bits m 2 1 + 4 * bits m 4 1, b / 8 * 8 + bits m 1 1 + 2 * bits m 3 1 + 4 * bits m 5 1)

/-- The shading place of the acting warp: tile and block. -/
def View.shading (v : View) : Option (Nat × Nat) := match v.tm.kind with | .shading t b => some (t, b) | _ => none

def Render.tile (r : Render) (n : Nat) : RTile := (r.tiles.find? (·.num == n)).getD { num := n }
def Render.cols (r : Render) : Nat := (r.width + 63) / 64

/-- Screen-space weights of vertices 0, 1 and 2 at a point, and their derivatives along X and Y (R321). -/
structure Bary where
  w : List Rat
  dx : List Rat
  dy : List Rat

def Prim.coord (l : List Word) (k : Nat) : Rat := (finT (l.getD k 0)).getD 0

/-- Twice the signed area of a primitive. -/
def Prim.area (p : Prim) : Rat :=
  let x := Prim.coord p.xs
  let y := Prim.coord p.ys
  (x 1 - x 0) * (y 2 - y 0) - (x 2 - x 0) * (y 1 - y 0)

def Prim.bary (p : Prim) (px py : Rat) : Bary :=
  let x := Prim.coord p.xs
  let y := Prim.coord p.ys
  let a := p.area
  let l1 := ((px - x 0) * (y 2 - y 0) - (x 2 - x 0) * (py - y 0)) / a
  let l2 := ((x 1 - x 0) * (py - y 0) - (px - x 0) * (y 1 - y 0)) / a
  let d1x := (y 2 - y 0) / a
  let d1y := -(x 2 - x 0) / a
  let d2x := -(y 1 - y 0) / a
  let d2y := (x 1 - x 0) / a
  { w := [1 - l1 - l2, l1, l2], dx := [-(d1x + d2x), d1x, d2x], dy := [-(d1y + d2y), d1y, d2y] }

/-- Perspective-correct weights of vertices 1 and 2, and their four derivatives. -/
def Prim.perspective (p : Prim) (px py : Rat) : List Rat × List Rat :=
  let b := p.bary px py
  let iw := fun k => 1 / Prim.coord p.ws k
  let n := fun (l : List Rat) k => l.getD k 0 * iw k
  let sum := fun (l : List Rat) => n l 0 + n l 1 + n l 2
  let d := sum b.w
  let der := fun (g : List Rat) k => (n g k * d - n b.w k * sum g) / (d * d)
  ([n b.w 1 / d, n b.w 2 / d], [der b.dx 1, der b.dy 1, der b.dx 2, der b.dy 2])

/-- What VRD gives for an entry that is set, or for the background. -/
def vrdWords (r : Render) (item : VrdItem) (e : IdEnt) (px py : Nat) : List Word :=
  let cx : Rat := (px : Rat) + 1 / 2
  let cy : Rat := (py : Rat) + 1 / 2
  match (if e.set then r.prims.find? (fun p => BitVec.ofNat 32 p.ref == e.ref) else none) with
  | none => match item with | .prim => [0xFFFFFFFF] | i => List.replicate (Sig.vrdN i) 0
  | some p => match item with
    | .prim => [e.order]
    | .bary => (p.perspective cx cy).1.map toF32
    | .deriv => (p.perspective cx cy).2.map toF32
    | .depth => [e.depth]

def execVrd (h : Hdr) (item : VrdItem) (s : State) : Res :=
  start (.vrd h item) s fun v act =>
    if act = 0 then .next (s.done v v.wp)
    else match v.shading, v.sl.render with
      | some (t, b), some r =>
        let tile := r.tile t
        .next (s.result v v.wp h act fun l =>
          let (x, y) := blockPixel b (32 * v.cur.warp + l)
          vrdWords r item (tile.ids.getD (64 * y + x) { depth := 0, order := 0xFFFFFFFF, ref := 0xFFFFFFFF })
            (r.x0 + t % r.cols * 64 + x) (r.y0 + t / r.cols * 64 + y))
      | _, _ => .next (s.takeTrap v (illegal fldFN))

def execPxw (h : Hdr) (a : Src) (s : State) : Res :=
  let i := Instr.pxw h a
  start i s fun v act =>
    if act = 0 then .next (s.done v v.wp)
    else match v.shading with
      | none => .next (s.takeTrap v (illegal fldFN))
      | some (t, b) =>
        let put := fun (px : List Word) => (laneList act).foldl (fun px l =>
          let (x, y) := blockPixel b (32 * v.cur.warp + l)
          px.set (64 * y + x) (loWord (valOf i 0 v act l))) px
        let s1 := s.modSlice v.cur.slice fun x => { x with render := x.render.map fun r =>
          { r with tiles := r.tiles.map fun q => if q.num = t then { q with px := put q.px } else q } }
        .next (s1.done v v.wp)

end Sys2Proof.Machine
end

