-- ==== Sys2Proof/Machine/Network.lean ====
section
/-! DEFINITION. The radiance network and its optimiser's arithmetic (07 R240, R241; 14 R342; 15 R346, R347, R351, R352). -/

namespace Sys2Proof.Machine

/-! ### The configuration (07 R240, R241) -/

/-- The configuration that an image of 128 bytes gives. -/
def parseRad (b : List Byte) : RadConfig :=
  let f := fun (o n : Nat) => leNat ((b.drop o).take n)
  let w := fun o => BitVec.ofNat 32 (f o 4)
  let c := f 0 4
  { cfg := b.take 96, levels := if bits c 0 4 = 0 then 16 else bits c 0 4, hidden := bits c 4 3, width := 16 * 2 ^ bits c 7 2, log2t := bits c 9 4,
    boxMin := [w 8, w 12, w 16], boxMax := [w 20, w 24, w 28], res := (List.range 16).map fun l => f (32 + 2 * l) 2,
    lr := w 64, beta1 := w 68, beta2 := w 72, eps := w 76, param := f 80 8, mom := f 88 8 }

def RadConfig.t (c : RadConfig) : Nat := 2 ^ c.log2t
def RadConfig.inputs (c : RadConfig) : Nat := 2 * c.levels + 11

/-- The layers: offset of the weights, inputs, units. -/
def RadConfig.layers (c : RadConfig) : List (Nat × Nat × Nat) :=
  let grid := c.levels * c.t * 2
  let hid := (List.range c.hidden).map fun k =>
    if k = 0 then (grid, c.inputs, c.width)
    else (grid + c.width * c.inputs + c.width + (k - 1) * (c.width * c.width + c.width), c.width, c.width)
  let out := match hid.getLast? with | some (o, i, w) => o + w * i + w | none => grid
  hid ++ [(out, c.width, 3)]

/-- Parameters in all. -/
def RadConfig.params (c : RadConfig) : Nat := match c.layers.getLast? with | some (o, i, n) => o + n * i + n | none => 0

/-- The rules of R240 and R241 on an image. -/
def radOk (b : List Byte) : Bool :=
  let f := fun (o n : Nat) => leNat ((b.drop o).take n)
  let c := parseRad b
  let le := fun (x y : Word) => !isNanT x && !isNanT y && leT x y
  let lt := fun (x y : Word) => !isNanT x && !isNanT y && ltT x y
  bits (f 0 4) 13 19 == 0 && 1 ≤ c.hidden && c.hidden ≤ 6 && bits (f 0 4) 7 2 != 3 && 4 ≤ c.log2t && c.log2t ≤ 14
  && f 4 4 == 0 && f 100 28 == 0
  && (List.range 3).all (fun k => lt (c.boxMin.getD k 0) (c.boxMax.getD k 0))
  && (List.range 16).all (fun l => if l < c.levels then c.res.getD l 0 ≥ 1 else c.res.getD l 0 == 0)
  && le 0 c.beta1 && lt c.beta1 0x3F800000 && le 0 c.beta2 && lt c.beta2 0x3F800000 && lt 0 c.eps
  && c.param % 64 == 0 && c.mom % 64 == 0 && 2 * c.params ≤ 1179648

/-- β^n by successive products; a product that repeats itself goes on repeating (15 R345). -/
def powT (b : Word) : Nat → Word → Word
  | 0, x => x
  | n + 1, x => let y := fmulT x b
    if y = x then x else powT b n y

/-! ### A query (15 R346, R347) -/

abbrev Params := List (BitVec 16)

/-- A parameter as FP32. -/
def parT (p : Params) (i : Nat) : Word := BitVec.ofNat 32 (Fmt.f32.roundTo .rne (Fmt.f16.decode false (p.getD i 0).toNat)).1

def fmaxT (a b : Word) : Word := (minmax32 true false false a b).1
def fminT (a b : Word) : Word := (minmax32 false false false a b).1

/-- Normalised position. -/
def normPos (c : RadConfig) (x : List Word) : List Word :=
  (List.range 3).map fun a =>
    let lo := c.boxMin.getD a 0
    fminT (fmaxT (fdivT (fsubT (x.getD a 0) lo) (fsubT (c.boxMax.getD a 0) lo)) 0) 0x3F800000

/-- The eight corners of a level: parameter index of the entry, and weight. -/
def corners (c : RadConfig) (l : Nat) (p : List Word) : List (Nat × Word) :=
  let r := c.res.getD l 1
  let q := p.map fun x => fmulT x (natT r)
  let i := q.map fun x => match f32 false x with | .fin n m => min ((if n then -m else m).floor.toNat) (r - 1) | _ => 0
  let f := (List.range 3).map fun a => fsubT (q.getD a 0) (natT (i.getD a 0))
  (List.range 8).map fun k =>
    let g := fun a => i.getD a 0 + bits k a 1
    let w := fun a => if bits k a 1 = 1 then f.getD a 0 else fsubT 0x3F800000 (f.getD a 0)
    let h := (g 0).xor ((g 1 * 2654435761 % 2 ^ 32).xor (g 2 * 805459861 % 2 ^ 32))
    (2 * (l * c.t + h % c.t), fmulT (fmulT (w 0) (w 1)) (w 2))

/-- A level's two inputs. -/
def levelIn (par : Params) (cs : List (Nat × Word)) : List Word :=
  (List.range 2).map fun k => cs.foldl (fun s c => ffmaT c.2 (parT par (c.1 + k)) s) 0

/-- The unit sums of a layer. -/
def layerSums (par : Params) (o ins outs : Nat) (x : List Word) : List Word :=
  (List.range outs).map fun j =>
    (x.take ins).zipIdx.foldl (fun s xi => ffmaT (parT par (o + j * ins + xi.2)) xi.1 s) (parT par (o + outs * ins + j))

/-- ReLU, and max(s, +0) of an output unit: the same value. -/
def relu (s : Word) : Word := if isNanT s then nan32 else if ltT 0 s then s else 0

/-- The sums of every layer, first to last, with each layer's inputs. -/
def forward (par : Params) : List (Nat × Nat × Nat) → List Word → List (List Word × List Word)
  | [], _ => []
  | (o, ins, outs) :: r, x =>
    let s := layerSums par o ins outs x
    (x, s) :: forward par r (s.map relu)

/-- The network's inputs of a feature list, with the corners of each level. -/
def netInputs (c : RadConfig) (par : Params) (feat : List Word) : List (List (Nat × Word)) × List Word :=
  let p := normPos c feat
  let cs := (List.range c.levels).map fun l => corners c l p
  (cs, (cs.map (levelIn par)).flatten ++ (feat.drop 3).take 11)

/-- The three colours of a query. -/
def query (c : RadConfig) (par : Params) (feat : List Word) : List Word :=
  match (forward par c.layers (netInputs c par feat).2).getLast? with
  | some (_, s) => s.map relu
  | none => [0, 0, 0]

/-- The 64-bit parameter words that a query reads (R348). -/
def queryReads (c : RadConfig) (feat : List Word) (bad : List Nat) : Bool :=
  let grid := c.levels * c.t * 2
  let es := ((netInputs c [] feat).1.flatten).map (·.1 / 4)
  bad.any fun w => 4 * w + 3 ≥ grid || es.contains w

/-! ### The optimiser (14 R342; 15 R351) -/

/-- e of a channel: Round(2·(p - t)/(p² + 0.01)). -/
def errT (p t : Word) : Word :=
  let d := fsubT p t
  let q := ffmaT p p (toF32 (1 / 100))
  match f32 false d, f32 false q with
  | .fin n x, .fin m y => if y = 0 then fdivT d q else (f32op .rne false (.fin (n != m) (2 * x / y), 0)).1
  | _, _ => fdivT d q

/-- δ of the inputs of a layer: over its units in order. -/
def backDelta (par : Params) (o ins : Nat) (n : Nat) (deltas : List Word) : List Word :=
  (List.range n).map fun i => deltas.zipIdx.foldl (fun s du => ffmaT (parT par (o + du.2 * ins + i)) du.1 s) 0

/-- Add a contribution to a gradient. -/
def addGrad (g : List Word) (c : Nat × Word) : List Word := g.set c.1 (faddT (g.getD c.1 0) c.2)

/-- The contributions of the layers, last to first, and the δ of the network's inputs. `rev` lists layers last first with their
inputs, and with the sums that made those inputs. -/
def backLayers (par : Params) (nin : Nat) : List ((Nat × Nat × Nat) × List Word × Option (List Word)) → List Word → List (Nat × Word) × List Word
  | [], d => ([], d)
  | ((o, ins, outs), x, prev) :: r, d =>
    let here := (d.zipIdx.map fun dj =>
      (o + outs * ins + dj.2, dj.1) :: ((x.take ins).zipIdx.map fun xi => (o + dj.2 * ins + xi.2, fmulT dj.1 xi.1))).flatten
    let back := match prev with
      | some s => (backDelta par o ins ins d).zipIdx.map fun di => if !isNanT (s.getD di.2 0) && leT (s.getD di.2 0) 0 then 0 else di.1
      | none => backDelta par o ins nin d
    let rest := backLayers par nin r back
    (here ++ rest.1, rest.2)

/-- The gradient contributions of one slot, in order. -/
def slotGrads (c : RadConfig) (par : Params) (feat target : List Word) : List (Nat × Word) :=
  let (cs, x) := netInputs c par feat
  let fw := forward par c.layers x
  let out := (match fw.getLast? with | some (_, s) => s.map relu | none => [])
  let e := (List.range 3).map fun k => errT (out.getD k 0) (target.getD k 0)
  let sums := none :: (fw.map fun f => some f.2)
  let rev := ((c.layers.zip ((fw.map (·.1)).zip sums)).map fun l => (l.1, l.2.1, l.2.2)).reverse
  let (layers, d) := backLayers par (2 * c.levels) rev e
  layers ++ (cs.zipIdx.map fun cl => (cl.1.map fun w =>
    (List.range 2).map fun k => (w.1 + k, fmulT w.2 (d.getD (2 * cl.2 + k) 0))).flatten).flatten

/-- The gradients of a step over its committed slots in order. -/
def gradients (c : RadConfig) (par : Params) (slots : List RadSlot) : List Word :=
  slots.foldl (fun g s => (slotGrads c par s.features s.targets).foldl addGrad g) (List.replicate c.params 0)

/-- The new moment, second moment and parameter of one parameter (R342). -/
def adam (c : RadConfig) (b1t b2t : Word) (p : BitVec 16) (g m v : Word) : Word × Word × BitVec 16 :=
  let one : Word := 0x3F800000
  let m' := faddT (fmulT c.beta1 m) (fmulT (fsubT one c.beta1) g)
  let v' := faddT (fmulT c.beta2 v) (fmulT (fsubT one c.beta2) (fmulT g g))
  let mh := fdivT m' (fsubT one b1t)
  let vh := fdivT v' (fsubT one b2t)
  let u := fdivT mh (faddT (specialF .sqrt .rne false vh).1 c.eps)
  let x := addFp .rne (Fmt.f16.decode false p.toNat) (f32 false (fmulT c.lr u)).neg
  (m', v', BitVec.ofNat 16 (Fmt.f16.roundTo .rne x.1).1)

/-- A step's new values are finite where they must be (R352). -/
def adamOk (r : Word × Word × BitVec 16) : Bool :=
  !isNanT r.1 && !isNanT r.2.1 && (match Fmt.f16.decode false r.2.2.toNat with | .fin .. => true | _ => false)

end Sys2Proof.Machine
end

