-- ==== Sys2Proof/Machine/Radiance.lean ====
section
/-! DEFINITION. The radiance engine: majors 0xC0 to 0xC5 and the engine's steps (07 R240-R248; 15 R344-R354). -/

namespace Sys2Proof.Machine

def State.rad (s : State) (n : Nat) : Radiance := (s.slice n).radiance
def State.modRad (s : State) (n : Nat) (f : Radiance → Radiance) : State := s.modSlice n fun x =>
  let r := f x.radiance
  { x with radiance := if r.queue.head? = x.radiance.queue.head? then r else { r with since := s.dtime } }

/-- The parameter SRAM and the slot area as an access finds them: whether a word of either copy or a slot's record has become
uncorrectable since the last one, and which, is free (R344, R348, R352). -/
def Radiance.checked (r : Radiance) (c : Nat) : Radiance :=
  match r.config with
  | none => r
  | some k =>
    let add := fun (l : List Nat) (c n : Nat) =>
      if Config.freeBool c && !l.contains ((Config.freeWord (c + 1)).toNat % n) then (Config.freeWord (c + 1)).toNat % n :: l else l
    { r with badPub := add r.badPub c (k.params / 4 + 1), badShadow := add r.badShadow (c + 2) (k.params / 4 + 1),
             badSlots := add r.badSlots (c + 4) 65536 }
def State.radCheck (s : State) (n : Nat) : State :=
  { s.modRad n (·.checked s.freeCtr) with freeCtr := s.freeCtr + 6 }

/-! ### Slots (R349) -/

/-- Slots of the table (R349). -/
def radSlots : Nat := 65536

/-- Reserve the lowest free slot: slots are freed only all together. A full table is counted (R243). -/
def Radiance.reserve (r : Radiance) (feat : List Word) : Radiance × Option Nat :=
  let n := r.slots.length
  if n ≥ radSlots then ({ r with uncounted := r.uncounted + 1 }, none)
  else ({ r with slots := r.slots ++ [(n, { features := feat })] }, some n)

/-- Reserve a slot for each lane in order. -/
def Radiance.reserveAll (r : Radiance) : List (Nat × List Word) → Radiance × List (Nat × Option Nat)
  | [] => (r, [])
  | (l, f) :: t =>
    let (r1, k) := r.reserve f
    let (r2, ks) := r1.reserveAll t
    (r2, (l, k) :: ks)

/-- Commit targets to slots in order; a handle that names no slot is counted (R244). -/
def Radiance.commit (r : Radiance) : List (Word × List Word) → Radiance
  | [] => r
  | (hd, t) :: rest =>
    match kget r.slots hd.toNat with
    | some x => { r with slots := kset r.slots hd.toNat { x with committed := true, targets := t } }.commit rest
    | none => { r with uncounted := r.uncounted + 1 }.commit rest

/-- The commits at the head of the queue are performed as they reach it (R343, R350). -/
def Radiance.drain : List RadEntry → Radiance → Radiance
  | [], r => { r with queue := [] }
  | e :: t, r => match e.cmd with
    | .ct hs => Radiance.drain t (r.commit hs)
    | _ => { r with queue := e :: t }

/-- Put a command at the end of the queue. -/
def Radiance.push (r : Radiance) (vf cu : Nat) (w : WarpRef) (c : RadCmd) : Radiance :=
  Radiance.drain (r.queue ++ [{ order := r.accepted, cmd := c, vf := vf, cu := cu, issuer := w }]) { r with accepted := r.accepted + 1 }

/-- Take the head off the queue. -/
def Radiance.pop (r : Radiance) : Radiance := Radiance.drain r.queue.tail r

/-! ### RCQ (R243, R346-R350) -/

/-- A load or publish accepted before a place in the order has not ended. -/
def Radiance.blocks (r : Radiance) (order : Nat) : Bool :=
  r.queue.any fun e => e.order < order && (match e.cmd with | .cfg .. | .pub _ => true | _ => false)

def execRcq (h : Hdr) (train : Bool) (a : Src) (s : State) : Res :=
  let i := Instr.rcq h train a
  start i s fun v act =>
    if act = 0 then .next (s.done v v.wp)
    else
      let (id, s1) := s.fresh
      let feat := (laneList act).map fun l => (l, wordsOf i 0 v act l)
      let r := v.sl.radiance
      let (r1, slots) := if train && r.config.isSome && !r.blocks r.accepted then (let (q, k) := r.reserveAll feat; (q, some k)) else (r, none)
      let s2 := s1.modRad v.cur.slice fun _ => { r1 with accepted := r1.accepted + 1 }
      let w := v.wp.launchFlight id 0xC0 (h.outRegs (if train then 4 else 3)) act train (.rcq train feat slots r.accepted)
      .next (if train then s2.doneC { v with wp := w } true else s2.done v w)

/-- Training queries accepted earlier that have reserved no slots yet. -/
def Slice.earlierTrain (x : Slice) (order : Nat) : Bool :=
  (x.teams ++ x.saved).any fun t => t.warps.any fun w => w.flights.any fun f => match f.kind with
    | .rcq true _ none o => o < order
    | _ => false

/-- Answer a query: the words of each destination register, and the engine with slots reserved; none while it waits. `bad` are
lanes that read an uncorrectable parameter word. -/
def Slice.answerRcq (x : Slice) (f : Flight) : Option (Radiance × (Nat → Nat → Word) × Mask) :=
  match f.kind with
  | .rcq train feat slots order =>
    let r := x.radiance
    if r.blocks order then none
    else if train && slots.isNone && r.config.isSome && x.earlierTrain order then none
    else match r.config with
      | none => some (r, fun k _ => if k = 3 then 0xFFFFFFFF else 0, 0)
      | some c =>
        let (r1, ks) := match slots with
          | some k => (r, k)
          | none => if train then r.reserveAll feat else (r, [])
        let bad := maskOf fun l => match kget feat l with | some w => queryReads c w r.badPub | none => false
        let out := feat.map fun e => (e.1, query c r.published e.2)
        some (r1, fun k l =>
          if k = 3 then (match kget ks l with | some (some n) => BitVec.ofNat 32 n | _ => 0xFFFFFFFF)
          else ((kget out l).getD []).getD k 0, bad)
  | _ => none

/-- Deliver the answer of a query to its warp, wherever that is held. -/
def State.fillRcq (s : State) (w : WarpRef) (f : Flight) : State :=
  let s1 := s.radCheck w.slice
  match (s1.slice w.slice).answerRcq f with
  | none => s
  | some (r, vals, bad) => (s1.modRad w.slice fun _ => r).modAnyWarp w (·.fillBut f.id bad (failPoison 0xC0 3 0) vals)

def execRcqFill (w : WarpRef) (flight : Nat) (s : State) : Res :=
  match s.flightOf w flight with
  | some f => .next (s.fillRcq w f)
  | none => .next s

/-! ### Commands (R242, R244-R247) -/

def execRct (h : Hdr) (a b : Src) (s : State) : Res :=
  let i := Instr.rct h a b
  start i s fun v act =>
    if act = 0 then .next (s.done v v.wp)
    else
      let hs := (laneList act).map fun l => (loWord (valOf i 0 v act l), wordsOf i 1 v act l)
      .next ((s.modRad v.cur.slice (·.push v.tm.vf v.tm.cu v.ref (.ct hs))).doneC v true)

/-- The earliest unfinished deadline of a queue; none for a best-effort queue or one without a deadline (R246). -/
def Queue.earliest (q : Queue) : Option Nat :=
  if q.be then none else ((q.frames.filter q.frameBusy).map (·.deadline)).min?

def execRcstep (h : Hdr) (a : Src) (s : State) : Res :=
  let i := Instr.rcstep h a
  start i s fun v act =>
    if act = 0 then .next (s.done v v.wp)
    else
      let n := leadVal i 0 v act
      if n = 0 then .next (s.doneC v true)
      else .next ((s.modRad v.cur.slice (·.push v.tm.vf v.tm.cu v.ref (.step n (v.sl.queue v.tm.queue).earliest))).doneC v true)

/-- Accept a command that holds its split. -/
def State.radHold (s : State) (v : View) (act : Mask) (commit : Bool) (f : Radiance → Nat → RadCmd) : State :=
  let (id, s1) := s.fresh
  let (w, sp) := if commit then s.accept v v.wp else (v.wp, v.sp)
  (s1.modRad v.cur.slice fun r => r.push v.tm.vf v.tm.cu v.ref (f r id)).holdLanes v w sp act (.command id)

def execRcpub (h : Hdr) (s : State) : Res :=
  start (.rcpub h) s fun v act =>
    if act = 0 then .next (s.done v v.wp) else .next (s.radHold v act true fun _ id => .pub id)

def execRcrd (h : Hdr) (shadow : Bool) (a : Src) (s : State) : Res :=
  let i := Instr.rcrd h shadow a
  start i s fun v act =>
    if act = 0 then .next (s.done v v.wp)
    else
      let ad := valOf i 0 v act (leadLane act)
      if ad.toNat % 64 ≠ 0 then .next (s.takeTrap v { kind := .misalign, info := ad })
      else .next (s.radHold v act false fun _ id => .rd id ad shadow)

/-- Steps queued, skipped by a load (R242, R353). -/
def Radiance.stepsQueued (r : Radiance) : Nat :=
  (r.queue.map fun e => match e.cmd with | .step n _ => n | _ => 0).sum
def Radiance.skipSteps (r : Radiance) : Radiance :=
  { r with skipped := r.skipped + BitVec.ofNat 32 r.stepsQueued,
           queue := r.queue.filter fun e => match e.cmd with | .step .. => false | _ => true }

def execRccfg (h : Hdr) (a : Src) (s : State) : Res :=
  let i := Instr.rccfg h a
  start i s fun v act =>
    if act = 0 then .next (s.done v v.wp)
    else
      let n := v.sl.radiance.stepsQueued
      let s1 := s.modRad v.cur.slice fun r => let q := r.skipSteps; Radiance.drain q.queue q
      .next (s1.radHold v act true fun _ id => .cfg id (valOf i 0 v act (leadLane act)) n)

/-! ### Reading memory by the engine -/

/-- Read bytes in global memory. -/
def State.engFetch (s : State) (e : Agent) (a : DWord) (chunk n : Nat) : State × Except EngErr (List Byte) :=
  if isGlobal a then s.engBytes e a chunk n else (s, .error (.fault 6 3))

/-- Poison that zeroing a range would leave: a poisoned line that the range covers only in part (R345). -/
def State.partPoison (s : State) (e : Agent) (a len : Nat) : Bool :=
  [a, a + len - 1].any fun b =>
    let line := b / 128 * 128
    (line < a || a + len < line + 128) && (match s.resolve (e.view s) none (BitVec.ofNat 64 b) 1 .global .move true with
      | .ok (.glob pa _) => (match s.phys pa true with | .mem k => s.mem.poison.contains (lineOfKey k) | .nowhere => false)
      | _ => false)

/-! ### The end of commands (R242, R245, R247) -/

def RadEntry.agent (e : RadEntry) (n id : Nat) : Agent := { slice := n, team := e.issuer.team, vf := e.vf, cu := e.cu, path := .a, id := id }

/-- Queries accepted before a place in the order that are not answered. -/
def Slice.earlierRcq (x : Slice) (order : Nat) : Bool :=
  (x.teams ++ x.saved).any fun t => t.warps.any fun w => w.flights.any fun f => match f.kind with
    | .rcq _ _ _ o => o < order
    | _ => false

/-- End the command at the head. -/
def State.endRad (s : State) (n : Nat) (e : RadEntry) (id : Nat) : State := (s.modRad n (·.pop)).endCommand e.issuer id

/-- 16-bit words of bytes. -/
def halves (b : List Byte) : Params := (List.range (b.length / 2)).map fun i => BitVec.ofNat 16 (leNat ((b.drop (2 * i)).take 2))

/-- Install a configuration (R242, R345). -/
def Radiance.install (r : Radiance) (c : RadConfig) (step : Word) (par : Params) (skipped : Nat) (owner : Nat × WarpRef) : Radiance :=
  { r with config := some c, published := par, shadow := par, badPub := [], badShadow := [], badSlots := [], step := step, slots := [],
           b1t := powT c.beta1 step.toNat 0x3F800000, b2t := powT c.beta2 step.toNat 0x3F800000,
           skipped := BitVec.ofNat 32 skipped, uncounted := 0, status := 0, owner := some owner }

/-- An RCCFG load: rule, fault, poison, or the new configuration. -/
def State.loadRad (s : State) (n : Nat) (e : RadEntry) (id : Nat) (a : DWord) (skipped : Nat) : State :=
  let ag := e.agent n id
  let fail := fun (s : State) (x : EngErr) => match x with
    | .wait => s
    | .poison => (s.modRad n fun r => { r with status := 3 }).endRad n e id
    | _ => (s.modRad n fun r => { r with status := 2 }).endRad n e id
  let rule := fun (s : State) => (s.modRad n fun r => { r with status := 1 }).endRad n e id
  if a.toNat % 64 ≠ 0 then rule s
  else match s.engFetch ag a 64 2 with
    | (s1, .error x) => fail s1 x
    | (s1, .ok b) =>
      if !radOk b then rule s1
      else
        let c := parseRad b
        let step := BitVec.ofNat 32 (leNat ((b.drop 96).take 4))
        match s1.engFetch ag (BitVec.ofNat 64 c.param) 2 c.params with
        | (s2, .error x) => fail s2 x
        | (s2, .ok p) =>
          let poisoned := s2.partPoison ag c.mom (8 * c.params)
          match s2.engStream ag (8 * c.params) (BitVec.ofNat 64 c.mom) (List.replicate (8 * c.params) 0) [] with
          | (s3, some x) => fail s3 x.1
          | (s3, none) =>
            if poisoned then fail s3 .poison
            else (s3.modRad n (·.install c step (halves p) skipped (e.vf, e.issuer))).endRad n e id

/-- The header and parameters that RCRD writes. -/
def Radiance.image (r : Radiance) (shadow : Bool) : List Byte :=
  match r.config with
  | none => List.replicate 128 0
  | some c =>
    let w := fun n => leBytes 4 n
    c.cfg ++ w r.step.toNat ++ w r.slots.length ++ w (r.slots.filter (·.2.committed)).length ++ w r.skipped.toNat ++ w r.status ++ w r.uncounted.toNat
      ++ List.replicate 8 0 ++ ((if shadow then r.shadow else r.published).map fun p => leBytes 2 p.toNat).flatten

/-- The chunks of 64 bytes of RCRD's output that hold an uncorrectable word of the copy. DESIGN CHOICE (log 58): they are written as
poison, as GRD's are (17 R369). -/
def Radiance.badChunks (r : Radiance) (shadow : Bool) : List Nat :=
  if r.config.isSome then ((if shadow then r.badShadow else r.badPub).map fun w => 2 + w / 8).eraseDups else []

/-- A split of the warp is still held by a command, frozen or not. -/
def Warp.awaits (w : Warp) (id : Nat) : Bool :=
  (w.front ++ w.wait ++ (w.handler.map fun h => h.frozenFront ++ h.frozenWait).getD []).any (·.hold == .command id)

/-- Bring a held split to the frontier as the acting split. -/
def State.actHeld (s : State) (r : WarpRef) (id : Nat) : Option (State × View) :=
  match s.warp r with
  | none => none
  | some w =>
    let isIt := fun (p : Split) => p.hold == .command id
    let w1 := match w.wait.find? isIt with
      | some p => { w with front := w.front ++ [p], wait := w.wait.filter (!isIt ·) }
      | none => w
    match w1.front.findIdx? isIt with
    | none => none
    | some k =>
      let s1 := { (s.modWarp r fun _ => w1) with cur := some { slice := r.slice, team := r.team, warp := r.warp, split := k } }
      s1.view.map fun v => (s1, v)

/-- The trap of an engine's fault for the split whose command it ends (R247). -/
def faultTrap (x : EngErr) (a : DWord) : Trap :=
  match x with
  | .fault 7 _ => { kind := .ordKind, info := a }
  | .fault _ sub => pageTrap none sub a.toNat
  | _ => pageTrap none 3 a.toNat

/-- RCRD: write the chosen copy; a fault is a trap at the RCRD, which waits while the split is frozen. A read whose split is no longer
held by it ends: a restarted region commands another (R353). -/
def State.readRad (s : State) (n : Nat) (e : RadEntry) (id : Nat) (a : DWord) (shadow : Bool) : State :=
  let b := (s.rad n).image shadow
  match s.engImage (e.agent n id) a b ((s.rad n).badChunks shadow) with
  | (s1, none) => s1.endRad n e id
  | (s1, some (.wait, _)) => s1
  | (s1, some (x, at_)) =>
    if (s1.warp e.issuer).any fun w => w.awaits id && (w.escFrozen || !(w.front ++ w.wait).any (·.hold == .command id)) then s1
    else match s1.actHeld e.issuer id with
    | some (s2, v) => (s2.takeTrap v (faultTrap x at_)).modRad n (·.pop)
    | none => s1.modRad n (·.pop)

/-- Publish (R245). -/
def Radiance.publish (r : Radiance) : Radiance :=
  { r with published := r.shadow, badPub := r.badShadow, badSlots := [], slots := [] }

/-- The load, publish or read at the head of the queue ends. -/
def execRadianceCommandComplete (slice : Nat) (s : State) : Res :=
  let x := s.slice slice
  match x.radiance.queue with
  | [] => .next s
  | e :: _ => match e.cmd with
    | .cfg id a skipped => if x.earlierRcq e.order then .next s else .next (s.loadRad slice e id a skipped)
    | .pub id => if x.earlierRcq e.order then .next s else .next ((s.modRad slice (·.publish)).endRad slice e id)
    | .rd id a shadow => .next (s.readRad slice e id a shadow)
    | .ct _ | .step .. => .next s

/-! ### Steps (R246, R350-R352) -/

/-- Discard steps of the RCSTEP at the head: `n` of them, counted as skipped. -/
def Radiance.discard (r : Radiance) (n : Nat) : Radiance :=
  let r1 := { r with skipped := r.skipped + BitVec.ofNat 32 n }
  match r1.queue with
  | e :: t => match e.cmd with
    | .step k d => if k ≤ n then Radiance.drain t r1 else { r1 with queue := { e with cmd := .step (k - n) d } :: t }
    | _ => r1
  | [] => r1

/-- One step of the RCSTEP at the head is over, performed. -/
def Radiance.stepDone (r : Radiance) : Radiance := { r.discard 1 with skipped := r.skipped }

/-- The numbers in the MOM area. -/
def words4 (b : List Byte) : List Word := (List.range (b.length / 4)).map fun i => BitVec.ofNat 32 (leNat ((b.drop (4 * i)).take 4))

/-- Compute and commit a step over the committed slots, or discard it. Whether an access to the slot area, whose place the rules do not
give, meets a fault is free (R352). -/
def State.radStep (s : State) (n : Nat) (c : RadConfig) (owner : Nat × WarpRef) (left : Nat) : State :=
  let r := s.rad n
  let p := c.params
  let ag : Agent := { slice := n, team := owner.2.team, vf := owner.1, cu := 0, path := .a, id := n }
  let mom := BitVec.ofNat 64 c.mom
  let drop := fun (s : State) (code k : Nat) => s.modRad n fun r => { r.discard k with status := code }
  let fail := fun (s : State) (x : EngErr) => match x with
    | .wait => s
    | .poison => drop s 3 left
    | _ => drop s 2 left
  match s.engFetch ag mom 4 (2 * p) with
  | (s1, .error x) => fail s1 x
  | (s1, .ok b) =>
    if Config.freeBool s1.freeCtr then drop { s1 with freeCtr := s1.freeCtr + 1 } 2 left
    else if !r.badShadow.isEmpty || r.slots.any (fun k => k.2.committed && r.badSlots.contains k.1) then drop s1 3 left
    else
      let mv := words4 b
      let slots := (isort (fun (a b : Nat × RadSlot) => a.1 ≤ b.1) (r.slots.filter (·.2.committed))).map (·.2)
      let g := gradients c r.shadow slots
      let b1t := fmulT r.b1t c.beta1
      let b2t := fmulT r.b2t c.beta2
      let new := (List.range p).map fun i => adam c b1t b2t (r.shadow.getD i 0) (g.getD i 0) (mv.getD i 0) (mv.getD (p + i) 0)
      if !new.all adamOk then drop s1 4 1
      else
        match s1.engCheck ag none 4 true (2 * p) mom with
        | (s2, .error x) => fail s2 x
        | (s2, .ok _) =>
          let bytes := (new.map fun x => leBytes 4 x.1.toNat).flatten ++ (new.map fun x => leBytes 4 x.2.1.toNat).flatten
          let s3 := (s2.engStream ag (8 * p) mom bytes []).1
          s3.modRad n fun r => { r.stepDone with shadow := new.map (·.2.2), step := r.step + 1, b1t := b1t, b2t := b2t }

/-- A command of the engine hangs: it ends, an RCSTEP with its steps counted as skipped (20 R422). -/
def State.hungRad (s : State) (n : Nat) : State :=
  match (s.rad n).queue with
  | e :: _ => (match e.cmd with
    | .cfg id .. | .pub id | .rd id .. => s.endRad n e id
    | .step k _ => s.modRad n (·.discard k)
    | .ct _ => s.modRad n (·.pop))
  | [] => s

/-- A queued step's deadline has come. -/
def deadlinePassed (now : Nat) (d : Option Nat) : Bool := d.any (· ≤ now)

def execOptimiserStep (slice : Nat) (s : State) : Res :=
  let r := s.rad slice
  match r.queue with
  | e :: _ => match e.cmd with
    | .step k d =>
      if deadlinePassed s.dtime d then .next (s.modRad slice (·.discard k))
      else if !(r.slots.any (·.2.committed)) then .next (s.modRad slice (·.stepDone))
      else match r.config, r.owner with
        | some c, some o => .next ((s.radCheck slice).radStep slice c o k)
        | _, _ => .next (s.modRad slice (·.stepDone))
    | _ => .next s
  | [] => .next s

/-- Queued steps whose deadline has come are discarded with the rest of their RCSTEP (R246). -/
def execStepDeadlineExpiry (slice : Nat) (s : State) : Res :=
  let r := s.rad slice
  let late := fun (e : RadEntry) => match e.cmd with | .step _ d => deadlinePassed s.dtime d | _ => false
  let n := ((r.queue.filter late).map fun e => match e.cmd with | .step k _ => k | _ => 0).sum
  .next (s.modRad slice fun r => Radiance.drain (r.queue.filter (!late ·)) { r with skipped := r.skipped + BitVec.ofNat 32 n })

end Sys2Proof.Machine
end

