-- ==== Sys2Proof/Machine/Gibbs.lean ====
section
/-! DEFINITION. The Gibbs array: majors 0xC8 to 0xCD and the array's steps (07 R249-R255; 17 R357-R369). -/

namespace Sys2Proof.Machine

/-! ### The cell store (R357, R359) -/

/-- Cells of the array. -/
def gibbsCells : Nat := 65536

/-- The cells as an array: a cell that the state does not list is as after reset. -/
def Gibbs.array (g : Gibbs) : Array GCell := g.cells.foldl (fun a kv => a.setIfInBounds kv.1 kv.2) (Array.replicate gibbsCells {})

/-- Cells back as a list of those that differ from the reset value. -/
def Gibbs.setArray (g : Gibbs) (a : Array GCell) : Gibbs :=
  { g with cells := (a.toList.zipIdx.filter (·.1 != {})).map fun ci => (ci.2, ci.1) }

def State.modGibbs (s : State) (n : Nat) (f : Gibbs → Gibbs) : State := s.modSlice n fun x =>
  let g := f x.gibbs
  { x with gibbs := if g.queue.head?.map (·.id) = x.gibbs.queue.head?.map (·.id) then g else { g with since := s.dtime } }

/-- Record a status code (R360). -/
def Gibbs.record (g : Gibbs) (code detail : Nat) : Gibbs :=
  { g with code := code, detail := detail, error := g.error || code == 3 || code == 5 }

/-! ### The update rule (R361, R362) -/

/-- Round a / b to the nearest integer. -/
def nearest (a b : Nat) : Nat := (2 * a + b) / (2 * b)

/-- Θ[k]: 2^32/(1 + e^(-k/32)), rounded, at most 2^32 - 1. -/
def theta (k : Int) : Nat :=
  let e := (expNegS 200 ((k.natAbs : Rat) / 32)).toNat
  min (if k < 0 then nearest (2 ^ 32 * e) (2 ^ 200 + e) else nearest (2 ^ 232) (2 ^ 200 + e)) (2 ^ 32 - 1)

/-- The field of a cell from the spins of its neighbours. -/
def cellField (a : Array GCell) (c : GCell) : Int :=
  c.bias + (c.nbrs.map fun nw => nw.2 * (if (a.getD nw.1 {}).spin then 1 else -1)).sum

/-- k of a cell (R361). -/
def cellK (a : Array GCell) (beta : Nat) (c : GCell) : Int :=
  let t := 2 * cellField a c * (beta : Int)
  max (-1024) (min 1023 (t / 8))

/-- A forced outcome, where the update draws no word. -/
def forced (k : Int) : Option Bool := if k ≥ 1023 then some true else if k ≤ -1024 then some false else none

/-- Cells that a phase updates. -/
def GCell.updates (c : GCell) (colour : Nat) : Bool := c.colour == colour && !c.clamp

/-- A cell with its new spin. -/
def GCell.take (c : GCell) (s : Bool) : GCell := { c with spin := s, count := if s then min (c.count + 1) 65535 else c.count }

/-- The seeded word of an update. -/
def seedWord (seed : DWord) (w c i : Nat) : Nat := (hash seed (BitVec.ofNat 64 (w * 2 ^ 20 + c * 2 ^ 16 + i))).toNat / 2 ^ 32

/-- One colour phase: every cell of the colour takes its new spin from the spins at its start; with the count of entropy words
drawn. -/
def phase (g : Gibbs) (slice c : Nat) (a : Array GCell) : Array GCell × Nat :=
  (List.range gibbsCells).foldl (fun (b : Array GCell × Nat) i =>
    let x := a.getD i {}
    if !x.updates c then b
    else
      let k := cellK a g.beta x
      match forced k with
      | some s => (b.1.setIfInBounds i (x.take s), b.2)
      | none =>
        let u := if g.ent then (Config.entropy slice b.2).toNat else seedWord g.seed g.sweep.toNat c i
        (b.1.setIfInBounds i (x.take (u < theta k)), if g.ent then b.2 + 1 else b.2)) (a, g.drawn)

/-- A phase has an update that needs a word. -/
def phaseDraws (g : Gibbs) (c : Nat) (a : Array GCell) : Bool :=
  (List.range gibbsCells).any fun i => (a.getD i {}).updates c && (forced (cellK a g.beta (a.getD i {}))).isNone

/-- The phases from `c` on, `n` of them. Under physical entropy, the source may fail its test at a phase that draws (`fails`):
that phase and the later ones wait. -/
def phases (g : Gibbs) (slice : Nat) (fails : Nat → Bool) : Nat → Nat → Array GCell → Array GCell × Nat × Option Nat
  | 0, _, a => (a, g.drawn, none)
  | n + 1, c, a =>
    if g.ent && fails c && phaseDraws g c a then (a, g.drawn, some c)
    else
      let r := phase g slice c a
      phases { g with drawn := r.2 } slice fails n (c + 1) r.1

/-! ### Accepting commands (R249, R250, R253-R255) -/

/-- Commands that the queue holds (R249). -/
def gibbsRoom : Nat := 16

def Gibbs.push (g : Gibbs) (id vf cu : Nat) (w : WarpRef) (c : GibbsCmd) : Gibbs :=
  { g with queue := g.queue ++ [{ id := id, cmd := c, vf := vf, cu := cu, issuer := w }] }

/-- Accept a command that does not hold its split. -/
def gibbsWith (i : Instr) (f : View → Mask → Except Trap GibbsCmd) (s : State) : Res :=
  start i s fun v act =>
    if act = 0 then .next (s.done v v.wp)
    else match f v act with
      | .error t => .next (s.takeTrap v t)
      | .ok c =>
        if v.sl.gibbs.queue.length ≥ gibbsRoom then .next s
        else
          let (id, s1) := s.fresh
          .next ((s1.modGibbs v.cur.slice (·.push id v.tm.vf v.tm.cu v.ref c)).doneC v true)

def execGcfg (h : Hdr) (ent : Bool) (a b c : Src) (s : State) : Res :=
  let i := Instr.gcfg h ent a b c
  gibbsWith i (fun v act =>
    let n := leadVal i 1 v act
    if n = 0 ∨ n > 16 then .error (illegal 8)
    else .ok (.cfg (leadVal i 0 v act % 65536) n (valOf i 2 v act (leadLane act)) ent)) s

def execGld (h : Hdr) (a : Src) (s : State) : Res :=
  gibbsWith (.gld h a) (fun v act => .ok (.load (valOf (.gld h a) 0 v act (leadLane act)))) s

def execGclmp (h : Hdr) (a : Src) (s : State) : Res :=
  gibbsWith (.gclmp h a) (fun v act => .ok (.clmp (valOf (.gclmp h a) 0 v act (leadLane act)))) s

def execGswp (h : Hdr) (a : Src) (s : State) : Res :=
  let i := Instr.gswp h a
  start i s fun v act =>
    if act = 0 then .next (s.done v v.wp)
    else if v.sl.gibbs.queue.length ≥ gibbsRoom then .next s
    else
      let (cid, s1) := s.fresh
      let (id, s2) := s1.fresh
      let w := v.wp.launchFlight id 0xCB (h.outRegs 1) act true (.engine none)
      .next ((s2.modGibbs v.cur.slice (·.push cid v.tm.vf v.tm.cu v.ref (.sweep (leadVal i 0 v act) 0 0 (v.ref, id)))).doneC { v with wp := w } true)

def execGrd (h : Hdr) (what : GrdWhat) (a : Src) (s : State) : Res :=
  let i := Instr.grd h what a
  start i s fun v act =>
    if act = 0 then .next (s.done v v.wp)
    else if v.sl.gibbs.queue.length ≥ gibbsRoom then .next s
    else
      let (id, s1) := s.fresh
      let (w, sp) := s.accept v v.wp
      .next ((s1.modGibbs v.cur.slice (·.push id v.tm.vf v.tm.cu v.ref (.read what (valOf i 0 v act (leadLane act)) id))).holdLanes v w sp act (.command id))

/-- The two words of GSTAT (R255, R360). -/
def Gibbs.stat (g : Gibbs) : Word × Word :=
  let st := if g.error then 3 else match g.queue with
    | [] => 0
    | e :: _ => match e.cmd with | .load _ | .clmp _ => 2 | .sweep (_ + 1) .. => 1 | _ => 0
  (g.sweep, BitVec.ofNat 32 (st + 16 * g.queue.length + 65536 * g.code))

def execGstat (h : Hdr) (s : State) : Res :=
  start (.gstat h) s fun v act =>
    if act = 0 then .next (s.done v v.wp)
    else
      let r := v.sl.gibbs.stat
      .next (s.resultC v true h act fun _ => [r.1, r.2])

/-! ### Cell images (R357, R358) -/

def parseCell (b : List Byte) : GCell :=
  let f := fun (o n : Nat) => leNat ((b.drop o).take n)
  let fl := f 2 1
  { spin := nbit fl 0, bias := signedOf 16 (f 0 2), clamp := nbit fl 1, colour := bits fl 4 4,
    nbrs := (List.range (min (f 3 1) 16)).map fun n => (f (4 + 2 * n) 2, signedOf 8 (f (36 + n) 1)) }

/-- The field rules of one cell (row 3 of R358). -/
def cellOk (i : Nat) (b : List Byte) : Bool :=
  let f := fun (o n : Nat) => leNat ((b.drop o).take n)
  let n := f 3 1
  let ids := (List.range (min n 16)).map fun k => f (4 + 2 * k) 2
  n ≤ 16 && bits (f 2 1) 2 2 == 0 && f 52 12 == 0
  && (List.range 16).all (fun k => k < n || (f (4 + 2 * k) 2 == 0 && f (36 + k) 1 == 0))
  && !ids.contains i && ids.eraseDups.length == ids.length

/-- The smaller index of the first pair of neighbours of one colour. -/
def colourClash (a : Array GCell) : Option Nat :=
  ((List.range gibbsCells).filterMap fun i =>
    let x := a.getD i {}
    ((x.nbrs.filter fun nw => (a.getD nw.1 {}).colour == x.colour).map fun nw => min i nw.1).min?).min?

/-- Read `k` chunks of 64 bytes; a poisoned one gives its number. -/
def State.readChunks (s : State) (e : Agent) (a : DWord) : Nat → Nat → State × Except (EngErr × Nat) (List (List Byte))
  | 0, _ => (s, .ok [])
  | k + 1, i => match s.engRead e a 64 with
    | (s1, .error x) => (s1, .error (x, i))
    | (s1, .ok d) => match s1.readChunks e (a + 64) k (i + 1) with
      | (s2, .error x) => (s2, .error x)
      | (s2, .ok r) => (s2, .ok (leBytes 64 d :: r))

/-- Judge the access of an image: faults anywhere come before poison (R358). -/
def State.imageRead (s : State) (e : Agent) (a : DWord) (chunks : Nat) : State × Except (EngErr × Nat) (List (List Byte)) :=
  if a.toNat % 64 ≠ 0 ∨ !isGlobal a then (s, .error (.fault 6 3, 0))
  else match s.engCheck e none 64 false chunks a with
    | (s1, .error x) => (s1, .error (x, 0))
    | (s1, .ok _) => s1.readChunks e a chunks 0

/-! ### The end of commands -/

def GibbsEntry.agent (e : GibbsEntry) (n : Nat) : Agent := { slice := n, team := e.issuer.team, vf := e.vf, cu := e.cu, path := .a, id := e.id }

def Gibbs.pop (g : Gibbs) : Gibbs := { g with queue := g.queue.tail }

/-- The bytes that GRD writes. -/
def Gibbs.image (g : Gibbs) (what : GrdWhat) : List Byte :=
  let a := g.array
  let spins := (List.range (gibbsCells / 8)).map fun k =>
    BitVec.ofNat 8 (((List.range 8).map fun j => if (a.getD (8 * k + j) {}).spin then 2 ^ j else 0).sum)
  let counts := ((List.range gibbsCells).map fun i => leBytes 2 (a.getD i {}).count).flatten
  match what with | .spins => spins | .counts => counts | .both => spins ++ counts

/-- The chunks of 64 bytes of GRD's output that hold a word of a poisoned cell (R369). -/
def Gibbs.badChunks (g : Gibbs) (what : GrdWhat) : List Nat :=
  let bad := (g.cells.filter (·.2.bad)).map (·.1)
  let sp := bad.map (· / 512)
  let ct := bad.map (· / 32)
  (match what with | .spins => sp | .counts => ct | .both => sp ++ ct.map (· + 128)).eraseDups

/-- A load's outcome (R358). -/
def State.gibbsLoad (s : State) (n : Nat) (e : GibbsEntry) (a : DWord) : State :=
  let fin := fun (s : State) (f : Gibbs → Gibbs) => s.modGibbs n fun g => (f g).pop
  match s.imageRead (e.agent n) a gibbsCells with
  | (s1, .error (.wait, _)) => s1
  | (s1, .error (.poison, i)) => fin s1 (·.record 3 i)
  | (s1, .error _) => fin s1 (·.record 2 0)
  | (s1, .ok bs) =>
    match bs.zipIdx.find? fun b => !cellOk b.2 b.1 with
    | some b => fin s1 (·.record 4 b.2)
    | none =>
      let a := (bs.map parseCell).toArray
      match colourClash a with
      | some i => fin s1 (·.record 1 i)
      | none => fin s1 fun g => { g.setArray a with code := 0, detail := 0, error := false }

def State.gibbsClamp (s : State) (n : Nat) (e : GibbsEntry) (a : DWord) : State :=
  let fin := fun (s : State) (f : Gibbs → Gibbs) => s.modGibbs n fun g => (f g).pop
  match s.imageRead (e.agent n) a 128 with
  | (s1, .error (.wait, _)) => s1
  | (s1, .error (.poison, i)) => fin s1 (·.record 3 (512 * i))
  | (s1, .error _) => fin s1 (·.record 2 0)
  | (s1, .ok bs) =>
    let bytes := bs.flatten.toArray
    fin s1 fun g => g.setArray (g.array.toList.zipIdx.map fun ci => { ci.1 with clamp := (bytes.getD (ci.2 / 8) 0).getLsbD (ci.2 % 8) }).toArray

def State.gibbsRead (s : State) (n : Nat) (e : GibbsEntry) (what : GrdWhat) (a : DWord) (id : Nat) : State :=
  let fin := fun (s : State) (f : Gibbs → Gibbs) => (s.modGibbs n fun g => (f g).pop).endCommand e.issuer id
  if a.toNat % 64 ≠ 0 then fin s (·.record 2 0)
  else
    let g := (s.slice n).gibbs
    let b := g.image what
    match s.engImage (e.agent n) a b (g.badChunks what) with
    | (s1, some (.wait, _)) => s1
    | (s1, some _) => fin s1 (·.record 2 0)
    | (s1, none) => fin s1 fun g => g

def execGibbsCommandComplete (slice : Nat) (s : State) : Res :=
  match (s.slice slice).gibbs.queue with
  | [] => .next s
  | e :: _ => match e.cmd with
    | .cfg beta n seed ent =>
      .next (s.modGibbs slice fun g => { g.pop with beta := beta, colours := n, seed := seed, ent := ent, sweep := 0 })
    | .load a => .next (s.gibbsLoad slice e a)
    | .clmp a => .next (s.gibbsClamp slice e a)
    | .read what a id => .next (s.gibbsRead slice e what a id)
    | .sweep .. => .next s

/-! ### Sweeps (R253, R361-R364, R369) -/

/-- End the GSWP at the head with a completion word. -/
def State.endSweep (s : State) (n : Nat) (comp : WarpRef × Nat) (st det : Nat) (f : Gibbs → Gibbs) : State :=
  (s.modGibbs n fun g => (f g).pop).complete n (some comp) st (det % 65536) 0

/-- A cell with an uncorrectable word. -/
def Gibbs.spoil (g : Gibbs) (i : Nat) : Gibbs := { g with cells := kset g.cells i { (kget g.cells i).getD {} with bad := true } }

/-- The store as a check finds it (R369): whether a word has become uncorrectable since the last check, and in which cell, is free. -/
def Gibbs.checked (g : Gibbs) (c : Nat) : Gibbs :=
  if Config.freeBool c then g.spoil ((Config.freeWord (c + 1)).toNat % gibbsCells) else g

/-- One sweep of the GSWP at the head, after the store check, which is done before the sweep and not within it. Under physical
entropy the source may fail its health test: the update waits, and the store keeps what it held before the sweep until the whole sweep is
performed, for none is left half-done (R253). -/
def execGibbsSweep (slice : Nat) (s : State) : Res :=
  let g0 := (s.slice slice).gibbs
  match g0.queue with
  | [] => .next s
  | e :: t => match e.cmd with
    | .sweep left done ph comp =>
      if left = 0 then .next s
      else
        let g := if ph = 0 then g0.checked s.freeCtr else g0
        let s := if ph = 0 then { s with freeCtr := s.freeCtr + 2 } else s
        match (if ph = 0 then ((g.cells.filter (·.2.bad)).map (·.1)).min? else none) with
        | some i => .next (s.endSweep slice comp 6 i fun h => { h with cells := g.cells }.record 3 i)
        | none =>
          let fails := fun c => g.entFailed.isSome || Config.freeBool (s.freeCtr + c)
          let (a, drawn, stop) := phases g slice fails g.colours 0 g.array
          let s1 := if g.ent then { s with freeCtr := s.freeCtr + 16 } else s
          match stop with
          | some c => .next (s1.modGibbs slice fun _ =>
              { g with drawn := drawn, entFailed := g.entFailed <|> some s.dtime, queue := { e with cmd := .sweep left done (c + 1) comp } :: t })
          | none =>
            let q : GibbsEntry := { e with cmd := .sweep (left - 1) (done + 1) 0 comp }
            .next (s1.modGibbs slice fun _ => { g.setArray a with drawn := drawn, sweep := g.sweep + 1, since := s.dtime, queue := q :: t })
    | _ => .next s

def execGswpComplete (slice : Nat) (s : State) : Res :=
  let g := (s.slice slice).gibbs
  match g.queue with
  | { cmd := .sweep 0 _ _ comp, .. } :: _ => .next (s.endSweep slice comp 0 g.sweep.toNat fun g => g)
  | _ => .next s

/-- After 1 ms of failure the GSWP whose update waits ends; the source's failure is over only when it recovers. -/
def execEntropyFailureTimeout (slice : Nat) (s : State) : Res :=
  let g := (s.slice slice).gibbs
  match g.entFailed, g.queue with
  | some since, { cmd := .sweep _ done ph comp, .. } :: _ =>
    if ph ≠ 0 && s.dtime ≥ since + 1000000 then .next (s.endSweep slice comp 4 done (·.record 6 0)) else .next s
  | _, _ => .next s

/-- The source passes its test again. -/
def execEntropySourceRecovery (slice : Nat) (s : State) : Res := .next (s.modGibbs slice fun g => { g with entFailed := none })

/-! ### Revocation (R368) -/

/-- A sweep is under way: its update waits on the entropy source. A revocation lets it complete first. -/
def Gibbs.sweeping (g : Gibbs) : Bool := match g.queue with
  | { cmd := .sweep _ _ (_ + 1) _, .. } :: _ => true
  | _ => false

/-- End the queued GSWPs with ST 4, discard the other commands, and clear the array with code 5. -/
def State.revokeGibbs (s : State) (n : Nat) : State :=
  let q := (s.slice n).gibbs.queue
  let s1 := q.foldl (fun s e => match e.cmd with
    | .sweep _ done _ comp => s.complete n (some comp) 4 (done % 65536) 0
    | .read _ _ id => s.endCommand e.issuer id
    | _ => s) s
  s1.modGibbs n fun g => ({ drawn := g.drawn, entFailed := g.entFailed } : Gibbs).record 5 0

end Sys2Proof.Machine
end

