-- ==== Sys2Proof/Machine/Leases.lean ====
section
/-! DEFINITION. Leases of matrix engines (18 R370-R375; 20 R421, R424). A lent engine is marked from the grant on: its lender
starts no task on it, and it passes once the lender's task on it has ended. -/

namespace Sys2Proof.Machine

def leaseCount : Nat := 32

def State.lease (s : State) (k : Nat) : Lease := (kget s.leases k).getD {}
def State.setLease (s : State) (k : Nat) (l : Lease) : State := { s with leases := kset s.leases k l }

/-- STATE is 1, 2 or 3. -/
def Lease.live (l : Lease) : Bool := l.st == 1 || l.st == 2 || l.st == 3

/-- Engines of the entry, as numbers. -/
def Lease.engList (l : Lease) : List Nat := (List.range 6).filter l.engs.getLsbD

/-- Mark an engine of a slice as lent, or as its owner's. -/
def State.lend (s : State) (m e : Nat) (to_ : Option Nat) : State :=
  s.modSlice m fun x => { x with engines := kset x.engines e { (kget x.engines e).getD {} with lent := to_ } }

/-- Engines of the entry on which no task runs. -/
def State.idleEngs (s : State) (l : Lease) : BitVec 6 :=
  l.engList.foldl (fun a e => if s.engineBusy l.lender e then a else a ||| BitVec.ofNat 6 (2 ^ e)) 0

/-- A slice number names a logical slice in service. -/
def State.inService (s : State) (n : Nat) : Bool := (s.slice n).lsl == n && (s.slice n).st == 1

/-- A grant is rejected (R371). -/
def State.leaseBad (s : State) (k : Nat) (l : Lease) : Bool :=
  l.lender == l.borrower || l.engs == 0 || l.meter == 0 || l.expiry ≤ s.dtime || !s.inService l.lender || !s.inService l.borrower
  || s.leases.any fun o => o.1 != k && o.2.live && o.2.lender == l.lender && (o.2.engs &&& l.engs) != 0

/-- A GO write grants the lease or rejects it; in STATE 1, 2 and 3 it does nothing. -/
def State.grant (s : State) (k : Nat) : State :=
  let l := s.lease k
  if k ≥ leaseCount || l.live then s
  else if s.leaseBad k l then s.setLease k { l with st := 4, cause := 6 }
  else
    let s1 := l.engList.foldl (fun s e => s.lend l.lender e (some k)) s
    s1.setLease k { l with budget := l.meter, cause := 0, st := 1, passed := s.idleEngs l }

def execLeaseGo (entry : Nat) (s : State) : Res := .next (s.grant entry)

/-- Engines pass as the lender's tasks on them end; once all have, the lease is active. -/
def execLeaseEnginesPassed (entry : Nat) (s : State) : Res :=
  let l := s.lease entry
  if l.st ≠ 1 then .next s
  else
    let p := l.passed ||| s.idleEngs l
    .next (s.setLease entry { l with passed := p, st := if p = l.engs then 2 else 1 })

/-- The borrower's tasks on engines of an entry. -/
def Slice.leaseTasks (x : Slice) (k : Nat) : List Task :=
  x.tasks.filter fun t => match t.eng with | some r => r.lease == some k | none => false

/-- Charge a lease up to now (R374). -/
def State.chargeLease (s : State) (k : Nat) : State :=
  let n := (s.lease k).borrower
  ((s.slice n).leaseTasks k).foldl (fun s t => s.chargeTask n t) s

/-- Events of one clock record the cause that comes first in the order 4, 5, 3, 1, 2 (R375): what else stands against the lease when
an event starts its revocation counts with it. -/
def State.firstCause (s : State) (l : Lease) (cause : Nat) : Nat :=
  let b := s.slice l.borrower
  let also : List (Nat × Bool) :=
    [(4, !b.errDue.isEmpty), (5, b.resetDue), (3, (s.slice l.lender).resetDue), (1, l.st == 2 && l.meter == 0), (2, l.expiry ≤ s.dtime)]
  ([4, 5, 3, 1, 2].find? fun c => c == cause || also.contains (c, true)).getD cause

/-- Revocation begins, if it has not (R375). -/
def State.revoke (s : State) (k cause : Nat) : State :=
  let s1 := s.chargeLease k
  let l := s1.lease k
  if l.st = 1 ∨ l.st = 2 then s1.setLease k { l with st := 3, cause := s1.firstCause l cause } else s

/-- Begin the revocation of every lease that satisfies a test. -/
def State.revokeAll (s : State) (cause : Nat) (test : Lease → Bool) : State :=
  (s.leases.filter fun l => test l.2).foldl (fun s l => s.revoke l.1 cause) s

def execLeaseReclaim (entry : Nat) (s : State) : Res := .next (s.revoke entry 3)

def execMeterEmpty (entry : Nat) (s : State) : Res :=
  let s1 := if (s.lease entry).meter = 0 then s else s.chargeLease entry
  let l := s1.lease entry
  if l.st = 2 ∧ l.meter = 0 then .next (s1.revoke entry 1) else .next s1

def execLeaseExpiry (entry : Nat) (s : State) : Res :=
  if (s.lease entry).expiry ≤ s.dtime then .next (s.revoke entry 2) else .next s

/-- A write of a lease field, ignored in STATE 1, 2 and 3 (R371). -/
def Lease.write (l : Lease) (field : LeaseField) (v : Nat) : Lease :=
  if l.live then l
  else match field with
    | .lender => { l with lender := v % 16 }
    | .borrower => { l with borrower := v % 16 }
    | .engs => { l with engs := BitVec.ofNat 6 v }
    | .meter => { l with meter := v % 2 ^ 64 }
    | .expiry => { l with expiry := v % 2 ^ 64 }

def execLeaseFieldWrite (entry : Nat) (field : LeaseField) (value : DWord) (s : State) : Res :=
  if entry ≥ leaseCount then .next s else .next (s.setLease entry ((s.lease entry).write field value.toNat))

/-- A lease entry as it reads. -/
def Lease.word (l : Lease) : Nat :=
  l.lender + l.borrower * 2 ^ 4 + l.engs.toNat * 2 ^ 8 + l.st * 2 ^ 16 + l.cause * 2 ^ 20 + l.meter * 2 ^ 64 + l.expiry * 2 ^ 128 + l.budget * 2 ^ 192

/-! ### What revocation does (R375, R421) -/

/-- The poison of a register whose producer, a TSUB's task, a revocation cancels (01 R27; 19 R378). -/
def revokedPoison : Poison := { cause := 3, code := 5, major := 0xA3, kind := 0 }

/-- Discard a task of a borrower that is being reset: its completion register is poisoned (01 R27). -/
def State.dropTask (s : State) (n : Nat) (t : Task) : State :=
  let s1 := s.modSlice n fun x => { x with tasks := x.tasks.filter (·.id != t.id) }
  match t.comp with
  | some (r, id) => s1.modAnyWarp r (·.failFlight id revokedPoison)
  | none => s1

/-- A task that has not reached a K-block boundary since it started runs on to its first one. DEDUCED (log 78): one block is the shortest
run, so a task of one block has passed its last boundary when it stops, and drains (18, The run). -/
def State.toBoundary (s : State) (n : Nat) (t : Task) : State := if t.kdone = 0 then s.kBlock n t else s

/-- One task of a lent engine: past its last K-block boundary it drains; one that met poison ends with ST 6, one that ended for
another reason with its own status; one of a borrower that is being reset is discarded; any other becomes a resumable record at its
next K-block boundary. A replayable fault on the way leaves it where it is. -/
def State.revokeTask (s : State) (n : Nat) (t : Task) : State :=
  let reset := (s.slice n).resetDue || (s.slice n).st == 3
  let s0 := s.chargeTask n t
  let s1 := if reset || t.failed.isSome then s0 else s0.toBoundary n t
  match (s1.slice n).tasks.find? (·.id == t.id) with
  | none => s1
  | some t =>
    match t.failed with
    | some (st, det) => if reset then s1.dropTask n t else s1.endTask n t st det t.fl
    | none =>
      if t.past then
        let s2 := s1.drainTask n t
        match (s2.slice n).tasks.find? fun u => u.id == t.id && u.failed.isSome with
        | some u => s2.endTask n u ((u.failed.map (·.1)).getD 0) ((u.failed.map (·.2)).getD 0) u.fl
        | none => s2
      else if reset then s1.dropTask n t
      else if t.cancelled then s1.endTask n t 4 (taskSig t.words) t.fl
      else if t.kdone = 0 then s1
      else s1.stopTask n t

/-- A warp restarts where it is (01 R34): producers that are not commit-class are cancelled, hit tables go back to their recorded counts,
and every split goes on from its region entries. Nothing is saved, so registers keep their words. -/
def Warp.restartHere (w : Warp) : Warp :=
  let w1 := ((w.flights.filter (!·.commit)).reverse).foldl Warp.cancelFlight w
  let counts := w1.hits.map fun (h : LaneHits) => { h with k := h.recorded }
  (({ w1 with flights := w1.flights.filter (·.commit), hits := counts } : Warp).mapSplits Split.stop).unfold

/-- Revocation of a lease that carries a warp's work restarts the warp, and clears its watch entries (01 R34; 09 R283). -/
def State.restartWarp (s : State) (r : WarpRef) : State :=
  match s.warp r with
  | none => s
  | some w =>
    if w.ended then s
    else
      let s1 := { s with watches := s.watches.filter (·.warp != r) }
      s1.modTeam r.slice r.team fun t => t.modWarp r.warp fun w => Warp.settle (s.markedFor r.slice t) w.restartHere

/-- A warp whose work a lease carries stands in an open bound run: it stops only when the run has ended (R384). -/
def State.runOpen (s : State) (t : Task) : Bool := match s.warp t.issuer with | some w => w.inRun | none => false

/-- Revocation: the tasks are dealt with and the warps that issued them restart, the tile registers of the engines that had passed are zeroed, and the engines return. -/
def State.revocation (s : State) (k : Nat) : State :=
  let l := s.lease k
  if l.st ≠ 3 then s
  else
    let ts := (s.slice l.borrower).leaseTasks k
    if ts.any s.runOpen then s else
    let s0 := ts.foldl (fun s t => s.revokeTask l.borrower t) s
    let left := (s0.slice l.borrower).leaseTasks k
    let s1 := (((ts.filter fun t => !left.any (·.id == t.id)).map (·.issuer)).eraseDups).foldl State.restartWarp s0
    if !left.isEmpty then s1
    else
      let s2 := l.engList.foldl (fun s e =>
        let s := s.lend l.lender e none
        if l.passed.getLsbD e then s.modSlice l.lender fun x => { x with engines := kset x.engines e {} } else s) s1
      s2.setLease k { s2.lease k with st := 4, passed := 0 }

def execLeaseRevocation (entry : Nat) (s : State) : Res := .next (s.revocation entry)

end Sys2Proof.Machine
end

