-- ==== Sys2Proof/Machine/Rendering.lean ====
section
/-! DEFINITION. The rendering pipeline (13 R316-R326, R338, R339; 12 R315): binning, tiles, visibility, write-out, and the
announcement of tiles. Entries and pixels of a tile are kept by their place 64·y + x. -/

namespace Sys2Proof.Machine

/-! ### Accesses of the render (R324: path G) -/

def Render.agent (r : Render) (n : Nat) : Agent := { slice := n, team := noTeam, vf := r.vf, cu := 0xFFFF, path := .g, id := 2 ^ 41 + n }

/-- The largest step that keeps accesses of a range aligned. -/
def chunkFor (a len : Nat) : Nat := if a % 128 = 0 ∧ len % 128 = 0 then 128 else if a % 4 = 0 ∧ len % 4 = 0 then 4 else 1

def State.rangeRead (s : State) (e : Agent) (a len : Nat) : State × Except EngErr (List Byte) :=
  if a ≥ 2 ^ 48 then (s, .error (.fault 6 3)) else s.engBytes e (BitVec.ofNat 64 a) (chunkFor a len) (len / chunkFor a len)

def State.rangeWrite (s : State) (e : Agent) (a : Nat) (b : List Byte) : State × Except EngErr Unit :=
  if a ≥ 2 ^ 48 then (s, .error (.fault 6 3))
  else s.engPut e none (chunkFor a b.length) (b.length / chunkFor a b.length) (BitVec.ofNat 64 a) b

/-- The code with which an access that fails ends the render (20 R412). -/
def renderCode : EngErr → Nat | .poison => 6 | _ => 5

def Render.fail (r : Render) (code : Nat) : Render := if r.code = 0 then { r with code := code } else r

/-! ### Binning (R317, R318) -/

/-- What binning a primitive does. -/
inductive Binned where
  | drop
  | pass
  | full
  | bin (p : Prim) (cost : Nat)

/-- The least and greatest of three numbers. -/
def min3 (a b c : Rat) : Rat := min a (min b c)
def max3 (a b c : Rat) : Rat := max a (max b c)

/-- Tiles along one axis that a closed interval touches. -/
def tilesAlong (lo hi : Rat) (origin count : Nat) : List Nat :=
  (List.range count).filter fun t => ((origin + 64 * t : Nat) : Rat) ≤ hi && lo < ((origin + 64 * t + 64 : Nat) : Rat)

/-- Bin one primitive from its three vertex records and its own. -/
def Render.binPrim (r : Render) (vs : List (List Word)) (rec_ : List Word) (nv : Nat) : Binned :=
  let c := fun k => (vs.map fun v => v.getD (k + 1) 0)
  let fin := fun (l : List Word) => l.all fun w => (finT w).isSome
  let ws := c 3
  if rec_.getD 2 0 = 0xFFFFFFFF || !fin (c 0) || !fin (c 1) || !fin (c 2) || !fin ws || ws.any (fun w => Prim.coord [w] 0 ≤ 0) then .drop
  else
    let dv := fun k => (vs.map fun v => fdivT (v.getD (k + 1) 0) (v.getD 4 0))
    let xs := (dv 0).map fun q => ffmaT q r.vxs r.vxo
    let ys := (dv 1).map fun q => ffmaT q r.vys r.vyo
    let zs := dv 2
    if !fin xs || !fin ys || !fin zs then .drop
    else
      let p : Prim := { xs := xs, ys := ys, zs := zs, ws := ws, order := rec_.getD 2 0, ref := r.nextRef, tiles := [] }
      if p.area = 0 then .pass
      else
        let x := Prim.coord xs
        let y := Prim.coord ys
        let tx := tilesAlong (min3 (x 0) (x 1) (x 2)) (max3 (x 0) (x 1) (x 2)) r.x0 r.tileCols
        let ty := tilesAlong (min3 (y 0) (y 1) (y 2)) (max3 (y 0) (y 1) (y 2)) r.y0 r.tileRows
        let ts := (ty.map fun j => tx.map fun i => j * r.tileCols + i).flatten
        if ts.isEmpty then .pass
        else
          let cost := (64 + 4 * (3 * nv + (rec_.length - 3)) + 63) / 64 * 64 + 8 * ts.length
          if cost > r.binSize then .drop
          else if r.binUsed + cost > r.binSize then .full
          else .bin { p with tiles := ts } cost

/-- Bytes of bin memory change as the unit pleases: from now on they are free, as its layout is not specified. -/
def State.blur (s : State) (key len : Nat) : State :=
  let m := s.mem
  { s with mem := { m with cells := m.cells.filter (fun c => !(key ≤ c.1 && c.1 < key + len)), hazy := { base := key, len := len, seed := s.nextId } :: m.hazy },
           nextId := s.nextId + 1 }

/-- Write a range of bin memory, page by page (with fuel); a failure ends the render. -/
def State.binWrite (s : State) (e : Agent) : Nat → Nat → Nat → State × Except EngErr Unit
  | 0, _, _ => (s, .ok ())
  | k + 1, a, len =>
    if len = 0 then (s, .ok ())
    else
      let here := min len (4096 - a % 4096)
      match (if a < 2 ^ 48 then s.engLoc e none (BitVec.ofNat 64 a) 1 true else (s, .error (.fault 6 3))) with
      | (s1, .error x) => (s1, .error x)
      | (s1, .ok (.glob pa _)) => match s1.phys pa true with
        | .mem key => (s1.blur key here).binWrite e k (a + here) (len - here)
        | .nowhere => s1.binWrite e k (a + here) (len - here)
      | (s1, .ok _) => (s1, .error (.fault 6 0))

/-- Read a range of bin memory, page by page (with fuel): a fault, or poison, ends the render. -/
def State.binRead (s : State) (e : Agent) : Nat → Nat → Nat → State × Except EngErr Unit
  | 0, _, _ => (s, .ok ())
  | k + 1, a, len =>
    if len = 0 then (s, .ok ())
    else
      let here := min len (4096 - a % 4096)
      match (if a < 2 ^ 48 then s.engLoc e none (BitVec.ofNat 64 a) 1 false else (s, .error (.fault 6 3))) with
      | (s1, .error x) => (s1, .error x)
      | (s1, .ok (.glob pa _)) => match s1.phys pa false with
        | .mem key => if s1.mem.poison.any fun l => key < 128 * l + 128 && 128 * l < key + here then (s1, .error .poison)
            else s1.binRead e k (a + here) (len - here)
        | .nowhere => (s1.noteAccess e.slice pa false, .error .poison)
      | (s1, .ok _) => (s1, .error (.fault 6 0))

/-- A slot's primitives from an index on. -/
inductive SlotEnd where
  | wait (idx : Nat)
  | done
  | full (idx : Nat)
  | fail (code : Nat)

/-- A tile by its number, made when it first holds a primitive. -/
def Render.touch (r : Render) (t : Nat) : Render :=
  if r.tiles.any (·.num == t) then r else { r with tiles := isort (fun a b => a.num ≤ b.num) ({ num := t } :: r.tiles) }

/-- Bin the primitives of a slot in ascending index, with fuel. -/
def State.binSlot (s : State) (n : Nat) (p : Payload) (top : Nat) : Nat → Nat → State × SlotEnd
  | 0, _ => (s, .done)
  | k + 1, i =>
    match (s.slice n).render with
    | none => (s, .done)
    | some r =>
      if i > top then (s, .done)
      else match kget p.prims i with
        | none => s.binSlot n p top k (i + 1)
        | some rec_ =>
          let vs := (List.range 3).map fun j => kget p.vtx (bits (rec_.getD 1 0).toNat (8 * j) 8)
          if vs.any (·.isNone) then (s.modSlice n (·.ringErrors 1)).binSlot n p top k (i + 1)
          else match r.binPrim (vs.map (·.getD [])) rec_ (p.nv.getD 0) with
            | .drop => (s.modSlice n fun x => { x with render := some { r with counters := lmod (· + 1) r.counters 1 } }).binSlot n p top k (i + 1)
            | .pass => s.binSlot n p top k (i + 1)
            | .full => (s, .full i)
            | .bin q cost =>
              match s.binWrite (r.agent n) (cost / 4096 + 2) (r.binBase + r.binUsed) cost with
              | (s1, .error .wait) => (s1, .wait i)
              | (s1, .error e) => (s1, .fail (renderCode e))
              | (s1, .ok _) =>
                let r1 := q.tiles.foldl Render.touch { r with prims := r.prims ++ [q], binUsed := r.binUsed + cost, nextRef := r.nextRef + 1 }
                (s1.modSlice n fun x => { x with render := some r1 }).binSlot n p top k (i + 1)

/-! ### The course of a batch (R318, R322; 19 R392) -/

/-- Tiles of the batch that has ended. -/
def Render.endBatch (r : Render) (last : Bool) : Render :=
  let holds := fun (t : Nat) => r.prims.any (·.tiles.contains t)
  { r with lastBatch := last, partialRun := !last,
           tiles := r.tiles.map fun t => if holds t.num || (last && t.before) then { t with due := true } else t }

def RTile.active (t : RTile) : Bool := t.st != .idle && t.st != .done

/-- Due tiles begin loading, at most eight at a time. -/
def Render.feed : Nat → Render → Render
  | 0, r => r
  | k + 1, r =>
    if (r.tiles.filter (·.active)).length ≥ 8 then r
    else match r.tiles.find? fun t => t.due && t.st == .idle with
      | none => r
      | some t => Render.feed k { r with tiles := r.tiles.map fun u => if u.num = t.num then { u with st := .loading } else u }

/-- A killed warp or an error of the render's own areas ends it as a kill does (R324, R326). -/
def Slice.renderDead (x : Slice) (r : Render) : Bool :=
  r.ended || r.code == 3 || r.code == 4 ||
    x.launches.any fun y => (match y.kind with | .geometry | .shading => y.queue == r.queue | _ => false) && (y.code == 3 || y.code == 4)

/-- A slot that is free again; its generation goes on. -/
def Payload.emptied (p : Payload) : Payload := { p with state := .free, vtx := [], prims := [], nv := none }

/-- The submitted slot to read next: its CU, its number, and the first index. -/
def Slice.nextSlot (x : Slice) : Option (Nat × Nat × Nat) :=
  ((isort (fun (a b : Nat × Payload) => a.2.order ≤ b.2.order) (x.payloads.filter fun p => p.2.state == SlotState.draining)).head?).map
    fun p => (p.1 / 4, p.1 % 4, 0)

/-- The warps of a render's teams, resident or saved. -/
def Slice.renderTeams (x : Slice) (r : Render) : List Team := (x.teams ++ x.saved).filter fun t => t.queue == r.queue && t.kind != .plain

def Slice.renderWarps (x : Slice) (n : Nat) (r : Render) : List WarpRef :=
  ((x.renderTeams r).map fun (t : Team) => (List.range t.warps.length).map fun k => ({ slice := n, team := t.id, warp := k } : WarpRef)).flatten

/-- End the render: its packet completes with its status word and counters; the encoder lane's frame is closed, damaged when the
render was killed. Teams not placed yet are not placed. A render that is killed ends its warps, once no bound run is open. -/
def State.endRender (s0 : State) (n : Nat) : State :=
  let kills := match (s0.slice n).render with
    | some r => (s0.slice n).renderDead r
    | none => false
  let mine := match (s0.slice n).render with
    | some r => (s0.slice n).renderTeams r
    | none => []
  if kills && mine.any (·.inRun) then s0 else
  let s := if kills then (match (s0.slice n).render with
      | some r => ((s0.slice n).renderWarps n r).foldl (fun (s : State) w => s.endWarp w 0) s0
      | none => s0) else s0
  match (s.slice n).render with
  | none => s
  | some r =>
    let x := s.slice n
    let isR := fun (y : Launch) => match y.kind with | .geometry | .shading => y.queue == r.queue | _ => false
    let code := x.launches.foldl (fun c y => if isR y && c = 0 then y.code else c) r.code
    let fl := x.launches.foldl (fun f y => if isR y then f ||| y.fl else f) r.fl
    let dead := kills
    s.modSlice n fun x =>
      let x1 := x.endPkt r.queue r.pkt (statusWord code fl) (r.counters.map (·.toNat))
      ({ x1 with
          render := none
          payloads := x1.payloads.map (fun (p : Nat × Payload) => (p.1, p.2.emptied))
          launches := x1.launches.map (fun y => if isR y then { y with total := y.placed } else y)
          encoder := { x1.encoder with frames := x1.encoder.frames.map fun (f : EncFrame) =>
            if f.queue = r.queue ∧ f.pkt = r.pkt then { f with closed := true, damaged := dead } else f } }).endLaunches

/-- Put the render back, and let it go on: it ends when it is dead, or when its last tile is done. -/
def State.putRender (s : State) (n : Nat) (r : Render) : State :=
  let r1 := r.feed 8
  let s1 := s.modSlice n fun x => { x with render := some r1 }
  if (s1.slice n).renderDead r1 then s1.endRender n
  else if r1.lastBatch && r1.tiles.all (fun t => !t.due && !t.active) then s1.endRender n
  else s1

/-- No geometry team is left, and every submitted slot has been read. -/
def Slice.geometryOver (x : Slice) (r : Render) : Bool :=
  !x.launches.any (·.id == r.geoLaunch) && x.payloads.all (fun p => p.2.state != .draining) && r.reading.isNone

/-- The binning unit reads a submitted slot and bins its primitives; with none left and every geometry team ended, the last batch
ends. -/
def execBinningSlotRead (slice : Nat) (s : State) : Res :=
  let x := s.slice slice
  match x.render with
  | none => .next s
  | some r =>
    if x.renderDead r then .next (s.endRender slice)
    else if r.partialRun || r.lastBatch then .next s
    else
      match r.reading <|> x.nextSlot with
      | none => if x.geometryOver r then .next (s.putRender slice (r.endBatch true)) else .next s
      | some (cu, k, i) =>
        let p := x.payload cu k
        let top := maxOf (p.prims.map (·.1))
        match s.binSlot slice p top 257 i with
        | (s1, .wait j) => .next (s1.modSlice slice fun x => { x with render := x.render.map fun (r : Render) => { r with reading := some (cu, k, j) } })
        | (s1, .fail code) =>
          .next ((s1.modSlice slice fun x => { x with render := x.render.map fun (r : Render) => { (r.fail code) with ended := true } }).endRender slice)
        | (s1, .done) => .next (s1.modSlice slice fun x =>
            let y := x.setPayload cu k p.emptied
            { y with render := y.render.map fun (r : Render) => { r with reading := none } })
        | (s1, .full j) => .next (s1.modSlice slice fun x =>
            { x with render := x.render.map fun (r : Render) => (({ r with reading := some (cu, k, j) }).endBatch false).feed 8 })

/-- Every tile of a partial render has passed through its states: bin memory is emptied and binning resumes. -/
def execPartialRender (slice : Nat) (s : State) : Res :=
  match (s.slice slice).render with
  | none => .next s
  | some r =>
    if !r.partialRun || r.tiles.any (fun t => t.due || t.active) then .next s
    else .next (s.modSlice slice fun x => { x with render := some { r with
      partialRun := false, prims := [], binUsed := 0, batch := r.batch + 1, counters := lmod (· + 1) r.counters 2 } })

/-! ### Loading (R322, R324, R330) -/

/-- Byte offset of the 8×8 block of the surface that holds a pixel. -/
def surfOff (surfW x y : Nat) : Nat :=
  ((y / 128) * ((surfW + 127) / 128) + x / 128) * 65536 + 256 * (y % 128 / 8 * 16 + x % 128 / 8)

/-- What the load of a block gives: its 64 pixels in block index order, a code, and whether its mode byte was invalid. -/
inductive Block where
  | wait
  | px (l : List Word) (code : Nat) (invalid : Bool)

/-- Load one block of a surface (R324). -/
def State.loadBlock (s : State) (e : Agent) (surface meta_ : Nat) (compressed : Bool) (clear : Word) (o : Nat) : State × Block :=
  let zero := List.replicate 64 (0 : Word)
  let bad := fun (s : State) (x : EngErr) => match x with
    | .wait => (s, Block.wait)
    | x => (s, Block.px zero (renderCode x) false)
  let raw := fun (s : State) (len : Nat) (f : List Byte → List Byte) => match s.rangeRead e (surface + o) len with
    | (s1, .error x) => bad s1 x
    | (s1, .ok b) => (s1, Block.px (wordsOfBytes (f b) 64) 0 false)
  if !compressed then raw s 256 id
  else match s.rangeRead e (meta_ + o / 256) 1 with
    | (s1, .error x) => bad s1 x
    | (s1, .ok m) =>
      let mode := byteAt m 0
      if mode = 0 then raw s1 256 id
      else if mode = 0xFF then (s1, .px (List.replicate 64 clear) 0 false)
      else if validMode mode then raw s1 ((packedSize mode + 3) / 4 * 4) (deltaDecode mode)
      else (s1, .px zero 0 true)

/-- Columns and rows of pixels of a tile that lie within the render area. -/
def Render.extent (r : Render) (t : Nat) : Nat × Nat := (min 64 (r.width - 64 * (t % r.tileCols)), min 64 (r.height - 64 * (t / r.tileCols)))
/-- The surface coordinates of a tile's first pixel. -/
def Render.corner (r : Render) (t : Nat) : Nat × Nat := (r.x0 + 64 * (t % r.tileCols), r.y0 + 64 * (t / r.tileCols))

/-- Blocks of a tile within the render area. -/
def Render.blocks (r : Render) (t : Nat) : List Nat :=
  let (w, h) := r.extent t
  (List.range 64).filter fun b => b % 8 * 8 < w && b / 8 * 8 < h

/-- Load blocks: the pixels of each, the first code, and the invalid mode bytes met; none while an access waits. -/
def State.loadBlocks (s : State) (e : Agent) (surface meta_ : Nat) (compressed : Bool) (clear : Word) (off : Nat → Nat) :
    List Nat → State × Option (List (Nat × List Word) × Nat × Nat)
  | [] => (s, some ([], 0, 0))
  | b :: t => match s.loadBlock e surface meta_ compressed clear (off b) with
    | (s1, .wait) => (s1, none)
    | (s1, .px l c inv) => match s1.loadBlocks e surface meta_ compressed clear off t with
      | (s2, none) => (s2, none)
      | (s2, some (ls, c2, k)) => (s2, some ((b, l) :: ls, if c = 0 then c2 else c, k + (if inv then 1 else 0)))

/-- The pixels of a tile from its blocks. -/
def tilePixels (bs : List (Nat × List Word)) : List Word :=
  (List.range 4096).map fun i =>
    let x := i % 64
    let y := i / 64
    ((kget bs (y / 8 * 8 + x / 8)).getD []).getD (blockIndex 3 (x % 8) (y % 8)) 0

/-- The pixels of a block of a tile, in block index order. -/
def blockOfTile (px : List Word) (b : Nat) : List Word := (List.range 64).map fun m => let (x, y) := blockPixel b m; px.getD (64 * y + x) 0

def Render.surfBlock (r : Render) (t b : Nat) : Nat :=
  let (x, y) := r.corner t
  surfOff r.surfW (x + b % 8 * 8) (y + b / 8 * 8)

/-- An identifier entry as its 16 bytes, and back (R316). -/
def idBytes (e : IdEnt) : List Byte := leBytes 4 e.depth.toNat ++ leBytes 4 e.order.toNat ++ leBytes 4 e.ref.toNat ++ leBytes 4 0
def idOf (b : List Byte) (k : Nat) : IdEnt :=
  { depth := BitVec.ofNat 32 (fieldAt b (16 * k) 4), order := BitVec.ofNat 32 (fieldAt b (16 * k + 4) 4), ref := BitVec.ofNat 32 (fieldAt b (16 * k + 8) 4) }

def Render.setTile (r : Render) (t : RTile) : Render := { r with tiles := r.tiles.map fun u => if u.num = t.num then t else u }

/-- The state of a tile, where it is in a given one. -/
def Slice.tileIn (x : Slice) (t : Nat) (st : TileSt) : Option (Render × RTile) :=
  match x.render with
  | none => none
  | some r => (r.tiles.find? fun u => u.num == t && u.st == st).map fun u => (r, u)

/-- End the render as a kill does, with a code of its own areas. -/
def State.abortRender (s : State) (n : Nat) (r : Render) (code : Nat) : State := s.putRender n { (r.fail code) with ended := true }

def execTileLoadComplete (slice tile : Nat) (s : State) : Res :=
  match (s.slice slice).tileIn tile .loading with
  | none => .next s
  | some (r, u) =>
    let e := r.agent slice
    if (s.slice slice).renderDead r then .next (s.endRender slice)
    else if u.before then
      match s.rangeRead e (r.tileArea + 81920 * tile) 81920 with
      | (s1, .error .wait) => .next s1
      | (s1, .error x) => .next (s1.abortRender slice r (renderCode x))
      | (s1, .ok b) =>
        let ids := (List.range 4096).map fun k => idOf b k
        .next (s1.putRender slice (r.setTile { u with st := .resolving, ids := ids, px := wordsOfBytes (b.drop 65536) 4096 }))
    else
      match s.loadBlocks e r.surface r.meta_ r.compressed r.clear (r.surfBlock tile) (r.blocks tile) with
      | (s1, none) => .next s1
      | (s1, some (bs, code, inv)) =>
        let ent : IdEnt := { depth := r.clearDepth, order := 0xFFFFFFFF, ref := 0xFFFFFFFF }
        let r1 := if code = 0 then r else r.fail code
        let r2 := { r1 with counters := lmod (· + BitVec.ofNat 32 inv) r1.counters 3 }
        .next (s1.putRender slice (r2.setTile { u with st := .resolving, ids := List.replicate 4096 ent, px := tilePixels bs }))

/-! ### Visibility (R320, R321, R323) -/

/-- An edge from `a` to `b` with `c` opposite is a top or a left edge. -/
def topLeft (xa ya xb yb xc yc : Rat) : Bool :=
  if ya = yb then yc > ya else xc > xa + (xb - xa) * (yc - ya) / (yb - ya)

/-- The weights of a sample, where the primitive covers it. -/
def Prim.covers (p : Prim) (px py : Rat) : Option (List Rat) :=
  let x := Prim.coord p.xs
  let y := Prim.coord p.ys
  let w := (p.bary px py).w
  let ok := fun (k a b : Nat) =>
    let l := w.getD k 0
    l > 0 || (l = 0 && topLeft (x a) (y a) (x b) (y b) (x k) (y k))
  if ok 0 1 2 && ok 1 2 0 && ok 2 0 1 then some w else none

/-- Resolve one sample of a primitive against an entry (R323). -/
def Prim.resolve (p : Prim) (px py : Rat) (e : IdEnt) : IdEnt :=
  match p.covers px py with
  | none => e
  | some w =>
    let z := (List.range 3).foldl (fun a k => a + w.getD k 0 * Prim.coord p.zs k) 0
    if z < 0 || z > 1 then e
    else
      let d := toF32 z
      if ltT d e.depth || (!ltT e.depth d && p.order.toNat < e.order.toNat) then { depth := d, order := p.order, ref := BitVec.ofNat 32 p.ref, set := true }
      else e

/-- The entries of a tile after every primitive of it in the batch. -/
def Render.resolveTile (r : Render) (u : RTile) : List IdEnt :=
  let ps := r.prims.filter (·.tiles.contains u.num)
  let (x0, y0) := r.corner u.num
  let (w, h) := r.extent u.num
  u.ids.mapIdx fun i e =>
    if i % 64 < w && i / 64 < h then
      ps.foldl (fun e p => p.resolve (((x0 + i % 64 : Nat) : Rat) + 1 / 2) (((y0 + i / 64 : Nat) : Rat) + 1 / 2) e) e
    else e

/-- Visibility becomes final: one team of the shading kernel for each block that holds a set entry. -/
def execTileResolveComplete (slice tile : Nat) (s : State) : Res :=
  match (s.slice slice).tileIn tile .resolving with
  | none => .next s
  | some (r, u) =>
    let e := r.agent slice
    if (s.slice slice).renderDead r then .next (s.endRender slice)
    else match s.binRead e (r.binUsed / 4096 + 2) r.binBase r.binUsed with
    | (s1, .error .wait) => .next s1
    | (s1, .error x) => .next (s1.abortRender slice r (renderCode x))
    | (s, .ok _) =>
      let ids := r.resolveTile u
      let bs := (r.blocks tile).filter fun b => (List.range 64).any fun m => let (x, y) := blockPixel b m; ((ids[64 * y + x]?).map (·.set)).getD false
      let y : Launch := { id := s.nextId, queue := r.queue, kind := .shading, krec := r.shade, total := bs.length, fpctl := r.fpctl,
                          args := r.args, graph := r.graph, blocks := bs.map fun b => (tile, b) }
      let s1 := if bs.isEmpty then s else { (s.modSlice slice fun x => { x with launches := x.launches ++ [y] }) with nextId := s.nextId + 1 }
      .next (s1.putRender slice (r.setTile { u with st := .shading, ids := ids }))

/-- Every shading team of the tile has ended. -/
def execTileShadingComplete (slice tile : Nat) (s : State) : Res :=
  let x := s.slice slice
  match x.tileIn tile .shading with
  | none => .next s
  | some (r, u) =>
    if x.renderDead r then .next (s.endRender slice)
    else if x.launches.any fun y => (match y.kind with | .shading => true | _ => false) && y.blocks.any (·.1 == tile) then .next s
    else .next (s.putRender slice (r.setTile { u with st := .writing }))

/-! ### Write-out (R322, R325) -/

/-- The bytes and mode byte of a block of the surface, and which counter it goes to. -/
def packBlock (r : Render) (px : List Word) : List Byte × Nat × Nat :=
  let raw := (px.map fun w => leBytes 4 w.toNat).flatten
  if !r.compressed then (raw, 0, 6)
  else if px.all (· == r.clear) then ([], 0xFF, 4)
  else match deltaEncode raw with
    | (0, b) => (b, 0, 6)
    | (m, b) => (b, m, 5)

/-- Write the blocks of a tile, each before its mode byte; none while an access waits. -/
def State.writeBlocks (s : State) (r : Render) (e : Agent) (t : Nat) (px : List Word) : List Nat → State × Option Render
  | [] => (s, some r)
  | b :: bs =>
    let (bytes, mode, ctr) := packBlock r (blockOfTile px b)
    let o := r.surfBlock t b
    let r1 := { r with counters := lmod (· + 1) r.counters ctr }
    match s.rangeWrite e (r.surface + o) bytes with
    | (s1, .error .wait) => (s1, none)
    | (s1, .error x) => s1.writeBlocks (r.fail (renderCode x)) e t px bs
    | (s1, .ok _) =>
      if !r.compressed then s1.writeBlocks r1 e t px bs
      else match s1.rangeWrite e (r.meta_ + o / 256) [BitVec.ofNat 8 mode] with
        | (s2, .error .wait) => (s2, none)
        | (s2, .error x) => s2.writeBlocks (r.fail (renderCode x)) e t px bs
        | (s2, .ok _) => s2.writeBlocks r1 e t px bs

def execTileWriteOut (slice tile : Nat) (s : State) : Res :=
  match (s.slice slice).tileIn tile .writing with
  | none => .next s
  | some (r, u) =>
    let e := r.agent slice
    if (s.slice slice).renderDead r then .next (s.endRender slice)
    else if r.lastBatch then
      match s.writeBlocks r e tile u.px (r.blocks tile) with
      | (s1, none) => .next s1
      | (s1, some r1) => .next (s1.putRender slice (r1.setTile { u with st := .done, due := false, ids := [], px := [] }))
    else
      match s.rangeWrite e (r.tileArea + 81920 * tile) ((u.ids.map idBytes).flatten ++ (u.px.map fun w => leBytes 4 w.toNat).flatten) with
      | (s1, .error .wait) => .next s1
      | (s1, .error x) => .next (s1.abortRender slice r (renderCode x))
      | (s1, .ok _) => .next (s1.putRender slice (r.setTile { u with st := .idle, due := false, before := true, ids := [], px := [] }))

/-! ### Announcement (R338) -/

/-- A tile of a frame may be announced: its last write-out has ended, or the render has ended whole. A killed render announces none. -/
def Slice.announceable (x : Slice) (f : EncFrame) (t : Nat) : Bool :=
  t < f.ntiles && !f.announced.contains t && !f.damaged &&
    (f.closed || match x.render with
      | some r => r.queue == f.queue && r.pkt == f.pkt && !x.renderDead r && r.tiles.any fun u => u.num == t && u.st == .done
      | none => false)

def execTileAnnounce (slice tile : Nat) (s : State) : Res :=
  let x := s.slice slice
  match x.encoder.frames.findIdx? (x.announceable · tile) with
  | none => .next s
  | some k => .next (s.modSlice slice fun x => { x with encoder := { x.encoder with
      frames := lmod (fun f => { f with announced := f.announced ++ [tile] }) x.encoder.frames k } })

/-! ### Pre-emption of a render context (R326) -/

/-- The render context is saved: tiles in the loading, resolving and writing states finish those first; its teams are pre-empted. -/
def execRenderPreemption (slice : Nat) (s : State) : Res :=
  let x := s.slice slice
  match x.render with
  | none => .next s
  | some r =>
    let ts := x.teams.filter fun t => t.queue == r.queue && t.kind != .plain
    if r.tiles.any (fun t => t.st == .loading || t.st == .resolving || t.st == .writing) || ts.any (!s.stoppable slice ·) then .next s
    else
      let s1 := ts.foldl (fun s t => s.saveTeam slice t.id false) s
      .next (s1.modSlice slice fun x => { x with render := none, savedRender := some r })

end Sys2Proof.Machine
end

