-- ==== Sys2Proof/Machine/Resets.lean ====
section
/-! DEFINITION. Slice errors, hangs and slice resets (20 R422-R424; 11 R298, R312; 15 R353; 17 R359), and the functions that leave
(20 R425; 21 R431). A reset begins with STATE 3, waits for the leases that name the slice, clears the slice, and ends. -/

namespace Sys2Proof.Machine

/-! ### Slice errors (R422, R424) -/

/-- How a slice error stands in the fault log. -/
def errNumber : ErrCause → Nat × Nat
  | .poison a => (0, a)
  | .hbm a => (1, a)
  | .hangCopy e c => (2, chanKey e c)
  | .hangTask t => (3, t)
  | .hangSweep => (4, 0)
  | .hangSave t => (5, t)
  | .firmware => (6, 0)
  | .hangRadiance => (7, 0)
  | .hangGibbs => (8, 0)

/-- Write a record into the fault log; a full one loses its oldest (19 R383). -/
def Slice.logFault (x : Slice) (r : FaultRec) : Slice :=
  if x.faultLog.length < 256 then { x with faultLog := x.faultLog ++ [r] }
  else { x with faultLog := x.faultLog.tail ++ [r], logOverflow := x.logOverflow + 1 }

/-- The logical slice that a slice belongs to, or will once a fusion under way has ended (R424). -/
def State.logicalOf (s : State) (n : Nat) : Nat :=
  ((List.range s.slices.length).find? fun m => match (s.slice m).fusing with
    | some k => m ≤ n && n < m + k
    | none => false).getD (s.slice n).lsl

/-- Ask for a reset; one under way runs once, and a slice out of service stays so. -/
def State.askReset (s : State) (n : Nat) : State :=
  if (s.slice n).st = 3 ∨ (s.slice n).st = 4 then s else s.modSlice n fun x => { x with resetDue := true }

/-- The hung command ends with ST 4, or the team is killed with code 3. -/
def State.endHang (s : State) (n : Nat) : ErrCause → State
  | .hangCopy e c =>
    match ((s.slice n).channel (chanKey e c)).queue.head? with
    | some q => s.endCopy n (chanKey e c) q 4
    | none => s
  | .hangTask id =>
    match (s.slice n).tasks.find? (·.id == id) with
    | some t => (s.chargeTask n t).endTask n t 4 (taskSig t.words) t.fl
    | none => s
  | .hangSweep =>
    match (s.slice n).gibbs.queue with
    | { cmd := .sweep _ done _ comp, .. } :: _ => s.endSweep n comp 4 done fun g => g
    | _ => s
  | .hangGibbs =>
    match (s.slice n).gibbs.queue with
    | e :: _ =>
      let s1 := (s.modGibbs n Gibbs.pop).logErr n errCommand (compWord 4 0 0).toNat
      (match e.cmd with | .read _ _ id => s1.endCommand e.issuer id | _ => s1)
    | [] => s
  | .hangRadiance => (s.hungRad n).logErr n errCommand (compWord 4 0 0).toNat
  | .hangSave id =>
    match (s.slice n).team id with
    | some t => (List.range t.warps.length).foldl (fun s w => s.kill { slice := n, team := id, warp := w }) s
    | none => s
  | _ => s

/-- The cause is poison met, which is logged under either policy. -/
def errPoison : ErrCause → Bool
  | .poison _ | .hbm _ => true
  | _ => false

/-- A slice error: the leases that the slice borrows are revoked with cause 4, then its policy acts. -/
def State.sliceErr (s : State) (n : Nat) (c : ErrCause) : State :=
  let x := s.slice n
  if x.st = 3 ∨ x.st = 4 then s
  else
    let s1 := s.revokeAll 4 (·.borrower == n)
    let log := fun (s : State) => s.modSlice n fun x => x.logFault (.error (errNumber c).1 (errNumber c).2)
    if x.st = 2 then (if x.errpol && !errPoison c || c == .firmware then s1 else log s1).askReset (s.logicalOf n)
    else match c with
      | .firmware => s1.askReset n
      | .poison _ | .hbm _ => if x.errpol then log s1 else (log s1).askReset n
      | _ => if x.errpol then (s1.endHang n c).post x.fn evHang (errNumber c).2 0 else (log s1).askReset n

/-- A slice error that a party met, or one from outside: an uncorrectable HBM error poisons its line (06 R169). -/
def execSliceError (slice : Nat) (cause : ErrCause) (s : State) : Res :=
  let n := (s.slice slice).lsl
  match cause with
  | .poison _ =>
    if (s.slice n).errDue.contains cause then
      .next ((s.sliceErr n cause).modSlice n fun x => { x with errDue := x.errDue.filter (· != cause) })
    else .next s
  | .hbm a =>
    if a < hbmTop then .next ((s.engSpoil n 1 (.glob a 0)).sliceErr n cause) else .next s
  | .firmware => .next (s.sliceErr n cause)
  | _ => .next s

/-- A command or save has made no progress since. -/
def State.stuckFrom (s : State) (n : Nat) : ErrCause → Option Nat
  | .hangCopy e c =>
    let ch := (s.slice n).channel (chanKey e c)
    match ch.queue.head? with
    | some q => if q.ended.isNone then some ch.since else none
    | none => none
  | .hangTask id =>
    match (s.slice n).tasks.find? (·.id == id) with
    | some t => if t.eng.isSome && t.failed.isNone then some t.meterFrom else none
    | none => none
  | .hangSweep =>
    match (s.slice n).gibbs.queue with
    | { cmd := .sweep (_ + 1) .., .. } :: _ => some (s.slice n).gibbs.since
    | _ => none
  | .hangGibbs =>
    match (s.slice n).gibbs.queue with
    | { cmd := .sweep .., .. } :: _ | [] => none
    | _ :: _ => some (s.slice n).gibbs.since
  | .hangRadiance => if (s.slice n).radiance.queue.isEmpty then none else some (s.slice n).radiance.since
  | .hangSave id => ((s.slice n).team id).bind (·.saveFrom)
  | _ => none

def execHangTimeout (slice : Nat) (cause : ErrCause) (s : State) : Res :=
  match s.stuckFrom slice cause with
  | some t => if t + 1000000 * max 1 (s.slice slice).wdog ≤ s.dtime then .next (s.sliceErr slice cause) else .next s
  | none => .next s

/-! ### What a reset does (R423) -/

def execSliceResetRequest (slice : Nat) (s : State) : Res := .next (s.askReset (s.logicalOf slice))

/-- The status of a started packet that a reset ends: code 3, with the flags its work has raised. -/
def Slice.resetStatus (x : Slice) (q : Nat) (p : Pkt) : Nat × List Nat :=
  match x.launches.find? fun y => y.queue == q && y.pkt == some p.idx with
  | some y =>
    let ws := ((x.teams ++ x.saved).map fun t => t.warps.filter fun w => t.launch == y.id || w.origin.contains y.id).flatten
    (statusWord 3 (ws.foldl (fun (f : BitVec 6) w => f ||| w.fpstat.setWidth 6) y.fl), [])
  | none =>
    match (x.render.toList ++ x.savedRender.toList).find? fun (r : Render) => r.queue == q && r.pkt == p.idx with
    | some r => (statusWord 3 r.fl, r.counters.map (·.toNat))
    | none => (3, [])

/-- A queue after a reset: the started packets end, the others are dropped. -/
def Queue.cleared (y : Queue) (quiet : Bool) (status : Pkt → Nat × List Nat) : Queue :=
  let ps := if quiet then [] else (y.pkts.filter fun p => p.started || p.status.isSome).map fun p =>
    if p.status.isSome then p else { p with status := some (status p).1, counters := (status p).2 }
  let y1 := { y with pkts := ps, head := none, rdidx := y.wridx }
  { y1 with frames := y1.frames.filter fun f => y1.frameBusy f || y1.frames.getLast?.map (·.seq) == some f.seq }

/-- A slice after a reset: its registers, logs and counters stay, and everything else is as after power-up. -/
def Slice.cleared (x : Slice) : Slice :=
  { lsl := x.lsl, fus := x.fus, st := 3, tsh := x.tsh, vf := x.vf, fmhz := x.fmhz, vmv := x.vmv, rst := x.rst, rqst := x.rqst,
    clock := x.clock, coreOk := x.coreOk, errpol := x.errpol, scrub := x.scrub, wdog := x.wdog, hyst := x.hyst, rgtim := x.rgtim,
    counters := x.counters, queues := x.queues.map fun e => (e.1, e.2.cleared x.quietReset (x.resetStatus e.1)),
    saveTime := x.saveTime, faultLog := x.faultLog, logOverflow := x.logOverflow, errLog := x.errLog,
    corrected := x.corrected, uncorrected := x.uncorrected, violations := x.violations, aclLog := x.aclLog, poolFull := x.poolFull,
    gibbs := { entFailed := x.gibbs.entFailed, drawn := x.gibbs.drawn },
    encoder := { x.encoder with regs := { x.encoder.regs with en := false, wp := 0, rp := 0 }, frames := [], last := [], toSend := [] },
    running := x.running, sharers := x.sharers, quantum := x.quantum, quantumFrom := x.quantumFrom, savedFns := x.savedFns,
    quietReset := x.quietReset, leaving := x.leaving }

/-- Discard the dirty lines of a slice's L2 ways: each line holds what its home memory has, unless it was written back before. -/
def State.discardDirty (s : State) (ms : List Nat) : State :=
  s.mem.home.foldl (fun s l =>
    if ms.contains (Config.homeSlice (l.1 * 128)) then
      let m : Memory := { s.mem with home := s.mem.home.filter (·.1 != l.1) }
      { s with mem := if Config.freeBool s.freeCtr then m else m.writeBytes (l.1 * 128) l.2, freeCtr := s.freeCtr + 1 }
    else s) s

/-- The moments of a configuration that a reset unloads are undefined (15 R353), page by page (with fuel). -/
def State.blurPages (s : State) (n vf : Nat) : Nat → Nat → Nat → State
  | 0, _, _ => s
  | k + 1, a, len =>
    if len = 0 then s
    else
      let here := min len (4096 - a % 4096)
      let s1 := match s.xlate n vf none a true false with
        | .ok pa _ => (match s.phys pa true with | .mem key => s.blur key here | .nowhere => s)
        | _ => s
      s1.blurPages n vf k (a + here) (len - here)

def State.blurMoments (s : State) (n : Nat) : State :=
  match (s.slice n).radiance.config, (s.slice n).radiance.owner with
  | some c, some o => s.blurPages n o.1 (2 + 8 * c.params / 4096) c.mom (8 * c.params)
  | _, _ => s

/-- Clear a slice: its warps end, and their watches go. -/
def State.clearSlice (s : State) (n : Nat) : State :=
  let ms := s.members n
  let s1 := (s.blurMoments n).discardDirty ms
  let s2 := { s1.l1ClearSlice n with watches := s1.watches.filter fun q => q.warp.slice != n }
  (s2.modSlices ms fun x => { x with engines := [], icache := [], tlb := [] }).modSlice n Slice.cleared

/-- Leases that name a slice and have not ended. -/
def State.leased (s : State) (n : Nat) : Bool := s.leases.any fun l => l.2.live && (l.2.lender == n || l.2.borrower == n)

/-- A reset begins, and clears the slice once its leases have ended. -/
def execSliceReset (slice : Nat) (s : State) : Res :=
  let x := s.slice slice
  if x.lsl ≠ slice || !x.resetDue || x.st = 2 || x.st = 4 then .next s
  else
    let s1 := (s.modSlices (s.members slice) fun x => { x with st := 3 }).revokeAll 3 (·.lender == slice)
    let s2 := s1.revokeAll 5 (·.borrower == slice)
    if s2.leased slice then .next s2 else .next (s2.clearSlice slice)

/-- Apply the latched kicks in ascending queue number; each counts (R408, R417). -/
def Slice.applyLatched (x : Slice) : Slice :=
  (List.range 64).foldl (fun x q => match (x.queue q).latched with
    | some v => { (x.modQueue q fun y => { (y.kick v) with latched := none }) with counters := lmod (· + 1) x.counters 5 }
    | none => x) x

/-- Slice n single, free and without an owner: the array and the engine of each of its members are as after a reset (17 R368). -/
def freeSlice (n : Nat) (x : Slice) : Slice :=
  { x with gibbs := { entFailed := x.gibbs.entFailed, drawn := x.gibbs.drawn }, radiance := {}, lsl := n, fus := 0, st := 0, tsh := false, vf := 0, running := none, sharers := [], savedFns := [], leaving := false,
           queues := x.queues.map fun e => (e.1, { e.2 with latched := none }) }

/-- The reset ends: the slice is in service, or out of service where its self-test fails. Where its function left meanwhile the reset of
R425 follows, and after that one the slice is free. -/
def execSliceResetComplete (slice : Nat) (pass : Bool) (s : State) : Res :=
  let x := s.slice slice
  if x.st ≠ 3 || x.resetDue || x.lsl ≠ slice then .next s
  else
    let ms := s.members slice
    if !pass then .next (s.modSlices ms fun x => if x.leaving then { x with st := 4, vf := 0, tsh := false } else { x with st := 4 })
    else
      let s1 := (s.modSlices ms fun x => { x with st := 1, rst := (x.rst + 1) % 256 }).modSlice slice fun x =>
        { x with counters := lmod (· + 1) x.counters 6, quietReset := false }
      if x.leaving && !x.quietReset then
        .next (s1.modSlice slice fun x => { x with resetDue := true, quietReset := true })
      else if x.leaving then .next (ms.foldl (fun s m => s.modSlice m (freeSlice m)) s1)
      else .next (s1.modSlice slice Slice.applyLatched)

/-! ### Virtual functions (20 R425; 21 R430, R431) -/

/-- A slice that a virtual function holds. -/
def Slice.foreign (x : Slice) : Bool := x.vf ≠ 0 || x.tsh

/-- Reset a slice for its function: no completion record is written, and latched kicks are discarded. -/
def State.quietly (s : State) (n : Nat) (leaving : Bool) : State :=
  s.modSlice n fun x =>
    let x1 := { x with queues := x.queues.map fun e => (e.1, { e.2 with latched := none }) }
    if leaving then
      let y := { x1 with leaving := true, saved := [], savedRender := none, savedFns := [] }
      if x.st = 3 then y else { y with quietReset := true, resetDue := true }
    else if x.st = 3 ∨ x.st = 4 then x1
    else { x1 with quietReset := true, resetDue := true }

/-- The host clears VF Enable: the functions go, and their slices are reset and freed. DESIGN CHOICE (log 84): until then
they issue nothing. -/
def State.clearVfs (s : State) : State :=
  let held := fun n => (s.slice n).foreign
  let s1 := (s.revokeAll 5 fun l => held l.borrower).revokeAll 3 fun l => held l.lender
  let all := List.range s.slices.length
  let s2 := (all.filter fun n => held n && s.logicalOf n == n && (s.slice n).st ≠ 0 && (s.slice n).st ≠ 4).foldl (fun s n => s.quietly n true) s1
  let s3 := (all.filter fun n => held n && ((s.slice n).st = 0 || (s.slice n).st = 4)).foldl (fun s n => s.modSlice n fun x => { x with vf := 0, tsh := false }) s2
  { s3 with vfEnable := false, cfgRegs := s3.cfgRegs.filter (·.1 == 0), debugOn := s3.debugOn.filter (· == 0), events := s3.events.filter (·.1 == 0), kickVa := s3.kickVa.filter (·.1 == 0),
            xl := s3.xl.map fun b => if b.1 = 0 then b else (b.1, { b.2 with atsQueue := [] }),
            out := s3.out ++ ((s3.xl.filter (·.1 != 0)).map fun b => b.2.atsQueue.map fun _ => Out.atsDone b.1).flatten }

def execVfEnableClear (s : State) : Res := .next s.clearVfs

def execVfEnableSet (s : State) : Res := .next { s with vfEnable := true }

/-- Reset the slices of one function, which stay its own; its saved state on a slice that another function runs on is discarded, and its
configuration space returns to its reset values. -/
def State.resetFunction (s : State) (vf : Nat) : State :=
  (List.range s.slices.length).foldl (fun s n =>
    let x := s.slice n
    if x.lsl ≠ n || x.st = 0 then s
    else if x.tsh && x.sharers.contains vf && x.running != some vf then
      s.modSlice n fun x => { x with savedFns := x.savedFns.map fun f => if f.vf = vf then { vf := vf } else f }
    else if x.fn = vf then s.quietly n false
    else s) { s with cfgRegs := kdel s.cfgRegs vf }

/-- A Function Level Reset (21 R431). -/
def State.functionReset (s : State) (f : Nat) : State :=
  if f = 0 then (s.clearVfs).resetFunction 0 else if f ≤ 16 && s.vfEnable then s.resetFunction f else s

def execFunctionLevelReset (function : Nat) (s : State) : Res := .next (s.functionReset function)

end Sys2Proof.Machine
end

