-- ==== Sys2Proof/Machine/Sharing.lean ====
section
/-! DEFINITION. The slice table: owners, clocks, fusing and splitting, and time-sharing (20 R406, R418-R420, R424; 11 R298; 17 R367,
R368; 21 R444). -/

namespace Sys2Proof.Machine

/-! ### Owner and clock (R406) -/

/-- The owner of a free slice. A slice whose slice core runs comes into service with it. -/
def State.giveSlice (s : State) (n vf : Nat) : State :=
  if vf > 16 ∨ (s.slice n).st ≠ 0 then s
  else
    let s1 := s.modSlice n fun x => { x with vf := vf, st := if x.coreOk then 1 else 0 }
    if (kget s.kickVa vf).isSome then s1 else { s1 with kickVa := kset s.kickVa vf (Config.kickPage vf) }

def execSliceVfWrite (slice vf : Nat) (s : State) : Res := .next (s.giveSlice slice vf)

/-- A clock point, clamped; the crown core chooses the rail. A throttled slice keeps its lower clock (21 R444). -/
def State.setClock (s : State) (n mhz : Nat) : State :=
  let f := max 800 (min 2100 mhz)
  s.modSlices (s.members n) fun x =>
    { x with fmhz := f, vmv := max 520 (min 750 (Config.railFor f)), clock := if s.throttled.contains n then min x.clock f else f }

/-- The field of a fused slice is written in its lowest member's entry. -/
def execSliceFmhzWrite (slice mhz : Nat) (s : State) : Res :=
  if (s.slice slice).lsl = slice then .next (s.setClock slice mhz) else .next s

/-! ### Fusing and splitting (R419, R420) -/

/-- A queue has no packet taken or waiting. -/
def Queue.quiet (y : Queue) : Bool := y.rdidx == y.wridx && y.pkts.isEmpty && y.head.isNone

/-- A slice is idle: no resident team, no queued packet, no engine command, no queued task. -/
def Slice.idle (x : Slice) : Bool :=
  x.teams.isEmpty && x.saved.isEmpty && x.launches.isEmpty && x.queues.all (fun e => e.2.quiet)
  && x.channels.all (fun c => c.2.queue.isEmpty) && x.gibbs.queue.isEmpty && x.radiance.queue.isEmpty && x.tblds.isEmpty
  && x.tasks.isEmpty

/-- A slice may take part in a fusion or a split. -/
def State.fusable (s : State) (n : Nat) : Bool :=
  let x := s.slice n
  (x.st == 0 || x.st == 1) && x.idle && !x.tsh && !s.leased n

/-- Begin a request on some slices, recorded at the first; one not met is refused. -/
def State.askFusion (s : State) (n k : Nat) (ms : List Nat) (ok : Bool) : State :=
  if ok then (s.modSlices ms fun x => { x with st := 2 }).modSlice n fun x => { x with fusing := some k, rqst := 3 }
  else s.modSlice n fun x => { x with rqst := 2 }

/-- Fuse `k` slices from `n` on: on one die, single, under one owner, each fusable. -/
def State.askFuse (s : State) (n k : Nat) : State :=
  let ms := (List.range k).map (n + ·)
  s.askFusion n k ms (n / 8 == (n + k - 1) / 8 && n + k ≤ 16 &&
    ms.all fun m => s.fusable m && (s.slice m).lsl == m && (s.slice m).fus == 0 && (s.slice m).vf == (s.slice n).vf)

def execFuseTwo (slice : Nat) (s : State) : Res := .next (s.askFuse slice 2)
def execFuseFour (slice : Nat) (s : State) : Res := .next (s.askFuse slice 4)

def execSplit (slice : Nat) (s : State) : Res :=
  .next (s.askFusion slice 1 (s.members slice) ((s.slice slice).lsl == slice && (s.slice slice).fus != 0 && (s.members slice).all s.fusable))

/-- The lowest member takes over the members' cached lines and mappings, their CUs renumbered in member order. -/
def State.gatherCaches (s : State) (n : Nat) (ms : List Nat) : State :=
  let ls := (ms.mapIdx fun k m => (s.slice m).icache.map fun l => { l with cu := k }).flatten
  let ts := (ms.mapIdx fun k m => (s.slice m).tlb.map fun e => { e with cu := e.cu.map (· + 12 * k) }).flatten
  s.modSlice n fun x => { x with icache := ls, tlb := ts }

/-- Each member takes back its own. -/
def State.spreadCaches (s : State) (n : Nat) (ms : List Nat) : State :=
  let x := s.slice n
  (ms.mapIdx fun k m => (k, m)).foldl (fun s km => s.modSlice km.2 fun y =>
    { y with icache := (x.icache.filter (·.cu == km.1)).map (fun l => { l with cu := 0 }),
             tlb := (x.tlb.filter fun e => match e.cu with | some c => c / 12 == km.1 | none => km.1 == 0).map
               fun e => { e with cu := e.cu.map (· % 12) } }) s

/-- The request ends: the members act as one slice of the lowest one's number, the radiance engines of the others without a configuration
(15 R345), or each for itself again. -/
def execFusionComplete (slice : Nat) (s : State) : Res :=
  let x := s.slice slice
  match x.fusing with
  | none => .next s
  | some k =>
    let fin := fun (s : State) => s.modSlice slice fun x => { x with fusing := none, rqst := 1 }
    if k = 1 then
      let ms := s.members slice
      let s1 := s.spreadCaches slice ms
      .next (fin (ms.foldl (fun s m => s.modSlice m fun y =>
        { y with lsl := m, fus := 0, st := 1, queues := y.queues.map fun e => (e.1, { e.2 with rdidx := e.2.wridx }) }) s1))
    else
      let ms := (List.range k).map (slice + ·)
      let s1 := s.gatherCaches slice ms
      let s2 := s1.modSlices (ms.filter (· != slice)) fun y => { y with radiance := {} }
      .next (fin (s2.modSlices ms fun y =>
        { y with lsl := slice, fus := if k = 2 then 1 else 2, st := 1, fmhz := x.fmhz, vmv := x.vmv, clock := x.clock }))

/-! ### Time-sharing (R418) -/

/-- The crown core shares a slice among functions, each with its save area. A free slice starts with the lowest of them. -/
def State.shareSlice (s : State) (n : Nat) (fns : List Nat) (quantum : Nat) : State :=
  let x := s.slice n
  let fs := isort (· ≤ ·) fns.eraseDups
  let free := x.st = 0 ∧ x.coreOk = true
  match if free then fs.head? else some x.vf with
  | none => s
  | some f =>
    if x.tsh || !(x.st = 1 || free) || x.lsl ≠ n || !fs.contains f || fs.any (· > 16) || quantum < 500 || quantum > 100000 then s
    else s.modSlices (s.members n) fun x =>
      { x with tsh := true, st := 1, vf := f, running := some f, sharers := fs, quantum := quantum, quantumFrom := s.dtime,
               savedFns := (fs.filter (· != f)).map fun g => { vf := g } }

def execTimeSharingStart (slice : Nat) (functions : List Nat) (quantum : Nat) (s : State) : Res := .next (s.shareSlice slice functions quantum)

/-- The state of the running function, as it is saved. -/
def Slice.saveFn (x : Slice) : SavedFn :=
  { vf := x.fn, queues := x.queues, nodes := x.nodes, nodeRecs := x.nodeRecs, regroup := x.regroup, groups := x.groups, acl := x.acl,
    loads := x.loads, ring := x.ring, tasks := x.tasks, tokens := x.tokens, comp := x.comp, act := x.act, tableStatus := x.tableStatus,
    channels := x.channels, teams := x.saved, launches := x.launches, escs := x.escs,
    radiance := { x.radiance with slots := [] }, gibbs := x.gibbs, encoder := x.encoder, render := x.render <|> x.savedRender, payloads := x.payloads,
    errpol := x.errpol, scrub := x.scrub, wdog := x.wdog, hyst := x.hyst, rgtim := x.rgtim, counters := x.counters, faultLog := x.faultLog,
    logOverflow := x.logOverflow, errLog := x.errLog, violations := x.violations, aclLog := x.aclLog, poolFull := x.poolFull }

/-- A slice with a saved function's state in the place of the running one's. -/
def Slice.asFn (x : Slice) (f : SavedFn) : Slice :=
  { x with
      running := some f.vf, queues := f.queues, nodes := f.nodes, nodeRecs := f.nodeRecs,
      regroup := f.regroup, groups := f.groups, acl := f.acl, loads := f.loads, ring := f.ring, tasks := f.tasks, tokens := f.tokens,
      comp := f.comp, act := f.act, tableStatus := f.tableStatus, channels := f.channels, saved := f.teams, teams := [],
      launches := f.launches, escs := f.escs, radiance := f.radiance, gibbs := { f.gibbs with drawn := x.gibbs.drawn, entFailed := x.gibbs.entFailed },
      encoder := f.encoder, render := none, savedRender := f.render,
      errpol := f.errpol, scrub := f.scrub, wdog := f.wdog, hyst := f.hyst, rgtim := f.rgtim, counters := f.counters, faultLog := f.faultLog,
      logOverflow := f.logOverflow, errLog := f.errLog, violations := f.violations, aclLog := f.aclLog, poolFull := f.poolFull,
      payloads := f.payloads }

/-- A saved function's state restored; its latched kicks are applied. -/
def Slice.loadFn (x : Slice) (f : SavedFn) (now : Nat) : Slice :=
  { x.asFn f with quantumFrom := now, drain := 0, icache := [], tlb := [], fetches := [], faults := [], ackFailed := [] : Slice }.applyLatched

/-- The saved state of a function that shares the slice and is descheduled. -/
def Slice.awayFn (x : Slice) (vf : Nat) : Option SavedFn :=
  if x.tsh && x.running != some vf then x.savedFns.find? (fun (o : SavedFn) => o.vf == vf) else none

/-- A slice as a function's windows show it: a descheduled one's own state, and no other's (R418). -/
def State.asFn (s : State) (n vf : Nat) : State :=
  match (s.slice n).awayFn vf with
  | some f => s.modSlice n fun x => { x.asFn f with faults := [], tlb := [] }
  | none => s

/-- Do something to a slice as a function's windows reach it: what a descheduled one changes is its saved state. -/
def State.inFn (s : State) (n vf : Nat) (g : State → State) : State :=
  match (s.slice n).awayFn vf with
  | none => g s
  | some f =>
    let old := s.slice n
    (g (s.asFn n vf)).modSlice n fun y => { old with savedFns := old.savedFns.map (fun o => if o.vf == f.vf then y.saveFn else o) }

/-- The next function in ascending number. -/
def Slice.nextFn (x : Slice) : Nat := ((x.sharers.find? (x.fn < ·)) <|> x.sharers.head?).getD x.fn

/-- Switch to the next function: the L2 ways are written back. -/
def State.switchFn (s : State) (n : Nat) : State :=
  let ms := s.members n
  let m : Memory := { s.mem with home := s.mem.home.filter fun l => !ms.contains (Config.homeSlice (l.1 * 128)) }
  { s with mem := m }.modSlice n fun x =>
    let g := x.nextFn
    let f := if g = x.fn then x.saveFn else (x.savedFns.find? (fun (o : SavedFn) => o.vf == g)).getD { vf := g }
    let rest := x.savedFns.filter fun (o : SavedFn) => o.vf != x.fn && o.vf != g
    { (x.loadFn f s.dtime) with savedFns := if g = x.fn then rest else x.saveFn :: rest }

/-- A tile of the running render is in a state that must finish first (13 R326). -/
def Slice.tileBusy (x : Slice) : Bool :=
  match x.render with
  | some r => r.tiles.any fun t => t.st == .loading || t.st == .resolving || t.st == .writing
  | none => false

/-- The end of a quantum goes on as far as it can: packets stop, copies complete, tasks stop, the radiance engine finishes, the array
is revoked, the encoder lane finishes its frame, every team is pre-empted, and the next function's state is restored. -/
def State.endQuantum (s : State) (n : Nat) : State :=
  let s0 := s.modSlice n fun x => { x with drain := max 1 x.drain }
  let x := s0.slice n
  let s1 := (x.tasks.filter (·.eng.isSome)).foldl (fun s t => s.revokeTask n t) s0
  if x.channels.any (fun c => !c.2.queue.isEmpty) || !x.tblds.isEmpty || (s1.slice n).tasks.any (·.eng.isSome)
      || !(s1.slice n).radiance.queue.isEmpty || (s1.slice n).gibbs.sweeping then s1
  else
    let s2 := s1.revokeGibbs n
    if (s2.slice n).encoder.frames.any (fun f => !f.taken.isEmpty || !f.announced.isEmpty) || (s2.slice n).tileBusy then s2
    else
      let s3 := s2.modSlice n fun x => { x with drain := 2 }
      let s4 := (s3.slice n).teams.foldl (fun s t => if s.stoppable n t then s.saveTeam n t.id false else s.awaitSave n t.id .stop) s3
      if !(s4.slice n).teams.isEmpty then s4 else s4.switchFn n

def execQuantumExpiry (slice : Nat) (s : State) : Res :=
  let x := s.slice slice
  if x.tsh && x.lsl = slice && x.st = 1 && (x.drain ≠ 0 || x.quantumFrom + 1000 * x.quantum ≤ s.dtime) then .next (s.endQuantum slice) else .next s

end Sys2Proof.Machine
end

