-- ==== Sys2Proof/Machine/Encoding.lean ====
section
/-! DEFINITION. The encoder lane (13 R338; 20 R426-R428; 21 R438). The bits of an access unit are the encoder's own: they come with
the step. -/

namespace Sys2Proof.Machine

/-! ### Pixels (R427) -/

/-- Y, Cb and Cr of a pixel. -/
def toYuv (p : Word) : Int × Int × Int :=
  let r : Int := bits p.toNat 0 8
  let g : Int := bits p.toNat 8 8
  let b : Int := bits p.toNat 16 8
  (16 + (47 * r + 157 * g + 16 * b + 128) / 256, 128 + (-26 * r - 86 * g + 112 * b + 128) / 256, 128 + (112 * r - 102 * g - 10 * b + 128) / 256)

/-- A tile as the lane codes it: 4,096 luma values, then the 4:2:0 samples of Cb and of Cr; Main10 takes each shifted left by 2. -/
def tileYuv (main10 : Bool) (px : List Word) : List Word :=
  let at_ := fun (x y : Nat) => toYuv (px.getD (64 * y + x) 0)
  let sh := fun (v : Int) => BitVec.ofInt 32 (if main10 then v * 4 else v)
  let four := fun (f : Int × Int × Int → Int) => (List.range 1024).map fun i =>
    let x := i % 32 * 2
    let y := i / 32 * 2
    sh ((f (at_ x y) + f (at_ (x + 1) y) + f (at_ x (y + 1)) + f (at_ (x + 1) (y + 1)) + 2) / 4)
  ((List.range 4096).map fun i => sh (at_ (i % 64) (i / 64)).1) ++ four (·.2.1) ++ four (·.2.2)

/-! ### Taking tiles (R338, R427) -/

def Slice.modEnc (x : Slice) (f : Encoder → Encoder) : Slice := { x with encoder := f x.encoder }

/-- Surface coordinates of a block of a frame's tile. -/
def EncFrame.block (f : EncFrame) (surfW t b : Nat) : Nat :=
  surfOff surfW (f.x0 + 64 * (t % f.tileCols) + b % 8 * 8) (f.y0 + 64 * (t / f.tileCols) + b / 8 * 8)

/-- Fields of the registers as the lane uses them: a value out of the field's range is taken as a free one. DESIGN CHOICE (log 79). -/
def inRange (k lo hi v : Nat) : Nat := if lo ≤ v && v ≤ hi then v else lo + Config.encRange k v % (hi - lo + 1)
def EncRegs.rate (r : EncRegs) : Nat := inRange 0 1 240 r.fps
def EncRegs.ringBytes (r : EncRegs) : Nat := 2 ^ inRange 1 16 30 r.log2b

/-- The quantiser of a tile, which the map gives in the expert setting; a byte of the map that cannot be read is a free one (R426, R427). -/
def State.tileQp (s : State) (e : Agent) (r : EncRegs) (t : Nat) : State × Option (List Nat) :=
  if !r.exp then (s, some [])
  else match s.engRead e (r.qpm + BitVec.ofNat 64 t) 1 with
    | (s1, .ok q) => (s1, some [q])
    | (s1, .error .wait) => (s1, none)
    | (s1, .error _) => ({ s1 with freeCtr := s1.freeCtr + 1 }, some [(Config.freeWord s1.freeCtr).toNat % 256])

/-- The lane takes the next tile of its oldest unfinished frame, in ascending tile number: an announced one from the surface on
path E, an unannounced one of a killed render as a copy of the last frame's. -/
def execEncoderTileTake (slice : Nat) (s : State) : Res :=
  let x := s.slice slice
  match x.encoder.frames.findIdx? fun f => f.taken.length < f.ntiles with
  | none => .next s
  | some k =>
    match x.encoder.frames[k]? with
    | none => .next s
    | some f =>
      let t := f.taken.length
      let ag : Agent := { slice := slice, team := noTeam, vf := f.vf, cu := 0xFFFF, path := .e, id := 2 ^ 42 + slice }
      let put := fun (s : State) (px : List Word) => match s.tileQp ag x.encoder.regs t with
        | (s1, some q) => s1.modSlice slice fun x => x.modEnc fun e =>
            { e with frames := lmod (fun f => { f with taken := f.taken ++ [(t, px)], qps := f.qps ++ q }) e.frames k }
        | (s1, none) => s1
      if f.announced.contains t then
        let w := x.encoder.regs.w
        let h := x.encoder.regs.h
        let bs := (List.range 64).filter fun b =>
          64 * (t % f.tileCols) + b % 8 * 8 < w && 64 * (t / f.tileCols) + b / 8 * 8 < h
        match s.loadBlocks ag f.surface f.meta_ f.compressed f.clear (f.block f.surfW t) bs with
        | (s1, none) => .next s1
        | (s1, some (ls, _, _)) => .next (put s1 (tileYuv (x.encoder.regs.codec == 2) (tilePixels ls)))
      else if f.closed && f.damaged then .next (put s ((kget x.encoder.last t).getD []))
      else .next s

/-! ### Access units (R428, R438) -/

/-- The record of an access unit: header, payload, zeros to a 64-byte boundary. -/
def unitRecord (payload : List Byte) (frameno : Nat) (key damaged : Bool) : List Byte :=
  let b := leBytes 4 payload.length ++ leBytes 4 frameno ++ leBytes 8 ((if key then 1 else 0) + (if damaged then 2 else 0)) ++ payload
  b ++ List.replicate ((64 - b.length % 64) % 64) 0

def Slice.encAgent (x : Slice) (n : Nat) : Agent := { slice := n, team := noTeam, vf := x.fn, cu := 0xFFFF, path := .e, id := 2 ^ 42 + 16 + n }

/-- Write bytes into the ring from an offset on, in steps of 64 bytes. -/
def State.ringWrite (s : State) (e : Agent) (base size : Nat) : Nat → Nat → List Byte → State × Except EngErr Unit
  | 0, _, _ => (s, .ok ())
  | k + 1, off, b =>
    match s.rangeWrite e (base + off % size) (b.take 64) with
    | (s1, .error x) => (s1, .error x)
    | (s1, .ok _) => s1.ringWrite e base size k (off + 64) (b.drop 64)

def State.ringRead (s : State) (e : Agent) (base size : Nat) : Nat → Nat → State × Except EngErr (List Byte)
  | 0, _ => (s, .ok [])
  | k + 1, off =>
    match s.rangeRead e (base + off % size) 64 with
    | (s1, .error x) => (s1, .error x)
    | (s1, .ok b) => match s1.ringRead e base size k (off + 64) with
      | (s2, .error x) => (s2, .error x)
      | (s2, .ok r) => (s2, .ok (b ++ r))

/-- The next access unit is a key frame: the first since EN was set, and then each KINT-th (R426). -/
def Encoder.keyNext (e : Encoder) : Bool := e.coded == 0 || (e.regs.kint ≠ 0 && e.coded % e.regs.kint == 0)

/-- The bits in the buffer once a frame's budget has left it; and the bits that the frame may take: what the buffer, one second long, still
has room for. DESIGN CHOICE (log 79): how the fill corrects the budget is not stated beyond that. -/
def Encoder.drained (e : Encoder) : Nat := e.fill - e.regs.kbps.toNat * 1000 / e.regs.rate
def Encoder.budget (e : Encoder) : Nat := e.regs.kbps.toNat * 1000 - e.drained

/-- The record of the oldest frame is performed: WP moves past it. -/
def Encoder.recorded (e : Encoder) (len : Nat) (payload : Nat) : Encoder :=
  match e.frames with
  | [] => e
  | f :: rest =>
    { e with frames := rest, last := f.taken, coded := e.coded + 1, fill := e.drained + 8 * payload,
             regs := { e.regs with wp := e.regs.wp + BitVec.ofNat 32 len },
             toSend := if e.regs.strm then e.toSend ++ [(e.regs.wp.toNat, len)] else e.toSend }

/-- The kind under which the loss of an access unit is logged. -/
def errUnit : Nat := 8

/-- The access unit of the oldest frame, all of whose tiles are taken, enters the ring; it waits while it would pass RP, and WP moves when it
is performed at system scope, after the markers of its fabric stores. The encoder makes no unit whose KEY is not as KINT has it, and in the
basic setting none beyond the frame's budget: such an input writes nothing. A
record that meets a non-replayable fault is lost, and logged: WP stays. DESIGN CHOICE (log 79). -/
def execAccessUnitWrite (slice : Nat) (payload : List Byte) (key : Bool) (s : State) : Res :=
  let x := s.slice slice
  let ag := x.encAgent slice
  match x.encoder.frames with
  | [] => .next s
  | f :: rest =>
    if f.taken.length < f.ntiles || (f.inRing.isNone && (key != x.encoder.keyNext || (!x.encoder.regs.exp && 8 * payload.length > x.encoder.budget)))
    then .next s
    else
      let r := x.encoder.regs
      let b := unitRecord payload f.frameno key f.damaged
      let performed := fun (s : State) (len n : Nat) =>
        if s.engMarkers.contains (slice, .e, ag.id) then
          s.modSlice slice fun x => x.modEnc fun e => { e with frames := { f with inRing := some (len, n) } :: rest }
        else s.modSlice slice fun x => x.modEnc (·.recorded len n)
      if let some p := f.inRing then .next (performed s p.1 p.2) else
      if (r.wp - r.rp).toNat + b.length > r.ringBytes then
        if f.stalled then .next s
        else .next (s.modSlice slice fun x => x.modEnc fun e => { e with stall := e.stall + 1, frames := { f with stalled := true } :: rest })
      else
        match s.ringWrite ag r.rbase r.ringBytes (b.length / 64) r.wp.toNat b with
        | (s1, .error .wait) => .next s1
        | (s1, .error _) => .next ((s1.modSlice slice fun x => x.modEnc fun e => { e with frames := rest, last := f.taken, coded := e.coded + 1 }).logErr
            slice errUnit f.frameno)
        | (s1, .ok _) => .next (performed s1 b.length payload.length)

/-- Cut a payload into packets of a limit; the last has the marker bit (with fuel). -/
def cutPackets (limit : Nat) : Nat → List Byte → List (List Byte × Bool)
  | 0, b => [(b, true)]
  | k + 1, b => if b.length ≤ limit then [(b, true)] else (b.take limit, false) :: cutPackets limit k (b.drop limit)

/-- The oldest record not sent goes to FLOW, and RP moves past it; one to an invalid flow is dropped and counted. -/
def execAccessUnitSend (slice : Nat) (s : State) : Res :=
  let x := s.slice slice
  match x.encoder.toSend with
  | [] => .next s
  | (off, len) :: rest =>
    let r := x.encoder.regs
    let fin := fun (s : State) (dropped : Bool) => s.modSlice slice fun x => x.modEnc fun e =>
      { e with toSend := rest, dropped := if dropped then e.dropped + 1 else e.dropped,
               regs := { e.regs with rp := e.regs.rp + BitVec.ofNat 32 len } }
    match (kget s.flows r.flow).filter (·.valid) with
    | none => .next (fin s true)
    | some f =>
      match s.ringRead (x.encAgent slice) r.rbase r.ringBytes (len / 64) off with
      | (s1, .error .wait) => .next s1
      | (s1, .error _) => .next (fin s1 true)
      | (s1, .ok b) =>
        let data := (b.drop 16).take (fieldAt b 0 4)
        let s2 := fin s1 false
        .next { s2 with out := s2.out ++ [.accessUnit r.flow (cutPackets f.limit data.length data) (s.dtime * 9 / 100000)] }

/-! ### Registers (R426, R428) -/

/-- EN may be set. -/
def EncRegs.mayEnable (r : EncRegs) : Bool :=
  r.w * r.h * r.fps ≤ 1990656000 && r.w % 8 == 0 && 64 ≤ r.w && r.w ≤ 7680 && r.h % 8 == 0 && 64 ≤ r.h && r.h ≤ 4320 && r.codec != 3

/-- A write of ENCCTL: with EN = 1 only EN changes. -/
def State.writeEncctl (s : State) (n : Nat) (value : Word) : State :=
  let v := value.toNat
  s.modSlice n (fun x => x.modEnc fun e =>
    let r := if e.regs.en then e.regs
      else { e.regs with exp := nbit v 1, codec := bits v 2 2, strm := nbit v 4, flow := bits v 16 8 }
    let on := nbit v 0 && r.mayEnable
    { e with regs := { r with en := on }, coded := if on && !e.regs.en then 0 else e.coded, fill := if on && !e.regs.en then 0 else e.fill })

def execEncctlEnWrite (slice : Nat) (value : Word) (s : State) : Res := .next (s.writeEncctl slice value)

def State.writeEncrp (s : State) (n : Nat) (value : Word) : State :=
  s.modSlice n fun x => x.modEnc fun e => { e with regs := { e.regs with rp := value } }

def execEncrpWrite (slice : Nat) (value : Word) (s : State) : Res := .next (s.writeEncrp slice value)

end Sys2Proof.Machine
end

