-- ==== Sys2Proof/Machine/Windows.lean ====
section
/-! DEFINITION. Registers of a slice's window (20 R405, R407, R417, R426; 11 R295, R296, R310, R311; 19 R398). Reserved bits stay
zero (00 R5). -/

namespace Sys2Proof.Machine

/-! ### Group entries (11 R295, R296) -/

/-- A write to the OPEN bit of a group entry. -/
def GroupEnt.writeOpen (e : GroupEnt) (b : Bool) : GroupEnt :=
  if b then (if e.open_ then { e with closing := false } else { open_ := true })
  else if e.members.isEmpty then {} else { e with closing := true }

/-- Groups of a slice. -/
def groupCount : Nat := 256

def execGroupOpenWrite (slice group : Nat) (open_ : Bool) (s : State) : Res :=
  if group ≥ groupCount then .next s
  else .next (s.modSlice slice fun x => { x with groups := kset x.groups group ((x.group group).writeOpen open_) })

/-- A group entry as it reads. -/
def GroupEnt.word (e : GroupEnt) : Nat :=
  (if e.open_ then 1 else 0) + (if e.closing then 2 else 0) + e.members.length * 2 ^ 8 + e.arrived.length * 2 ^ 16 + e.phase * 2 ^ 24
  + ((e.members.map fun m => 2 ^ m.idx).sum) * 2 ^ 32 + e.joins.toNat * 2 ^ 96

/-! ### The instruction cache (20 R405; 01 R43) -/

/-- The write of 1 empties the whole instruction cache of the slice, those of fused members too. -/
def execIcinvWrite (slice : Nat) (go : Bool) (s : State) : Res :=
  if go then .next (s.modSlice slice fun x => { x with icache := [] }) else .next s

/-! ### Queue descriptors (20 R407) -/

/-- A queue descriptor as it reads. -/
def Queue.word (y : Queue) : Nat :=
  (if y.en then 1 else 0) + (if y.be then 2 else 0) + y.prio * 2 ^ 2 + y.weight * 2 ^ 8 + y.log2n * 2 ^ 16 + y.base * 2 ^ 64
  + y.rdidx.toNat * 2 ^ 128 + y.wridx.toNat * 2 ^ 160 + (min y.urgency (2 ^ 64 - 1)) * 2 ^ 192
  + ((y.oldest.map (·.frameno)).getD 0) * 2 ^ 256 + y.miss.toNat * 2 ^ 288

/-- A write of a queue descriptor: BASE and LOG2N are ignored while EN = 1. A new WEIGHT is the queue's share of the round under way
(R414). -/
def Queue.write (y : Queue) (v : Nat) : Queue :=
  let l := bits v 16 4
  let w := max 1 (bits v 8 8)
  let y1 := { y with en := nbit v 0, be := nbit v 1, prio := bits v 2 3, weight := w, credit := if w = y.weight then y.credit else w, miss := BitVec.ofNat 32 (bits v 288 32) }
  if y.en then y1 else { y1 with log2n := if l < 4 then 4 else l, base := bits v 76 52 * 4096 }

def execQueueDescriptorWrite (slice q : Nat) (value : BitVec 512) (s : State) : Res :=
  if q ≥ 64 then .next s else .next (s.modSlice slice fun x => x.modQueue q (·.write value.toNat))

/-! ### Records as they are read back (19 R383, R400; 09 R283) -/

/-- A fault record of a double fault: 32 bytes (19 R383). -/
def FaultRec.bytes : FaultRec → Option (List Byte)
  | .double pc c1 c2 info cu slot queue addr => some (leBytes 8 pc.toNat ++ leBytes 4 c1.toNat ++ leBytes 4 c2.toNat ++ leBytes 8 info.toNat
      ++ leBytes 2 cu ++ leBytes 1 slot ++ leBytes 1 queue ++ leBytes 4 addr.toNat)
  | .error .. => none

/-- The code of a path (03 R100). -/
def Path.num : Path → Nat | .c => 0 | .x => 1 | .m => 2 | .g => 3 | .e => 4 | .a => 5 | .f => 6 | .h => 7

/-- A fault-buffer entry: 32 bytes (19 R400). -/
def FaultEnt.bytes (e : FaultEnt) : List Byte :=
  leBytes 8 e.page ++ leBytes 1 (Path.num e.path + (if e.write then 8 else 0) + (if e.fetch then 16 else 0) + 32 * e.sub)
    ++ leBytes 1 (min 255 e.held) ++ leBytes 2 e.cu ++ leBytes 4 e.vf ++ leBytes 8 e.dtime ++ List.replicate 8 0

/-- A watch-table entry: five words (09 R283). A free entry reads zero. -/
def State.watchEntry (s : State) (q : WatchReq) : List Word :=
  let t := (s.slice q.warp.slice).anyTeam q.warp.team
  let w := t.bind (·.warp q.warp.warp)
  let lane := (w.bind fun w => (w.allSplits.find? fun p => p.hold == .watch q.id).map (·.low)).getD 0
  let cond := match q.cond with | .eq => 0 | .ne => 1 | .lt => 2 | .ge => 3
  let at_ := match q.ty with | .s32 => 1 | .n64 => 2 | .s64 => 3 | _ => 0
  let v := (if q.entry then 1 else 0) + 2 * cond + 8 * at_ + (if q.acq then 32 else 0) + 2 ^ 8 * (s.teamCu q.warp.slice q.warp.team % 256)
    + 2 ^ 16 * ((w.map (·.slot)).getD 0) + 2 ^ 23 * lane + 2 ^ 32 * (q.addr % 2 ^ 48)
    + 2 ^ 80 * (if q.ty.is64 then q.value.toNat else q.value.toNat % 2 ^ 32)
  (List.range 5).map fun k => BitVec.ofNat 32 (v / 2 ^ (32 * k))

/-! ### Access control (11 R310, R311) -/

/-- The defined bits of an access-control entry. -/
def aclMask : BitVec 128 := BitVec.ofNat 128 (2 ^ 128 - 2 ^ 64 + 0xFFFF0007)

/-- An entry changes for the writes that arrive afterwards. -/
def State.writeAcl (s : State) (n entry : Nat) (v : BitVec 128) : State :=
  if entry ≥ 256 then s else s.modSlice n fun x => { x with acl := kset x.acl entry (v &&& aclMask) }

def execAccessControlWrite (slice entry : Nat) (value : BitVec 128) (s : State) : Res := .next (s.writeAcl slice entry value)

/-! ### Registers whose writes do nothing more (20 R405, R417, R426; 19 R398) -/

/-- The encoder's fields may be written only while EN = 0. -/
def State.setEnc (s : State) (n : Nat) (f : EncRegs → EncRegs) : State :=
  s.modSlice n fun x => x.modEnc fun e => if e.regs.en then e else { e with regs := f e.regs }

def State.writeReg (s : State) (n : Nat) (reg : RegName) (value : DWord) : State :=
  let v := value.toNat
  let w := v % 2 ^ 32
  match reg with
  | .slctl => s.modSlice n fun x => { x with errpol := nbit v 0, scrub := nbit v 1 }
  | .wdog => s.modSlice n fun x => { x with wdog := max 1 w }
  | .hyst => s.modSlice n fun x => { x with hyst := min 10000000 w }
  | .rgtim => s.modSlice n fun x => { x with rgtim := w }
  | .counter k => s.modSlice n fun x => { x with counters := x.counters.set k (loWord value) }
  | .encctl => s.setEnc n fun r => { r with exp := nbit v 1, codec := bits v 2 2, strm := nbit v 4, flow := bits v 16 8 }
  | .encsize => s.setEnc n fun r => { r with w := bits v 0 16, h := bits v 16 16 }
  | .encfps => s.setEnc n fun r => { r with fps := bits v 0 9 }
  | .encbr => s.setEnc n fun r => { r with kbps := loWord value }
  | .enckint => s.setEnc n fun r => { r with kint := bits v 0 16 }
  | .encqpm => s.setEnc n fun r => { r with qpm := value }
  | .encslc => s.setEnc n fun r => { r with rows := bits v 0 8 }
  | .encring => s.setEnc n fun r => { r with rbase := v / 4096 * 4096 }
  | .encrsz => s.setEnc n fun r => { r with log2b := bits v 0 5 }
  | .xlroot vf => { s with xl := kset s.xl vf { (kget s.xl vf).getD {} with root := bits v 12 40 * 4096 } }
  | .xlctl vf => { s with xl := kset s.xl vf { (kget s.xl vf).getD {} with fmode := nbit v 0 } }
  | .queueMiss q => if q ≥ 64 then s else s.modSlice n fun x => x.modQueue q fun y => { y with miss := loWord value }

def execRegisterWrite (slice : Nat) (reg : RegName) (value : DWord) (s : State) : Res := .next (s.writeReg slice reg value)

end Sys2Proof.Machine
end

