-- ==== Sys2Proof/Machine/Device.lean ====
section
/-! DEFINITION. Device time, firmware, management, power, resets of the device and temperature (21 R436, R439-R444). -/

namespace Sys2Proof.Machine

/-! ### Device time (R436) -/

/-- No queue of the device has an unfinished frame. -/
def State.noFrames (s : State) : Bool := s.slices.all fun x => x.queues.all fun e => e.2.oldest.isNone

/-- A correction: DTIME steps forward for 1 ms or more while no frame is unfinished, and is slewed in every other case. -/
def execPtpCorrection (offset : Int) (s : State) : Res :=
  if !s.grandmaster then .next s
  else if 1000000 ≤ offset ∧ s.noFrames = true then .next { s with dtime := s.dtime + offset.toNat, slew := 0 }
  else .next { s with slew := offset }

/-- The grandmaster is lost, and DTIME holds over; or regained. -/
def execGrandmasterLoss (lost : Bool) (s : State) : Res :=
  .next (({ s with grandmaster := !lost, slew := if lost then 0 else s.slew } : State).post 0 evGrandmaster (if lost then 1 else 0) 0)

/-! ### Firmware (R439) -/

/-- Images: 0 the crown core's, 1 to 16 the slice cores', 17 the self-test tables. -/
def crownImage : Nat := 0

/-- The boot ROM judges one image: the crown core's first. -/
def State.verify (s : State) (image : Nat) (signatureOk : Bool) (version : Nat) : State :=
  if !s.powered || image > 17 || (image ≠ crownImage && !s.crownOk) then s
  else
    let ok := signatureOk && s.rollback ≤ version
    let s1 := if ok then { s with images := kset s.images image version } else { s with images := kdel s.images image }
    if image = crownImage then { s1 with crownOk := ok }
    else if image ≤ 16 then
      s1.modSlice (image - 1) fun x => if ok then { x with coreOk := true } else { x with coreOk := false, st := 4 }
    else s1

def execBootImageVerify (image : Nat) (signatureOk : Bool) (version : Nat) (s : State) : Res :=
  .next (s.verify image signatureOk version)

/-! ### Attestation and management (R440, R441) -/

/-- Row of a slice in a report. -/
def Slice.row (x : Slice) : Nat × Nat × Nat × Nat := (x.lsl, x.st, x.vf, x.fus)

/-- The report that the identity key signs. -/
def State.reportOf (s : State) (nonce : List Byte) : Out :=
  .report nonce s.dtime s.images (s.slices.map Slice.row) s.sysWins s.imports

/-- A nonce has 64 bytes. -/
def execAttestationRequest (nonce : List Byte) (s : State) : Res :=
  if s.crownOk && nonce.length == 64 then .next { s with out := s.out ++ [s.reportOf nonce] } else .next s

/-- A system-window entry as it reads (R434). -/
def SysWin.word (e : SysWin) : Nat := (if e.valid then 1 else 0) + (if e.wr then 2 else 0) + e.peer * 2 ^ 16

/-- Bytes of the save area of a function of a slice: the one that runs, or, on a time-shared slice, another (R441; 20 R418). -/
def State.savedBytes (s : State) (n vf off len : Nat) : List Byte :=
  let at_ := fun (s : State) => (List.range len).map fun k => s.saveByte n (off + k)
  let x := s.slice n
  if x.fn = vf then at_ s
  else if (x.awayFn vf).isSome then at_ (s.asFn n vf) else List.replicate len 0

/-- A release awaits its fence markers (09 R284). -/
def State.markerAwaited (s : State) : Bool :=
  s.slices.any fun x => x.teams.any fun t => t.warps.any fun w => w.allSplits.any (·.hold == .marker)

/-- The crown core serves one request: the window, import, flow and access tables, the device identifier, the power cap, the
rollback counter, or a reading: of the running clock or a sensor of a slice, of each switch's fence counter and outstanding markers, of a window, of the power
cap, or of a save area. -/
def State.serve (s : State) : MgmtReq → State
  | .sysWindow i v =>
    if i ≥ 256 then s else { s with sysWins := kset s.sysWins i { valid := nbit v.toNat 0, wr := nbit v.toNat 1, peer := bits v.toNat 16 16 } }
  | .importEntry i valid wr peer base size =>
    if i ≥ 64 ∨ base % 65536 ≠ 0 ∨ size % 65536 ≠ 0 then s
    else { s with imports := kset s.imports i { valid := valid, wr := wr, peer := peer % 65536, base := base, size := size } }
  | .flowEntry i valid port limit mac ip6 src dst sport dport dscp =>
    if i ≥ 256 ∨ port ≥ 32 ∨ limit < 1200 ∨ limit > 8900 then s
    else { s with flows := kset s.flows i { valid := valid, port := port, mac := mac % 2 ^ 48, ip6 := ip6, src := src, dst := dst,
                                            sport := sport % 65536, dport := dport % 65536, dscp := dscp % 64, limit := limit } }
  | .accessEntry n i v => s.writeAcl n i v
  | .deviceId d => { s with deviceId := d % 65536 }
  | .powerCap w => if 1000 ≤ w ∧ w ≤ 2200 then { s with capWatts := w } else s
  | .rollback v => { s with rollback := max s.rollback v }
  | .read n => { s with out := s.out ++ [.status (s.slice n).clock] }
  | .fences => { s with out := s.out ++ [.fences s.fenceCounts (if s.markerAwaited then s.fenceOut else [])] }
  | .windowRead i => { s with out := s.out ++ [.status (((kget s.sysWins i).map SysWin.word).getD 0)] }
  | .capRead => { s with out := s.out ++ [.status s.capWatts] }
  | .sensor _ => { s with out := s.out ++ [.status (Config.freeWord s.freeCtr).toNat], freeCtr := s.freeCtr + 1 }
  | .saveArea n vf off len => { s with out := s.out ++ [.read (s.savedBytes n vf off len) false] }

def execManagementRequest (req : MgmtReq) (s : State) : Res := if s.crownOk then .next (s.serve req) else .next s

/-! ### Power and resets of the device (R442, R443) -/

/-- HBM holds free bytes: no rule gives its contents after the device lost its power or its reset. -/
def Memory.lost (m : Memory) (seed : Nat) : Memory :=
  { cells := m.cells.filter fun c => hbmTop ≤ c.1, hazy := { base := 0, len := hbmTop, seed := seed } :: m.hazy,
    poison := m.poison.filter fun l => hbmTop ≤ l * 128, home := [] }

/-- The device after a cold reset: as after power-up, but for what lies outside it, the rollback counter, DTIME, which never
decreases, and the model's own counters. -/
def State.cold (s : State) : State :=
  { State.reset with mem := Memory.lost s.mem s.nextId, dtime := s.dtime, rollback := s.rollback, out := s.out, agenda := s.agenda, tick := s.tick,
                     freeCtr := s.freeCtr, nextId := s.nextId + 1 }

/-- The rails go down: the device does nothing until they are up again. -/
def State.dark (s : State) (failed : Bool) : State := { s.cold with powered := false, railFailed := failed }

def execPowerUp (s : State) : Res := if s.powered || s.railFailed then .next s else .next s.cold

/-- A rail leaves tolerance. 0 to 3 are the rails of the whole device, 4 + n is VCORE n, which takes its slice out of
service; its leases end. -/
def execRailFault (rail : Nat) (s : State) : Res :=
  if !s.powered then .next s
  else if rail < 4 then .next (s.dark true)
  else if rail < 20 then
    let n := (s.slice (rail - 4)).lsl
    let s1 := (s.revokeAll 3 (·.lender == n)).revokeAll 5 (·.borrower == n)
    .next ((s1.clearSlice n).modSlices (s.members n) fun x => { x with st := 4, coreOk := false, resetDue := false, fusing := none })
  else .next s

def execPowerDown (s : State) : Res := .next (s.dark false)

/-- A cold reset of the link and the whole device; it recovers a device that powered down. -/
def execPerst (s : State) : Res := .next s.cold

/-- A warm reset: every slice and the crown core, with HBM kept but for dirty lines, and the link as it is. -/
def State.warm (s : State) : State :=
  let s1 := s.discardDirty (List.range 16)
  { s.cold with mem := s1.mem, freeCtr := s1.freeCtr, linkUp := s.linkUp, linkWidth := s.linkWidth, linkRate := s.linkRate, ports := s.ports, powered := s.powered, railFailed := s.railFailed }

def execWarmReset (s : State) : Res := if s.powered then .next s.warm else .next s

/-! ### Temperature and power cap (R444) -/

def execThermtrip (s : State) : Res := .next (s.dark true)

/-- A hot slice runs at a clock point below FMHZ; its function learns of it. -/
def execThermalThrottle (slice mhz : Nat) (s : State) : Res :=
  let x := s.slice slice
  if mhz < x.fmhz ∧ 800 ≤ mhz ∧ x.lsl = slice then
    let s1 := (s.modSlices (s.members slice) fun x => { x with clock := mhz }).post x.fn evThrottle slice 0
    .next { s1 with throttled := if s1.throttled.contains slice then s1.throttled else slice :: s1.throttled }
  else .next s

/-- Board power above the cap lowers every slice's clock by one step of 100 MHz. -/
def execPowerCapThrottle (watts : Nat) (s : State) : Res :=
  if watts > s.capWatts then
    .next { s with slices := s.slices.map (fun x => { x with clock := max (min 800 x.clock) (x.clock - 100) }), throttled := List.range s.slices.length }
  else .next s

/-- A slice returns to FMHZ. -/
def execThrottleEnd (slice : Nat) (s : State) : Res :=
  .next { (s.modSlices (s.members slice) fun x => { x with clock := x.fmhz }) with throttled := s.throttled.filter (· != slice) }

end Sys2Proof.Machine
end

