-- ==== Sys2Proof/Machine/Translate.lean ====
section
/-! DEFINITION. Steps of translation and of the store's scrubber (19 R395, R398-R400). -/

namespace Sys2Proof.Machine

/-! ### The fault buffer (R400) -/

/-- Change the hold of every split that waits on an entry. -/
def State.ackSplits (s : State) (n : Nat) (e : FaultEnt) (h : Hold) : State :=
  s.modSlice n fun x => { x with teams := x.teams.map fun t =>
    if t.vf ≠ e.vf then t
    else { t with warps := t.warps.map fun w => Warp.settle (s.markedFor n t) (w.mapSplits fun p =>
      if p.hold == .pageFault e.page e.path then { p with hold := h } else p) } }

/-- Take an entry out of the buffer. -/
def State.dropFault (s : State) (n id : Nat) : State := s.modSlice n fun x => { x with faults := x.faults.filter (·.id != id) }

def execFaultAckReplay (slice entry : Nat) (s : State) : Res :=
  match (s.slice slice).faults.find? (·.id == entry) with
  | none => .next s
  | some e => .next ((s.dropFault slice entry).ackSplits slice e .none)

/-- An entry is acknowledged as failed: every access that it holds is. -/
def State.failFault (s : State) (n : Nat) (e : FaultEnt) : State :=
  ((s.dropFault n e.id).ackSplits n e (.faultFailed e.page)).modSlice n fun x =>
    { x with ackFailed := x.ackFailed ++ e.waiters.map fun w => (w, e.page) }

def execFaultAckFail (slice entry : Nat) (s : State) : Res :=
  match (s.slice slice).faults.find? (·.id == entry) with
  | none => .next s
  | some e => .next (s.failFault slice e)

/-! ### Walks and invalidations (R398, R399) -/

/-- Keep at most `n` entries for a key, the newest first. -/
def keepTlb (l : List TlbEnt) (cu : Option Nat) (n : Nat) : List TlbEnt :=
  (l.filter (·.cu == cu)).take n ++ l.filter (·.cu != cu)

/-- A walk of the function that runs on the slice: a leaf enters the TLBs of the CU and the slice; a replayable fault enters the
fault buffer, which the accesses that meet it then join. -/
def execTranslationWalk (slice va : Nat) (write fetch : Bool) (path : Path) (cu : Nat) (s : State) : Res :=
  let x := s.slice slice
  let vf := x.running.getD x.vf
  let a := va % 2 ^ 48
  let s := (walkReads s vf a).foldl (fun s t => s.noteAccess slice t false) s
  match walk s vf a with
  | .leaf page size pa w ex ok nr =>
    let e : TlbEnt := { vf := vf, cu := none, page := page, size := size, pa := pa, w := w, x := ex, ok := ok, nr := nr }
    let fresh := fun (l : List TlbEnt) => l.filter fun o => !(o.vf == vf && o.page == page && (o.cu == none || o.cu == some cu))
    .next (s.modSlice slice fun x =>
      { x with tlb := keepTlb (keepTlb ({ e with cu := some cu } :: e :: fresh x.tlb) (some cu) 256) none 16384 })
  | .fault sub nr =>
    if !((kget s.xl vf).getD {}).fmode || nr || sub == 5 then .next s
    else
      let page := a / 4096 * 4096
      if x.faults.any fun e => e.page == page && e.path == path && e.vf == vf then .next s
      else if x.faults.length ≥ 4096 then .next s
      else
        let e : FaultEnt := { id := s.nextId, page := page, path := path, write := write, fetch := fetch, sub := sub, held := 0,
                              cu := s.cuGlobal slice cu, vf := vf, dtime := s.dtime }
        .next { (s.modSlice slice fun x => { x with faults := x.faults ++ [e] }) with nextId := s.nextId + 1 }

/-- Begin an invalidation; one under way goes on alone. -/
def State.beginInv (s : State) (vf va npg : Nat) (ats : Bool) : State :=
  let b := (kget s.xl vf).getD {}
  if b.busy then s
  else { s with xl := kset s.xl vf { b with va := va / 4096 % 2 ^ 36 * 4096, npg := npg % 256, busy := true, ats := ats } }

def execXlinvGo (vf va npg : Nat) (s : State) : Res := .next (s.beginInv vf va npg false)

/-- An invalidation covers an entry. -/
def XlBlock.covers (b : XlBlock) (e : TlbEnt) : Bool := b.npg == 0 || (e.page < b.va + 4096 * b.npg && b.va < e.page + e.size)

/-- The invalidation ends: the covered entries have left every TLB; an ATS request is answered, and the
next of the function's ATS queue begins (21 R430). -/
def execXlinvComplete (vf : Nat) (s : State) : Res :=
  let b := (kget s.xl vf).getD {}
  if !b.busy then .next s
  else
    .next { s with slices := s.slices.map (fun x => { x with tlb := x.tlb.filter fun e => !(e.vf == vf && b.covers e) }),
                   xl := kset s.xl vf (match b.atsQueue with
                     | [] => { b with busy := false, ats := false }
                     | (va, npg) :: t => { b with va := va / 4096 % 2 ^ 36 * 4096, npg := npg % 256, ats := true, atsQueue := t }),
                   out := if b.ats then s.out ++ [.atsDone vf] else s.out }

/-! ### The scrubber (R394, R395) -/

/-- A row of a CU's store: a vector register, half of the scalars of a warp, its predicates, or 32 words of a scratchpad. -/
inductive Row where
  | vec (team warp reg : Nat)
  | scal (team warp half : Nat)
  | pred (team warp : Nat)
  | scratch (team off : Nat)
  deriving DecidableEq, Repr

/-- The rows of a CU's store that hold windows, predicates and scratchpads. -/
def Slice.rows (x : Slice) (cu : Nat) : List Row :=
  ((x.teams.filter (·.cu == cu)).map fun t =>
    (t.warps.mapIdx fun wi w => (List.range w.n).map (Row.vec t.id wi) ++ [Row.scal t.id wi 0, Row.scal t.id wi 1, Row.pred t.id wi]).flatten
    ++ (List.range (t.scratchSize / 128)).map fun k => Row.scratch t.id (128 * k)).flatten

/-- Mark word `k` of a row as uncorrectable: a vector register is poisoned (R394). -/
def Slice.markWord (x : Slice) (k : Nat) : Row → Slice
  | .vec t w r => x.modTeam t fun t => t.modWarp w fun w =>
      let v := w.vget r
      w.vset r { v with bad := v.bad ||| oneLane k, tag := match v.tag with
        | .pending => .pending
        | _ => .poisoned { cause := 4, code := 0, major := 0, kind := 0 } }
  | .scal t w h => x.modTeam t fun t => t.modWarp w fun w =>
      let j := 32 * h + k
      { w with sbad := if w.sbad.contains j then w.sbad else j :: w.sbad }
  | .pred t w => x.modTeam t fun t => t.modWarp w fun w =>
      let js := if k % 8 < 7 then [k % 8] else (List.range 7).map (8 + ·)
      { w with pbad := w.pbad ++ js.filter fun j => !w.pbad.contains j }
  | .scratch t off => x.modTeam t fun t =>
      { t with scratch := { t.scratch with poison := if t.scratch.poison.contains (off / 4 + k) then t.scratch.poison
                                                     else (off / 4 + k) :: t.scratch.poison } }

/-- Word `k` of a row goes bad unseen: a vector register keeps its tag until it is read or scrubbed (R394). -/
def Slice.hurtWord (x : Slice) (k : Nat) : Row → Slice
  | .vec t w r => x.modTeam t fun t => t.modWarp w fun w =>
      let v := w.vget r
      w.vset r { v with bad := v.bad ||| oneLane k }
  | r => x.markWord k r

/-- The scrubber reads one row. Whether a word of it is in error, which, whether it can be corrected, and whether one goes bad after the
row was read are free. -/
def execScrubRow (slice cu row : Nat) (s : State) : Res :=
  let x := s.slice slice
  match x.scrub, (x.rows cu)[row]? with
  | true, some r =>
    let c := s.freeCtr
    let s1 := { s with freeCtr := c + 4 }
    let k := (Config.freeWord (c + 2)).toNat % 32
    if !Config.freeBool c then .next (if Config.freeBool (c + 3) then s1.modSlice slice fun x => x.hurtWord k r else s1)
    else if Config.freeBool (c + 1) then .next (s1.modSlice slice fun x => { x with corrected := bump x.corrected cu })
    else .next (s1.modSlice slice fun x =>
      let y := x.markWord k r
      { y with uncorrected := bump y.uncorrected cu })
  | _, _ => .next s

end Sys2Proof.Machine
end

