-- ==== Sys2Proof/Machine/Items.lean ====
section
/-! DEFINITION. The things that windows, control blocks and configuration spaces show where no rule lays out the region they lie in: each
as bytes, and what a write of it does (20 R404, R405, R429; 01 R44; 02 R85; 06 R213; 07 R260; 09 R288; 11 R313; 13 R340; 15 R355; 17
R359; 19 R395, R398, R402; 21 R430, R431). DESIGN CHOICE (log 80): the bytes of a thing stand in the order in which its rule names them. -/

namespace Sys2Proof.Machine

/-! ### Words as bytes -/

/-- Put bytes into a little-endian word of `n` bytes from a byte on. -/
def putBytes (n old off : Nat) (data : List Byte) : Nat :=
  let b := leBytes n old
  leNat ((b.take off ++ data ++ b.drop (off + data.length)).take n)

/-- Bytes of a word. -/
def getBytes (n v off len : Nat) : List Byte := ((leBytes n v).drop off).take len

def boolNat (b : Bool) : Nat := if b then 1 else 0

/-! ### The things -/

/-- The region of a window that a thing lies in, by its first offset in units of 4 KiB (R405); 0x100 a control block, 0x101 the rest of the
physical function's BAR 0, 0x102 configuration space. -/
def itemRegion : WinItem → Nat
  | .zero => 0x200
  | .slctl | .wdog | .hyst | .rgtim | .icinv | .l2Ways _ => 0
  | .enc _ | .encStall | .encDropped => 3
  | .xlroot | .xlctl | .xlinv | .xlstat | .pageKind _ => 4
  | .binCount _ | .keyCount _ | .binRec _ _ | .keyRec _ _ | .graphRecs _ | .graphWarps _ | .poolFull | .heldPad _ => 0xA
  | .bank _ _ _ | .activeBank _ _ | .latchedBank _ _ | .tableStatus => 0x10
  | .faultLog _ | .faultOverflow | .errLog _ | .escalation _ | .faultEntry _ | .faultAck | .corrected _ | .uncorrected _ | .violations | .aclLog _
  | .chanCmd _ _ | .ringErrors => 0x20
  | .b1t | .b2t | .radSlot _ | .radCmd _ | .gibbsCell _ | .gibbsBeta | .gibbsColours | .gibbsSeed | .gibbsEnt | .gibbsStatus | .theta _
  | .gibbsCmd _ | .launch _ | .ringSlot _ | .tileState _ | .batch | .binUsed | .binPrim _ | .renderCount _ | .announced _ => 0x30
  | .haltedTags _ _ | .haltedPcs _ _ | .saveRow _ | .tlb _ | .watch _ | .tile _ _ | .tileRow _ _ _ => 0x40
  | .sliceEntry _ | .kickVa | .pending _ | .event _ => 0x100
  | .debugEnable _ => 0x101
  | .vendorId | .deviceId | .totalVfs | .firstVf | .vfStride | .vfEnable | .flr | .linkWidth | .linkRate | .cfg => 0x102

/-- An engine-error record, a violation, and the record of a slice error in the fault log. -/
def ErrRec.bytes (e : ErrRec) : List Byte := leBytes 4 e.kind ++ leBytes 8 e.detail
def FaultRec.shown (r : FaultRec) : List Byte := match r with
  | .error kind detail => padTo 32 (leBytes 4 kind ++ leBytes 8 detail)
  | r => r.bytes.getD []

/-- An escalation record (07 R259): the CU and slot of the warp, the lane, the address, the code, and the trap of a handler. -/
def State.escBytes (s : State) (n : Nat) (e : EscRec) : List Byte :=
  let w := ((s.slice n).anyTeam e.warp.team).bind (·.warp e.warp.warp)
  leBytes 2 (s.teamCu n e.warp.team) ++ leBytes 1 ((w.map (·.slot)).getD 0) ++ leBytes 1 e.lane ++ leBytes 8 e.addr.toNat ++ leBytes 4 e.code.toNat
    ++ (if e.inHandler then leBytes 8 e.trappc.toNat ++ leBytes 4 e.cause.toNat ++ leBytes 8 e.info.toNat else [])

/-- The encoder lane's registers in the order of R426. -/
def EncRegs.word (r : EncRegs) (k : Nat) : Nat :=
  match k with
  | 0 => boolNat r.en + 2 * boolNat r.exp + 4 * r.codec + 16 * boolNat r.strm + 2 ^ 16 * r.flow
  | 1 => r.w + 2 ^ 16 * r.h
  | 2 => r.fps | 3 => r.kbps.toNat | 4 => r.kint | 5 => r.qpm.toNat | 6 => r.rows | 7 => r.rbase | 8 => r.log2b | 9 => r.wp.toNat | 10 => r.rp.toNat
  | _ => 0

/-- A cell as its image holds it (17 R357). -/
def GCell.bytes (c : GCell) : List Byte :=
  leBytes 2 (c.bias % 65536).toNat ++ leBytes 1 (boolNat c.spin + 2 * boolNat c.clamp + 16 * c.colour) ++ leBytes 1 c.nbrs.length
    ++ padTo 32 ((c.nbrs.map fun nw => leBytes 2 nw.1).flatten) ++ padTo 16 ((c.nbrs.map fun nw => leBytes 1 (nw.2 % 256).toNat).flatten)
    ++ List.replicate 12 0

/-- A queued command of the radiance engine: its kind, its place in the order, its count and deadline. -/
def RadEntry.bytes (e : RadEntry) : List Byte :=
  let (k, c, d) := match e.cmd with
    | .cfg _ a _ => (0, a.toNat, 0) | .ct hs => (1, hs.length, 0) | .step c d => (2, c, d.getD (2 ^ 64 - 1)) | .pub _ => (3, 0, 0)
    | .rd _ a sh => (4, a.toNat, boolNat sh)
  leBytes 4 k ++ leBytes 4 e.order ++ leBytes 8 c ++ leBytes 8 d

/-- A queued command of the array: its kind and its operands. -/
def GibbsEntry.bytes (e : GibbsEntry) : List Byte :=
  let (k, a, b) := match e.cmd with
    | .cfg be c sd en => (0, be + 2 ^ 16 * c + 2 ^ 24 * boolNat en, sd.toNat) | .load a => (1, a.toNat, 0) | .clmp a => (2, a.toNat, 0)
    | .sweep l d _ _ => (3, l, d) | .read _ a _ => (4, a.toNat, 0)
  leBytes 4 k ++ leBytes 8 a ++ leBytes 8 b

/-- A command of a copy channel: its addresses, its position, and its elements in all. -/
def CopyCmd.bytes (q : CopyCmd) : List Byte :=
  leBytes 8 q.desc.src.toNat ++ leBytes 8 q.desc.dst.toNat ++ leBytes 8 q.pos ++ leBytes 8 q.desc.total

/-- The launch record of a resident team, and the L1 that its CU has (01 R17, R44). -/
def Slice.launchBytes (x : Slice) (t : Team) : List Byte :=
  let k := ((x.launch t.launch).map (·.krec)).getD {}
  leBytes 8 k.entry.toNat ++ leBytes 8 k.trapvec.toNat ++ leBytes 4 t.warps.length ++ leBytes 4 t.n ++ leBytes 4 t.scratchSize
    ++ leBytes 4 (2 ^ 20 - x.storeUsed t.cu)

/-- A scratchpad that a copy holds, with the command that holds it (11 R313). -/
def Slice.heldBytes (x : Slice) (k : Nat) : List Byte :=
  let all := (x.channels.map fun c => (c.2.queue.filterMap fun q => q.holds.map fun h => (c.1, h.2, q.id))).flatten
  match all[k]? with
  | some (c, t, id) => leBytes 4 t ++ leBytes 4 c ++ leBytes 8 id
  | none => []

/-- A tile register's control register: type, rows, columns, and where its B lies (06 R206). -/
def Tile.ctl (t : Tile) : List Byte := leBytes 4 t.ty ++ leBytes 4 t.rows ++ leBytes 4 t.cols ++ leBytes 8 t.bbase ++ leBytes 4 t.bstr ++ leBytes 4 (boolNat t.btr)

def State.tileAt (s : State) (n e r : Nat) : Tile := let p := s.engineOf n e; (kget (s.engine p.1 p.2).tiles r).getD {}

/-- An entry of a TLB (19 R398, R399). -/
def TlbEnt.bytes (e : TlbEnt) : List Byte :=
  leBytes 4 e.vf ++ leBytes 4 ((e.cu.map (· + 1)).getD 0) ++ leBytes 8 e.page ++ leBytes 8 e.size ++ leBytes 8 e.pa
    ++ leBytes 4 (boolNat e.w + 2 * boolNat e.x + 4 * e.ok + 16 * boolNat e.nr)

/-- A warp of a halted team (19 R384). -/
def Slice.haltedWarp (x : Slice) (team warp : Nat) : Option Warp := ((x.saved.filter (·.halted))[team]?).bind (·.warp warp)

/-- The words of a record in a bin. -/
def RRec.bytes (r : RRec) : List Byte := leBytes 4 r.first ++ wordBytes r.words ++ leBytes 4 r.orig.toNat ++ (r.stack.map fun a => leBytes 8 a.toNat).flatten

/-- The configuration-space byte of a function (21 R430, R431). -/
def cfgSpace (f : Nat) : Nat := if f = 0 then 3 else 4
def State.cfgByte (s : State) (f off : Nat) : Byte := (kget ((kget s.cfgRegs f).getD []) off).getD (Config.cfgReset (cfgSpace f) off)
def State.cfgWrite (s : State) (f off : Nat) (b : Byte) : State :=
  let m := Config.cfgWritable (cfgSpace f) off
  { s with cfgRegs := kset s.cfgRegs f (kset ((kget s.cfgRegs f).getD []) off ((s.cfgByte f off &&& ~~~m) ||| (b &&& m))) }

/-- The bank of a table that a task or command has latched: 1 more than its number, 0 for none (02 R85). -/
def Slice.latchedOf (x : Slice) (act : Bool) (k : Nat) : Nat :=
  (((x.tasks.map (·.banksHeld)).flatten.find? fun b => b.1 == act && b.2.1 == k).map fun b => b.2.2 + 1).getD 0

/-- Warps of a graph that run, and its records that have counted (11 R306, R307). -/
def Slice.graphWarpCount (x : Slice) (g : Nat) : Nat :=
  (((x.teams ++ x.saved).filter (·.graph == g)).map fun t => (t.warps.filter fun w => !w.ended && !w.inQuies g).length).sum
def Slice.graphRecCount (x : Slice) (g : Nat) : Nat :=
  ((x.binKeys.filter fun k => match k with | .node n => (kget x.nodes n).any (·.graph == g) | .regroup r => r.graph == g).map x.binned).sum

/-- The counters of the render under way; the ring error counter is one of them (07 R237; 13 R339). -/
def Slice.renderCounters (x : Slice) : List Word := match x.render with | some r => r.counters | none => []
def Slice.ringErrorCount (x : Slice) : Word := x.renderCounters.getD 0 0

/-- The bytes of a thing, as a function's copy shows it. -/
def State.itemBytes (s : State) (n f : Nat) : WinItem → List Byte
  | .zero | .icinv | .faultAck | .cfg | .flr => List.replicate 8 0
  | .slctl => leBytes 4 (boolNat (s.slice n).errpol + 2 * boolNat (s.slice n).scrub)
  | .wdog => leBytes 4 (s.slice n).wdog
  | .hyst => leBytes 4 (s.slice n).hyst
  | .rgtim => leBytes 4 (s.slice n).rgtim
  | .l2Ways m => leBytes 4 (((s.members n)[m]?.map fun k => (s.slice k).ways).getD 0)
  | .enc k => leBytes 8 ((s.slice n).encoder.regs.word k)
  | .encStall => leBytes 4 (s.slice n).encoder.stall.toNat
  | .encDropped => leBytes 4 (s.slice n).encoder.dropped.toNat
  | .xlroot => leBytes 8 ((kget s.xl (s.slice n).fn).getD {}).root
  | .xlctl => leBytes 4 (boolNat ((kget s.xl (s.slice n).fn).getD {}).fmode)
  | .xlinv => let b := (kget s.xl (s.slice n).fn).getD {}; leBytes 8 (b.va + 2 ^ 48 * b.npg)
  | .xlstat => leBytes 4 (boolNat ((kget s.xl (s.slice n).fn).getD {}).busy)
  | .pageKind p => match walk s (s.slice n).fn (4096 * p) with | .leaf _ _ _ _ _ ok _ => leBytes 1 ok | .fault _ _ => []
  | .binCount k => leBytes 4 ((s.slice n).binned (.node k))
  | .keyCount k => leBytes 4 ((((s.slice n).regroup[k]?).map fun e => (s.slice n).binned (.regroup e.1)).getD 0)
  | .binRec k i => (((((kget (s.slice n).nodeRecs k).getD [])[i]?).map fun r => wordBytes r.words).getD [])
  | .keyRec k i => ((((s.slice n).regroup[k]?).bind fun e => e.2[i]?).map RRec.bytes).getD []
  | .graphRecs g => leBytes 4 ((s.slice n).graphRecCount g)
  | .graphWarps g => leBytes 4 ((s.slice n).graphWarpCount g)
  | .poolFull => leBytes 4 (s.slice n).poolFull.toNat
  | .heldPad k => (s.slice n).heldBytes k
  | .bank act t b => match ((s.slice n).table act t).banks.getD b .identity with
    | .image img => img
    | .identity => (List.range 1024).map (Config.identityImage act)
  | .activeBank act t => leBytes 1 ((s.slice n).table act t).active
  | .latchedBank act t => leBytes 1 ((s.slice n).latchedOf act t)
  | .tableStatus => leBytes 4 (s.slice n).tableStatus
  | .faultLog k => (((s.slice n).faultLog[k]?).map FaultRec.shown).getD []
  | .faultOverflow => leBytes 4 (s.slice n).logOverflow.toNat
  | .errLog k => (((s.slice n).errLog[k]?).map ErrRec.bytes).getD []
  | .escalation k => (((s.slice n).escs[k]?).map (s.escBytes n)).getD []
  | .faultEntry k => ((((s.slice n).faults.filter fun e => f = 0 || e.vf == f)[k]?).map FaultEnt.bytes).getD []
  | .corrected c => leBytes 4 ((kget (s.slice n).corrected c).getD 0).toNat
  | .uncorrected c => leBytes 4 ((kget (s.slice n).uncorrected c).getD 0).toNat
  | .violations => leBytes 4 (s.slice n).violations.toNat
  | .aclLog k => (((s.slice n).aclLog[k]?).map fun e => leBytes 4 e.1 ++ leBytes 8 e.2).getD []
  | .chanCmd c k => ((((s.slice n).channel c).queue[k]?).map CopyCmd.bytes).getD []
  | .ringErrors => leBytes 4 (s.slice n).ringErrorCount.toNat
  | .b1t => leBytes 4 (s.slice n).radiance.b1t.toNat
  | .b2t => leBytes 4 (s.slice n).radiance.b2t.toNat
  | .radSlot k => match kget (s.slice n).radiance.slots k with
    | some r => leBytes 4 (1 + boolNat r.committed) ++ wordBytes r.features ++ wordBytes r.targets
    | none => []
  | .radCmd k => (((s.slice n).radiance.queue[k]?).map RadEntry.bytes).getD []
  | .gibbsCell i => ((kget (s.slice n).gibbs.cells i).getD {}).bytes
  | .gibbsBeta => leBytes 2 (s.slice n).gibbs.beta
  | .gibbsColours => leBytes 1 (s.slice n).gibbs.colours
  | .gibbsSeed => leBytes 8 (s.slice n).gibbs.seed.toNat
  | .gibbsEnt => leBytes 1 (boolNat (s.slice n).gibbs.ent)
  | .gibbsStatus => leBytes 4 ((s.slice n).gibbs.code + 256 * (s.slice n).gibbs.detail)
  | .theta k => leBytes 4 (theta ((k : Int) - 1024))
  | .gibbsCmd k => (((s.slice n).gibbs.queue[k]?).map GibbsEntry.bytes).getD []
  | .launch k => (((s.slice n).teams[k]?).map (s.slice n).launchBytes).getD []
  | .ringSlot k => leBytes 4 ((kget (s.slice n).payloads k).getD {}).state.num ++ leBytes 4 (k % 4 + 4 * ((kget (s.slice n).payloads k).getD {}).gen)
  | .tileState k => leBytes 1 (((s.slice n).render.map fun r => (r.tile k).st.num).getD 0)
  | .batch => leBytes 4 (((s.slice n).render.map (·.batch)).getD 0)
  | .binUsed => leBytes 8 (((s.slice n).render.map (·.binUsed)).getD 0)
  | .binPrim k => (((s.slice n).render.bind fun r => r.prims[k]?).map fun p => wordBytes (p.xs ++ p.ys ++ p.zs ++ p.ws ++ [p.order])).getD []
  | .renderCount k => leBytes 4 ((s.slice n).renderCounters.getD k 0).toNat
  | .announced k => (((((s.slice n).encoder.frames.map fun f => f.announced.filter fun t => !(f.taken.any (·.1 == t))).flatten)[k]?).map (leBytes 4)).getD []
  | .haltedTags t w => (((s.slice n).haltedWarp t w).map fun w => leBytes 64 w.tagField).getD []
  | .haltedPcs t w => (((s.slice n).haltedWarp t w).map fun w => (w.allSplits.map fun p => leBytes 8 p.pc.toNat ++ leBytes 4 p.mask.toNat).flatten).getD []
  | .saveRow k => [s.saveByte n k]
  | .tlb k => (((s.slice n).tlb[k]?).map TlbEnt.bytes).getD []
  | .watch k => ((s.watches.filter fun q => q.entry && q.warp.slice == n)[k]?.map fun q => wordBytes (s.watchEntry q)).getD []
  | .tile e r => (s.tileAt n e r).ctl
  | .tileRow e r k => (s.tileAt n e r).data.drop (64 * k) |>.take 64
  | .sliceEntry k => leBytes 1 (((s.sliceList f)[k]?).getD 0xFF)
  | .kickVa => leBytes 8 ((kget s.kickVa f).getD 0)
  | .pending k => leBytes 8 ((((s.sliceList f)[k]?).map fun m => (((s.asFn m f).slice m).queues.map fun e => if e.2.latched.isSome then 2 ^ e.1 else 0).sum).getD 0)
  | .event k => ((((kget s.events f).getD [])[k]?).map fun e => leBytes 2 e.arg ++ leBytes 2 e.kind ++ leBytes 4 e.frameno ++ leBytes 8 e.dtime).getD []
  | .debugEnable g => leBytes 1 (boolNat (s.debugOn.contains g))
  | .vendorId => leBytes 2 0x1F6E
  | .deviceId => leBytes 2 (if f = 0 then 0x6416 else 0x6417)
  | .totalVfs => leBytes 2 16
  | .firstVf | .vfStride => leBytes 2 1
  | .vfEnable => leBytes 1 (boolNat s.vfEnable)
  | .linkWidth => leBytes 1 s.linkWidth
  | .linkRate => leBytes 1 s.linkRate

/-- Acknowledge the k-th fault entry that a function's copy shows: bit 32 of the write says that it failed (19 R400). -/
def State.ackFault (s : State) (n f v : Nat) : State :=
  match ((s.slice n).faults.filter fun e => f = 0 || e.vf == f)[v % 2 ^ 32]? with
  | none => s
  | some e => if nbit v 32 then s.failFault n e else (s.dropFault n e.id).ackSplits n e .none

/-- A write of XLINV: its fields, and GO (19 R398). -/
def State.writeXlinv (s : State) (vf v : Nat) : State :=
  let b := (kget s.xl vf).getD {}
  if b.busy then s
  else if nbit v 63 then s.beginInv vf v (bits v 48 8) false
  else { s with xl := kset s.xl vf { b with va := bits v 12 36 * 4096, npg := bits v 48 8 } }

/-- What the write of a thing does: `v` is its new value. What is read-only stays; `pf` is the physical function's copy. -/
def State.itemWrite (s : State) (n f : Nat) (pf : Bool) (v : Nat) : WinItem → State
  | .slctl => s.writeReg n .slctl (BitVec.ofNat 64 v)
  | .wdog => s.writeReg n .wdog (BitVec.ofNat 64 v)
  | .hyst => s.writeReg n .hyst (BitVec.ofNat 64 v)
  | .rgtim => s.writeReg n .rgtim (BitVec.ofNat 64 v)
  | .icinv => if nbit v 0 then s.modSlice n fun x => { x with icache := [] } else s
  | .enc k =>
    let d := BitVec.ofNat 64 v
    match k with
    | 0 => s.writeEncctl n (loWord d) | 1 => s.writeReg n .encsize d | 2 => s.writeReg n .encfps d | 3 => s.writeReg n .encbr d
    | 4 => s.writeReg n .enckint d | 5 => s.writeReg n .encqpm d | 6 => s.writeReg n .encslc d | 7 => s.writeReg n .encring d
    | 8 => s.writeReg n .encrsz d | 10 => s.writeEncrp n (loWord d) | _ => s
  | .xlroot => if pf then s.writeReg n (.xlroot (s.slice n).fn) (BitVec.ofNat 64 v) else s
  | .xlctl => if pf then s.writeReg n (.xlctl (s.slice n).fn) (BitVec.ofNat 64 v) else s
  | .xlinv => if pf then s.writeXlinv (s.slice n).fn v else s
  | .bank act t b => if !pf || t ≥ 8 then s else s.modSlice n fun x =>
      let y := x.table act t
      let u := { y with banks := y.banks.set b (.image (leBytes 1024 v)) }
      if act then { x with act := kset x.act t u } else { x with comp := kset x.comp t u }
  | .tableStatus => if pf then s.modSlice n fun x => { x with tableStatus := v % 2 ^ 32 } else s
  | .faultAck => s.ackFault n f v
  | .corrected c => s.modSlice n fun x => { x with corrected := kdel x.corrected c }
  | .uncorrected c => s.modSlice n fun x => { x with uncorrected := kdel x.uncorrected c }
  | .b1t => if pf then s.modSlice n fun x => { x with radiance := { x.radiance with b1t := BitVec.ofNat 32 v } } else s
  | .b2t => if pf then s.modSlice n fun x => { x with radiance := { x.radiance with b2t := BitVec.ofNat 32 v } } else s
  | .gibbsCell i => if pf && i < gibbsCells then s.modSlice n fun x =>
      { x with gibbs := { x.gibbs with cells := kset x.gibbs.cells i { parseCell (leBytes 64 v) with count := ((kget x.gibbs.cells i).getD {}).count } } } else s
  | .saveRow k => s.modSlice n fun x => { x with saved := x.saved.map fun t => if t.halted then s.editTeam n t [(k, BitVec.ofNat 8 v)] else t }
  | .debugEnable g => if !pf then s else { s with debugOn := if nbit v 0 then g :: s.debugOn.filter (· != g) else s.debugOn.filter (· != g) }
  | .vfEnable => if !pf || nbit v 0 == s.vfEnable then s else if nbit v 0 then { s with vfEnable := true } else s.clearVfs
  | .flr => if nbit v 0 then s.functionReset f else s
  | _ => s

/-! ### Regions (R404, R405) -/

/-- Bytes of a region; nothing of another region shows there. -/
def State.regionRead (s : State) (n f space reg off len : Nat) : List Byte :=
  (List.range len).map fun i =>
    let p := Config.itemAt space (off + i)
    if itemRegion p.1 ≠ reg then 0 else if p.1 == .cfg then s.cfgByte f (off + i) else (s.itemBytes n f p.1).getD p.2 0

/-- A write into a region: each thing that its bytes touch is written once, the bytes not touched as they were. -/
def State.regionWrite (s : State) (n f : Nat) (pf : Bool) (space reg off : Nat) (data : List Byte) : State :=
  let hits := data.mapIdx fun i b => (Config.itemAt space (off + i), off + i, b)
  let s1 := (hits.filter fun h => h.1.1 == .cfg && reg == 0x102).foldl (fun s h => s.cfgWrite f h.2.1 h.2.2) s
  ((hits.map (·.1.1)).eraseDups.filter fun it => itemRegion it == reg && it != .cfg).foldl (fun s it =>
    let new := (s.itemBytes n f it).mapIdx fun k b => ((hits.find? fun h => h.1 == (it, k)).map (·.2.2)).getD b
    s.itemWrite n f pf (leNat new) it) s1

/-- The region of a window that has no layout of its own and holds an offset. -/
def winRegion (off : Nat) : Option Nat :=
  if off < 0x1000 then some 0
  else if 0x3000 ≤ off ∧ off < 0x4000 then some 3
  else if 0x4000 ≤ off ∧ off < 0x8000 then some 4
  else if 0xD000 ≤ off ∧ off < 0x10000 then some 0xA
  else if 0x10000 ≤ off ∧ off < 0x40000 then some (off / 0x10000 * 0x10)
  else if 0x40000 ≤ off then some 0x40
  else none

/-- The debug window is there for a function while the physical function enables it, and for the physical function (R405). -/
def State.debugs (s : State) (f : Nat) : Bool := f == 0 || s.debugOn.contains f

end Sys2Proof.Machine
end

