-- ==== Sys2Proof/Machine/Host.lean ====
section
/-! DEFINITION. What reaches the device through its base address registers and over the fabric (20 R404-R408; 09 R284-R286; 11 R311;
18 R370, R371; 21 R430-R437). What lies at an offset of a region whose layout is not given is Config.itemAt's. -/

namespace Sys2Proof.Machine

/-- A write of some bytes covers a byte. -/
def covers (off len k : Nat) : Bool := off ≤ k && k < off + len

/-! ### The register window of a slice (R405) -/

/-- A node descriptor as it reads (11 R299). -/
def NodeDesc.bytes (d : NodeDesc) : List Byte :=
  leBytes 8 d.target.toNat ++ leBytes 8 d.trapvec.toNat ++ leBytes 4 d.timer ++ leBytes 4 d.scratch ++ leBytes 2 d.regs
  ++ leBytes 1 d.rsize ++ leBytes 1 d.gsize ++ leBytes 1 d.teamw ++ leBytes 1 d.graph ++ leBytes 1 (if d.zfill then 1 else 0)
  ++ leBytes 1 d.cupin ++ leBytes 4 d.fpctl.toNat ++ leBytes 4 d.queue ++ List.replicate 8 0

/-- A node descriptor written through the physical function's copy of the window. -/
def NodeDesc.ofBytes (b : List Byte) : NodeDesc :=
  let f := fun (o k : Nat) => leNat ((b.drop o).take k)
  { target := BitVec.ofNat 64 (f 0 8), trapvec := BitVec.ofNat 64 (f 8 8), timer := f 16 4, scratch := f 20 4, regs := f 24 2, rsize := f 26 1,
    gsize := f 27 1, teamw := f 28 1, graph := f 29 1, zfill := nbit (f 30 1) 0, cupin := f 31 1, fpctl := BitVec.ofNat 32 (f 32 4), queue := f 36 4 }

/-- Bytes of a region whose layout is given, within one entry of it. -/
def Slice.winRead (x : Slice) (off len : Nat) : Option (List Byte) :=
  if 0x1000 ≤ off ∧ off < 0x2000 then some (getBytes 64 (x.queue ((off - 0x1000) / 64)).word (off % 64) len)
  else if 0x2000 ≤ off ∧ off < 0x201C then some (getBytes 4 (x.counters.getD ((off - 0x2000) / 4) 0).toNat (off % 4) len)
  else if 0x8000 ≤ off ∧ off < 0x9000 then some (getBytes 16 (x.group ((off - 0x8000) / 16)).word (off % 16) len)
  else if 0x9000 ≤ off ∧ off < 0xA000 then some (getBytes 16 ((kget x.acl ((off - 0x9000) / 16)).getD 0).toNat (off % 16) len)
  else if 0xA000 ≤ off ∧ off < 0xA000 + 48 * 256 then
    some (((((kget x.nodes ((off - 0xA000) / 48)).map (·.bytes)).getD (List.replicate 48 0)).drop ((off - 0xA000) % 48)).take len)
  else none

/-- Bytes of a window, as a function's copy shows them. -/
def State.winRead (s : State) (n f off len : Nat) : List Byte :=
  match ((s.asFn n f).slice n).winRead off len, winRegion off with
  | some b, _ => b
  | none, some reg => if reg = 0x40 && !s.debugs f then List.replicate len 0 else (s.asFn n f).regionRead n f 0 reg off len
  | none, none => List.replicate len 0

/-- A write into a region whose layout is given; only the physical function's copy reaches what is read-only to the function. -/
def State.winPut (s : State) (n : Nat) (pf : Bool) (off : Nat) (data : List Byte) : State :=
  let x := s.slice n
  if 0x1000 ≤ off ∧ off < 0x2000 then
    let q := (off - 0x1000) / 64
    s.modSlice n fun x => x.modQueue q fun y => y.write (putBytes 64 y.word (off % 64) data)
  else if 0x2000 ≤ off ∧ off < 0x201C then
    let k := (off - 0x2000) / 4
    s.modSlice n fun x => { x with counters := x.counters.set k (BitVec.ofNat 32 (putBytes 4 (x.counters.getD k 0).toNat (off % 4) data)) }
  else if 0x8000 ≤ off ∧ off < 0x9000 ∧ off % 16 = 0 ∧ data ≠ [] then
    let g := (off - 0x8000) / 16
    s.modSlice n fun x => { x with groups := kset x.groups g ((x.group g).writeOpen ((data.getD 0 0).getLsbD 0)) }
  else if pf ∧ 0x9000 ≤ off ∧ off < 0xA000 then
    let k := (off - 0x9000) / 16
    s.writeAcl n k (BitVec.ofNat 128 (putBytes 16 ((kget x.acl k).getD 0).toNat (off % 16) data))
  else if pf ∧ 0xA000 ≤ off ∧ off < 0xA000 + 48 * 256 then
    let k := (off - 0xA000) / 48
    let old := ((kget x.nodes k).map (·.bytes)).getD (List.replicate 48 0)
    s.modSlice n fun x => { x with nodes := kset x.nodes k (NodeDesc.ofBytes (leBytes 48 (putBytes 48 (leNat old) ((off - 0xA000) % 48) data))) }
  else s

/-- A write into a window through a function's copy of it. -/
def State.winWrite (s : State) (n f off : Nat) (data : List Byte) : State :=
  match winRegion off with
  | some reg => if reg = 0x40 && !s.debugs f then s else s.inFn n f fun s => s.regionWrite n f (f == 0) 0 reg off data
  | none => s.inFn n f fun s => s.winPut n (f == 0) off data

/-! ### The physical function's tables (R404, R406; 18 R370) -/

/-- A slice-table entry as it reads. -/
def Slice.entry (x : Slice) : Nat :=
  x.lsl + x.fus * 2 ^ 4 + x.st * 2 ^ 6 + (if x.tsh then 2 ^ 9 else 0) + x.vf * 2 ^ 10 + x.fmhz * 2 ^ 16 + x.vmv * 2 ^ 28 + x.rst * 2 ^ 40
  + x.rqst * 2 ^ 51

/-- A write of a slice-table entry: the fields its bytes cover. -/
def State.writeEntry (s : State) (n off : Nat) (data : List Byte) : State :=
  let c := covers off data.length
  let v := putBytes 8 (s.slice n).entry off data
  let s1 := if c 1 then s.giveSlice n (bits v 10 5) else s
  let s2 := if (c 2 || c 3) && (s1.slice n).lsl == n then s1.setClock n (bits v 16 12) else s1
  let s3 := if c 6 && nbit v 48 then s2.askReset (s2.logicalOf n) else s2
  if !c 6 then s3
  else match bits v 49 2 with
    | 1 => s3.askFuse n 2
    | 2 => s3.askFuse n 4
    | 3 => s3.askFusion n 1 (s3.members n) ((s3.slice n).lsl == n && (s3.slice n).fus != 0 && (s3.members n).all s3.fusable)
    | _ => s3

/-- A write of a lease entry: its fields, then RECLAIM and GO. -/
def State.writeLease (s : State) (k off : Nat) (data : List Byte) : State :=
  let l := s.lease k
  let c := fun (a z : Nat) => (List.range (z - a)).any fun i => covers off data.length (a + i)
  let v := putBytes 32 l.word off data
  let put := fun (l : Lease) (on : Bool) (f : LeaseField) (x : Nat) => if on then l.write f x else l
  let l1 := put (put (put (put (put l (c 0 1) .lender (bits v 0 4)) (c 0 1) .borrower (bits v 4 4)) (c 1 2) .engs (bits v 8 6))
    (c 8 16) .meter (bits v 64 64)) (c 16 24) .expiry (bits v 128 64)
  let s1 := s.setLease k l1
  let s2 := if c 3 4 && nbit v 25 then s1.revoke k 3 else s1
  if c 3 4 && nbit v 24 then s2.grant k else s2

/-! ### Kick pages and the memory window (R404) -/

/-- Write bytes into a kick page, word by word (with fuel). -/
def State.kickPut (s : State) (vf n : Nat) : Nat → Nat → List Byte → State
  | 0, _, _ => s
  | k + 1, off, data =>
    if data.isEmpty then s
    else
      let here := 8 - off % 8
      (s.kickStore vf n off (min here data.length) (leNat (data.take here))).kickPut vf n k (off + here) (data.drop here)

/-- The slice whose TLB and fault buffer serve a host access of a function: the first of its slices. -/
def State.hostSlice (s : State) (vf : Nat) : Nat := (s.sliceList vf).headD 16

/-- Where a host access of global memory goes: an address, a kick page, or nowhere. -/
inductive HostTo where
  | mem (pa : Nat)
  | kick (n off : Nat)
  | nowhere

/-- Translate a global virtual address through the function's page tables on path H; a replayable fault enters the fault buffer, and
the access is not performed. -/
def State.hostTo (s : State) (vf va : Nat) (wr : Bool) : State × HostTo :=
  match s.kickAt vf va with
  | some (n, off) => (s, .kick n off)
  | none =>
    match s.xlate (s.hostSlice vf) vf none va wr false with
    | .ok pa _ => (s, .mem pa)
    | .kind3 => (s, .nowhere)
    | .fault sub replay =>
      if replay then ((s.faultEntry (s.hostSlice vf) va .h wr false sub 0xFFFF vf).getD s, .nowhere) else (s, .nowhere)

/-- Write bytes of global memory, page by page (with fuel). -/
def State.hostWrite (s : State) (vf : Nat) : Nat → Nat → List Byte → State
  | 0, _, _ => s
  | k + 1, va, data =>
    if data.isEmpty then s
    else
      let here := 4096 - va % 4096
      let b := data.take here
      let (s1, t) := s.hostTo vf va true
      let s2 := match t with
        | .mem pa => (s1.noteAccess (s.hostSlice vf) pa true).physWrite pa b
        | .kick n off => s1.kickPut vf n 513 off b
        | .nowhere => s1
      s2.hostWrite vf k (va + here) (data.drop here)

/-- Read bytes at a physical address: none where one of them is poisoned data. -/
def State.readBytes (s : State) (pa n : Nat) : Option (List Byte) :=
  let r := (List.range n).map fun i => s.physRead (pa + i) 1
  if r.all (·.isSome) then some (r.map fun b => BitVec.ofNat 8 (b.getD 0)) else none

/-- Read bytes of global memory; none is poisoned data. -/
def State.hostRead (s : State) (vf : Nat) : Nat → Nat → Nat → State × Option (List Byte)
  | 0, _, _ => (s, some [])
  | k + 1, va, len =>
    if len = 0 then (s, some [])
    else
      let here := min len (4096 - va % 4096)
      let (s1, t) := s.hostTo vf va false
      let got := match t with
        | .mem pa => s1.readBytes pa here
        | .kick n off => some ((List.range here).map fun i => BitVec.ofNat 8 (s1.kickBytes vf n (off + i) 1))
        | .nowhere => none
      let s1 := match t with | .mem pa => s1.noteAccess (s.hostSlice vf) pa false | _ => s1
      let (s2, r) := s1.hostRead vf k (va + here) (len - here)
      (s2, match got, r with | some a, some b => some (a ++ b) | _, _ => none)

/-! ### Accesses through a BAR (R286, R404) -/

/-- Pages of an access of some bytes. -/
def pagesFor (n : Nat) : Nat := n / 4096 + 2

/-- The slice whose window a BAR 0 offset lies in, and the offset in it. -/
def State.window (s : State) (f off : Nat) : Option (Nat × Nat) :=
  if off < 0x100000 then none
  else
    let k := (off - 0x100000) / 0x100000
    if k ≥ 16 then none
    else if f = 0 then some (k, off % 0x100000)
    else ((s.sliceList f)[k]?).map fun n => (n, off % 0x100000)

/-- The number that stands for configuration space in an access of the host. DESIGN CHOICE (log 81). -/
def cfgBar : Nat := 6

def State.barWrite (s : State) (f bar off : Nat) (data : List Byte) : State :=
  if bar = 0 then
    match s.window f off with
    | some (n, o) => s.winWrite n f o data
    | none =>
      if f ≠ 0 then (if off < 0x10000 then s.regionWrite 0 f false 1 0x100 off data else s)
      else if off < 0x80 then s.writeEntry (off / 8) (off % 8) data
      else if 0x1000 ≤ off ∧ off < 0x1000 + 32 * leaseCount then s.writeLease ((off - 0x1000) / 32) (off % 32) data
      else s.regionWrite 0 f true 2 0x101 off data
  else if bar = cfgBar then s.regionWrite 0 f (f == 0) (cfgSpace f) 0x102 off data
  else if off < 0x10000 then
    match (s.sliceList f)[off / 0x1000]? with
    | some n => s.kickPut f n 513 (off % 0x1000) data
    | none => s
  else if 2 ^ 48 ≤ off ∧ off < 2 ^ 49 then s.hostWrite f (pagesFor data.length) (off - 2 ^ 48) data
  else s

/-- Bytes that are free values. -/
def State.freeBytes (s : State) (len : Nat) : State × Option (List Byte) :=
  ({ s with nextId := s.nextId + 1 }, some ((List.range len).map (Config.freeByte s.nextId)))

def State.barRead (s : State) (f bar off len : Nat) : State × Option (List Byte) :=
  if bar = 0 then
    match s.window f off with
    | some (n, o) => (s, some (s.winRead n f o len))
    | none =>
      if f ≠ 0 then (s, some (if off < 0x10000 then s.regionRead 0 f 1 0x100 off len else List.replicate len 0))
      else if off < 0x80 then (s, some (getBytes 8 (s.slice (off / 8)).entry (off % 8) len))
      else if 0x1000 ≤ off ∧ off < 0x1000 + 32 * leaseCount then
        let k := (off - 0x1000) / 32
        (s, some (getBytes 32 ((s.chargeLease k).lease k).word (off % 32) len))
      else (s, some (s.regionRead 0 f 2 0x101 off len))
  else if bar = cfgBar then (s, some (s.regionRead 0 f (cfgSpace f) 0x102 off len))
  else if off < 0x10000 then
    match (s.sliceList f)[off / 0x1000]? with
    | some n => (s, some ((List.range len).map fun i => BitVec.ofNat 8 (s.kickBytes f n (off % 0x1000 + i) 1)))
    | none => s.freeBytes len
  else if 2 ^ 48 ≤ off ∧ off < 2 ^ 49 then s.hostRead f (pagesFor len) (off - 2 ^ 48) len
  else s.freeBytes len

/-- An access of a function's BAR: an absent function answers as PCI Express gives, and a device without its crown core image shows
only a status block (R425; 21 R439). -/
def State.barAccess (s : State) (f bar off : Nat) (write : Bool) (data : List Byte) : State :=
  let say := fun (o : Out) => { s with out := s.out ++ [o] }
  if !s.crownOk && f = 0 then say (.status 0)
  else if !s.crownOk || f > 16 || (f ≠ 0 && !s.vfEnable) || (bar ≠ 0 && bar ≠ 2 && bar ≠ cfgBar) then say .absent
  else if write then s.barWrite f bar off data
  else
    let (s1, r) := s.barRead f bar off data.length
    { s1 with out := s1.out ++ [.read (r.getD []) r.isNone] }

/-- An access of the host; with the link down there is none. -/
def execHostBarAccess (function bar off : Nat) (write : Bool) (data : List Byte) (s : State) : Res :=
  if s.linkUp then .next (s.barAccess function bar off write data) else .next s

/-- A registered controller's RDMA access, in service whatever the link does (21 R432, R437). -/
def execNetworkCommandAccess (function bar off : Nat) (write : Bool) (data : List Byte) (s : State) : Res :=
  .next (s.barAccess function bar off write data)

/-! ### The link (21 R432) -/

def execLinkDown (s : State) : Res := .next { s.losePosted with linkUp := false }
/-- The link trains to a width and a rate that the standard defines; which is free. -/
def execLinkTrained (s : State) : Res :=
  let w := (Config.freeWord s.freeCtr).toNat
  .next { s with linkUp := true, linkWidth := 2 ^ (w % 5), linkRate := 1 + w / 8 % 6, freeCtr := s.freeCtr + 1 }

/-- An ATS invalidation joins the function's queue; an absent function's is answered at once (R425; 21 R430). -/
def execAtsInvalidationRequest (function va npg : Nat) (s : State) : Res :=
  if function ≠ 0 ∧ s.vfEnable = false then .next { s with out := s.out ++ [.atsDone function] }
  else
    let b := (kget s.xl function).getD {}
    if b.busy then .next { s with xl := kset s.xl function { b with atsQueue := b.atsQueue ++ [(va, npg)] } }
    else .next (s.beginInv function va npg true)

/-! ### The fabric (21 R433-R435; 09 R284, R285; 11 R311) -/

/-- An import entry admits an access. -/
def Import.admits (e : Import) (peer pa len : Nat) (wr : Bool) : Bool :=
  e.valid && e.peer == peer && e.base ≤ pa && pa + len ≤ e.base + e.size && (e.wr || !wr)

/-- The queues whose ring a physical range meets: enabled queues, by the pages their function maps. -/
def State.ringsAt (s : State) (n pa len : Nat) : List Nat :=
  let x := s.slice n
  (x.queues.filter fun e => e.2.en && (List.range (2 ^ e.2.log2n * 64 / 4096 + 1)).any fun k =>
    let a := e.2.base + 4096 * k
    let top := min (a + 4096) (e.2.base + 64 * 2 ^ e.2.log2n)
    a < top && (match s.xlate n x.fn none a true false with
      | .ok p _ => p < pa + len && pa < p + (top - a)
      | _ => false)).map (·.1)

/-- The kick word that a physical address is, where a function's tables map its kick pages. -/
def State.kickPhys (s : State) (pa : Nat) : Option (Nat × Nat × Nat) :=
  s.kickVa.findSome? fun kv => ((s.sliceList kv.1).mapIdx fun k n => (k, n)).findSome? fun kn =>
    match s.xlate kn.2 kv.1 none (kv.2 + 4096 * kn.1) true false with
    | .ok p _ => if p ≤ pa ∧ pa < p + 4096 then some (kv.1, kn.2, pa - p) else none
    | _ => none

/-- An access-control entry of the slice grants a ring byte (bit 1) or kick word (bit 2) of a queue to a peer (R311). -/
def Slice.grants (x : Slice) (peer q b : Nat) : Bool :=
  x.acl.any fun e => let v := e.2.toNat; nbit v 0 && nbit v b && bits v 16 16 == peer && nbit v (64 + q)

/-- Count and log a violation. -/
def State.violate (s : State) (n peer pa : Nat) : State :=
  s.modSlice n fun x => { x with violations := x.violations + 1, aclLog := x.aclLog ++ [(peer, pa)] }

/-- The slice whose access-control table turns an admitted fabric write away: ring bytes and kick words are judged by the table of their
slice, and a write that touches those of several queues is performed when every one is granted (DEDUCED, log 77). -/
def State.fabricBars (s : State) (peer pa len : Nat) : Option Nat :=
  match s.kickPhys pa with
  | some (_, n, off) =>
    if off ≥ 512 || (List.range (min 64 ((off + len + 7) / 8))).all fun q => q < off / 8 || (s.slice n).grants peer q 2 then none else some n
  | none => (List.range s.slices.length).find? fun n => (s.ringsAt n pa len).any fun q => !(s.slice n).grants peer q 1

/-- Perform a fabric write. -/
def State.fabricPut (s : State) (pa : Nat) (data : List Byte) : State :=
  match s.kickPhys pa with
  | some (vf, n, off) => if off ≥ 512 then s else s.kickPut vf n 513 off data
  | none => s.physWrite pa data

/-- An admitted fabric write, as the access-control table judges it. -/
def State.fabricWrite (s : State) (peer pa : Nat) (data : List Byte) : State :=
  match s.fabricBars peer pa data.length with
  | some n => s.violate n peer pa
  | none => s.fabricPut pa data

/-- What the source of a fabric access is told: bytes, or poisoned data. -/
def State.tell (s : State) (r : Option (List Byte)) : State := { s with out := s.out ++ [.read (r.getD []) r.isNone] }

/-- Bytes at a physical address as a peer reads them; a kick word reads as WRIDX. -/
def State.fabricRead (s : State) (pa len : Nat) : Option (List Byte) :=
  match s.kickPhys pa with
  | some (vf, n, off) => some ((List.range len).map fun i => BitVec.ofNat 8 (s.kickBytes vf n (off + i) 1))
  | none => s.readBytes pa len

/-- An admitted atomic: judged as a write is; the old value goes back. One turned away or at poisoned data performs nothing and answers
with poisoned data. DESIGN CHOICE (log 82). -/
def State.fabricAtom (s : State) (peer pa n : Nat) (f : Nat → Nat) : State :=
  match s.fabricBars peer pa n, s.fabricRead pa n with
  | some m, _ => (s.violate m peer pa).tell none
  | none, none => s.tell none
  | none, some b => (s.fabricPut pa (leBytes n (f (leNat b)))).tell (some b)

/-- The bytes that a fabric access touches, and whether it writes. -/
def fabricBytes (op : FabricOp) (data : List Byte) : Nat := match op with
  | .read | .write => data.length
  | .atom _ ty | .atomc ty => atomBytes ty
def fabricWrites : FabricOp → Bool | .read => false | _ => true

/-- An access on path F: admitted by an import entry, or refused and counted. -/
def execFabricAccessArrival (peer pa : Nat) (op : FabricOp) (data : List Byte) (s : State) : Res :=
  let n := fabricBytes op data
  if pa + n ≤ hbmTop ∧ (s.imports.any fun e => e.2.admits peer pa n (fabricWrites op)) = true then
    match op with
    | .write => .next (s.fabricWrite peer pa data)
    | .read => .next (s.tell (s.fabricRead pa data.length))
    | .atom f ty => .next (s.fabricAtom peer pa n fun o => atomNew f ty o (leNat (data.take n)))
    | .atomc _ => .next (s.fabricAtom peer pa n fun o => if o = leNat (data.take n) then leNat ((data.drop n).take n) else o)
  else
    let s1 := { s with importRefused := s.importRefused + 1 }
    .next (if op == .write then s1 else s1.tell none)

/-- Splits that await the markers issue their release again. -/
def State.releaseMarkers (s : State) : State :=
  { s with slices := s.slices.mapIdx fun n (x : Slice) =>
      let free := fun (p : Split) => if p.hold == .marker then { p with hold := .none } else p
      let one := fun (t : Team) => { t with warps := t.warps.map fun w => Warp.settle (s.markedFor n t) { w.mapSplits free with fabric := 0 } }
      { x with teams := x.teams.map one, saved := x.saved.map fun t => { t with warps := t.warps.map fun w => { w with fabric := 0 } } } }

/-- Every fence marker has returned: the stores sent before are performed (09 R284). -/
def execFabricReleaseMarker (s : State) : Res := .next { s.releaseMarkers with markers := 0, engMarkers := [], fenceOut := [] }

def errFabricLost : Nat := 7

/-- A store lost in flight poisons its line at the peer, and its slice's error log records the loss (09 R285). -/
def execFabricStoreLost (slice pa : Nat) (s : State) : Res :=
  if pa < sysBase then .next s
  else match s.phys pa true with
    | .mem _ => .next ((s.engSpoil slice 1 (.glob pa 0)).logErr slice errFabricLost pa)
    | .nowhere => .next s

/-- A lane fails and its port retrains at 2 lanes; or the port fails, and its traffic takes the others (21 R435). -/
def execMioferLaneFail (port : Nat) (wholePort : Bool) (s : State) : Res :=
  .next { s with ports := lmod (fun p => if wholePort then 0 else min p 2) s.ports port }

end Sys2Proof.Machine
end

