-- ==== Sys2Proof/Machine/System.lean ====
section
/-! DEFINITION. Special registers and escalations: majors 0xD0 to 0xD2 (01 R15, R23, R24, R36, R37, R40; 07 R256-R259). -/

namespace Sys2Proof.Machine

/-! ### MFS (R23, R24, R256, R257) -/

/-- GROUPS: slot k at bit 16k (R24). -/
def groupsWord (g : List (Option (Nat × Nat))) : DWord :=
  BitVec.ofNat 64 ((g.mapIdx fun k x => match x with | some (n, m) => (n + m * 2 ^ 8 + 2 ^ 15) * 2 ^ (16 * k) | none => 0).sum)

/-- The entry of the part that holds the split's lowest lane (R445). -/
def Split.entry (p : Split) : DWord := ((p.parts.find? fun q => bit q.mask p.low).map (·.entry)).getD p.pc

/-- A special register as MFS reads it in a lane. -/
def specialReg (s : State) (v : View) (srn l : Nat) : DWord :=
  let w := v.wp
  match srn with
  | 0 => BitVec.ofNat 64 l
  | 1 => BitVec.ofNat 64 v.cur.warp
  | 2 => BitVec.ofNat 64 v.tm.teamid
  | 3 => BitVec.ofNat 64 v.tm.cu
  | 4 => BitVec.ofNat 64 (v.cur.slice % 16 + 16 * v.sl.fus)
  | 5 => groupsWord v.tm.groups
  | 6 => BitVec.ofNat 64 w.part
  | 7 => zext64 w.fpctl
  | 8 => zext64 w.fpstat
  | 9 => BitVec.ofNat 64 s.dtime
  | 10 => w.trappc
  | 11 => zext64 w.trapcause
  | 12 => w.trapinfo
  | 13 => w.trapvec
  | 14 => zext64 (w.origlane.getD l 0)
  | _ => v.sp.entry

def execMfs (h : Hdr) (srn : BitVec 8) (s : State) : Res :=
  start (.mfs h srn) s fun v act =>
    .next (s.result v v.wp h act fun l =>
      let d := specialReg s v srn.toNat l
      if Sig.srn64 srn.toNat then [loWord d, hiWord d] else [loWord d])

/-! ### MTS (R15, R36, R37, R258) -/

/-- A special register after a write: none where the value is not legal. Reserved bits are not kept. -/
def Warp.writeSpecial (w : Warp) (srn : Nat) (x : Word) : Option Warp :=
  match srn with
  | 6 => let p := x.toNat % 8
    if 1 ≤ p ∧ p ≤ 5 then some { w with part := p } else none
  | 7 => if x.toNat % 8 ≤ 4 then some { w with fpctl := x &&& 0x7EF } else none
  | _ => some { w with fpstat := x &&& 0x3F }

def execMts (h : Hdr) (srn : BitVec 8) (a : Src) (s : State) : Res :=
  let i := Instr.mts h srn a
  start i s fun v act =>
    if act = 0 then .next (s.done v v.wp)
    else match v.wp.writeSpecial srn.toNat (loWord (valOf i 0 v act (leadLane act))) with
      | none => .next (s.takeTrap v (illegal fldA))
      | some w => .next (s.doneC { v with wp := w } true)

/-! ### ESC (R259) and its answer (19 R382) -/

def execEsc (h : Hdr) (imm : Word) (s : State) : Res :=
  start (.esc h imm) s fun v act =>
    if act = 0 then .next (s.done v v.wp)
    else if v.sl.escs.length ≥ 64 then .next s
    else
      let inH := v.wp.handler.isSome
      let r : EscRec := { warp := v.ref, lane := leadLane act, addr := v.sp.pc, code := imm, inHandler := inH,
                          trappc := if inH then v.wp.trappc else 0, cause := if inH then v.wp.trapcause else 0,
                          info := if inH then v.wp.trapinfo else 0 }
      let (w, sp) := s.accept v v.wp
      let s1 := s.modSlice v.cur.slice fun x => { x with escs := x.escs ++ [r] }
      .next (s1.holdLanes v { w with escFrozen := inH } (sp.latch fun _ => 0) act .esc)

end Sys2Proof.Machine
end

