-- ==== Sys2Proof/Machine/Warps.lean ====
section
/-! DEFINITION. Steps of what a warp waits for: fills, wakes, timeouts, answers, and its end (01 R9, R42; 04 R131, R133; 06 R174,
R183, R189; 07 R259; 11 R294), and the stops (01 R34; 19 R384-R393). A step whose condition does not hold changes nothing. -/

namespace Sys2Proof.Machine

/-! ### Asynchronous loads (R174) -/

/-- Where one lane's access of an LDA goes: its location, a wait, or the kind of trap that LD would have raised. A register word is out
of bounds (01 R20). -/
def State.ldaLoc (s : State) (e : Agent) (lane : Nat) (ea : DWord) (m : MemFn) : State × Except (Option Nat) Loc :=
  match s.resolve (e.view s) (some lane) ea m.size.bytes m.space .lda false with
  | .ok x => (s, .ok x)
  | .error .wait => (s, .error none)
  | .error (.trap t) => (s, .error (some t.kind.code))
  | .error (.fault _ va ..) =>
    match s.engLoc e none (BitVec.ofNat 64 (va % 2 ^ 48)) m.size.bytes false with
    | (s1, .error .wait) => (s1, .error none)
    | (s1, _) => (s1, .error (some 6))

/-- The read of one lane of an LDA: what it gave, or none where it waits. A page of kind SO is not read. -/
def State.ldaLane (s : State) (e : Agent) (m : MemFn) (l : Nat) (ea : DWord) : State × Option LdaGot :=
  match s.ldaLoc e l ea m with
  | (s1, .error none) => (s1, none)
  | (s1, .error (some k)) => (s1, some (.failed k))
  | (s1, .ok x) =>
    if x.isSO then (s1, some (.failed 0))
    else match s1.readAs (e.view s1) (some l) ea m.size.bytes (throughFor m [(l, ea, x)]) x with
      | (s2, .error t) => (s2, some (.failed t.kind.code))
      | (s2, .ok d) => (s2, some (.datum d))

/-- Read the lanes of an LDA: those that wait, and what the others gave. -/
def State.ldaLanes (s : State) (e : Agent) (m : MemFn) : List (Nat × DWord) → State × List (Nat × DWord) × List (Nat × LdaGot)
  | [] => (s, [], [])
  | (l, ea) :: t =>
    let (s1, g) := s.ldaLane e m l ea
    let (s2, o, gs) := s1.ldaLanes e m t
    match g with
    | none => (s2, (l, ea) :: o, gs)
    | some g => (s2, o, (l, g) :: gs)

/-- Perform the reads of an LDA in flight that can be performed. -/
def State.ldaRead (s : State) (w : WarpRef) (flight : Nat) : State :=
  match s.flightOf w flight with
  | some { kind := .lda eas m got, .. } =>
    let (s1, open_, gs) := s.ldaLanes (s.producer w .c flight) m eas
    s1.modWarp w fun x => { x with flights := x.flights.map fun f => if f.id = flight then { f with kind := .lda open_ m (got ++ gs) } else f }
  | _ => s

/-- The failure of the lowest lane whose read failed. -/
def ldaFailed (got : List (Nat × LdaGot)) : Option Nat :=
  (List.range 32).findSome? fun l => match kget got l with | some (.failed k) => some k | _ => none

/-- The datum a lane read. -/
def ldaDatum (got : List (Nat × LdaGot)) (l : Nat) : Nat := match kget got l with | some (.datum d) => d | _ => 0

/-- An LDA fills once every lane has been read; a failed lane poisons its registers. -/
def execLdaFill (w : WarpRef) (flight : Nat) (s : State) : Res :=
  let s1 := s.ldaRead w flight
  match s1.flightOf w flight with
  | some { kind := .lda [] m got, .. } =>
    match ldaFailed got with
    | some k => .next (s1.fillWarp w (·.failFlight flight (failPoison 0x83 0 k)))
    | none => .next (s1.fillWarp w (·.fillFlight flight fun k l => (loadWords m.size (ldaDatum got l)).getD k 0))
  | _ => .next s1

/-- Perform what the LDAs of the acting split have not read yet, where it can be: its later accesses on path C come after (09 R268).
DEDUCED (log 73). -/
def State.performLdas (s : State) (v : View) : State :=
  (v.wp.flights.filter fun f => match f.kind with | .lda eas .. => eas.any fun x => bit v.sp.mask x.1 | _ => false).foldl
    (fun s f => s.ldaRead v.ref f.id) s

/-! ### Wakes and timeouts (R133, R183, R189) -/

/-- A split that issues or waits, not a frozen one (19 R379), by its lowest lane. -/
def State.splitAt (s : State) (r : SplitRef) : Option (Team × Warp × Split) :=
  match (s.slice r.slice).team r.team with
  | none => none
  | some t => match t.warp r.warp with
    | none => none
    | some w => ((w.front ++ w.wait).find? (·.low == r.lane)).map fun p => (t, w, p)

/-- Change one split of a warp by its lowest lane, then apply R12. -/
def State.modSplit (s : State) (r : SplitRef) (f : Split → Split) : State :=
  s.modTeam r.slice r.team fun t => t.modWarp r.warp fun w =>
    let g := fun (p : Split) => if p.low = r.lane then f p else p
    Warp.settle (s.markedFor r.slice t) { w with front := w.front.map g, wait := w.wait.map g }

def execWatchWake (r : SplitRef) (s : State) : Res :=
  match s.splitAt r with
  | some (_, _, { hold := .watch id, .. }) =>
    match s.watches.find? (·.id == id) with
    | some q =>
      let s1 := { s with watches := s.watches.filter (·.id != id) }
      if q.revoked then .next (s1.modSplit r fun p => { p with hold := .watchRevoked })
      else if q.hit then .next ((if q.wide then s1.l1Clear (s1.teamCu r.slice r.team) else s1).modSplit r Split.finish)
      else .next s
    | none => .next s
  | _ => .next s

/-- The watched word as it stands. -/
def State.watchedWord (s : State) (q : WatchReq) : DWord :=
  let k := watchBytes q.ty
  if q.addr ≥ kickKey 0 0 ∧ q.addr < kickKey 16 0 then
    let n := (q.addr - kickKey 0 0) / 4096
    BitVec.ofNat 64 (s.kickBytes (((s.slice q.warp.slice).anyTeam q.warp.team).map (·.vf) |>.getD 0) n ((q.addr - kickKey 0 0) % 4096) k)
  else BitVec.ofNat 64 (s.mem.readN q.addr k)

/-- Serve the queue of a bank, oldest first: a request whose comparison holds leaves it, the first other takes the free entry. -/
def State.serveBank (s : State) (bank : Nat) : List WatchReq → List WatchReq
  | [] => []
  | q :: t =>
    if q.entry || q.hit || q.obj.isSome || watchBank q.addr != bank then q :: s.serveBank bank t
    else if watchHolds q.cond q.ty (s.watchedWord q) q.value then { q with hit := true } :: s.serveBank bank t
    else { q with entry := true } :: t

def execWatchEntryFreed (bank : Nat) (s : State) : Res :=
  if s.bankFull bank then .next s else .next { s with watches := s.serveBank bank s.watches }

def execBarwTimeout (r : SplitRef) (s : State) : Res :=
  match s.splitAt r with
  | some (_, _, { hold := .barw _ _ (some t) .., .. }) =>
    if s.dtime < t then .next s
    else .next (s.modTeam r.slice r.team fun tm => tm.modWarp r.warp fun w =>
      w.endBarw (s.markedFor r.slice tm) (fun p => p.low == r.lane && match p.hold with | .barw .. => true | _ => false) false)
  | _ => .next s

def execSleepExpiry (r : SplitRef) (s : State) : Res :=
  match s.splitAt r with
  | some (_, _, { hold := .sleep t, .. }) => if s.dtime < t then .next s else .next (s.modSplit r Split.finish)
  | _ => .next s

/-! ### Answers to escalations (R259, R382, R385) -/

/-- The slice core answers its oldest escalation. The image of a saved warp keeps one answer: another waits until that one is applied. -/
def execEscalationAnswer (slice : Nat) (answer : EscAnswer) (s : State) : Res :=
  match (s.slice slice).escs with
  | [] => .next s
  | e :: rest =>
    let s1 := s.modSlice slice fun x => { x with escs := rest }
    match (s1.slice slice).team e.warp.team with
    | some t => match t.warp e.warp.warp with
      | none => .next s1
      | some w => match s1.answered slice t w e.inHandler e.lane answer with
        | some w1 => .next (s1.modWarp e.warp fun _ => w1)
        | none => .next (s1.kill e.warp)
    | none =>
      if (((s1.slice slice).anyTeam e.warp.team).bind (·.warp e.warp.warp)).any (·.escAnswer.isSome) then .next s
      else .next (s1.modAnyWarp e.warp fun w => { w with escAnswer := some answer, escOf := some (e.inHandler, e.lane) })

/-! ### Instruction lines (R42) -/

def execInstructionLineFill (slice cu seq : Nat) (s : State) : Res :=
  match (s.slice slice).fetches.find? fun f => f.cu == cu && f.seq == seq with
  | none => .next s
  | some f =>
    .next ((s.fillLine slice cu f.pa).modSlice slice fun x => { x with fetches := x.fetches.filter fun g => !(g.cu == cu && g.seq == seq) })

/-! ### The end of a warp and of a held scratchpad (R9, R131, R294) -/

def execWarpEnd (w : WarpRef) (s : State) : Res :=
  match s.warp w with
  | some x => if x.allExited && !x.anyPending && !x.ended then .next (s.endWarp w 0) else .next s
  | none => .next s

/-- The last command that held a scratchpad has ended: a departed team's store is free, and a save that waited goes on (19 R386). -/
def execHeldScratchpadFreed (slice team : Nat) (s : State) : Res :=
  if s.scratchHeld slice team then .next s
  else .next ((s.modSlice slice fun x => { x with held := x.held.filter (·.id != team) }).finishSave slice team)

/-! ### Stops (R34, R384-R387) -/

/-- The escapement pre-empts a team where its choice of 20 R415 takes it out for another, a quantum ends, or its save is awaited already;
one whose records would not fit in the save area is not pre-empted (R389). -/
def execPreemption (slice team : Nat) (s : State) : Res :=
  match (s.slice slice).team team with
  | some t =>
    if !s.saveFits slice t then .next s
    else if t.saveFrom.isSome then .next (s.finishSave slice team)
    else if (s.slice slice).drain ≥ 2 then
      (if s.stoppable slice t then .next (s.saveTeam slice team false) else .next (s.awaitSave slice team .stop))
    else if s.wantsOut slice team then .next (s.evict slice [team])
    else .next s
  | none => .next s

/-- A warp is killed between bound runs (R384); a saved one goes with its image. -/
def execKill (w : WarpRef) (s : State) : Res :=
  match ((s.slice w.slice).anyTeam w.team).bind (·.warp w.warp) with
  | some x => if x.ended || x.inRun then .next s else .next (s.kill w)
  | none => .next s

/-- A debug halt saves as pre-emption does, and keeps the image (R384). -/
def execDebugHalt (slice team : Nat) (s : State) : Res :=
  match (s.slice slice).team team with
  | some t => if !s.saveFits slice t then .next s
      else if s.stoppable slice t then .next (s.saveTeam slice team true) else .next (s.awaitSave slice team .halt)
  | none => .next (s.modSlice slice fun x => { x with saved := x.saved.map fun t => if t.id = team then { t with halted := true } else t })

/-- The debugger resumes a halted team, with the bytes of its image that it wrote (by their offsets in the save area): the escapement
may restore it. -/
def execDebugResume (slice team : Nat) (edits : List (Nat × Byte)) (s : State) : Res :=
  .next (s.modSlice slice fun x => { x with saved := x.saved.map fun t =>
    if t.id = team && t.halted then { (if edits.isEmpty && t.edits.isEmpty && t.headEdits.isEmpty then t else s.editImage slice t edits) with
      halted := false, edits := [], headEdits := [] } else t })

/-- Restore a saved team where it is the one that the escapement places next (R393; 20 R414). -/
def execTeamRestore (slice team : Nat) (s : State) : Res :=
  .next ((s.placement slice fun c => match c with | .saved t => t.id == team | _ => false).getD s)

/-! ### Commit-class completions (R34) -/

/-- A completion of accepted commit-class work reaches its register, in the image of a saved warp or in a running warp. -/
def execCommitCompletionArrival (w : WarpRef) (flight : Nat) (s : State) : Res :=
  match ((s.slice w.slice).anyTeam w.team).bind (·.warp w.warp) with
  | none => .next s
  | some x => match x.flights.find? (·.id == flight) with
    | some { kind := .engine (some v), .. } => .next (s.modAnyWarp w (·.fillFlight flight fun _ _ => v))
    | some f@{ kind := .rcq true .., .. } => .next (s.fillRcq w f)
    | _ => .next s

end Sys2Proof.Machine
end

