-- ==== Sys2Proof/Machine/Dispatch.lean ====
section
/-! DEFINITION. The dispatcher: one arm for each constructor of Instr, a direct call of its meaning. -/

namespace Sys2Proof.Machine

def exec (i : Instr) (s : State) : Host.Outcome State Fault Refusal :=
  match i with
  | .nop a => Sys2Proof.Machine.execNop a s
  | .mov a b c => Sys2Proof.Machine.execMov a b c s
  | .movi a b c => Sys2Proof.Machine.execMovi a b c s
  | .sel a b c d e => Sys2Proof.Machine.execSel a b c d e s
  | .iadd a b c => Sys2Proof.Machine.execIadd a b c s
  | .isub a b c => Sys2Proof.Machine.execIsub a b c s
  | .iadd64 a b c => Sys2Proof.Machine.execIadd64 a b c s
  | .isub64 a b c => Sys2Proof.Machine.execIsub64 a b c s
  | .imul a b c => Sys2Proof.Machine.execImul a b c s
  | .imulh a b c d => Sys2Proof.Machine.execImulh a b c d s
  | .imad a b c d => Sys2Proof.Machine.execImad a b c d s
  | .imad64 a b c d e => Sys2Proof.Machine.execImad64 a b c d e s
  | .idiv a b c d => Sys2Proof.Machine.execIdiv a b c d s
  | .irem a b c d => Sys2Proof.Machine.execIrem a b c d s
  | .imin a b c d => Sys2Proof.Machine.execImin a b c d s
  | .imax a b c d => Sys2Proof.Machine.execImax a b c d s
  | .iabs a b c => Sys2Proof.Machine.execIabs a b c s
  | .ineg a b c => Sys2Proof.Machine.execIneg a b c s
  | .iadds a b c d => Sys2Proof.Machine.execIadds a b c d s
  | .idot4 a b c d e f g => Sys2Proof.Machine.execIdot4 a b c d e f g s
  | .and a b c d => Sys2Proof.Machine.execAnd a b c d s
  | .or a b c d => Sys2Proof.Machine.execOr a b c d s
  | .xor a b c d => Sys2Proof.Machine.execXor a b c d s
  | .not a b c => Sys2Proof.Machine.execNot a b c s
  | .bool3 a b c d e f => Sys2Proof.Machine.execBool3 a b c d e f s
  | .shl a b c d => Sys2Proof.Machine.execShl a b c d s
  | .shr a b c d => Sys2Proof.Machine.execShr a b c d s
  | .sar a b c d => Sys2Proof.Machine.execSar a b c d s
  | .rot a b c d => Sys2Proof.Machine.execRot a b c d s
  | .fshl a b c d => Sys2Proof.Machine.execFshl a b c d s
  | .fshr a b c d => Sys2Proof.Machine.execFshr a b c d s
  | .bfe a b c d e => Sys2Proof.Machine.execBfe a b c d e s
  | .bfi a b c d => Sys2Proof.Machine.execBfi a b c d s
  | .popc a b c => Sys2Proof.Machine.execPopc a b c s
  | .clz a b c => Sys2Proof.Machine.execClz a b c s
  | .ctz a b c => Sys2Proof.Machine.execCtz a b c s
  | .brev a b c => Sys2Proof.Machine.execBrev a b c s
  | .bperm a b c d => Sys2Proof.Machine.execBperm a b c d s
  | .ipred a b c d e f g => Sys2Proof.Machine.execIpred a b c d e f g s
  | .icmp a b c d e => Sys2Proof.Machine.execIcmp a b c d e s
  | .lea a b c d e => Sys2Proof.Machine.execLea a b c d e s
  | .sxt a b c => Sys2Proof.Machine.execSxt a b c s
  | .zxt a b c => Sys2Proof.Machine.execZxt a b c s
  | .bra a b c => Sys2Proof.Machine.execBra a b c s
  | .brx a b c d => Sys2Proof.Machine.execBrx a b c d s
  | .jmp a b => Sys2Proof.Machine.execJmp a b s
  | .call a b c => Sys2Proof.Machine.execCall a b c s
  | .callx a b => Sys2Proof.Machine.execCallx a b s
  | .ret a b => Sys2Proof.Machine.execRet a b s
  | .exit a => Sys2Proof.Machine.execExit a s
  | .regn a b c d e => Sys2Proof.Machine.execRegn a b c d e s
  | .yield a => Sys2Proof.Machine.execYield a s
  | .sleep a b => Sys2Proof.Machine.execSleep a b s
  | .wait a b => Sys2Proof.Machine.execWait a b s
  | .rcall a b c d e => Sys2Proof.Machine.execRcall a b c d e s
  | .rret a b => Sys2Proof.Machine.execRret a b s
  | .bkpt a b => Sys2Proof.Machine.execBkpt a b s
  | .trap a b => Sys2Proof.Machine.execTrap a b s
  | .rte a b => Sys2Proof.Machine.execRte a b s
  | .pbool a b c d e => Sys2Proof.Machine.execPbool a b c d e s
  | .pmov a b c => Sys2Proof.Machine.execPmov a b c s
  | .poll a b c => Sys2Proof.Machine.execPoll a b c s
  | .lxch a b c d e => Sys2Proof.Machine.execLxch a b c d e s
  | .lred a b c d e => Sys2Proof.Machine.execLred a b c d e s
  | .lscan a b c d e f => Sys2Proof.Machine.execLscan a b c d e f s
  | .peers a b c d => Sys2Proof.Machine.execPeers a b c d s
  | .lead a => Sys2Proof.Machine.execLead a s
  | .partset a b => Sys2Proof.Machine.execPartset a b s
  | .lperm a b c d => Sys2Proof.Machine.execLperm a b c d s
  | .had a b c d => Sys2Proof.Machine.execHad a b c d s
  | .fadd a b c d => Sys2Proof.Machine.execFadd a b c d s
  | .fsub a b c d => Sys2Proof.Machine.execFsub a b c d s
  | .fmul a b c d => Sys2Proof.Machine.execFmul a b c d s
  | .ffma a b c d e => Sys2Proof.Machine.execFfma a b c d e s
  | .fscale a b c d => Sys2Proof.Machine.execFscale a b c d s
  | .fmin a b c => Sys2Proof.Machine.execFmin a b c s
  | .fmax a b c => Sys2Proof.Machine.execFmax a b c s
  | .fminn a b c => Sys2Proof.Machine.execFminn a b c s
  | .fmaxn a b c => Sys2Proof.Machine.execFmaxn a b c s
  | .fpred a b c d e f => Sys2Proof.Machine.execFpred a b c d e f s
  | .fcmp a b c d => Sys2Proof.Machine.execFcmp a b c d s
  | .fclass a b => Sys2Proof.Machine.execFclass a b s
  | .frnd a b c => Sys2Proof.Machine.execFrnd a b c s
  | .fexp a b => Sys2Proof.Machine.execFexp a b s
  | .fcopysign a b c => Sys2Proof.Machine.execFcopysign a b c s
  | .pkaddh a b c d => Sys2Proof.Machine.execPkaddh a b c d s
  | .pkmulh a b c d => Sys2Proof.Machine.execPkmulh a b c d s
  | .pkfmah a b c d e => Sys2Proof.Machine.execPkfmah a b c d e s
  | .pkfmab a b c d e => Sys2Proof.Machine.execPkfmab a b c d e s
  | .pkdoth a b c d e f => Sys2Proof.Machine.execPkdoth a b c d e f s
  | .b8dot4 a b c d e f g => Sys2Proof.Machine.execB8dot4 a b c d e f g s
  | .dadd a b c d => Sys2Proof.Machine.execDadd a b c d s
  | .dmul a b c d => Sys2Proof.Machine.execDmul a b c d s
  | .dfma a b c d e => Sys2Proof.Machine.execDfma a b c d e s
  | .dpred a b c d e f => Sys2Proof.Machine.execDpred a b c d e f s
  | .cvt a b c d e f => Sys2Proof.Machine.execCvt a b c d e f s
  | .cvtc a b c d e f g k => Sys2Proof.Machine.execCvtc a b c d e f g k s
  | .pack8 a b c d e f g k => Sys2Proof.Machine.execPack8 a b c d e f g k s
  | .unpack8 a b c d => Sys2Proof.Machine.execUnpack8 a b c d s
  | .rcp a b => Sys2Proof.Machine.execRcp a b s
  | .rsq a b => Sys2Proof.Machine.execRsq a b s
  | .sqrt a b c => Sys2Proof.Machine.execSqrt a b c s
  | .exp2 a b => Sys2Proof.Machine.execExp2 a b s
  | .log2 a b => Sys2Proof.Machine.execLog2 a b s
  | .sin a b => Sys2Proof.Machine.execSin a b s
  | .cos a b => Sys2Proof.Machine.execCos a b s
  | .tanh a b => Sys2Proof.Machine.execTanh a b s
  | .sigm a b => Sys2Proof.Machine.execSigm a b s
  | .act a b c => Sys2Proof.Machine.execAct a b c s
  | .softmaxIdiom a b c d e f g k => Sys2Proof.Machine.execSoftmaxIdiom a b c d e f g k s
  | .ld a b c d => Sys2Proof.Machine.execLd a b c d s
  | .st a b c d e => Sys2Proof.Machine.execSt a b c d e s
  | .ldu a b c d => Sys2Proof.Machine.execLdu a b c d s
  | .lda a b c d => Sys2Proof.Machine.execLda a b c d s
  | .pref a b c d => Sys2Proof.Machine.execPref a b c d s
  | .ipref a b c => Sys2Proof.Machine.execIpref a b c s
  | .l1Inv a b c d => Sys2Proof.Machine.execL1Inv a b c d s
  | .l1InvAll a b => Sys2Proof.Machine.execL1InvAll a b s
  | .l2Wb a b c d => Sys2Proof.Machine.execL2Wb a b c d s
  | .l2WbInv a b c d => Sys2Proof.Machine.execL2WbInv a b c d s
  | .icInv a b c d => Sys2Proof.Machine.execIcInv a b c d s
  | .icInvAll a b => Sys2Proof.Machine.execIcInvAll a b s
  | .atom a b c d e f g => Sys2Proof.Machine.execAtom a b c d e f g s
  | .atomc a b c d e f => Sys2Proof.Machine.execAtomc a b c d e f s
  | .red a b c d e f g => Sys2Proof.Machine.execRed a b c d e f g s
  | .fence a b c d => Sys2Proof.Machine.execFence a b c d s
  | .watch a b c d e f g => Sys2Proof.Machine.execWatch a b c d e f g s
  | .bari a b c => Sys2Proof.Machine.execBari a b c s
  | .bara a b c d e => Sys2Proof.Machine.execBara a b c d e s
  | .barw a b c d => Sys2Proof.Machine.execBarw a b c d s
  | .bart a b c d e f => Sys2Proof.Machine.execBart a b c d e f s
  | .tbar a => Sys2Proof.Machine.execTbar a s
  | .gjoin a b => Sys2Proof.Machine.execGjoin a b s
  | .gleave a b => Sys2Proof.Machine.execGleave a b s
  | .gbar a b => Sys2Proof.Machine.execGbar a b s
  | .gqry a b c => Sys2Proof.Machine.execGqry a b c s
  | .cpy a b c d e => Sys2Proof.Machine.execCpy a b c d e s
  | .cpyw a b c => Sys2Proof.Machine.execCpyw a b c s
  | .cpyc a b c => Sys2Proof.Machine.execCpyc a b c s
  | .tsub a b c => Sys2Proof.Machine.execTsub a b c s
  | .tokenQuery a b => Sys2Proof.Machine.execTokenQuery a b s
  | .tokenSignal a b => Sys2Proof.Machine.execTokenSignal a b s
  | .tokenCancel a b => Sys2Proof.Machine.execTokenCancel a b s
  | .capp a b c d => Sys2Proof.Machine.execCapp a b c d s
  | .quies a b => Sys2Proof.Machine.execQuies a b s
  | .dcmp a b c => Sys2Proof.Machine.execDcmp a b c s
  | .tbld a b c d => Sys2Proof.Machine.execTbld a b c d s
  | .tex a b c d e f g k => Sys2Proof.Machine.execTex a b c d e f g k s
  | .tld a b c d e f => Sys2Proof.Machine.execTld a b c d e f s
  | .tqry a b c d => Sys2Proof.Machine.execTqry a b c d s
  | .trace a b c d e => Sys2Proof.Machine.execTrace a b c d e s
  | .thit a b c => Sys2Proof.Machine.execThit a b c s
  | .ringAcquire a => Sys2Proof.Machine.execRingAcquire a s
  | .ringRelease a b => Sys2Proof.Machine.execRingRelease a b s
  | .emit a b c d e => Sys2Proof.Machine.execEmit a b c d e s
  | .vrd a b => Sys2Proof.Machine.execVrd a b s
  | .pxw a b => Sys2Proof.Machine.execPxw a b s
  | .rcq a b c => Sys2Proof.Machine.execRcq a b c s
  | .rct a b c => Sys2Proof.Machine.execRct a b c s
  | .rcstep a b => Sys2Proof.Machine.execRcstep a b s
  | .rcpub a => Sys2Proof.Machine.execRcpub a s
  | .rcrd a b c => Sys2Proof.Machine.execRcrd a b c s
  | .rccfg a b => Sys2Proof.Machine.execRccfg a b s
  | .gcfg a b c d e => Sys2Proof.Machine.execGcfg a b c d e s
  | .gld a b => Sys2Proof.Machine.execGld a b s
  | .gclmp a b => Sys2Proof.Machine.execGclmp a b s
  | .gswp a b => Sys2Proof.Machine.execGswp a b s
  | .grd a b c => Sys2Proof.Machine.execGrd a b c s
  | .gstat a => Sys2Proof.Machine.execGstat a s
  | .mfs a b => Sys2Proof.Machine.execMfs a b s
  | .mts a b c => Sys2Proof.Machine.execMts a b c s
  | .esc a b => Sys2Proof.Machine.execEsc a b s
  | .ldaFill a b => Sys2Proof.Machine.execLdaFill a b s
  | .watchWake a => Sys2Proof.Machine.execWatchWake a s
  | .watchEntryFreed a => Sys2Proof.Machine.execWatchEntryFreed a s
  | .barwTimeout a => Sys2Proof.Machine.execBarwTimeout a s
  | .sleepExpiry a => Sys2Proof.Machine.execSleepExpiry a s
  | .texFill a b => Sys2Proof.Machine.execTexFill a b s
  | .traceFill a b => Sys2Proof.Machine.execTraceFill a b s
  | .rcqFill a b => Sys2Proof.Machine.execRcqFill a b s
  | .copyElementLanding a b c => Sys2Proof.Machine.execCopyElementLanding a b c s
  | .copyComplete a b c => Sys2Proof.Machine.execCopyComplete a b c s
  | .taskStart a => Sys2Proof.Machine.execTaskStart a s
  | .taskKBlock a b => Sys2Proof.Machine.execTaskKBlock a b s
  | .taskComplete a b => Sys2Proof.Machine.execTaskComplete a b s
  | .quiescence a b => Sys2Proof.Machine.execQuiescence a b s
  | .dcmpComplete a b c => Sys2Proof.Machine.execDcmpComplete a b c s
  | .tableFlip a b c => Sys2Proof.Machine.execTableFlip a b c s
  | .optimiserStep a => Sys2Proof.Machine.execOptimiserStep a s
  | .stepDeadlineExpiry a => Sys2Proof.Machine.execStepDeadlineExpiry a s
  | .radianceCommandComplete a => Sys2Proof.Machine.execRadianceCommandComplete a s
  | .gibbsSweep a => Sys2Proof.Machine.execGibbsSweep a s
  | .gswpComplete a => Sys2Proof.Machine.execGswpComplete a s
  | .gibbsCommandComplete a => Sys2Proof.Machine.execGibbsCommandComplete a s
  | .entropyFailureTimeout a => Sys2Proof.Machine.execEntropyFailureTimeout a s
  | .entropySourceRecovery a => Sys2Proof.Machine.execEntropySourceRecovery a s
  | .escalationAnswer a b => Sys2Proof.Machine.execEscalationAnswer a b s
  | .instructionLineFill a b c => Sys2Proof.Machine.execInstructionLineFill a b c s
  | .warpEnd a => Sys2Proof.Machine.execWarpEnd a s
  | .heldScratchpadFreed a b => Sys2Proof.Machine.execHeldScratchpadFreed a b s
  | .preemption a b => Sys2Proof.Machine.execPreemption a b s
  | .kill a => Sys2Proof.Machine.execKill a s
  | .debugHalt a b => Sys2Proof.Machine.execDebugHalt a b s
  | .debugResume a b c => Sys2Proof.Machine.execDebugResume a b c s
  | .teamRestore a b => Sys2Proof.Machine.execTeamRestore a b s
  | .commitCompletionArrival a b => Sys2Proof.Machine.execCommitCompletionArrival a b s
  | .faultAckReplay a b => Sys2Proof.Machine.execFaultAckReplay a b s
  | .faultAckFail a b => Sys2Proof.Machine.execFaultAckFail a b s
  | .translationWalk a b c d e f => Sys2Proof.Machine.execTranslationWalk a b c d e f s
  | .xlinvGo a b c => Sys2Proof.Machine.execXlinvGo a b c s
  | .xlinvComplete a => Sys2Proof.Machine.execXlinvComplete a s
  | .scrubRow a b c => Sys2Proof.Machine.execScrubRow a b c s
  | .kickWordWrite a b c => Sys2Proof.Machine.execKickWordWrite a b c s
  | .packetLaunch a b => Sys2Proof.Machine.execPacketLaunch a b s
  | .packetRender a b => Sys2Proof.Machine.execPacketRender a b s
  | .packetFrame a b => Sys2Proof.Machine.execPacketFrame a b s
  | .packetWaitv a b => Sys2Proof.Machine.execPacketWaitv a b s
  | .waitvEvaluation a b => Sys2Proof.Machine.execWaitvEvaluation a b s
  | .packetSigv a b => Sys2Proof.Machine.execPacketSigv a b s
  | .packetNode a b => Sys2Proof.Machine.execPacketNode a b s
  | .packetTaskring a b => Sys2Proof.Machine.execPacketTaskring a b s
  | .packetInvalidKind a b => Sys2Proof.Machine.execPacketInvalidKind a b s
  | .packetCompletion a b c => Sys2Proof.Machine.execPacketCompletion a b c s
  | .teamPlacement a => Sys2Proof.Machine.execTeamPlacement a s
  | .coLaunchCheck a => Sys2Proof.Machine.execCoLaunchCheck a s
  | .deadlineMiss a b => Sys2Proof.Machine.execDeadlineMiss a b s
  | .collatorTimerExpiry a b => Sys2Proof.Machine.execCollatorTimerExpiry a b s
  | .regroupTimerExpiry a b => Sys2Proof.Machine.execRegroupTimerExpiry a b s
  | .poolFullLaunch a => Sys2Proof.Machine.execPoolFullLaunch a s
  | .collatorLaunchPlaced a => Sys2Proof.Machine.execCollatorLaunchPlaced a s
  | .binningSlotRead a => Sys2Proof.Machine.execBinningSlotRead a s
  | .partialRender a => Sys2Proof.Machine.execPartialRender a s
  | .tileLoadComplete a b => Sys2Proof.Machine.execTileLoadComplete a b s
  | .tileResolveComplete a b => Sys2Proof.Machine.execTileResolveComplete a b s
  | .tileShadingComplete a b => Sys2Proof.Machine.execTileShadingComplete a b s
  | .tileWriteOut a b => Sys2Proof.Machine.execTileWriteOut a b s
  | .tileAnnounce a b => Sys2Proof.Machine.execTileAnnounce a b s
  | .renderPreemption a => Sys2Proof.Machine.execRenderPreemption a s
  | .encoderTileTake a => Sys2Proof.Machine.execEncoderTileTake a s
  | .accessUnitWrite a b c => Sys2Proof.Machine.execAccessUnitWrite a b c s
  | .accessUnitSend a => Sys2Proof.Machine.execAccessUnitSend a s
  | .encctlEnWrite a b => Sys2Proof.Machine.execEncctlEnWrite a b s
  | .encrpWrite a b => Sys2Proof.Machine.execEncrpWrite a b s
  | .groupOpenWrite a b c => Sys2Proof.Machine.execGroupOpenWrite a b c s
  | .icinvWrite a b => Sys2Proof.Machine.execIcinvWrite a b s
  | .queueDescriptorWrite a b c => Sys2Proof.Machine.execQueueDescriptorWrite a b c s
  | .accessControlWrite a b c => Sys2Proof.Machine.execAccessControlWrite a b c s
  | .registerWrite a b c => Sys2Proof.Machine.execRegisterWrite a b c s
  | .leaseGo a => Sys2Proof.Machine.execLeaseGo a s
  | .leaseEnginesPassed a => Sys2Proof.Machine.execLeaseEnginesPassed a s
  | .leaseReclaim a => Sys2Proof.Machine.execLeaseReclaim a s
  | .leaseFieldWrite a b c => Sys2Proof.Machine.execLeaseFieldWrite a b c s
  | .meterEmpty a => Sys2Proof.Machine.execMeterEmpty a s
  | .leaseExpiry a => Sys2Proof.Machine.execLeaseExpiry a s
  | .leaseRevocation a => Sys2Proof.Machine.execLeaseRevocation a s
  | .sliceError a b => Sys2Proof.Machine.execSliceError a b s
  | .hangTimeout a b => Sys2Proof.Machine.execHangTimeout a b s
  | .sliceResetRequest a => Sys2Proof.Machine.execSliceResetRequest a s
  | .sliceReset a => Sys2Proof.Machine.execSliceReset a s
  | .sliceResetComplete a b => Sys2Proof.Machine.execSliceResetComplete a b s
  | .fuseTwo a => Sys2Proof.Machine.execFuseTwo a s
  | .fuseFour a => Sys2Proof.Machine.execFuseFour a s
  | .split a => Sys2Proof.Machine.execSplit a s
  | .fusionComplete a => Sys2Proof.Machine.execFusionComplete a s
  | .sliceVfWrite a b => Sys2Proof.Machine.execSliceVfWrite a b s
  | .sliceFmhzWrite a b => Sys2Proof.Machine.execSliceFmhzWrite a b s
  | .quantumExpiry a => Sys2Proof.Machine.execQuantumExpiry a s
  | .timeSharingStart a b c => Sys2Proof.Machine.execTimeSharingStart a b c s
  | .vfEnableClear => Sys2Proof.Machine.execVfEnableClear s
  | .vfEnableSet => Sys2Proof.Machine.execVfEnableSet s
  | .functionLevelReset a => Sys2Proof.Machine.execFunctionLevelReset a s
  | .linkDown => Sys2Proof.Machine.execLinkDown s
  | .linkTrained => Sys2Proof.Machine.execLinkTrained s
  | .hostBarAccess a b c d e => Sys2Proof.Machine.execHostBarAccess a b c d e s
  | .fabricAccessArrival a b c d => Sys2Proof.Machine.execFabricAccessArrival a b c d s
  | .fabricReleaseMarker => Sys2Proof.Machine.execFabricReleaseMarker s
  | .fabricStoreLost a b => Sys2Proof.Machine.execFabricStoreLost a b s
  | .mioferLaneFail a b => Sys2Proof.Machine.execMioferLaneFail a b s
  | .networkCommandAccess a b c d e => Sys2Proof.Machine.execNetworkCommandAccess a b c d e s
  | .ptpCorrection a => Sys2Proof.Machine.execPtpCorrection a s
  | .grandmasterLoss a => Sys2Proof.Machine.execGrandmasterLoss a s
  | .bootImageVerify a b c => Sys2Proof.Machine.execBootImageVerify a b c s
  | .attestationRequest a => Sys2Proof.Machine.execAttestationRequest a s
  | .managementRequest a => Sys2Proof.Machine.execManagementRequest a s
  | .powerUp => Sys2Proof.Machine.execPowerUp s
  | .railFault a => Sys2Proof.Machine.execRailFault a s
  | .perst => Sys2Proof.Machine.execPerst s
  | .warmReset => Sys2Proof.Machine.execWarmReset s
  | .thermtrip => Sys2Proof.Machine.execThermtrip s
  | .thermalThrottle a b => Sys2Proof.Machine.execThermalThrottle a b s
  | .powerCapThrottle a => Sys2Proof.Machine.execPowerCapThrottle a s
  | .powerDown => Sys2Proof.Machine.execPowerDown s
  | .throttleEnd a => Sys2Proof.Machine.execThrottleEnd a s
  | .atsInvalidationRequest a b c => Sys2Proof.Machine.execAtsInvalidationRequest a b c s

end Sys2Proof.Machine
end

