-- ==== Sys2Proof/Machine/Issue.lean ====
section
/-! DEFINITION. Fetching, decoding and choosing what issues (01 R30, R41-R43; 03 R86-R89; 05 R166; 19 R401), and one turn. -/

namespace Sys2Proof.Machine

/-! ### Line checks (03 R87, R88) -/

def evenOnes (n : Nat) : Bool := ((List.range 97).filter (nbit n)).length % 2 == 0

/-- SPAR and LPAR agree with the line's bits. -/
def parityOk (b : List Byte) : Bool :=
  let lw := lineWord b
  (List.range 5).all (fun i => evenOnes (2 * (lineSlot b i).toNat + (if nbit lw (9 + i) then 1 else 0)))
  && evenOnes (lw % 2 ^ 15)

/-- The line word breaks no rule of R88. -/
def lineOk (b : List Byte) : Bool :=
  let lw := lineWord b
  bits lw 15 17 == 0 && (List.range 4).all fun i => !(nbit lw (i + 1) && nbit lw (5 + i))

/-! ### Fetch -/

/-- What a fetch gives: the line, a wait, or a trap taken. -/
inductive Fetched where
  | line (s : State) (b : List Byte)
  | wait (s : State) (moved : Bool)
  | trapped (s : State)

/-- A trap met at the fetch; at an address where RTE resumed, it is a double fault (19 R383). -/
def State.fetchTrap (s : State) (v : View) (t : Trap) : State :=
  if v.sp.resumed then s.doubleFault v.ref t.cause t.info v.sp.pc else s.takeTrap v t

/-- Fetch the line of the acting split's counter and check it (03 R88, R89). DEDUCED (log 69): poison in the line is a poisoned-operand trap
at the instruction fetched, as its consumer (20 R422), and the line is not kept. -/
def State.fetch (s : State) (v : View) : Fetched :=
  let n := v.cur.slice
  let cu := v.tm.cu
  let pc := v.sp.pc
  match s.lineAddr n v.tm.vf cu pc with
  | .kind3 => .trapped (s.fetchTrap v { kind := .ordKind, info := pc })
  | .fault sub replay =>
    let failed := !replay || v.sp.hold == .faultFailed (pc.toNat / 4096 * 4096)
    if failed && v.sp.resumed then .trapped (s.fetchTrap v (pageTrap none (if replay then 4 else sub) pc.toNat))
    else if failed then .trapped (s.meetFault v none pc.toNat .c false true sub replay)
    else .wait (s.meetFault v none pc.toNat .c false true sub replay) ((s.slice n).faults.length < 4096)
  | .ok pa _ =>
    if v.sp.hold == .faultFailed (pc.toNat / 4096 * 4096) then .trapped (s.fetchTrap v (pageTrap none 4 pc.toNat))
    else match (s.slice n).ilineAt cu pa with
    | none =>
      .wait (s.modSlice n fun x =>
        { x with fetches := x.fetches ++ [{ cu := cu, seq := v.wp.seq, pa := pa }],
                 counters := lmod (· + 1) x.counters 0 }) true
    | some l =>
      let again := !l.bad && !parityOk l.bytes
      let s1 := if again then s.fillLine n cu pa else s
      let b := if again then (s.lineRead pa).1 else l.bytes
      let lineA : DWord := pcLine pc
      if (if again then (s.lineRead pa).2 else l.bad) then
        .trapped (((s1.modSlice n fun x => x.loseLine cu pa).noteError n (.poison pa)).fetchTrap v (poisonData none lineA))
      else if !parityOk b then .trapped (s1.fetchTrap v { kind := .lineParity, info := lineA })
      else if !lineOk b then .trapped (s1.fetchTrap v { kind := .illegalLine, info := lineA })
      else match v.sp.check with
        | some a =>
          if !pcLegal a || !lineMarked b (pcSlot a) then .trapped (s1.takeTrap v { kind := .branchTarget, info := a })
          else .line s1 b
        | none => .line s1 b

/-! ### Decode in the line -/

/-- The word before a slot 0, where the line before can be read. -/
def State.prevWord (s : State) (v : View) : Option IWord :=
  (s.lineBytes v.cur.slice v.tm.vf v.tm.cu (pcLine v.sp.pc - 64)).map fun b => lineSlot b 4

/-- Decode the instruction at the acting split's counter. -/
def State.decodeAt (s : State) (v : View) (b : List Byte) : Decoded :=
  decodeSlot v.wp.n (lineSlot b) (lineBind b) (lineMarked b) (if pcSlot v.sp.pc = 0 then s.prevWord v else none) (pcSlot v.sp.pc)

/-- The instruction `k` slots after slot `i` of a line, with its mark and bind bits, from the next line where it crosses. -/
def slotsFrom (b next : List Byte) (i k : Nat) : IWord × Bool × Bool :=
  if i + k < 5 then (lineSlot b (i + k), lineMarked b (i + k), lineBind b (i + k))
  else (lineSlot next (i + k - 5), lineMarked next (i + k - 5), lineBind next (i + k - 5))

/-- A line as a fetch would accept it: a cached copy whose parity fails is read again (03 R88). -/
def State.acceptedLine (s : State) (n vf cu : Nat) (pc : DWord) : Option (List Byte) :=
  match s.lineAddr n vf cu pc with
  | .ok pa _ =>
    let m := s.lineRead pa
    let again := if m.2 then none else some m.1
    match (s.slice n).ilineAt cu pa with
    | some l => if l.bad then none else if parityOk l.bytes then some l.bytes else again.filter parityOk
    | none => again.filter parityOk
  | _ => none

/-- The softmax idiom at a counter (05 R166). The register of I4 is not bounded there: one at or above N makes the idiom trap. -/
def State.idiomAt (s : State) (v : View) (b : List Byte) : Option Instr :=
  let i := pcSlot v.sp.pc
  let next := ((s.acceptedLine v.cur.slice v.tm.vf v.tm.cu (pcLine v.sp.pc + 64)).filter lineOk).getD []
  let at_ := slotsFrom b next i
  let dec := fun n k => match decodeWord n (at_ k).1 with | .ok x => some x | .bad _ => none
  match dec v.wp.n 0, dec v.wp.n 1, dec v.wp.n 2, dec 256 3 with
  | some (.lred h1 .f32 _ .max a1), some (.fsub h2 rs a2 b2), some (.exp2 h3 a3), some (.lred h4 .f32 ra .add a4) =>
    let plain := fun (x : Src) => x.perm == .none && !x.neg && !x.abs
    let same := fun (h : Hdr) => h.guard == h1.guard && !h.u && !h.ws
    match h1.dst, a1.base, h2.dst, a2.base, b2.base, h3.dst, a3.base, h4.dst, a4.base with
    | .vec vm, .vec vx, .vec vd, .vec x2, .vec m2, .vec ve, .vec d3, .vec vs, .vec e4 =>
      if [a1, a2, b2, a3, a4].all plain && [h1, h2, h3, h4].all same && x2 == vx && m2 == vm && d3 == vd && e4 == ve && vx != vm && ve.toNat < v.wp.n
          && !(at_ 1).2.1 && !(at_ 2).2.1 && !(at_ 3).2.1 && !(at_ 0).2.2 && !(at_ 1).2.2 && !(at_ 2).2.2
      then some (.softmaxIdiom h1 rs ra vx vm vd ve vs) else none
    | _, _, _, _, _, _, _, _, _ => none
  | _, _, _, _ => none

/-- A run that begins here waits until every register source of it is full (01 R30). -/
def runBlocked (v : View) (b : List Byte) : Bool :=
  v.sp.run.isNone && lineBind b (pcSlot v.sp.pc) && runPending v.wp b (pcSlot v.sp.pc)

/-- The split as it stands when the instruction issues: its bound run opened or continued. -/
def Split.opening (p : Split) (bound : Bool) : Split :=
  { p with run := match p.run with
      | some r => some { r with last := !bound }
      | none => if bound then some {} else none }

/-! ### Issue -/

/-- The key of a split in the rotation of its sequencer. -/
def splitKey (w : Warp) (p : Split) : Nat := w.slot * 32 + p.low

/-- What a release that has completed leaves beside its own effect: its split's writes are released to path G, and at system scope the
root port has accepted those to host memory (07 R223; 09 R272, R286). -/
def State.released (s : State) (i : Instr) (v : View) : State :=
  let s1 := if i.releases then s.gRelease v.ref v.sp.mask else s
  if i.releasesSys then s1.accepted v.ref v.sp.mask else s1

/-- The acting warp with its split held for fence markers. -/
def Warp.awaitingMarker (w : Warp) (idx : Nat) (p : Split) : Warp := { w with front := w.front.set idx { p with hold := .marker } }

/-- Issue for one split: the outcome, and whether anything happened (a stalled split leaves the clock to another). -/
def issueAt (s : State) (c : Cursor) : Res × Bool :=
  let s := { s with cur := some c }
  match s.view with
  | none => (.next s, false)
  | some v =>
    match s.fetch v with
    | .wait s1 moved => (.next s1, moved)
    | .trapped s1 => (.next s1, true)
    | .line s1 b =>
      match s1.decodeAt v b with
      | .bad f => (.next (s1.takeTrap v (illegal f)), true)
      | .ok i =>
        if runBlocked v b then (.next s1, false)
        else
          let i := (s1.idiomAt v b).getD i
          let s0 := s1
          let s1 := if i.afterLdas then s1.performLdas v else s1
          let read := i.afterLdas && v.wp.ldaOpen v.sp.mask
            && ((s1.warp v.ref).map (·.flights) != some v.wp.flights || (s1.slice c.slice).faults != (s0.slice c.slice).faults)
          let v := s1.review v
          let p := v.sp.opening (lineBind b (pcSlot v.sp.pc))
          let w := { v.wp with front := v.wp.front.set c.split p }
          let s2 := (s1.putWarp v w).setRotor c.slice v.tm.cu w.seq (splitKey w p)
          match exec i s2 with
          | .next s3 => if s3.warp v.ref = some w then (.next s1, read)
            else if s3.warp v.ref = some (w.awaitingMarker c.split p) then (.next s3, true)
            else (.next (s3.released i v), true)
          | r => (r, true)

/-- A bound run is open in the split, and instructions of it are still to issue (01 R30). -/
def Split.runOpen (p : Split) : Bool := match p.run with | some r => !(r.last && p.hold != .none) | none => false

/-- The splits a sequencer may choose among, with their urgency and rotation key: while a bound run is open, only its own (01 R30). A slice
that resets or is out of service, or whose function leaves, issues nothing (20 R423; DESIGN CHOICE, log 84). -/
def State.candidates (s : State) (n cu seq : Nat) : List (Cursor × Nat × Nat) :=
  let x := s.slice n
  let ptr := (kget x.rotor (4 * cu + seq)).getD 0
  let mine := x.teams.filter (·.cu == cu)
  let busy := mine.any fun t => t.warps.any fun w => w.seq == seq && !w.ended && w.front.any (·.runOpen)
  let one := fun (t : Team) (wi : Nat) (w : Warp) =>
    if w.ended || w.escFrozen || t.halted || w.seq != seq || x.st = 3 || x.st = 4 || x.leaving || t.saveFrom.isSome && !w.front.any (·.runOpen) then []
    else
      let live := w.front.mapIdx (fun k p => (k, p)) |>.filter fun kp =>
        (match kp.2.hold with | .none | .faultFailed _ | .watchRevoked => true | _ => false) && (!busy || kp.2.runOpen)
      live.map fun kp =>
        let key := splitKey w kp.2
        (({ slice := n, team := t.id, warp := wi, split := kp.1 } : Cursor),
          (x.queue t.queue).urgency, if key > ptr then key else key + 2 ^ 16)
  let all := mine.map fun t => (t.warps.mapIdx (one t)).flatten
  isort (fun a b => a.2.1 < b.2.1 || (a.2.1 == b.2.1 && a.2.2 ≤ b.2.2)) all.flatten

/-- Try the candidates in order until one issues. -/
def issueFirst (s : State) : List (Cursor × Nat × Nat) → Option Res
  | [] => none
  | c :: cs => match issueAt s c.1 with
    | (r, true) => some r
    | (_, false) => issueFirst s cs

/-- One clock of a sequencer (01 R41); frozen while a line is on its way (01 R42). -/
def issueOn (s : State) (n cu seq : Nat) : Option Res :=
  if (s.slice n).fetches.any (fun f => f.cu == cu && f.seq == seq) then none
  else issueFirst s (s.candidates n cu seq)

/-- With no turn on the agenda, the first sequencer that can issue does. -/
def issueAny (s : State) : Option Res :=
  let seqs := (List.range s.slices.length).map fun n =>
    ((s.slice n).teams.map fun t => (t.warps.filter (!·.ended)).map fun w => (n, t.cu, w.seq)).flatten
  seqs.flatten.findSome? fun x => issueOn s x.1 x.2.1 x.2.2

/-- One turn of the agenda. -/
def runTurn (s : State) : Turn → Res
  | .event i => exec i { s with cur := none }
  | .issue n cu seq => (issueOn s n cu seq).getD (.next s)

/-- DTIME advances, slewed by at most 200 ppm (21 R436); it never decreases (01 R23). -/
def State.passTime (s : State) (dt : Nat) : State :=
  let most : Int := (dt * 200 / 1000000 : Nat)
  let adj := if s.slew < 0 then max s.slew (-most) else min s.slew most
  { s with dtime := s.dtime + ((dt : Int) + adj).toNat, slew := s.slew - adj, tick := s.tick + 1 }

/-- Time passes, then the next turn is taken. -/
def takeTurn (s : State) : Res :=
  match s.agenda with
  | (dt, t) :: rest => runTurn { s.passTime dt with agenda := rest } t
  | [] =>
    let s1 := s.passTime (Config.elapsed s.tick)
    (issueAny s1).getD (.next s1)

/-! ### Placing one instruction (for `State.withFetchWord`) -/

/-- A line with one instruction in slot 0, its parity bits right and slot 0 marked. -/
def wordLine (w : IWord) : List Byte :=
  let spar := if evenOnes w.toNat then 0 else 2 ^ 9
  let low := 1 + spar
  let lw := if evenOnes low then low else low + 2 ^ 14
  leBytes 4 lw ++ leBytes 12 w.toNat ++ List.replicate 48 0

/-- The page that holds the placed line, mapped by a TLB entry of function 0. -/
def placedTeam (id : Nat) : Team :=
  { id := id, launch := 0, queue := 0, graph := 0, teamid := 0, cu := 0, pin := none, n := 256, scratchSize := 65536,
    warps := [{ n := 256, vregs := List.replicate 256 {}, origlane := (List.range 32).map (BitVec.ofNat 32),
                origin := List.replicate 32 0,
                front := [{ pc := 0x10004, mask := BitVec.allOnes 32,
                            parts := [{ entry := 0x10004, mask := BitVec.allOnes 32 }] }] }] }

/-- The word in slot 0 of the line at 0x10000 in the instruction cache, mapped, and a team of one warp standing there. -/
def State.placeWord (s : State) (w : IWord) : State :=
  let s1 := s.modSlice 0 fun x =>
    { x with st := 1
             tlb := { vf := 0, cu := none, page := 0x10000, size := 0x10000, pa := 0x10000, w := true, x := true, ok := 0, nr := false } :: x.tlb
             icache := { cu := 0, pa := 0x10000, bytes := wordLine w } :: x.icache.filter fun l => !(l.cu == 0 && l.pa == 0x10000)
             fetches := []
             launches := { id := s.nextId + 1, queue := 0, kind := .packet, krec := {}, total := 1, placed := 1 } :: x.launches
             teams := [{ placedTeam s.nextId with launch := s.nextId + 1 }] }
  { s1 with nextId := s.nextId + 2, agenda := (0, .issue 0 0 0) :: s1.agenda }

end Sys2Proof.Machine
end

