-- ==== Sys2Proof/Machine/Step.lean ====
section
/-! DEFINITION. One step of the machine, and the placing of one instruction where the next step fetches. -/

namespace Sys2Proof.Machine

/-- One step: one turn of the agenda, or with none one clock of a sequencer. -/
def step (s : State) : Host.Outcome State Fault Refusal := takeTurn s

/-- The machine with one instruction, in slot 0 of a fetched line, at the counter of the one warp that issues next. It stands for
the host's load of a program and its launch. -/
def State.withFetchWord (s : State) (_nbits w : Nat) : State := s.placeWord (BitVec.ofNat 96 w)

end Sys2Proof.Machine
end

