-- ==== Sys2Proof/Machine/Ordering.lean ====
section
/-! DEFINITION. The memory model over small sets of accesses (09 R262-R279): which writes the reads of an execution may return. The
machine of `step` performs each access at one moment; its runs are among the executions admitted here. -/

namespace Sys2Proof.Machine

/-- A party (R262). Splits name the device, the logical slice, the team and the warp they belong to; engines the slice they work for
and a number of their own (a copy channel, a matrix engine, ...). -/
inductive Party where
  | split (dev slice team warp id : Nat)
  | engine (dev slice id : Nat)
  | sliceCore (dev slice : Nat)
  | crownCore (dev : Nat)
  | host
  deriving DecidableEq, Repr

def Party.dev : Party → Option Nat
  | .split d _ _ _ _ => some d | .engine d _ _ => some d | .sliceCore d _ => some d | .crownCore d => some d | .host => none
def Party.slice : Party → Option (Nat × Nat)
  | .split d n _ _ _ => some (d, n) | .engine d n _ => some (d, n) | .sliceCore d n => some (d, n) | .crownCore _ => none | .host => none
def Party.team : Party → Option (Nat × Nat × Nat)
  | .split d n t _ _ => some (d, n, t) | _ => none
def Party.warp : Party → Option (Nat × Nat × Nat × Nat)
  | .split d n t w _ => some (d, n, t, w) | _ => none

/-- The scope of an access holds a party (R263). `members` is the member teams of the group that a group-window access names. -/
def scopeHolds (sc : Scope) (members : Option (List Nat)) (a b : Party) : Bool :=
  a == b || match sc, members with
    | .warp, _ => a.warp.isSome && a.warp == b.warp
    | .team, _ => a.team.isSome && a.team == b.team
    | .group, some ts => a.slice.isSome && a.slice == b.slice && (match b.team with | some t => ts.contains t.2.2 | none => false)
    | .group, none => a.slice.isSome && a.slice == b.slice
    | .slice, _ => a.slice.isSome && a.slice == b.slice
    | .dev, _ => a.dev.isSome && a.dev == b.dev
    | .sys, _ => true

/-- Ordering kinds of pages that may be accessed (R264). -/
inductive Kind where | rc | so | uo
  deriving DecidableEq, Repr

/-- What an event does: `mark` is an event of a party that accesses no location (a command, an engine's start, a wait, a barrier). -/
inductive Act where | read | write | rmw | fence | mark
  deriving DecidableEq, Repr

/-- An event of an execution. `loc` is one location of its atomic unit (R269), `acq` and `rel` say that its ORD, its kind of FENCE or
R276 makes it an acquire or a release, `paths` are the paths that its MP or PATHS names, `obs` the writes whose completion it observes
(R277), `deps` the events whose values it uses. -/
structure MemEvent where
  party : Party
  act : Act
  loc : Nat := 0
  path : Path := .c
  kind : Kind := .rc
  acq : Bool := false
  rel : Bool := false
  scope : Scope := .dev
  members : Option (List Nat) := none
  paths : List Path := []
  obs : List Nat := []
  deps : List Nat := []
  global : Bool := true
  deriving DecidableEq, Repr

def MemEvent.reads (e : MemEvent) : Bool := e.act == .read || e.act == .rmw
def MemEvent.writes (e : MemEvent) : Bool := e.act == .write || e.act == .rmw
def MemEvent.so (e : MemEvent) : Bool := e.kind == .so && (e.reads || e.writes)
/-- An acquire (R272). -/
def MemEvent.acquire (e : MemEvent) : Bool := e.acq || (e.so && e.reads)
/-- A release (R272). -/
def MemEvent.release (e : MemEvent) : Bool := e.rel || (e.so && e.writes)
/-- The party lies in the event's scope; an SO access has system scope (R265). -/
def MemEvent.holds (e : MemEvent) (b : Party) : Bool := scopeHolds (if e.so then .sys else e.scope) e.members e.party b
/-- The paths that an acquire or release covers: C, its own, those it names (R272). -/
def MemEvent.covers (e : MemEvent) (p : Path) : Bool := p == .c || p == e.path || e.paths.contains p
/-- A plain access to a UO page (R266). -/
def MemEvent.plainUo (e : MemEvent) : Bool := e.kind == .uo && !e.acq && !e.rel && (e.act == .read || e.act == .write)
/-- A full fence is an acquire and a release. -/
def MemEvent.fullFence (e : MemEvent) : Bool := e.act == .fence && e.acq && e.rel

/-- An execution: its events, those of one party in its program order; for each event the write it reads from, none for the initial
value; the writes in an order that is the coherence order of each location; the pairs of R276, from release to acquire; and where splits
divide and merge (R262): the events of the first party before a place of the list come before those of the second from there on. -/
structure Execution where
  evs : List MemEvent
  from_ : List (Option Nat)
  co : List Nat
  pairs : List (Nat × Nat) := []
  links : List (Party × Party × Nat) := []
  deriving DecidableEq, Repr


def Execution.ev (x : Execution) (i : Nat) : MemEvent := x.evs.getD i { party := .host, act := .mark }
def Execution.src (x : Execution) (i : Nat) : Option Nat := x.from_.getD i none
def Execution.size (x : Execution) : Nat := x.evs.length
def Execution.ids (x : Execution) : List Nat := List.range x.size

/-- A party's order goes on in another's, by divides and merges after a place of the list (R262); with fuel. -/
def Execution.goesOn (x : Execution) : Nat → Party → Party → Nat → Nat → Bool
  | 0, a, b, _, _ => a == b
  | n + 1, a, b, i, j => a == b || x.links.any fun l => l.1 == a && i ≤ l.2.2 && l.2.2 ≤ j && x.goesOn n l.2.1 b l.2.2 j

/-- Program order: that of a party, and what a split formed by a divide or a merge takes over (R262). -/
def Execution.po (x : Execution) (i j : Nat) : Bool :=
  i < j && x.goesOn x.links.length (x.ev i).party (x.ev j).party (i + 1) j
/-- Coherence order of one location. -/
def Execution.coBefore (x : Execution) (a b : Nat) : Bool :=
  (x.ev a).loc == (x.ev b).loc && (x.ev a).writes && (x.ev b).writes && x.co.idxOf a < x.co.idxOf b
/-- The event reads from the write. -/
def Execution.readsFrom (x : Execution) (r w : Nat) : Bool := (x.ev r).reads && (x.src r == some w)
/-- The event's scope holds every party of the execution. -/
def Execution.whole (x : Execution) (i : Nat) : Bool := x.evs.all fun e => (x.ev i).holds e.party

/-- A write of the release sequence of `w` (R272): `w`, or an atomic later in coherence order with no plain write between. -/
def Execution.inSequence (x : Execution) (w v : Nat) : Bool :=
  w == v || (x.coBefore w v && (x.ev v).act == .rmw && x.ids.all fun u => !(x.coBefore w u && x.coBefore u v) || (x.ev u).act == .rmw)

/-- The writes that stand for a release: itself, or those after a release fence (R273). -/
def Execution.relWrite (x : Execution) (i w : Nat) : Bool :=
  (x.ev i).release && (x.ev w).writes && (if (x.ev i).act == .fence then x.po i w else i == w)
/-- The reads that stand for an acquire: itself, or those before an acquire fence. -/
def Execution.acqRead (x : Execution) (j r : Nat) : Bool :=
  (x.ev j).acquire && (x.ev r).reads && (if (x.ev j).act == .fence then x.po r j else j == r)

/-- The release synchronises with the acquire (R273); the acquire covers the path of the write (R272, R278). -/
def Execution.syncs (x : Execution) (i j : Nat) : Bool :=
  (x.ev i).party != (x.ev j).party && (x.ev i).holds (x.ev j).party && (x.ev j).holds (x.ev i).party
  && x.ids.any fun w => x.relWrite i w && (x.ev j).covers (x.ev w).path
      && x.ids.any fun r => x.acqRead j r && (match x.src r with | some v => x.inSequence w v | none => false)

/-- A read by another party carries the write it reads into happens-before: not a write of another path into a path-C read of a
split, for which R278 asks more. -/
def Execution.carries (x : Execution) (i j : Nat) : Bool :=
  x.readsFrom j i && (x.ev i).party != (x.ev j).party && ((x.ev i).path == .c || (x.ev j).path != .c || (x.ev j).party.warp.isNone)

/-- The acquire or release `a` names the path of a write whose completion its party has observed (R277, R278): through a mark, or by
reading a value that was written on the path by a release. -/
def Execution.names (x : Execution) (w a : Nat) : Bool :=
  let p := (x.ev w).path
  p != .c && (x.ev a).paths.contains p && ((x.ev a).acquire || (x.ev a).release)

/-- Nodes of the graph: each event's access, its part as an acquire, its part as a release. -/
def accNode (i : Nat) : Nat := 3 * i
def acqNode (i : Nat) : Nat := 3 * i + 1
def relNode (i : Nat) : Nat := 3 * i + 2

/-- A full fence that a party's scope-mate sees: it holds the other party, and covers the path of the access. -/
def Execution.fences (x : Execution) (f : Nat) (p : Party) (path : Path) : Bool := (x.ev f).fullFence && (x.ev f).holds p && (x.ev f).covers path

/-- The edges of R274 and R278 between the parts of two events. The parts keep apart what an acquire or a release orders, for parties
in its scope only (R263), from what the access itself does. A full fence orders what comes before it ahead of what comes after it toward
each party in its scope: toward those that read a later write, and from those whose writes an earlier read returned. A release fence
naming path G stands before its split's later reads on that path (07 R223). -/
def Execution.edges (x : Execution) (i j : Nat) : List (Nat × Nat) :=
  let a := x.ev i
  let b := x.ev j
  let before := x.po i j
  let intoRel := before && b.release && b.covers a.path && (!a.plainUo || b.act == .fence)
  let outOfAcq := before && a.acquire && a.covers b.path && (!b.plainUo || a.act == .fence)
  let put := fun (c : Bool) (e : Nat × Nat) => if c then [e] else []
  put intoRel (accNode i, relNode j) ++ put (intoRel && a.acquire) (acqNode i, relNode j) ++ put (intoRel && a.release && x.whole i) (relNode i, relNode j)
  ++ put (i == j && a.release && x.whole i) (relNode i, accNode i)
  ++ put outOfAcq (acqNode i, accNode j) ++ put (outOfAcq && b.acquire) (acqNode i, acqNode j) ++ put (outOfAcq && b.release) (acqNode i, relNode j)
  ++ put (outOfAcq && x.whole i) (accNode i, accNode j)
  ++ put (before && b.fullFence && x.whole j && b.covers a.path) (accNode i, accNode j)
  ++ put (before && a.fullFence && x.whole i && a.covers b.path) (accNode i, accNode j)
  ++ put (before && a.path == b.path && a.loc == b.loc && (a.reads || a.writes) && (b.reads || b.writes)) (accNode i, accNode j)
  ++ put (i == j && a.fullFence) (acqNode i, relNode i)
  ++ put (x.ids.any fun k => x.po i k && x.carries k j && x.fences i b.party (x.ev k).path) (relNode i, accNode j)
  ++ put (x.ids.any fun k => x.carries i k && x.po k j && x.fences j a.party (x.ev k).path) (accNode i, acqNode j)
  ++ put (before && a.act == .fence && a.release && a.covers .g && b.path == .g && b.reads) (relNode i, accNode j)
  ++ put (before && a.so && b.so) (accNode i, accNode j)
  ++ put (x.carries i j) (accNode i, accNode j)
  ++ put (x.carries i j && b.acquire && b.holds a.party) (accNode i, acqNode j)
  ++ put (x.carries i j && a.release && a.holds b.party) (relNode i, accNode j)
  ++ put (x.syncs i j) (relNode i, acqNode j)
  ++ put (x.pairs.contains (i, j)) (relNode i, acqNode j)
  ++ put (x.names i j && b.acquire && x.ids.any fun o => (x.ev o).obs.contains i && x.po o j) (accNode i, acqNode j)
  ++ put (x.names i j && b.release && x.ids.any fun o => (x.ev o).obs.contains i && x.po o j) (accNode i, relNode j)
  ++ put (x.names i j && a.release && a.holds b.party && b.acquire && x.ids.any fun r => x.readsFrom r i && x.po r j) (relNode i, acqNode j)
  ++ put (x.names i j && a.release && a.holds b.party && b.release && x.ids.any fun r => x.readsFrom r i && x.po r j) (relNode i, relNode j)
  ++ (if a.act == .fence && a.release then
        (x.ids.filter fun k => b.acquire && x.syncs i j && x.po j k && (x.ev k).plainUo && b.covers (x.ev k).path).map fun k => (relNode i, accNode k)
      else [])

/-- The rows of the graph: bit `m` of row `k` says that an edge goes from node `k` to node `m`. -/
def Execution.rows (x : Execution) : List Nat :=
  let es := (x.ids.map fun i => (x.ids.map fun j => x.edges i j).flatten).flatten
  (List.range (3 * x.size)).map fun k => es.foldl (fun r e => if e.1 == k then r ||| 2 ^ e.2 else r) 0


/-- Rows with the rows of what they reach joined to them. -/
def joinRows (rs : List Nat) : List Nat :=
  rs.map fun r => rs.zipIdx.foldl (fun acc p => if r.testBit p.2 then acc ||| p.1 else acc) r

/-- The transitive closure of rows: each joining doubles the length of the paths. -/
def closeRows : Nat → List Nat → List Nat
  | 0, rs => rs
  | n + 1, rs => closeRows n (joinRows rs)

/-- Rows with a bit on the diagonal have a cycle. -/
def cyclic (rs : List Nat) : Bool := rs.zipIdx.any fun p => p.1.testBit p.2


/-- Happens-before, as rows (R274). The joinings are enough for three nodes an event. -/
def Execution.hbRows (x : Execution) : List Nat := closeRows (x.size.log2 + 3) x.rows

/-- The access of one event happens before that of another. -/
def Execution.hb (x : Execution) (i j : Nat) : Bool := (x.hbRows.getD (accNode i) 0).testBit (accNode j)

/-- A write that a read's source comes before in coherence order; every write of the location comes after the initial value. -/
def Execution.newer (x : Execution) (r w : Nat) : Bool :=
  (x.ev w).writes && (x.ev w).loc == (x.ev r).loc && (match x.src r with | some v => x.coBefore v w | none => true)

/-- Each source is a write of the location. -/
def Execution.sourced (x : Execution) : Bool :=
  x.ids.all fun r => match x.src r with
    | some w => (x.ev r).reads && w < x.size && (x.ev w).writes && (x.ev w).loc == (x.ev r).loc
    | none => true

/-- R275: no read happens before its source, and no newer write happens before a read. -/
def Execution.readable (x : Execution) (h : List Nat) : Bool :=
  let hb := fun i j => (h.getD (accNode i) 0).testBit (accNode j)
  x.ids.all fun r => !(x.ev r).reads ||
    ((match x.src r with | some w => !hb r w | none => true) && x.ids.all fun w => !(x.newer r w && hb w r))

/-- R275: an atomic reads the write just before its own. -/
def Execution.atomic (x : Execution) : Bool :=
  x.ids.all fun r => (x.ev r).act != .rmw || x.ids.all fun w => !(w != r && x.newer r w && x.coBefore w r)
    && (match x.src r with | some v => x.coBefore v r | none => true)

/-- R268, for one party on one path. -/
def Execution.coherent (x : Execution) : Bool :=
  x.ids.all fun i => x.ids.all fun j =>
    let a := x.ev i
    let b := x.ev j
    !(x.po i j && a.path == b.path && a.loc == b.loc) ||
      ((!(a.writes && b.writes) || x.coBefore i j)
       && (!(a.writes && b.reads) || (match x.src j with | some v => v == i || x.coBefore i v | none => false))
       && (!(a.reads && b.writes) || (match x.src i with | some v => v != j && !x.coBefore j v | none => true))
       && (!(a.reads && b.reads) || (match x.src i, x.src j with | some v, some w => v == w || x.coBefore v w | some _, none => false | none, _ => true)))

/-- The event takes a place in T (R270). -/
def Execution.inT (x : Execution) (i : Nat) : Bool :=
  let e := x.ev i
  e.global && (e.writes || (e.reads && e.acquire && (e.so || e.scope == .dev || e.scope == .sys)))

/-- R270: an order T exists, consistent with happens-before and coherence order, in which each read in it returns the last write. -/
def Execution.placed (x : Execution) (h : List Nat) : Bool :=
  let hb := fun i j => (h.getD (accNode i) 0).testBit (accNode j)
  let next := fun i j => x.inT i && x.inT j && i != j &&
    (hb i j || x.coBefore i j || ((x.ev j).reads && x.src j == some i) || ((x.ev i).reads && x.newer i j))
  !cyclic (closeRows (x.size.log2 + 1) (x.ids.map fun i => x.ids.foldl (fun r j => if next i j then r ||| 2 ^ j else r) 0))

/-- R275: no value depends on itself. -/
def Execution.grounded (x : Execution) : Bool :=
  !cyclic (closeRows (x.size.log2 + 1) (x.ids.map fun i =>
    x.ids.foldl (fun r j => if x.readsFrom j i || (x.ev j).deps.contains i then r ||| 2 ^ j else r) 0))

/-- All of the rules admit the execution. -/
def Execution.admitted (x : Execution) : Bool :=
  let h := x.hbRows
  x.sourced && x.readable h && x.atomic && x.coherent && x.placed h && x.grounded


/-- A number put into a list at each place. -/
def insertions (a : Nat) : List Nat → List (List Nat)
  | [] => [[a]]
  | b :: t => (a :: b :: t) :: (insertions a t).map (b :: ·)
/-- The orders of some numbers. -/
def orders : List Nat → List (List Nat)
  | [] => [[]]
  | a :: t => ((orders t).map (insertions a)).flatten

/-- An outcome, given as the write that each event reads from, is allowed: some coherence order makes an execution that the rules admit. -/
def allowed (evs : List MemEvent) (from_ : List (Option Nat)) (pairs : List (Nat × Nat) := []) : Bool :=
  (orders ((List.range evs.length).filter fun i => (evs.getD i { party := .host, act := .mark }).writes)).any fun co =>
    Execution.admitted { evs := evs, from_ := from_, co := co, pairs := pairs }

/-! ### Single-copy atomicity (R269) -/

/-- What makes an access, for R269. -/
inductive Form where
  | lane (size : Nat) (kind : Option Kind) | ldaLane (size : Nat) (kind : Option Kind) | registerWindow | atomic (size : Nat)
  | copyElement (size : Nat) | copyBytes | matrixElement (size : Nat) | traversal | texel (size : Nat) | link | other
  deriving DecidableEq, Repr

/-- The bytes of an access of `size` bytes that are performed whole; a `kind` of none is a scratchpad. -/
def Form.unit : Form → Nat
  | .lane 16 (some .uo) => 8
  | .ldaLane 16 (some .uo) => 1
  | .lane n _ => n
  | .ldaLane n _ => n
  | .registerWindow => 4
  | .atomic n => n
  | .copyElement n => n
  | .copyBytes => 4
  | .matrixElement n => n
  | .traversal => 16
  | .texel 16 => 8
  | .texel n => n
  | .link => 8
  | .other => 1

end Sys2Proof.Machine
end

