-- ==== Sys2Proof/Safety.lean ====
section
/-! DEFINITION. The terms in which claims are stated: when an instruction of the acting split acts, what it leaves when it has
acted, lane counters, and the steps that belong to no split. -/

namespace Sys2Proof.Machine

/-! ### When an instruction acts -/

/-- The acting split and the active lanes of an instruction that acts: its guard predicate can be read, no register it reads or
writes is pending, no LDA of the split that it must follow is still to be read, and, where a lane is active, everything it reads can be read (01 R14, R26; 19 R378, R394). None where no split
acts, where the instruction waits, and where reading traps. -/
def ready (i : Instr) (s : State) : Option (View × Mask) :=
  match s.view with
  | none => none
  | some v =>
    if (v.wp.readP i.hdr.u i.hdr.guard.num.toNat).isSome || mustWait i v.wp v.sp.mask then none
    else
      let act := v.wp.active v.sp.mask i.hdr
      if act = 0 then some (v, 0) else if (metOf i v act).isSome then none else some (v, act)

/-- The steps of agents other than a split: they need no acting split. -/
def Instr.isEvent (i : Instr) : Bool :=
  match i.sig, i with
  | some _, _ => false
  | none, .softmaxIdiom .. => false
  | none, _ => true

/-! ### Lane counters (01 R9) -/

/-- The instruction counter of a lane in a list of splits. -/
def pcIn (ps : List Split) (l : Nat) : Option DWord := (ps.find? fun p => bit p.mask l).map (·.pc)

/-- The instruction counter of a lane that the frontier or the waiting list holds. -/
def Warp.lanePc (w : Warp) (l : Nat) : Option DWord := pcIn (w.front ++ w.wait) l

/-- The splits of a warp share no lane, and none is empty (01 R9). -/
def apart (ps : List Split) : Prop := ps.Pairwise (fun a b => a.mask &&& b.mask = 0) ∧ ∀ p ∈ ps, p.mask ≠ 0

/-! ### What an instruction leaves -/

/-- Vector register `n` is one of the `len` registers of the destination. -/
def vecDst (h : Hdr) (len n : Nat) : Prop := h.dst = .vec h.dst.num ∧ h.dst.num.toNat ≤ n ∧ n < h.dst.num.toNat + len

/-- Scalar register `k` is one of the `len` registers of the destination. -/
def scalDst (h : Hdr) (len k : Nat) : Prop := h.dst = .scal h.dst.num ∧ h.dst.num.toNat ≤ k ∧ k < h.dst.num.toNat + len

/-- The registers of `w'` are those of `w` with a result written to the destination in the active lanes: `vals` gives each lane's
words, and the lead lane's stand for a scalar or q-predicate destination. A destination of kind none, WS set, and a guard that
holds in no lane write nothing; p7 and q7 discard; a register number that the window does not have names none (01 R22; 03 R93). -/
def Wrote (w : Warp) (h : Hdr) (act : Mask) (vals : Nat → List Word) (w' : Warp) : Prop :=
  let ld := leadLane act
  let len := (vals ld).length
  let on := act ≠ 0 ∧ h.ws = false
  (∀ n l, l < 32 → on → vecDst h len n → n < w.vregs.length → bit act l = true →
      w'.vlane n l = (vals l).getD (n - h.dst.num.toNat) 0 ∧ (w'.vget n).tag = .full ∧ bit (w'.vget n).bad l = false)
  ∧ (∀ n l, l < 32 → ¬ (on ∧ vecDst h len n ∧ bit act l = true) → w'.vlane n l = w.vlane n l ∧ bit (w'.vget n).bad l = bit (w.vget n).bad l)
  ∧ (∀ n, ¬ (on ∧ vecDst h len n) → w'.vget n = w.vget n)
  ∧ (∀ k, on → scalDst h len k → k < w.sregs.length → w'.sget k = (vals ld).getD (k - h.dst.num.toNat) 0)
  ∧ (∀ k, ¬ (on ∧ scalDst h len k) → w'.sget k = w.sget k)
  ∧ (∀ k l, l < 32 → on → h.u = false → h.dst = .pred (BitVec.ofNat 8 k) → k < 7 → k < w.preds.length → bit act l = true →
      w'.pget k l = ((vals l).getD 0 0 != 0))
  ∧ (∀ k l, l < 32 → ¬ (on ∧ h.u = false ∧ h.dst = .pred (BitVec.ofNat 8 k) ∧ k < 7 ∧ bit act l = true) → k < 256 → w'.pget k l = w.pget k l)
  ∧ (∀ k, on → h.u = true → h.dst = .pred (BitVec.ofNat 8 k) → k < 7 → w'.qget k = ((vals ld).getD 0 0 != 0))
  ∧ (∀ k, ¬ (on ∧ h.u = true ∧ h.dst = .pred (BitVec.ofNat 8 k) ∧ k < 7) → k < 256 → w'.qget k = w.qget k)

/-- `t` is `s` with the acting warp replaced by `w'`: every byte of memory and of every scratchpad, every other warp, and every
piece of state outside the warps' teams stay as they were. -/
def OnlyWarp (s : State) (v : View) (w' : Warp) (t : State) : Prop :=
  t = s.putWarp v w' ∧ t.warp v.ref = some w'
  ∧ (∀ a, t.mem.read a = s.mem.read a)
  ∧ (∀ n id a, (t.scratchOf n id).read a = (s.scratchOf n id).read a)
  ∧ (∀ r, r ≠ v.ref → t.warp r = s.warp r)

/-- `w'` is `w` but for its registers, predicates and splits: PART, FPCTL, FPSTAT, the trap registers, the hit tables, the return
stacks, ORIGLANE and the producers in flight stay as they were. -/
def OnlyRegs (w w' : Warp) : Prop :=
  w' = { w with vregs := w'.vregs, sregs := w'.sregs, sbad := w'.sbad, preds := w'.preds, pbad := w'.pbad, qpreds := w'.qpreds,
                front := w'.front, wait := w'.wait }

/-- Each lane of the acting split goes to its new counter, and every other lane of the warp keeps its own (01 R9, R12). It is
said of warps whose splits share no lane. -/
def Moved (v : View) (w' : Warp) (pc : Nat → DWord) : Prop :=
  apart (v.wp.front ++ v.wp.wait) → ∀ l, l < 32 → w'.lanePc l = if bit v.sp.mask l then some (pc l) else v.wp.lanePc l

/-- An instruction has acted: its result is written in the warp `w` (the acting warp, with whatever else the instruction sets in
it), its lanes have gone on, and nothing else has changed. -/
def Acted (s : State) (v : View) (w : Warp) (h : Hdr) (act : Mask) (vals : Nat → List Word) (pc : Nat → DWord) (t : State) : Prop :=
  ∃ w', OnlyWarp s v w' t ∧ OnlyRegs w w' ∧ Wrote w h act vals w' ∧ Moved v w' pc

/-- The instruction acts wherever it is ready, and leaves `vals` in its destination. -/
def Completes (i : Instr) (vals : View → Mask → Nat → List Word) : Prop :=
  ∀ s v act, ready i s = some (v, act) →
    ∃ t, exec i s = .next t ∧ Acted s v v.wp i.hdr act (vals v act) (fun _ => nextPc v.sp.pc) t

/-- The lanes in which a floating-point or division operation executes raise no enabled flag, and none meets a range event under
policy TRAP (01 R39; 02 R63). -/
def Quiet (w : Warp) (h : Hdr) (act : Mask) (out : Nat → AluOut) : Prop :=
  ∀ l, l ∈ execLanes h act → (out l).event = false ∧ (out l).fl &&& w.enables = 0

/-- The flags that an operation raises in its lanes (01 R37, R38). -/
def raised (h : Hdr) (act : Mask) (out : Nat → AluOut) : Flags :=
  (execLanes h act).foldl (fun a l => a ||| (out l).fl ||| (out l).quiet) 0

/-- The instruction acts wherever it is ready and none of its lanes traps: it leaves the words of `out` in its destination, and
FPSTAT gains the flags its lanes raised. -/
def CompletesFp (i : Instr) (words : Nat) (out : View → Mask → Nat → AluOut) : Prop :=
  ∀ s v act, ready i s = some (v, act) → Quiet v.wp i.hdr act (out v act) →
    ∃ t, exec i s = .next t
      ∧ Acted s v { v.wp with fpstat := v.wp.fpstat ||| (raised i.hdr act (out v act)).setWidth 32 } i.hdr act
          (fun l => if words = 2 then [loWord (out v act l).val, hiWord (out v act l).val] else [loWord (out v act l).val])
          (fun _ => nextPc v.sp.pc) t

/-! ### Operands -/

/-- Source A, B or C of an instruction in a lane, as a 32-bit word (03 R94-R97). -/
def wordA (i : Instr) (v : View) (act : Mask) (l : Nat) : Word := loWord (valOf i 0 v act l)
def wordB (i : Instr) (v : View) (act : Mask) (l : Nat) : Word := loWord (valOf i 1 v act l)
def wordC (i : Instr) (v : View) (act : Mask) (l : Nat) : Word := loWord (valOf i 2 v act l)
/-- A source as a 64-bit value. -/
def longA (i : Instr) (v : View) (act : Mask) (l : Nat) : DWord := valOf i 0 v act l
def longB (i : Instr) (v : View) (act : Mask) (l : Nat) : DWord := valOf i 1 v act l
def longC (i : Instr) (v : View) (act : Mask) (l : Nat) : DWord := valOf i 2 v act l
/-- The instruction acts wherever it is ready, writes no register and no predicate, and goes on. -/
def CompletesBare (i : Instr) : Prop :=
  ∀ s v act, ready i s = some (v, act) →
    ∃ t, exec i s = .next t ∧ Acted s v v.wp { i.hdr with dst := .none } act (fun _ => []) (fun _ => nextPc v.sp.pc) t

/-- A 64-bit result as its two words, low word first (01 R22). -/
def twoWords (x : DWord) : List Word := [loWord x, hiWord x]

/-! ### Shapes of completion -/

/-- A header without its destination. -/
def bare (h : Hdr) : Hdr := { h with dst := .none }

/-- Wherever the instruction is ready and `ok` holds, it acts: the warp `w` with `vals` in the destination of `h`, each lane of the
split at its counter `pc`. -/
def Does (i : Instr) (h : Hdr) (ok : State → View → Mask → Prop) (w : State → View → Mask → Warp)
    (vals : State → View → Mask → Nat → List Word) (pc : View → Mask → Nat → DWord) : Prop :=
  ∀ s v act, ready i s = some (v, act) → ok s v act →
    ∃ t, exec i s = .next t ∧ Acted s v (w s v act) h act (vals s v act) (pc v act) t

/-- Wherever the instruction is ready and `ok` holds, it takes a trap (19 R379). -/
def Traps (i : Instr) (ok : State → View → Mask → Prop) (tr : State → View → Mask → Trap) : Prop :=
  ∀ s v act, ready i s = some (v, act) → ok s v act → exec i s = .next (s.takeTrap v (tr s v act))

/-- The acting split is held at its instruction; nothing else of its warp `w` changes. -/
def HeldAt (s : State) (v : View) (w : Warp) (hold : Hold) (t : State) : Prop :=
  ∃ p, p.pc = v.sp.pc ∧ p.mask = v.sp.mask ∧ p.parts = v.sp.parts ∧ p.hold = hold ∧ OnlyWarp s v { w with front := w.front.set v.cur.split p } t

/-- The trap entry of 19 R379: TRAPPC, TRAPCAUSE and TRAPINFO are written, every other split of the warp freezes, and the split's
lanes go to TRAPVEC, which is their region entry until a REGN moves it (DEDUCED, log 67). Nothing else changes, but that a watch the
split waited on is dropped. -/
def TrapTaken (s : State) (v : View) (cause : Word) (info : DWord) (t : State) : Prop :=
  OnlyWarp (s.dropWatch v.sp.hold) v
    { v.wp with trappc := v.sp.pc, trapcause := cause, trapinfo := info, wait := [],
                front := [{ pc := v.wp.trapvec, mask := v.sp.mask, parts := [{ entry := v.wp.trapvec, mask := v.sp.mask }], check := some v.wp.trapvec }],
                handler := some { mask := v.sp.mask, parts := v.sp.parts, frozenFront := v.wp.front.eraseIdx v.cur.split,
                                  frozenWait := v.wp.wait } } t

/-- Each active lane goes to its target, the others to the next instruction. -/
def goTo (target : View → Mask → Nat → DWord) (v : View) (act : Mask) (l : Nat) : DWord :=
  if bit act l then target v act l else nextPc v.sp.pc

/-- The active lanes of the acting split are gone from the frontier and the waiting list, its other lanes are at the next
instruction, and every other lane stays where it was. -/
def Left (v : View) (act : Mask) (w' : Warp) : Prop :=
  apart (v.wp.front ++ v.wp.wait) → ∀ l, l < 32 → w'.lanePc l =
    if bit act l then none else if bit v.sp.mask l then some (nextPc v.sp.pc) else v.wp.lanePc l

/-! ### Lane sections (01 R15, R16) -/

/-- The active lanes of a lane's section, in ascending order. -/
def sect (w : Warp) (act : Mask) (l : Nat) : List Nat :=
  (List.range 32).filter fun k => k / 2 ^ w.part == l / 2 ^ w.part && bit act k

/-- The word whose bit j says that the lane at position j of the section is one of some lanes. -/
def positions (w : Warp) (ls : List Nat) : Word := maskOf fun j => ls.any fun k => k % 2 ^ w.part == j

/-- The lane that a lane reads in LXCH (04 R140). -/
def exchangeLane (w : Warp) (mode : LxchMode) (l m : Nat) : Nat :=
  let n := 2 ^ w.part
  let j := l % n
  let k := match mode with
    | .src => some (m % 32)
    | .below => if m ≤ j then some (j - m) else none
    | .above => some (j + m)
    | .flip => some (j ^^^ (m % 32))
  match k with | some k => if k < n then l / n * n + k else l | none => l

/-! ### Integer rules in bit-vector terms -/

/-- A comparison of 04 R126 on two values of an integer type. -/
def intHolds (c : Cond) (t : Ty) (a b : DWord) : Bool :=
  let lt : Bool := match t with
    | .s32 => (loWord a).slt (loWord b) | .n32 => (loWord a).ult (loWord b) | .s64 => a.slt b | _ => a.ult b
  let eq : Bool := match t with | .s32 | .n32 => loWord a == loWord b | _ => a == b
  match c with
  | .eq => eq | .ne => !eq | .lt => lt | .le => lt || eq | .gt => !lt && !eq | .ge => !lt | .num | .nan => false

/-- The quotient of 02 R46: all ones for a zero divisor, else truncated toward zero. -/
def quotient (t : Ty) (a b : DWord) : DWord :=
  match t with
  | .s32 => zext64 (if loWord b = 0 then BitVec.allOnes 32 else (loWord a).sdiv (loWord b))
  | .n32 => zext64 (if loWord b = 0 then BitVec.allOnes 32 else (loWord a).udiv (loWord b))
  | .s64 => if b = 0 then BitVec.allOnes 64 else a.sdiv b
  | _ => if b = 0 then BitVec.allOnes 64 else a.udiv b

/-- The remainder of 02 R46: the dividend for a zero divisor, else of the dividend's sign. -/
def remainder (t : Ty) (a b : DWord) : DWord :=
  match t with
  | .s32 => zext64 (if loWord b = 0 then loWord a else (loWord a).srem (loWord b))
  | .n32 => zext64 (if loWord b = 0 then loWord a else (loWord a).umod (loWord b))
  | .s64 => if b = 0 then a else a.srem b
  | _ => if b = 0 then a else a.umod b

/-- The divisor of a type is zero. -/
def zeroDivisor (t : Ty) (b : DWord) : Bool := match t with | .s32 | .n32 => loWord b == 0 | _ => b == 0

/-- A value clamped to the range of s32 (02 R45). -/
def clampS32 (x : Int) : Word := BitVec.ofInt 32 (max (-2147483648) (min 2147483647 x))

/-- Byte `i` of a word as s8 or n8. -/
def byteAs (t : Ty) (x : Word) (i : Nat) : Int := if t = .s8 then (x.extractLsb' (8 * i) 8).toInt else ((x.extractLsb' (8 * i) 8).toNat : Int)

/-- The sum of IDOT4 (04 R123). -/
def dotSum (ta tb : Ty) (a b c : Word) : Int :=
  c.toInt + byteAs ta a 0 * byteAs tb b 0 + byteAs ta a 1 * byteAs tb b 1 + byteAs ta a 2 * byteAs tb b 2 + byteAs ta a 3 * byteAs tb b 3

/-- The field of BFE (04 R125): `len` bits from bit `p`, with zeros, or copies of the sign, above. -/
def fieldOf {w : Nat} (signed : Bool) (x : BitVec w) (p len : Nat) : BitVec w :=
  let len := min len w
  if signed then ((x.sshiftRight p) <<< (w - len)).sshiftRight (w - len) else ((x >>> p) <<< (w - len)) >>> (w - len)

end Sys2Proof.Machine
end

