-- ==== Sys2Proof/Certificates/Slice0/Obligations.lean ====
section
/-! DEFINITION. The statements for the provers. -/

open Sys2Proof Sys2Proof.Machine

/-! ### Moves, integers, logic (04 R121-R127) -/

/-- NOP, MOV, MOVI, SEL, IADD, ISUB, IADD64 and ISUB64 complete with the results of 04 R121 and R122, and change nothing else. -/
def Obligations.MovesAndSums : Prop :=
  (∀ h, CompletesBare (.nop h))
  ∧ (∀ h a, Completes (.mov h false a) fun v act l => [wordA (.mov h false a) v act l])
  ∧ (∀ h a, Completes (.mov h true a) fun v act l => twoWords (longA (.mov h true a) v act l))
  ∧ (∀ h imm, Completes (.movi h .w32 imm) fun _ _ _ => [imm])
  ∧ (∀ h imm, Completes (.movi h .sx imm) fun _ _ _ => twoWords (imm.signExtend 64))
  ∧ (∀ h imm, Completes (.movi h .zx imm) fun _ _ _ => twoWords (imm.setWidth 64))
  ∧ (∀ h sp a b, Completes (.sel h false sp a b) fun v act l =>
      [if v.wp.pref h.u sp l then wordA (.sel h false sp a b) v act l else wordB (.sel h false sp a b) v act l])
  ∧ (∀ h sp a b, Completes (.sel h true sp a b) fun v act l =>
      twoWords (if v.wp.pref h.u sp l then longA (.sel h true sp a b) v act l else longB (.sel h true sp a b) v act l))
  ∧ (∀ h a b, Completes (.iadd h a b) fun v act l => [wordA (.iadd h a b) v act l + wordB (.iadd h a b) v act l])
  ∧ (∀ h a b, Completes (.isub h a b) fun v act l => [wordA (.isub h a b) v act l - wordB (.isub h a b) v act l])
  ∧ (∀ h a b, Completes (.iadd64 h a b) fun v act l => twoWords (longA (.iadd64 h a b) v act l + longB (.iadd64 h a b) v act l))
  ∧ (∀ h a b, Completes (.isub64 h a b) fun v act l => twoWords (longA (.isub64 h a b) v act l - longB (.isub64 h a b) v act l))

/-- IMUL, IMULH, IMAD, IMAD64, IDIV and IREM complete with the results of 04 R122 and 02 R46; division by zero sets DZ in FPSTAT
and traps nowhere. -/
def Obligations.ProductsAndQuotients : Prop :=
  (∀ h a b, Completes (.imul h a b) fun v act l => [wordA (.imul h a b) v act l * wordB (.imul h a b) v act l])
  ∧ (∀ h a b, Completes (.imulh h .s32 a b) fun v act l =>
      [BitVec.ofInt 32 ((wordA (.imulh h .s32 a b) v act l).toInt * (wordB (.imulh h .s32 a b) v act l).toInt / 2 ^ 32)])
  ∧ (∀ h a b, Completes (.imulh h .n32 a b) fun v act l =>
      [BitVec.ofNat 32 ((wordA (.imulh h .n32 a b) v act l).toNat * (wordB (.imulh h .n32 a b) v act l).toNat / 2 ^ 32)])
  ∧ (∀ h a b c, Completes (.imad h a b c) fun v act l =>
      [wordA (.imad h a b c) v act l * wordB (.imad h a b c) v act l + wordC (.imad h a b c) v act l])
  ∧ (∀ h a b c, Completes (.imad64 h .s32 a b c) fun v act l =>
      twoWords ((wordA (.imad64 h .s32 a b c) v act l).signExtend 64 * (wordB (.imad64 h .s32 a b c) v act l).signExtend 64
        + longC (.imad64 h .s32 a b c) v act l))
  ∧ (∀ h a b c, Completes (.imad64 h .n32 a b c) fun v act l =>
      twoWords ((wordA (.imad64 h .n32 a b c) v act l).setWidth 64 * (wordB (.imad64 h .n32 a b c) v act l).setWidth 64
        + longC (.imad64 h .n32 a b c) v act l))
  ∧ (∀ h t a b, t ∈ Sig.sn64 → CompletesFp (.idiv h t a b) t.words fun v act l =>
      { val := quotient t (longA (.idiv h t a b) v act l) (longB (.idiv h t a b) v act l)
        quiet := flIf (zeroDivisor t (longB (.idiv h t a b) v act l)) flDZ })
  ∧ (∀ h t a b, t ∈ Sig.sn64 → CompletesFp (.irem h t a b) t.words fun v act l =>
      { val := remainder t (longA (.irem h t a b) v act l) (longB (.irem h t a b) v act l)
        quiet := flIf (zeroDivisor t (longB (.irem h t a b) v act l)) flDZ })

/-- IMIN, IMAX, IABS, INEG, IADDS and IDOT4 complete with the results of 04 R122 and R123. -/
def Obligations.ExtremaAndDots : Prop :=
  (∀ h t a b, t ∈ Sig.sn64 → Completes (.imin h t a b) fun v act l =>
      let x := longA (.imin h t a b) v act l
      let y := longB (.imin h t a b) v act l
      let r := if intHolds .lt t y x then y else x
      if t.words = 2 then twoWords r else [loWord r])
  ∧ (∀ h t a b, t ∈ Sig.sn64 → Completes (.imax h t a b) fun v act l =>
      let x := longA (.imax h t a b) v act l
      let y := longB (.imax h t a b) v act l
      let r := if intHolds .lt t x y then y else x
      if t.words = 2 then twoWords r else [loWord r])
  ∧ (∀ h a, Completes (.iabs h .s32 a) fun v act l =>
      let x := wordA (.iabs h .s32 a) v act l
      [if x.slt 0 then -x else x])
  ∧ (∀ h a, Completes (.iabs h .s64 a) fun v act l =>
      let x := longA (.iabs h .s64 a) v act l
      twoWords (if x.slt 0 then -x else x))
  ∧ (∀ h a, Completes (.ineg h .s32 a) fun v act l => [-wordA (.ineg h .s32 a) v act l])
  ∧ (∀ h a, Completes (.ineg h .s64 a) fun v act l => twoWords (-longA (.ineg h .s64 a) v act l))
  ∧ (∀ h a b, Completes (.iadds h .s32 a b) fun v act l =>
      [clampS32 ((wordA (.iadds h .s32 a b) v act l).toInt + (wordB (.iadds h .s32 a b) v act l).toInt)])
  ∧ (∀ h a b, Completes (.iadds h .n32 a b) fun v act l =>
      [BitVec.ofNat 32 (min 4294967295 ((wordA (.iadds h .n32 a b) v act l).toNat + (wordB (.iadds h .n32 a b) v act l).toNat))])
  ∧ (∀ h ta tb a b c, (ta = .s8 ∨ ta = .n8) → (tb = .s8 ∨ tb = .n8) → Completes (.idot4 h ta tb false a b c) fun v act l =>
      let i := Instr.idot4 h ta tb false a b c
      [BitVec.ofInt 32 (dotSum ta tb (wordA i v act l) (wordB i v act l) (wordC i v act l))])
  ∧ (∀ h ta tb a b c, (ta = .s8 ∨ ta = .n8) → (tb = .s8 ∨ tb = .n8) → Completes (.idot4 h ta tb true a b c) fun v act l =>
      let i := Instr.idot4 h ta tb true a b c
      [clampS32 (dotSum ta tb (wordA i v act l) (wordB i v act l) (wordC i v act l))])

/-- AND, OR, XOR, NOT, SHL, SHR, SAR, ROT, FSHL, FSHR and BOOL3 complete with the results of 04 R124. -/
def Obligations.LogicAndShifts : Prop :=
  (∀ h a b, Completes (.and h false a b) fun v act l => [wordA (.and h false a b) v act l &&& wordB (.and h false a b) v act l])
  ∧ (∀ h a b, Completes (.and h true a b) fun v act l => twoWords (longA (.and h true a b) v act l &&& longB (.and h true a b) v act l))
  ∧ (∀ h a b, Completes (.or h false a b) fun v act l => [wordA (.or h false a b) v act l ||| wordB (.or h false a b) v act l])
  ∧ (∀ h a b, Completes (.or h true a b) fun v act l => twoWords (longA (.or h true a b) v act l ||| longB (.or h true a b) v act l))
  ∧ (∀ h a b, Completes (.xor h false a b) fun v act l => [wordA (.xor h false a b) v act l ^^^ wordB (.xor h false a b) v act l])
  ∧ (∀ h a b, Completes (.xor h true a b) fun v act l => twoWords (longA (.xor h true a b) v act l ^^^ longB (.xor h true a b) v act l))
  ∧ (∀ h a, Completes (.not h false a) fun v act l => [~~~wordA (.not h false a) v act l])
  ∧ (∀ h a, Completes (.not h true a) fun v act l => twoWords (~~~longA (.not h true a) v act l))
  ∧ (∀ h a b, Completes (.shl h false a b) fun v act l => [wordA (.shl h false a b) v act l <<< (wordB (.shl h false a b) v act l).toNat])
  ∧ (∀ h a b, Completes (.shl h true a b) fun v act l => twoWords (longA (.shl h true a b) v act l <<< (wordB (.shl h true a b) v act l).toNat))
  ∧ (∀ h a b, Completes (.shr h false a b) fun v act l => [wordA (.shr h false a b) v act l >>> (wordB (.shr h false a b) v act l).toNat])
  ∧ (∀ h a b, Completes (.shr h true a b) fun v act l => twoWords (longA (.shr h true a b) v act l >>> (wordB (.shr h true a b) v act l).toNat))
  ∧ (∀ h a b, Completes (.sar h false a b) fun v act l =>
      [(wordA (.sar h false a b) v act l).sshiftRight (wordB (.sar h false a b) v act l).toNat])
  ∧ (∀ h a b, Completes (.sar h true a b) fun v act l =>
      twoWords ((longA (.sar h true a b) v act l).sshiftRight (wordB (.sar h true a b) v act l).toNat))
  ∧ (∀ h a b, Completes (.rot h false a b) fun v act l =>
      [(wordA (.rot h false a b) v act l).rotateLeft (wordB (.rot h false a b) v act l).toNat])
  ∧ (∀ h a b, Completes (.rot h true a b) fun v act l =>
      twoWords ((longA (.rot h true a b) v act l).rotateLeft (wordB (.rot h true a b) v act l).toNat))
  ∧ (∀ h a b c, Completes (.fshl h a b c) fun v act l =>
      let i := Instr.fshl h a b c
      [hiWord (pair (wordB i v act l) (wordA i v act l) <<< min (wordC i v act l).toNat 32)])
  ∧ (∀ h a b c, Completes (.fshr h a b c) fun v act l =>
      let i := Instr.fshr h a b c
      [loWord (pair (wordB i v act l) (wordA i v act l) >>> min (wordC i v act l).toNat 32)])
  ∧ (∀ h lut a b c, Completes (.bool3 h false lut a b c) fun v act l =>
      let i := Instr.bool3 h false lut a b c
      [loWord (bool3 32 lut (longA i v act l) (longB i v act l) (longC i v act l))])
  ∧ (∀ h lut a b c, Completes (.bool3 h true lut a b c) fun v act l =>
      let i := Instr.bool3 h true lut a b c
      twoWords (bool3 64 lut (longA i v act l) (longB i v act l) (longC i v act l)))
  ∧ (∀ w lut a b c k, w ≤ 64 → k < w →
      (bool3 w lut a b c).getLsbD k = lut.getLsbD ((a.getLsbD k).toNat + 2 * (b.getLsbD k).toNat + 4 * (c.getLsbD k).toNat))

/-- BFE, BFI, POPC, CLZ, CTZ, BREV and BPERM complete with the results of 04 R125. -/
def Obligations.BitFields : Prop :=
  (∀ h t a b c, (t = .s32 ∨ t = .n32) → Completes (.bfe h t a b c) fun v act l =>
      let i := Instr.bfe h t a b c
      [fieldOf t.signed (wordA i v act l) (wordB i v act l).toNat (wordC i v act l).toNat])
  ∧ (∀ h t a b c, (t = .s64 ∨ t = .n64) → Completes (.bfe h t a b c) fun v act l =>
      let i := Instr.bfe h t a b c
      twoWords (fieldOf t.signed (longA i v act l) (wordB i v act l).toNat (wordC i v act l).toNat))
  ∧ (∀ h a b c, Completes (.bfi h a b c) fun v act l =>
      let i := Instr.bfi h a b c
      [loWord (bitInsert (longA i v act l) (longB i v act l) (longC i v act l))])
  ∧ (∀ a b c k, k < 32 → (bitInsert a b c).getLsbD k
      = if (c.extractLsb' 0 8).toNat ≤ k ∧ k < (c.extractLsb' 0 8).toNat + (c.extractLsb' 8 8).toNat
        then a.getLsbD (k - (c.extractLsb' 0 8).toNat) else b.getLsbD k)
  ∧ (∀ h w64 a, Completes (.popc h w64 a) fun v act l =>
      [BitVec.ofNat 32 ((List.range (if w64 then 64 else 32)).filter fun k => (longA (.popc h w64 a) v act l).getLsbD k).length])
  ∧ (∀ h w64 a, Completes (.clz h w64 a) fun v act l =>
      let w := if w64 then 64 else 32
      [BitVec.ofNat 32 (((List.range w).find? fun k => (longA (.clz h w64 a) v act l).getLsbD (w - 1 - k)).getD w)])
  ∧ (∀ h w64 a, Completes (.ctz h w64 a) fun v act l =>
      let w := if w64 then 64 else 32
      [BitVec.ofNat 32 (((List.range w).find? fun k => (longA (.ctz h w64 a) v act l).getLsbD k).getD w)])
  ∧ (∀ h a, Completes (.brev h false a) fun v act l => [(wordA (.brev h false a) v act l).reverse])
  ∧ (∀ h a, Completes (.brev h true a) fun v act l => twoWords (longA (.brev h true a) v act l).reverse)
  ∧ (∀ h a b c, Completes (.bperm h a b c) fun v act l =>
      let i := Instr.bperm h a b c
      [loWord (bytePerm (longA i v act l) (longB i v act l) (longC i v act l))])
  ∧ (∀ a b c : DWord, ∀ i, i < 4 →
      let sel := (c.extractLsb' (4 * i) 4).toNat
      let byte := (pair (loWord a) (loWord b)).extractLsb' (8 * (sel % 8)) 8
      (bytePerm a b c).extractLsb' (8 * i) 8 = if sel ≥ 8 then (if byte.getLsbD 7 then 255 else 0) else byte)

/-- IPRED, ICMP, LEA, SXT and ZXT complete with the results of 04 R126 and R127. -/
def Obligations.ComparesAndAddresses : Prop :=
  (∀ h c k t cp a b, t ∈ Sig.sn64 → c ≠ .num → c ≠ .nan → Completes (.ipred h c k t cp a b) fun v act l =>
      let i := Instr.ipred h c k t cp a b
      let r := intHolds c t (longA i v act l) (longB i v act l)
      let p := v.wp.pref h.u cp l
      [if (match k with | .and => r && p | .or => r || p | .xor => r ^^ p) then 1 else 0])
  ∧ (∀ h c t a b, t ∈ Sig.sn64 → c ≠ .num → c ≠ .nan → Completes (.icmp h c t a b) fun v act l =>
      let i := Instr.icmp h c t a b
      [if intHolds c t (longA i v act l) (longB i v act l) then 0xFFFFFFFF else 0])
  ∧ (∀ h sh sx a b, Completes (.lea h sh sx a b) fun v act l =>
      let i := Instr.lea h sh sx a b
      twoWords (longA i v act l + (if sx then (wordB i v act l).signExtend 64 else (wordB i v act l).setWidth 64) <<< sh.toNat))
  ∧ (∀ h w a, 1 ≤ w.toNat → w.toNat ≤ 32 → Completes (.sxt h w a) fun v act l =>
      [((wordA (.sxt h w a) v act l) <<< (32 - w.toNat)).sshiftRight (32 - w.toNat)])
  ∧ (∀ h w a, 1 ≤ w.toNat → w.toNat ≤ 32 → Completes (.zxt h w a) fun v act l =>
      [((wordA (.zxt h w a) v act l) <<< (32 - w.toNat)) >>> (32 - w.toNat)])

/-! ### Floating point (05 R146-R167) -/

/-- An FP32 operation of one, two or three sources, as CompletesFp takes it. -/
abbrev out1 (f : RM → Bool → Word → Word × Flags) (rm : RM) (i : Instr) (v : View) (act : Mask) (l : Nat) : AluOut :=
  ofW (f (v.wp.rm rm) v.wp.ftz (wordA i v act l))
abbrev out2 (f : RM → Bool → Word → Word → Word × Flags) (rm : RM) (i : Instr) (v : View) (act : Mask) (l : Nat) : AluOut :=
  ofW (f (v.wp.rm rm) v.wp.ftz (wordA i v act l) (wordB i v act l))
abbrev out3 (f : RM → Bool → Word → Word → Word → Word × Flags) (rm : RM) (i : Instr) (v : View) (act : Mask) (l : Nat) : AluOut :=
  ofW (f (v.wp.rm rm) v.wp.ftz (wordA i v act l) (wordB i v act l) (wordC i v act l))

/-- FADD, FSUB, FMUL, FFMA, FSCALE, FMIN, FMAX, FMINN, FMAXN, FRND and FEXP complete with the word and flags of 05 R147, R148 and
R151 under the mode and FTZ in force, wherever no lane raises an enabled flag. -/
def Obligations.Fp32Arithmetic : Prop :=
  (∀ h rm a b, CompletesFp (.fadd h rm a b) 1 (out2 fadd32 rm (.fadd h rm a b)))
  ∧ (∀ h rm a b, CompletesFp (.fsub h rm a b) 1 (out2 fsub32 rm (.fsub h rm a b)))
  ∧ (∀ h rm a b, CompletesFp (.fmul h rm a b) 1 (out2 fmul32 rm (.fmul h rm a b)))
  ∧ (∀ h rm a b c, CompletesFp (.ffma h rm a b c) 1 (out3 ffma32 rm (.ffma h rm a b c)))
  ∧ (∀ h rm a b, CompletesFp (.fscale h rm a b) 1 (out2 fscale32 rm (.fscale h rm a b)))
  ∧ (∀ h a b, CompletesFp (.fmin h a b) 1 (out2 (fun _ z x y => minmax32 false false z x y) .rne (.fmin h a b)))
  ∧ (∀ h a b, CompletesFp (.fmax h a b) 1 (out2 (fun _ z x y => minmax32 true false z x y) .rne (.fmax h a b)))
  ∧ (∀ h a b, CompletesFp (.fminn h a b) 1 (out2 (fun _ z x y => minmax32 false true z x y) .rne (.fminn h a b)))
  ∧ (∀ h a b, CompletesFp (.fmaxn h a b) 1 (out2 (fun _ z x y => minmax32 true true z x y) .rne (.fmaxn h a b)))
  ∧ (∀ h rm a, CompletesFp (.frnd h rm a) 1 (out1 frnd32 rm (.frnd h rm a)))
  ∧ (∀ h a, CompletesFp (.fexp h a) 1 (out1 (fun _ z x => fexp32 z x) .rne (.fexp h a)))

/-- FPRED, FCMP, DPRED, FCLASS and FCOPYSIGN complete with the results of 05 R149, R150 and R153. -/
def Obligations.FpComparesAndClasses : Prop :=
  (∀ h c k cp a b, CompletesFp (.fpred h c k cp a b) 1 fun v act l =>
      let i := Instr.fpred h c k cp a b
      let r := compareFp c (f32 v.wp.ftz (wordA i v act l)) (f32 v.wp.ftz (wordB i v act l))
      { val := ofB (combine k r.1 (v.wp.pref h.u cp l)), fl := r.2 })
  ∧ (∀ h c a b, CompletesFp (.fcmp h c a b) 1 fun v act l =>
      let i := Instr.fcmp h c a b
      let r := compareFp c (f32 v.wp.ftz (wordA i v act l)) (f32 v.wp.ftz (wordB i v act l))
      { val := ones32 r.1, fl := r.2 })
  ∧ (∀ h c k cp a b, CompletesFp (.dpred h c k cp a b) 1 fun v act l =>
      let i := Instr.dpred h c k cp a b
      let r := compareFp c (Fmt.f64.decode false (longA i v act l).toNat) (Fmt.f64.decode false (longB i v act l).toNat)
      { val := ofB (combine k r.1 (v.wp.pref h.u cp l)), fl := r.2 })
  ∧ (∀ h a, Completes (.fclass h a) fun v act l => [fclass32 (wordA (.fclass h a) v act l)])
  ∧ (∀ h a b, Completes (.fcopysign h a b) fun v act l =>
      let i := Instr.fcopysign h a b
      [(wordA i v act l &&& 0x7FFFFFFF) ||| (wordB i v act l &&& 0x80000000)])

/-- The two halves of a word as values of a format, and a packed result (05 R152). -/
abbrev halfVal (f : Fmt) (ftz : Bool) (x : DWord) (k : Nat) : Fp := f.decode ftz (half x k)
abbrev packedOut (f : Fmt) (w : Warp) (rm : RM) (el : RM → Nat → Fp × Flags) : AluOut :=
  let r := fun k => f.finish (w.rm rm) w.ftz (el (w.rm rm) k)
  { val := BitVec.ofNat 64 ((r 0).1 + 65536 * (r 1).1), fl := (r 0).2 ||| (r 1).2 }
abbrev doubleOut (w : Warp) (rm : RM) (x : RM → Fp × Flags) : AluOut :=
  let r := Fmt.f64.finish (w.rm rm) false (x (w.rm rm))
  { val := BitVec.ofNat 64 r.1, fl := r.2 }

/-- PKADDH, PKMULH, PKFMAH, PKFMAB, PKDOTH, B8DOT4, DADD, DMUL and DFMA complete with the results and flags of 05 R152 to R155. -/
def Obligations.PackedDoubleDots : Prop :=
  (∀ h rm a b, CompletesFp (.pkaddh h rm a b) 1 fun v act l =>
      let i := Instr.pkaddh h rm a b
      packedOut .f16 v.wp rm fun m k => addFp m (halfVal .f16 v.wp.ftz (longA i v act l) k) (halfVal .f16 v.wp.ftz (longB i v act l) k))
  ∧ (∀ h rm a b, CompletesFp (.pkmulh h rm a b) 1 fun v act l =>
      let i := Instr.pkmulh h rm a b
      packedOut .f16 v.wp rm fun _ k => mulFp (halfVal .f16 v.wp.ftz (longA i v act l) k) (halfVal .f16 v.wp.ftz (longB i v act l) k))
  ∧ (∀ h rm a b c, CompletesFp (.pkfmah h rm a b c) 1 fun v act l =>
      let i := Instr.pkfmah h rm a b c
      packedOut .f16 v.wp rm fun m k => fmaFp m (halfVal .f16 v.wp.ftz (longA i v act l) k)
        (halfVal .f16 v.wp.ftz (longB i v act l) k) (halfVal .f16 v.wp.ftz (longC i v act l) k))
  ∧ (∀ h rm a b c, CompletesFp (.pkfmab h rm a b c) 1 fun v act l =>
      let i := Instr.pkfmab h rm a b c
      packedOut .bf16 v.wp rm fun m k => fmaFp m (halfVal .bf16 v.wp.ftz (longA i v act l) k)
        (halfVal .bf16 v.wp.ftz (longB i v act l) k) (halfVal .bf16 v.wp.ftz (longC i v act l) k))
  ∧ (∀ h rm bf a b c, CompletesFp (.pkdoth h rm bf a b c) 1 fun v act l =>
      let i := Instr.pkdoth h rm bf a b c
      let f := if bf then Fmt.bf16 else Fmt.f16
      let p := fun k => (halfVal f v.wp.ftz (longA i v act l) k, halfVal f v.wp.ftz (longB i v act l) k)
      ofW (f32op (v.wp.rm rm) v.wp.ftz (dotFp (v.wp.rm rm) [f32 v.wp.ftz (wordC i v act l)] [p 0, p 1])))
  ∧ (∀ h ta tb rm a b c, CompletesFp (.b8dot4 h ta tb rm a b c) 1 fun v act l =>
      let i := Instr.b8dot4 h ta tb rm a b c
      let p := fun k => (valueOf ta (bits (longA i v act l).toNat (8 * k) 8), valueOf tb (bits (longB i v act l).toNat (8 * k) 8))
      ofW (f32op (v.wp.rm rm) v.wp.ftz (dotFp (v.wp.rm rm) [f32 v.wp.ftz (wordC i v act l)] [p 0, p 1, p 2, p 3])))
  ∧ (∀ h rm a b, CompletesFp (.dadd h rm a b) 2 fun v act l =>
      let i := Instr.dadd h rm a b
      doubleOut v.wp rm fun m => addFp m (Fmt.f64.decode false (longA i v act l).toNat) (Fmt.f64.decode false (longB i v act l).toNat))
  ∧ (∀ h rm a b, CompletesFp (.dmul h rm a b) 2 fun v act l =>
      let i := Instr.dmul h rm a b
      doubleOut v.wp rm fun _ => mulFp (Fmt.f64.decode false (longA i v act l).toNat) (Fmt.f64.decode false (longB i v act l).toNat))
  ∧ (∀ h rm a b c, CompletesFp (.dfma h rm a b c) 2 fun v act l =>
      let i := Instr.dfma h rm a b c
      doubleOut v.wp rm fun m => fmaFp m (Fmt.f64.decode false (longA i v act l).toNat) (Fmt.f64.decode false (longB i v act l).toNat)
        (Fmt.f64.decode false (longC i v act l).toNat))

/-- CVT, CVTC, PACK8, UNPACK8, the special functions and ACT complete with the results and flags of 05 R156 to R164, wherever no
lane meets a range event under policy TRAP or raises an enabled flag. -/
def Obligations.ConversionsAndFunctions : Prop :=
  (∀ h td ts rm ovp a, CompletesFp (.cvt h td ts rm ovp a) td.words fun v act l =>
      let c := convert td (v.wp.rm rm) ovp ts.isInt (valueOf ts (longA (.cvt h td ts rm ovp a) v act l).toNat)
      { val := placeOf td c.bits, fl := c.fl, event := c.event })
  ∧ (∀ h td ts rm ovp tabl a, CompletesFp (.cvtc h td ts rm ovp true tabl a) 1 fun v act l =>
      let x := longA (.cvtc h td ts rm ovp true tabl a) v act l
      ofW (curve true (v.sl.bank false tabl.toNat) (convert .f32 .rne .sat false (valueOf ts x.toNat)).bits))
  ∧ (∀ h td ts rm ovp tabl a, CompletesFp (.cvtc h td ts rm ovp false tabl a) 1 fun v act l =>
      let y := curve false (v.sl.bank false tabl.toNat) (wordA (.cvtc h td ts rm ovp false tabl a) v act l)
      let c := convert td (v.wp.rm rm) ovp false (f32 false y.1)
      { val := placeOf td c.bits, fl := y.2 ||| c.fl, event := c.event })
  ∧ (∀ h td rm ovp hi a b c, CompletesFp (.pack8 h td rm ovp hi a b c) 1 fun v act l =>
      let i := Instr.pack8 h td rm ovp hi a b c
      let p := convert td (v.wp.rm rm) ovp false (f32 false (wordA i v act l))
      let q := convert td (v.wp.rm rm) ovp false (f32 false (wordB i v act l))
      let z := longC i v act l
      { val := BitVec.ofNat 64 (if hi then (p.bits + 256 * q.bits) * 65536 + bits z.toNat 0 16 else p.bits + 256 * q.bits + bits z.toNat 16 16 * 65536)
        fl := p.fl ||| q.fl, event := p.event || q.event })
  ∧ (∀ h ts elem a, Completes (.unpack8 h ts elem a) fun v act l =>
      [loWord (placeOf .f32 (convert .f32 .rne .sat false
        (valueOf ts (bits (longA (.unpack8 h ts elem a) v act l).toNat (8 * elem.toNat) 8))).bits)])
  ∧ (∀ h a, CompletesFp (.rcp h a) 1 (out1 (specialF .rcp) .rne (.rcp h a)))
  ∧ (∀ h a, CompletesFp (.rsq h a) 1 (out1 (specialF .rsq) .rne (.rsq h a)))
  ∧ (∀ h rm a, CompletesFp (.sqrt h rm a) 1 (out1 (specialF .sqrt) rm (.sqrt h rm a)))
  ∧ (∀ h a, CompletesFp (.exp2 h a) 1 (out1 (specialF .exp2) .rne (.exp2 h a)))
  ∧ (∀ h a, CompletesFp (.log2 h a) 1 (out1 (specialF .log2) .rne (.log2 h a)))
  ∧ (∀ h a, CompletesFp (.sin h a) 1 (out1 (specialF .sin) .rne (.sin h a)))
  ∧ (∀ h a, CompletesFp (.cos h a) 1 (out1 (specialF .cos) .rne (.cos h a)))
  ∧ (∀ h a, CompletesFp (.tanh h a) 1 (out1 (specialF .tanh) .rne (.tanh h a)))
  ∧ (∀ h a, CompletesFp (.sigm h a) 1 (out1 (specialF .sigm) .rne (.sigm h a)))
  ∧ (∀ h tabl a, CompletesFp (.act h tabl a) 1 fun v act l =>
      ofW (activation (v.sl.bank true tabl.toNat) v.wp.ftz (wordA (.act h tabl a) v act l)))

/-- What one part of the softmax idiom leaves: a register written in the active lanes (05 R166). -/
abbrev partOf (w : Warp) (h : Hdr) (act : Mask) (r : BitVec 8) (f : Nat → Word) : Warp :=
  w.writeDst { h with dst := .vec r } act fun l => [f l]

/-- The fused softmax idiom, in a warp with every trap disabled and its registers full, leaves what its four instructions leave one
after another, sets the flags that they set, and goes on after the fourth (05 R166, R167). The fourth begins no bound run. -/
def Obligations.SoftmaxIdiomCompletes : Prop :=
  ∀ (h : Hdr) (rs ra : RM) (vx vm vd ve vs : BitVec 8) (s : State) (v : View), s.view = some v → v.wp.enables = 0 → h.u = false → h.ws = false →
    v.wp.readP false h.guard.num.toNat = none → idiomRun s v = none →
    (∀ r ∈ [vx, vm, vd, ve, vs], (v.wp.vget r.toNat).tag = .full) → (v.wp.vget vx.toNat).bad = 0 →
    ∃ t, exec (.softmaxIdiom h rs ra vx vm vd ve vs) s = .next t ∧
      let w := v.wp
      let act := w.active v.sp.mask h
      let o1 := fun l => leafOut (lredLane w act .f32 .rne .max (w.vlane vx.toNat) l)
      let w1 := partOf w h act vm fun l => loWord (o1 l).val
      let o2 := fun l => ofW (fsub32 (w.rm rs) w.ftz (w1.vlane vx.toNat l) (w1.vlane vm.toNat l))
      let w2 := partOf w1 h act vd fun l => loWord (o2 l).val
      let o3 := fun l => ofW (specialF .exp2 .rne w.ftz (w2.vlane vd.toNat l))
      let w3 := partOf w2 h act ve fun l => loWord (o3 l).val
      let o4 := fun l => leafOut (lredLane w act .f32 ra .add (w3.vlane ve.toNat) l)
      let w4 := partOf w3 h act vs fun l => loWord (o4 l).val
      let f : Flags := raised h act o1 ||| raised h act o2 ||| raised h act o3 ||| raised h act o4
      ∃ w', OnlyWarp s v w' t
        ∧ OnlyRegs { w with fpstat := w.fpstat ||| f.setWidth 32 } w' ∧ (∀ n, w'.vget n = w4.vget n) ∧ (∀ k, w'.sget k = w.sget k)
        ∧ (∀ k l, w'.pget k l = w.pget k l) ∧ (∀ k, w'.qget k = w.qget k)
        ∧ Moved v w' fun _ => nextPc (nextPc (nextPc (nextPc v.sp.pc)))

/-- A floating-point or conversion instruction in which an executing lane meets a range event under policy TRAP, or else raises an
enabled flag, traps with the kind of 02 R63 or 01 R39: it writes no register and no flag, and TRAPINFO names the lowest enabled
flag raised and the first lane that raised it. It is stated of FADD, FMUL, FFMA, CVT and DMUL. -/
def Obligations.FpExceptionTraps : Prop :=
  ∀ i out s v act, ready i s = some (v, act) →
    ((∃ h rm a b, i = .fadd h rm a b ∧ out = out2 fadd32 rm i v act) ∨ (∃ h rm a b, i = .fmul h rm a b ∧ out = out2 fmul32 rm i v act)
      ∨ (∃ h rm a b c, i = .ffma h rm a b c ∧ out = out3 ffma32 rm i v act)
      ∨ (∃ h td ts rm ovp a, i = .cvt h td ts rm ovp a ∧ out = fun l =>
          let c := convert td (v.wp.rm rm) ovp ts.isInt (valueOf ts (longA i v act l).toNat)
          ({ val := placeOf td c.bits, fl := c.fl, event := c.event } : AluOut))
      ∨ (∃ h rm a b, i = .dmul h rm a b ∧ out = fun l =>
          doubleOut v.wp rm fun _ => mulFp (Fmt.f64.decode false (longA i v act l).toNat) (Fmt.f64.decode false (longB i v act l).toNat))) →
    (∀ l, l ∈ execLanes i.hdr act → (out l).event = true → (∀ k, k ∈ execLanes i.hdr act → k < l → (out k).event = false) →
      exec i s = .next (s.takeTrap v { kind := .conversion, lane := some l, info := BitVec.ofNat 64 l }))
    ∧ ((∀ l, l ∈ execLanes i.hdr act → (out l).event = false) → ∀ f l, f < 6 → l ∈ execLanes i.hdr act →
        (out l).fl.getLsbD f = true → v.wp.enables.getLsbD f = true →
        (∀ g k, g < f → k ∈ execLanes i.hdr act → ((out k).fl &&& v.wp.enables).getLsbD g = false) →
        (∀ k, k ∈ execLanes i.hdr act → k < l → (out k).fl.getLsbD f = false) →
        exec i s = .next (s.takeTrap v { kind := .fpExc, lane := some l, info := BitVec.ofNat 64 (f + 256 * l) }))

/-! ### Predicates and lanes (04 R138-R144; 02 R70, R71, R73, R74) -/

/-- PBOOL, PMOV, POLL, PEERS and LEAD complete with the results of 04 R138, R139, R142 and R143. -/
def Obligations.PredicatesAndVotes : Prop :=
  (∀ h pa pb pc lut, Completes (.pbool h pa pb pc lut) fun v _ l =>
      [if lut.getLsbD ((v.wp.pref h.u pa l).toNat + 2 * (v.wp.pref h.u pb l).toNat + 4 * (v.wp.pref h.u pc l).toNat) then 1 else 0])
  ∧ (∀ h mask, Completes (.pmov h mask none) fun v _ l =>
      [maskOf fun k => k < 7 && (if h.u then v.wp.qget k else v.wp.pget k l)])
  ∧ (∀ h mask a s v act, ready (.pmov h mask (some a)) s = some (v, act) → ∃ t w', exec (.pmov h mask (some a)) s = .next t ∧
      OnlyWarp s v w' t ∧ OnlyRegs v.wp w' ∧ (∀ n, w'.vget n = v.wp.vget n) ∧ (∀ k, w'.sget k = v.wp.sget k)
      ∧ (∀ k l, k < 7 → l < 32 → k < v.wp.preds.length → w'.pget k l =
          if h.u = false ∧ bit act l = true ∧ mask.getLsbD k = true then (wordA (.pmov h mask (some a)) v act l).getLsbD k else v.wp.pget k l)
      ∧ (∀ k, k < 7 → w'.qget k =
          if h.u = true ∧ act ≠ 0 ∧ mask.getLsbD k = true then (wordA (.pmov h mask (some a)) v act (leadLane act)).getLsbD k else v.wp.qget k)
      ∧ Moved v w' fun _ => nextPc v.sp.pc)
  ∧ (∀ h vp, Completes (.poll h .all vp) fun v act l => [if (sect v.wp act l).all (v.wp.pref false vp ·) then 1 else 0])
  ∧ (∀ h vp, Completes (.poll h .any vp) fun v act l => [if (sect v.wp act l).any (v.wp.pref false vp ·) then 1 else 0])
  ∧ (∀ h vp, Completes (.poll h .same vp) fun v act l =>
      [if (sect v.wp act l).all (v.wp.pref false vp ·) || (sect v.wp act l).all (fun k => !v.wp.pref false vp k) then 1 else 0])
  ∧ (∀ h vp, (∀ n, h.dst ≠ .scal n) → Completes (.poll h .mask vp) fun v act l =>
      [positions v.wp ((sect v.wp act l).filter (v.wp.pref false vp ·))])
  ∧ (∀ h vp n, h.dst = .scal n → Completes (.poll h .mask vp) fun v act _ => [maskOf fun k => bit act k && v.wp.pref false vp k])
  ∧ (∀ h w64 a, Completes (.peers h false w64 a) fun v act l =>
      let x := longA (.peers h false w64 a) v act
      [positions v.wp ((sect v.wp act l).filter fun k => x k == x l)])
  ∧ (∀ h w64 a, Completes (.peers h true w64 a) fun v act l =>
      let x := longA (.peers h true w64 a) v act
      [if (sect v.wp act l).all (fun k => x k == x l) then positions v.wp (sect v.wp act l) else 0])
  ∧ (∀ h, Completes (.lead h) fun v act l => [if (sect v.wp act l).head? = some l then 1 else 0])

/-- PARTSET writes PART with a value from 1 to 5; any other is an illegal instruction naming A (04 R143; 01 R15). -/
abbrev partitionWrites : Prop :=
  (∀ h a, Does (.partset h a) (bare h)
      (fun _ v act => act = 0 ∨ 1 ≤ (longA (.partset h a) v act (leadLane act)).toNat ∧ (longA (.partset h a) v act (leadLane act)).toNat ≤ 5)
      (fun _ v act => if act = 0 then v.wp else { v.wp with part := (longA (.partset h a) v act (leadLane act)).toNat })
      (fun _ _ _ _ => []) (fun v _ _ => nextPc v.sp.pc))
  ∧ (∀ h a, Traps (.partset h a)
      (fun _ v act => act ≠ 0 ∧ ((longA (.partset h a) v act (leadLane act)).toNat = 0 ∨ 5 < (longA (.partset h a) v act (leadLane act)).toNat))
      fun _ _ _ => { kind := .illegal, info := 7 })

/-- LXCH and LPERM complete with the value of the lane that 04 R140 and R144 name, wherever that lane's register can be read. -/
def Obligations.LaneExchanges : Prop :=
  partitionWrites
  ∧ ((∀ h mode w64 a b, Does (.lxch h mode w64 a b) h
      (fun _ v act => ∀ x, srcOf (.lxch h mode w64 a b) 0 = some x → v.wp.readSrc v.sp.run (maskOf fun k => (laneList act).any fun l =>
        exchangeLane v.wp mode l (wordB (.lxch h mode w64 a b) v act l).toNat == k) x = none)
      (fun _ v _ => v.wp)
      (fun _ v act l => let i := Instr.lxch h mode w64 a b
        let x := longA i v act (exchangeLane v.wp mode l (wordB i v act l).toNat)
        if w64 then twoWords x else [loWord x])
      (fun v _ _ => nextPc v.sp.pc))
  ∧ (∀ h w64 a b, Does (.lperm h w64 a b) h
      (fun _ v act => ∀ x, srcOf (.lperm h w64 a b) 0 = some x → v.wp.readSrc v.sp.run (maskOf fun k => (laneList act).any fun l =>
        l / 2 ^ v.wp.part * 2 ^ v.wp.part + (wordB (.lperm h w64 a b) v act l).toNat % 2 ^ v.wp.part == k) x = none)
      (fun _ v _ => v.wp)
      (fun _ v act l => let i := Instr.lperm h w64 a b
        let x := longA i v act (l / 2 ^ v.wp.part * 2 ^ v.wp.part + (wordB i v act l).toNat % 2 ^ v.wp.part)
        if w64 then twoWords x else [loWord x])
      (fun v _ _ => nextPc v.sp.pc)))

/-- LRED and LSCAN of an integer type complete, in a warp with a legal PART, with the combination of the active lanes of the section
in lane order, all of them, or those below the lane and, in the inclusive form, the lane itself (04 R141; 02 R73, R74). -/
def Obligations.IntegerReductions : Prop :=
  (∀ h t rm op a, t ≠ .f32 → Does (.lred h t rm op a) h (fun _ v _ => v.wp.part ≤ 5) (fun _ v _ => v.wp)
      (fun _ v act l => [(sect v.wp act l).foldl
        (fun x k => (reduceOp t op .rne false x (wordA (.lred h t rm op a) v act k)).1) (identityOf t op)])
      (fun v _ _ => nextPc v.sp.pc))
  ∧ (∀ h t rm excl op a, t ≠ .f32 → Does (.lscan h t rm excl op a) h (fun _ v _ => v.wp.part ≤ 5) (fun _ v _ => v.wp)
      (fun _ v act l => [((sect v.wp act l).filter fun k => k < l || !excl && k == l).foldl
        (fun x k => (reduceOp t op .rne false x (wordA (.lscan h t rm excl op a) v act k)).1) (identityOf t op)])
      (fun v _ _ => nextPc v.sp.pc))
  ∧ (∀ t a b, t ≠ .f32 → (reduceOp t .add .rne false a b).1 = a + b ∧ (reduceOp t .and .rne false a b).1 = a &&& b
      ∧ (reduceOp t .or .rne false a b).1 = a ||| b ∧ (reduceOp t .xor .rne false a b).1 = a ^^^ b)
  ∧ (∀ a b : Word, (reduceOp .s32 .min .rne false a b).1.toInt = min a.toInt b.toInt
      ∧ (reduceOp .s32 .max .rne false a b).1.toInt = max a.toInt b.toInt
      ∧ (reduceOp .n32 .min .rne false a b).1.toNat = min a.toNat b.toNat ∧ (reduceOp .n32 .max .rne false a b).1.toNat = max a.toNat b.toNat)

/-- LRED and LSCAN of f32 and HAD complete with the tree of 02 R73 and R74 and the transform of 02 R70, wherever no lane raises an
enabled flag; HAD wider than the section is an illegal instruction naming FN (04 R144). -/
def Obligations.FloatingReductions : Prop :=
  (∀ h rm op a, CompletesFp (.lred h .f32 rm op a) 1 fun v act l =>
      leafOut (lredLane v.wp act .f32 rm op (wordA (.lred h .f32 rm op a) v act) l))
  ∧ (∀ h rm excl op a, CompletesFp (.lscan h .f32 rm excl op a) 1 fun v act l =>
      leafOut (lscanLane v.wp act .f32 rm excl op (wordA (.lscan h .f32 rm excl op a) v act) l))
  ∧ (∀ h size32 sideB a s v act,
      let i := Instr.had h size32 sideB a
      let n := if size32 then 32 else 16
      let x := fun k => if bit act k then wordA i v act k else 0
      let out : Nat → AluOut := fun l =>
        ofW ((hadamard v.wp.ftz size32 sideB ((List.range n).map fun j => x (l / n * n + j))).getD (l % n) (0, 0))
      ready i s = some (v, act) → n ≤ 2 ^ v.wp.part → Quiet v.wp h act out → ∃ t, exec i s = .next t ∧
        Acted s v { v.wp with fpstat := v.wp.fpstat ||| (raised h act out).setWidth 32 } h act (fun l => [loWord (out l).val])
          (fun _ => nextPc v.sp.pc) t)
  ∧ (∀ h size32 sideB a, Traps (.had h size32 sideB a)
      (fun _ v act => act ≠ 0 ∧ 2 ^ v.wp.part < (if size32 then 32 else 16)) fun _ _ _ => { kind := .illegal, info := 10 })

/-! ### Transfers, ends and regions (04 R128-R132) -/

/-- BRX with a table at an aligned address completes where the entries that its lanes name can be read: each active lane whose index is
below COUNT goes to the entry it names, read as eight bytes; the others go on (04 R129). Where an entry lies on a page of kind SO each
lane's region entry moves to its new counter (01 R33). A misaligned table traps. With no active lane the split only goes on. -/
abbrev tableBranch : Prop :=
  (∀ h count a b s v act xs s1 ds,
      let i := Instr.brx h count a b
      let base := longB i v act (leadLane act)
      let idx := fun l => (wordA i v act l).toNat
      let named := (execLanes h act).filter fun l => idx l < count.toNat
      let so := xs.any (fun x => x.2.2.isSO)
      let target := fun l => (if h.u then ds.head?.map (·.2) else kget ds l).map (BitVec.ofNat 64)
      let pc := fun l => if bit act l then (target l).getD (nextPc v.sp.pc) else nextPc v.sp.pc
      ready i s = some (v, act) → act ≠ 0 → base.toNat % 8 = 0 →
      s.resolveAll v h.u 8 .generic .move false (named.map fun l => (l, base + BitVec.ofNat 64 (8 * idx l))) = .ok xs →
      (s.acquire v so).readAll v h.u 8 .home xs = (s1, .ok ds) →
      ∃ t, exec i s = .next t ∧
        Acted s1 v (if so then v.wp.recordHits v.sp.mask else v.wp) (bare h) act (fun _ => []) pc t
        ∧ t = s1.retireTo v (if so then v.wp.recordHits v.sp.mask else v.wp)
            ((if so then v.sp.enterAt (s1.liveAt v.cur.slice v.tm) pc else v.sp).latch fun _ => 0) pc
            (fun l => (if bit act l then target l else none).isSome))
  ∧ (∀ (p : Split) live pcOf l, l < 32 → bit p.mask l = true →
      ∃ q ∈ (p.enterAt live pcOf).parts, bit q.mask l = true ∧ q.entry = pcOf l ∧ q.livein = live (pcOf l))
  ∧ (∀ h count a b, Does (.brx h count a b) (bare h) (fun _ _ act => act = 0) (fun _ v _ => v.wp) (fun _ _ _ _ => []) (fun v _ _ => nextPc v.sp.pc))
  ∧ (∀ h count a b, Traps (.brx h count a b)
      (fun _ v act => act ≠ 0 ∧ (longB (.brx h count a b) v act (leadLane act)).toNat % 8 ≠ 0)
      fun _ v act => { kind := .misalign, info := longB (.brx h count a b) v act (leadLane act) })

/-- BRA, JMP, RET, CALL and CALLX complete in every state in which they are ready: the active lanes go to the target of 03 R102 or to the
value of A, the others go on, a call writes the counter after it to its destination in the active lanes, and nothing else of the
machine changes (04 R128-R130). From slot k < 5 of a line the target of 03 R102 is the slot that SLOT names of the line LOFF lines on. -/
def Obligations.Transfers : Prop :=
  tableBranch
  ∧ ((∀ h loff slot, Does (.bra h loff slot) (bare h) (fun _ _ _ => True) (fun _ v _ => v.wp) (fun _ _ _ _ => [])
      (goTo fun v _ _ => jTarget v.sp.pc loff slot))
  ∧ (∀ h a, Does (.jmp h a) (bare h) (fun _ _ _ => True) (fun _ v _ => v.wp) (fun _ _ _ _ => []) (goTo (longA (.jmp h a))))
  ∧ (∀ h a, Does (.ret h a) (bare h) (fun _ _ _ => True) (fun _ v _ => v.wp) (fun _ _ _ _ => []) (goTo (longA (.ret h a))))
  ∧ (∀ h loff slot, Does (.call h loff slot) h (fun _ _ _ => True) (fun _ v _ => v.wp) (fun _ v _ _ => twoWords (nextPc v.sp.pc))
      (goTo fun v _ _ => jTarget v.sp.pc loff slot))
  ∧ (∀ h a, Does (.callx h a) h (fun _ _ _ => True) (fun _ v _ => v.wp) (fun _ v _ _ => twoWords (nextPc v.sp.pc)) (goTo (longA (.callx h a))))
  ∧ (∀ pc : DWord, ∀ loff slot, pc.toNat % 64 = 0 → ∀ k < 5,
      jTarget (pc + 4 + BitVec.ofNat 64 (12 * k)) loff slot = pc + 64 * loff.signExtend 64 + 4 + 12 * slot.setWidth 64))

/-- EXIT takes its active lanes out of the warp; the others go on. What the lanes' end completes, a barrier of the team, group
barriers, a handler, follows (04 R131; 01 R9). -/
abbrev exitTakesLanes : Prop :=
  ∀ h s v act, ready (.exit h) s = some (v, act) →
    (act = 0 → ∃ t, exec (.exit h) s = .next t ∧ Acted s v v.wp (bare h) 0 (fun _ => []) (fun _ => nextPc v.sp.pc) t)
    ∧ (act ≠ 0 → ∃ t w', exec (.exit h) s = .next (t.afterExit v.ref) ∧ OnlyWarp s v w' t
        ∧ OnlyRegs { v.wp with exited := v.wp.exited ||| act } w' ∧ Wrote v.wp (bare h) act (fun _ => []) w' ∧ Left v act w')

/-- REGN gives every lane of the split a region entry at itself, with the ranges of its chain as the live-in set; a chained REGN adds
what the set of a part does not hold. A commit-class instruction that is accepted gives every lane an entry at the next instruction, with
the live-in set of a REGN there or every register (04 R132; 01 R32, R33, R445). -/
def Obligations.RegionEntries : Prop :=
  exitTakesLanes
  ∧ (∀ r0 r1 r2 r3 ch s v act, ready (.regn r0 r1 r2 r3 ch) s = some (v, act) →
    let rs := [r0, r1, r2, r3].filter fun r => r.len != 0
    let w := if ch then v.wp else v.wp.recordHits v.sp.mask
    ∃ t p, exec (.regn r0 r1 r2 r3 ch) s = .next t ∧ t = s.retire v w p ∧ p.pc = v.sp.pc ∧ p.mask = v.sp.mask
      ∧ p.parts = (if ch then v.sp.parts.map fun q => { q with livein := q.livein.map fun l => l ++ rs.filter (!l.contains ·) }
                   else [{ entry := v.sp.pc, mask := v.sp.mask, livein := some (rs ++ s.chainFrom v.cur.slice v.tm 64 (nextPc v.sp.pc)) }])
      ∧ Acted s v w (bare (Instr.hdr (.regn r0 r1 r2 r3 ch))) act (fun _ => []) (fun _ => nextPc v.sp.pc) t)
  ∧ (∀ s v w, let live := s.liveAt v.cur.slice v.tm (nextPc v.sp.pc)
      (State.accept s v w).1 = w.recordHits v.sp.mask ∧ (State.accept s v w).2.parts = [{ entry := nextPc v.sp.pc, mask := v.sp.mask, livein := live }]
      ∧ (s.regnAt v.cur.slice v.tm (nextPc v.sp.pc) = none → live = none)
      ∧ ∀ rs, s.regnAt v.cur.slice v.tm (nextPc v.sp.pc) = some (rs, false) →
          live = some (rs ++ s.chainFrom v.cur.slice v.tm 64 (nextPc (nextPc v.sp.pc))))

/-! ### Waiting (04 R133, R134) -/

/-- YIELD lets the sequencer's other splits go first; SLEEP holds the split for the largest count of its lanes, and a count of 0 is
none; WAIT goes on where what it names is not pending, and else is issued again (04 R133, R134). -/
def Obligations.Waits : Prop :=
  (∀ h s v act, ready (.yield h) s = some (v, act) → ∃ t w', exec (.yield h) s = .next t
      ∧ OnlyWarp (if act = 0 then s else s.setRotor v.cur.slice v.tm.cu v.wp.seq (v.wp.slot * 32 + 31)) v w' t
      ∧ OnlyRegs v.wp w' ∧ Wrote v.wp (bare h) act (fun _ => []) w' ∧ Moved v w' fun _ => nextPc v.sp.pc)
  ∧ (∀ h a, Does (.sleep h a) (bare h)
      (fun _ v act => ∀ l ∈ execLanes h act, wordA (.sleep h a) v act l = 0)
      (fun _ v _ => v.wp) (fun _ _ _ _ => []) (fun v _ _ => nextPc v.sp.pc))
  ∧ (∀ h a s v act d, ready (.sleep h a) s = some (v, act) → 0 < d →
      (∀ l ∈ execLanes h act, (wordA (.sleep h a) v act l).toNat ≤ d) →
      (∃ l ∈ execLanes h act, (wordA (.sleep h a) v act l).toNat = d) →
      ∃ t, exec (.sleep h a) s = .next t ∧ HeldAt s v v.wp (.sleep (s.dtime + d)) t)
  ∧ (∀ h, Does (.wait h none) (bare h) (fun _ v act => act = 0 ∨ ∀ r ∈ v.wp.vregs, r.tag ≠ .pending)
      (fun _ v _ => v.wp) (fun _ _ _ _ => []) (fun v _ _ => nextPc v.sp.pc))
  ∧ (∀ h x n, x.base = .vec n → Does (.wait h (some x)) (bare h) (fun _ v act => act = 0 ∨ (v.wp.vget n.toNat).tag ≠ .pending)
      (fun _ v _ => v.wp) (fun _ _ _ _ => []) (fun v _ _ => nextPc v.sp.pc))
  ∧ (∀ h s v act, ready (.wait h none) s = some (v, act) → act ≠ 0 → (∃ r ∈ v.wp.vregs, r.tag = .pending) → exec (.wait h none) s = .next s)
  ∧ (∀ h x n s v act, x.base = .vec n → ready (.wait h (some x)) s = some (v, act) → act ≠ 0 → (v.wp.vget n.toNat).tag = .pending →
      exec (.wait h (some x)) s = .next s)

/-! ### Regrouped calls (04 R135; 11 R305) -/

/-- The record of an RCALL or RRET in a lane: its live registers, its ORIGLANE, its return stack. -/
abbrev callRec (s : State) (v : View) (l : Nat) (h : Hdr) (nlive : BitVec 4) (stack : List DWord) : RRec :=
  { first := h.dst.num.toNat, words := (List.range (nlive.toNat + 1)).map fun k => v.wp.vlane (h.dst.num.toNat + k) l,
    orig := v.wp.origlane.getD l 0, stack := stack, launch := v.wp.origin.getD l v.tm.launch, time := s.dtime }

/-- What sending lanes to the collator leaves: the records are in their bins, and the lanes have left. -/
abbrev Sent (s : State) (v : View) (h : Hdr) (act : Mask) (x : Slice) (i : Instr) : Prop :=
  ∃ t w', exec i s = .next (t.afterExit v.ref) ∧ OnlyWarp (s.setSlice v.cur.slice x) v w' t
    ∧ OnlyRegs { (v.wp.recordHits v.sp.mask) with exited := v.wp.exited ||| act } w'
    ∧ Wrote v.wp (bare h) act (fun _ => []) w' ∧ Left v act w'

/-- RCALL and RRET complete outside a handler where the pool has the bins that their records need: the active lanes leave the warp, and
each lane's record, of its live registers, its ORIGLANE and its return stack with the link pushed or the top popped, stands in the bin
of the target and A (RCALL), or of the address on top of its return stack and 0 (RRET). Where the pool lacks the bins, no record is
appended, the pool counts as full, and the split is held. In a handler, with a full stack (RCALL) or an empty one (RRET) in an active lane, they
are illegal instructions naming FN. An RCALL to a mapped target that is not marked takes the branch-target trap before any append (04 R135; 03 R89). -/
def Obligations.RegroupedCalls : Prop :=
  (∀ h nlive loff slot a s v act x,
      let i := Instr.rcall h nlive loff slot a
      ready i s = some (v, act) → act ≠ 0 → v.wp.handler = none → (∀ l ∈ laneList act, (v.wp.returns.getD l []).length < 8) →
      s.checkTarget v (jTarget v.sp.pc loff slot) = none →
      v.sl.append ((laneList act).map fun l => .regroup (regroupKey v l (jTarget v.sp.pc loff slot) (wordA i v act l))
        (callRec s v l h nlive (nextPc v.sp.pc :: v.wp.returns.getD l []))) = some x → Sent s v h act x i)
  ∧ (∀ h nlive s v act x,
      let i := Instr.rret h nlive
      ready i s = some (v, act) → act ≠ 0 → v.wp.handler = none → (∀ l ∈ laneList act, v.wp.returns.getD l [] ≠ []) →
      v.sl.append ((laneList act).map fun l => .regroup (regroupKey v l ((v.wp.returns.getD l []).headD 0) 0)
        (callRec s v l h nlive (v.wp.returns.getD l []).tail)) = some x → Sent s v h act x i)
  ∧ (∀ (x y : Slice) (rs : List BinRec), x.append rs = some y → (∀ k ∈ rs.map (·.key), rs.length + x.binned k < x.loadSize k) → ∀ k : RKey,
      (kget y.regroup k).getD [] = (kget x.regroup k).getD [] ++ rs.filterMap fun e => match e with
        | .regroup j r => if j = k then some r else none
        | .node .. => none)
  ∧ (∀ h nlive loff slot a s v act,
      let i := Instr.rcall h nlive loff slot a
      ready i s = some (v, act) → act ≠ 0 → v.wp.handler = none → (∀ l ∈ laneList act, (v.wp.returns.getD l []).length < 8) →
      s.checkTarget v (jTarget v.sp.pc loff slot) = none →
      v.sl.append ((laneList act).map fun l => .regroup (regroupKey v l (jTarget v.sp.pc loff slot) (wordA i v act l))
        (callRec s v l h nlive (nextPc v.sp.pc :: v.wp.returns.getD l []))) = none → ∃ t, exec i s = .next t
        ∧ HeldAt (s.modSlice v.cur.slice fun x => { x with poolFull := x.poolFull + 1 }) v v.wp .pool t)
  ∧ (∀ h nlive s v act,
      let i := Instr.rret h nlive
      ready i s = some (v, act) → act ≠ 0 → v.wp.handler = none → (∀ l ∈ laneList act, v.wp.returns.getD l [] ≠ []) →
      v.sl.append ((laneList act).map fun l => .regroup (regroupKey v l ((v.wp.returns.getD l []).headD 0) 0)
        (callRec s v l h nlive (v.wp.returns.getD l []).tail)) = none → ∃ t, exec i s = .next t
        ∧ HeldAt (s.modSlice v.cur.slice fun x => { x with poolFull := x.poolFull + 1 }) v v.wp .pool t)
  ∧ (∀ h nlive loff slot a, Traps (.rcall h nlive loff slot a)
      (fun s v act => act ≠ 0 ∧ v.wp.handler = none ∧ (∀ l ∈ laneList act, (v.wp.returns.getD l []).length < 8)
        ∧ (∃ pa kind, s.lineAddr v.cur.slice v.tm.vf v.tm.cu (jTarget v.sp.pc loff slot) = .ok pa kind)
        ∧ s.marked v.cur.slice v.tm.vf v.tm.cu (jTarget v.sp.pc loff slot) = false)
      fun _ v _ => { kind := .branchTarget, info := jTarget v.sp.pc loff slot })
  ∧ (∀ h nlive loff slot a, Traps (.rcall h nlive loff slot a)
      (fun _ v act => act ≠ 0 ∧ (v.wp.handler ≠ none ∨ ∃ l ∈ laneList act, 8 ≤ (v.wp.returns.getD l []).length))
      fun _ _ _ => { kind := .illegal, info := 10 })
  ∧ (∀ h nlive, Traps (.rret h nlive)
      (fun _ v act => act ≠ 0 ∧ (v.wp.handler ≠ none ∨ ∃ l ∈ laneList act, v.wp.returns.getD l [] = []))
      fun _ _ _ => { kind := .illegal, info := 10 })

/-! ### Traps and the return (04 R136, R137; 19 R377-R383) -/

/-- Taking a trap in a warp that runs no handler and has a trap vector (19 R379): TRAPPC, TRAPCAUSE and TRAPINFO are written, the
split's lanes, whatever its guard, become handler lanes at TRAPVEC, where the transfer is still to be checked, the handler state holds
their mask and region entries, every other split of the warp freezes, and nothing else changes: producers, accepted work, watches and
SLEEP deadlines of the frozen splits stay; an uncorrectable register error is counted for its CU (19 R395). The cause word holds the
code, the lane where one is named, and SUB. That the handler lanes' own region entry is TRAPVEC is the model's choice (log entry 67). -/
def Obligations.TrapEntry : Prop :=
  (∀ (s : State) (v : View) (tr : Trap), s.view = some v → v.wp.handler = none → v.wp.trapvec ≠ 0 →
      TrapTaken (s.countBad v tr) v tr.cause tr.info (s.takeTrap v tr))
  ∧ (∀ (s : State) (v : View) (tr : Trap), (tr.kind ≠ .regError → s.countBad v tr = s)
      ∧ (tr.kind = .regError → s.countBad v tr = s.modSlice v.cur.slice fun x => { x with uncorrected := bump x.uncorrected v.tm.cu }))
  ∧ (∀ (tr : Trap) l, tr.lane = some l → l < 32 → tr.sub < 65536 →
      tr.kind ∈ [.misalign, .pageFault, .ordKind, .groupRevoked, .bounds, .poisonOp, .conversion, .regError, .fpExc] →
      tr.cause = BitVec.ofNat 32 tr.kind.code ||| BitVec.ofNat 32 l <<< 8 ||| 0x2000 ||| BitVec.ofNat 32 tr.sub <<< 16)
  ∧ (∀ (tr : Trap), tr.sub < 65536 → (tr.lane = none ∨
      tr.kind ∈ [.illegal, .illegalLine, .lineParity, .branchTarget, .divergence, .overrun, .latchLost, .trap, .bkpt]) →
      tr.cause = BitVec.ofNat 32 tr.kind.code ||| BitVec.ofNat 32 tr.sub <<< 16)

/-- A trap in a warp without a trap vector writes TRAPPC, TRAPCAUSE and TRAPINFO, freezes the whole warp, and posts an escalation record
with code 0xFFFF_FFFF, which holds them (19 R382; 07 R259). That a record which finds the queue of 64 full waits behind it is the model's choice (log
entry 66). -/
abbrev trapWithoutVector : Prop :=
  ∀ (s : State) (v : View) (tr : Trap), s.view = some v → v.wp.handler = none → v.wp.trapvec = 0 →
    ∃ w', (s.takeTrap v tr).warp v.ref = some w' ∧ w'.escFrozen = true
      ∧ w'.trappc = v.sp.pc ∧ w'.trapcause = tr.cause ∧ w'.trapinfo = tr.info ∧ w'.vregs = v.wp.vregs ∧ w'.sregs = v.wp.sregs
      ∧ ((s.takeTrap v tr).slice v.cur.slice).escs = (s.slice v.cur.slice).escs ++ [{
          warp := v.ref, lane := v.sp.low, addr := v.sp.pc, code := 0xFFFFFFFF, inHandler := true,
          trappc := v.sp.pc, cause := tr.cause, info := tr.info }]

/-- TRAP and BKPT complete by taking their trap, of code 0x11 or 0x12 with the immediate as TRAPINFO, in a warp with a trap vector and no
handler (04 R136; 19 R379); with no active lane they only go on. -/
abbrev trapInstructions : Prop :=
  (∀ h imm s v act, ready (.trap h imm) s = some (v, act) → act ≠ 0 → v.wp.handler = none → v.wp.trapvec ≠ 0 →
      ∃ t, exec (.trap h imm) s = .next t ∧ TrapTaken s v 0x11 (imm.setWidth 64) t)
  ∧ (∀ h imm s v act, ready (.bkpt h imm) s = some (v, act) → act ≠ 0 → v.wp.handler = none → v.wp.trapvec ≠ 0 →
      ∃ t, exec (.bkpt h imm) s = .next t ∧ TrapTaken s v 0x12 (imm.setWidth 64) t)
  ∧ (∀ i, ((∃ h imm, i = .trap h imm) ∨ ∃ h imm, i = .bkpt h imm) → Does i (bare i.hdr) (fun _ _ act => act = 0)
      (fun _ v _ => v.wp) (fun _ _ _ _ => []) (fun v _ _ => nextPc v.sp.pc))

/-- A trap in a handler is a double fault: the warp ends, each launch whose work it carried has code 4 unless it had a code, and the fault
log gains a record of the first trap and the second (19 R383). -/
def Obligations.DoubleFaultEndsWarp : Prop :=
  trapInstructions
  ∧ (trapWithoutVector
  ∧ (∀ (s : State) (v : View) (tr : Trap), s.view = some v → v.wp.handler ≠ none → v.wp.ended = false →
    (∃ r, ((s.takeTrap v tr).slice v.cur.slice).faultLog
        = (if (s.slice v.cur.slice).faultLog.length < 256 then (s.slice v.cur.slice).faultLog else (s.slice v.cur.slice).faultLog.tail) ++ [r]
      ∧ r = .double v.wp.trappc v.wp.trapcause tr.cause tr.info (s.cuGlobal v.cur.slice v.tm.cu) v.wp.slot v.tm.queue (loWord v.sp.pc))
    ∧ (∀ w', (s.takeTrap v tr).warp v.ref = some w' → w'.ended = true ∧ w'.front = [] ∧ w'.wait = [])
    ∧ (∀ y ∈ ((s.takeTrap v tr).slice v.cur.slice).launches, ∃ x ∈ (s.slice v.cur.slice).launches, x.id = y.id
        ∧ y.code = if x.code = 0 ∧ (x.id = v.tm.launch ∨ x.id ∈ v.wp.origin) then 4 else x.code)))

/-- RTE outside a handler is an illegal instruction naming FN. Where other lanes of the handler still run, RTE holds its lanes. Where its
split is the handler's last, the handler ends: the handler's lanes that have not exited go to TRAPPC, to the instruction after it, or
each to its region entry, and the frozen splits go on where they stood (04 R137; 19 R380). -/
def Obligations.HandlerReturn : Prop :=
  (∀ h mode, Traps (.rte h mode) (fun _ v act => act ≠ 0 ∧ v.wp.handler = none) fun _ _ _ => { kind := .illegal, info := 10 })
  ∧ (∀ h mode s v act p, ready (.rte h mode) s = some (v, act) → act = v.sp.mask → act ≠ 0 → v.wp.handler ≠ none →
      p ∈ v.wp.front.eraseIdx v.cur.split ++ v.wp.wait → (∀ m, p.hold ≠ .rte m) →
      ∃ t, exec (.rte h mode) s = .next t ∧ HeldAt s v v.wp (.rte mode) t)
  ∧ (∀ h mode s v act, ready (.rte h mode) s = some (v, act) → act ≠ v.sp.mask → act ≠ 0 → v.wp.handler ≠ none →
      ∃ t w', exec (.rte h mode) s = .next t ∧ OnlyWarp s v w' t ∧ w' = { v.wp with front := w'.front, wait := w'.wait }
        ∧ (apart (v.wp.front ++ v.wp.wait) → ∀ l, l < 32 → w'.lanePc l =
            if bit act l then some v.sp.pc else if bit v.sp.mask l then some (nextPc v.sp.pc) else v.wp.lanePc l))
  ∧ (∀ h mode s v act hd, ready (.rte h mode) s = some (v, act) → act = v.sp.mask → act ≠ 0 → v.wp.handler = some hd → hd.noVec = false →
      v.wp.front = [v.sp] → v.wp.wait = [] →
      let live := hd.mask &&& ~~~v.wp.exited
      let entry := fun l => (hd.parts.find? fun p => bit p.mask l).map (·.entry)
      ∃ t w', exec (.rte h mode) s = .next t ∧ OnlyWarp s v w' t ∧ w'.handler = none
        ∧ w' = { v.wp with handler := none, escFrozen := false, front := w'.front, wait := w'.wait }
        ∧ (apart (hd.frozenFront ++ hd.frozenWait ++ resumeSplits v.wp hd mode) → ∀ l, l < 32 →
            w'.lanePc l = if bit live l then (match mode with | .retry => some v.wp.trappc | .skip => some (nextPc v.wp.trappc) | .region => entry l)
              else pcIn (hd.frozenFront ++ hd.frozenWait) l))

/-! ### Memory (06 R169-R177; 03 R100) -/

/-- The effective addresses of the lanes in which a memory instruction executes (03 R100). -/
abbrev easOf (i : Instr) (u : Bool) (v : View) (act : Mask) {k : Nat} (off : BitVec k) : List (Nat × DWord) :=
  (if u then [leadLane act] else laneList act).map fun l => (l, longA i v act l + off.signExtend 64)

/-- LD and LDU complete where every address resolves and every datum can be read: the destination receives each lane's datum, or in LDU
the one datum (06 R173), and only the CU's L1 may change beside. An access of kind SO records the hit-table counts with the region entry
it moves (01 R33; 07 R232). How a datum stands in registers: low byte first, extended as SIZE says. -/
def Obligations.LoadsComplete : Prop :=
  (∀ h a off m s v act xs s1 ds, let i := Instr.ld h a off m
      let so := xs.any (·.2.2.isSO)
      ready i s = some (v, act) → act ≠ 0 → s.resolveAll v false m.size.bytes m.space .move false (easOf i false v act off) = .ok xs →
      (s.acquire v (acquires m || so)).readAll v false m.size.bytes (throughFor m xs) xs = (s1, .ok ds) →
      s1 = { s with l1 := s1.l1, freeCtr := s1.freeCtr } ∧ ∃ t, exec i s = .next t ∧ Acted s1 v (if so then v.wp.recordHits v.sp.mask else v.wp) h act
        (fun l => loadWords m.size ((kget ds l).getD 0)) (fun _ => nextPc v.sp.pc) t)
  ∧ (∀ h a off m s v act xs s1 ds, let i := Instr.ldu h a off m
      let so := xs.any (·.2.2.isSO)
      ready i s = some (v, act) → act ≠ 0 → s.resolveAll v true m.size.bytes m.space .move false (easOf i true v act off) = .ok xs →
      (s.acquire v (acquires m || so)).readAll v true m.size.bytes (throughFor m xs) xs = (s1, .ok ds) →
      s1 = { s with l1 := s1.l1, freeCtr := s1.freeCtr } ∧ ∃ t, exec i s = .next t ∧ Acted s1 v (if so then v.wp.recordHits v.sp.mask else v.wp) h act
        (fun _ => loadWords m.size ((kget ds (leadLane act)).getD 0)) (fun _ => nextPc v.sp.pc) t)
  ∧ (∀ i, ((∃ h a off m, i = .ld h a off m) ∨ ∃ h a off m, i = .ldu h a off m) →
      Does i (bare i.hdr) (fun _ _ act => act = 0) (fun _ v _ => v.wp) (fun _ _ _ _ => []) (fun v _ _ => nextPc v.sp.pc))
  ∧ (∀ d : Word, loadWords .n8 (d.toNat % 256) = [(d.extractLsb' 0 8).setWidth 32] ∧ loadWords .s8 (d.toNat % 256) = [(d.extractLsb' 0 8).signExtend 32]
      ∧ loadWords .n16 (d.toNat % 65536) = [(d.extractLsb' 0 16).setWidth 32]
      ∧ loadWords .s16 (d.toNat % 65536) = [(d.extractLsb' 0 16).signExtend 32] ∧ loadWords .w32 d.toNat = [d])
  ∧ (∀ d : DWord, loadWords .w64 d.toNat = twoWords d)
  ∧ (∀ d : BitVec 128, loadWords .w128 d.toNat = [d.extractLsb' 0 32, d.extractLsb' 32 32, d.extractLsb' 64 32, d.extractLsb' 96 32])

/-- A byte of device memory or of a scratchpad lies among the `n` bytes of a located access. -/
abbrev byteOf (s : State) (n key : Nat) : Loc → Prop
  | .glob pa _ => ∃ k, s.phys pa true = .mem k ∧ k ≤ key ∧ key < k + n
  | _ => False
abbrev scratchByteOf (n sl tm b : Nat) : Loc → Prop
  | .scratch sl' tm' off => sl' = sl ∧ tm' = tm ∧ off ≤ b ∧ b < off + n
  | _ => False

/-- What reading one datum gives: at a physical address with a home and no poison the bytes there; in a scratchpad the bytes there; at a
poisoned line the trap of 06 R169, and the slice meets a slice error (20 R422). -/
abbrev dataAtTheirHome : Prop :=
  (∀ s v lane ea n pa kind k, State.phys s pa false = .mem k → lineOfKey k ∉ s.mem.poison → lineOfKey (k + n - 1) ∉ s.mem.poison →
      State.readLoc s v lane ea n (.glob pa kind) = (s, .ok (s.mem.readN k n)))
  ∧ (∀ s v lane ea n sl tm off, wordPoison (State.scratchOf s sl tm) off n = false →
      State.readLoc s v lane ea n (.scratch sl tm off) = (s, .ok ((s.scratchOf sl tm).readN off n)))
  ∧ (∀ s v lane ea n pa kind k, State.phys s pa false = .mem k → lineOfKey k ∈ s.mem.poison →
      State.readLoc s v lane ea n (.glob pa kind) = (s.noteError v.cur.slice (.poison pa), .error { kind := .poisonOp, lane := lane, sub := 1, info := ea }))
  ∧ (∀ (m : Memory) a n k, k < n → m.readN a n / 256 ^ k % 256 = (m.read (a + k)).toNat)
  ∧ (∀ (s : State) (v : View) lane (ea : DWord) n sp cls wr, ea.toNat % n ≠ 0 →
      s.resolve v lane ea n sp cls wr = .error (.trap { kind := .misalign, lane := lane, info := ea }))

/-- A line of a CU's L1 lies over some of `n` bytes at a key. -/
abbrev lineOverlaps (e : L1Line) (cu k n : Nat) : Prop := e.cu = cu ∧ e.line * 128 < k + n ∧ k < e.line * 128 + 128

/-- What a split sees through its CU's L1 (06 R171; 09 R268, R270, At the L2 banks). A load gives the bytes at their home, unless L1 holds their
line as it was before another party wrote it: then it gives those or these. A read at the home, an atomic's and an acquire's, and a
store of the CU leave no line over its bytes. A write keeps what the lines over its bytes held, and an acquire discards all of its CU's. A load
may bring its line in, and which line a full L1 then loses is free (log entry 72). -/
def Obligations.LoadsThroughL1 : Prop :=
  (∀ s v lane ea n pa kind k, State.phys s pa false = .mem k → lineOfKey k ∉ s.mem.poison → lineOfKey (k + n - 1) ∉ s.mem.poison →
      (∀ e ∈ s.l1, e.cu = s.actingCu v → e.line = k / 128 → e.old = none) →
      ∃ s1, s.readAs v lane ea n .l1 (.glob pa kind) = (s1, .ok (s.mem.readN k n)) ∧ s1 = { s with l1 := s1.l1, freeCtr := s1.freeCtr })
  ∧ (∀ s v lane ea n pa kind k e b, State.phys s pa false = .mem k → lineOfKey k ∉ s.mem.poison → lineOfKey (k + n - 1) ∉ s.mem.poison →
      s.l1.find? (fun e => e.cu == s.actingCu v && e.line == k / 128) = some e → e.old = some b →
      ∃ s1 d, s.readAs v lane ea n .l1 (.glob pa kind) = (s1, .ok d) ∧ s1 = { s with l1 := s1.l1, freeCtr := s1.freeCtr }
        ∧ ((d = s.mem.readN k n ∧ ∀ e ∈ s1.l1, e.cu = s.actingCu v → e.line = k / 128 → e.old = none)
            ∨ (d = leNat ((b.drop (k % 128)).take n) ∧ s1.l1 = s.l1)))
  ∧ (∀ s v lane ea n pa kind k, State.phys s pa false = .mem k → lineOfKey k ∉ s.mem.poison → lineOfKey (k + n - 1) ∉ s.mem.poison →
      ∃ s1, s.readAs v lane ea n .home (.glob pa kind) = (s1, .ok (s.mem.readN k n)) ∧ s1 = { s with l1 := s1.l1 }
        ∧ (∀ e ∈ s1.l1, ¬ lineOverlaps e (s.actingCu v) k n) ∧ ∀ e ∈ s.l1, ¬ lineOverlaps e (s.actingCu v) k n → e ∈ s1.l1)
  ∧ (∀ s v n val l ea pa kind k, State.phys s pa true = .mem k →
      ∀ e ∈ (s.writeAll v n val [(l, ea, .glob pa kind)]).l1, ¬ lineOverlaps e (s.actingCu v) k n)
  ∧ (∀ (s : State) key (b : List Byte) (e : L1Line), b ≠ [] → e ∈ s.l1 → e.old = none → e.line * 128 < key + b.length → key < e.line * 128 + 128 →
      { e with old := some (s.mem.readBytes (e.line * 128) 128) } ∈ (s.memPut key b).l1)
  ∧ (∀ (s : State) key (b : List Byte) (e : L1Line), e ∈ s.l1 → (e.old ≠ none ∨ ¬ (e.line * 128 < key + b.length ∧ key < e.line * 128 + 128)) →
      e ∈ (s.memPut key b).l1)
  ∧ (∀ (s : State) v, s.acquire v true = { s with l1 := s.l1.filter (·.cu != s.actingCu v) })
  ∧ (∀ m : MemFn, acquires m = true ↔ (m.ord = .acq ∨ m.ord = .acqrel) ∧ ((m.scope ≠ .warp ∧ m.scope ≠ .team) ∨ m.mp ≠ .c))

/-- The acting warp as its stores leave it: a store over the fabric awaits its fence marker at a later release (09 R284). -/
abbrev storing (v : View) (xs : List (Nat × DWord × Loc)) : Warp :=
  if xs.any fun x => match x.2.2 with | .glob pa _ => 0x800000000000 ≤ pa | _ => false
  then { v.wp with fabric := v.wp.fabric ||| v.sp.mask } else v.wp

/-- ST with every address resolved, no LDA before it that an SO write must follow and no fence marker to wait for goes on: each byte that a lane
stores holds the lane's datum, the higher lane's where two lanes store it, and every other byte of device memory and of every scratchpad
stays. Where every address lies in device memory, no register of any warp changes (06 R173; 09 R265, R284). -/
def Obligations.StoresComplete : Prop :=
  dataAtTheirHome
  ∧ (∀ h a b off m s v act xs,
    let i := Instr.st h a b off m
    let n := m.size.bytes
    ready i s = some (v, act) → act ≠ 0 → s.resolveAll v false n m.space .move true (easOf i false v act off) = .ok xs →
    (xs.any (fun x => x.2.2.isSO) = true → v.wp.ldaOpen v.sp.mask = false) →
    (s.needsMarker v = false ∨ (¬ (m.ord = .rel ∧ m.scope = .sys) ∧ xs.any (fun x => x.2.2.isSO) = false)) →
    ∃ t, exec i s = .next t
      ∧ (∀ key, (∀ x ∈ xs, ¬ byteOf s n key x.2.2) → t.mem.read key = s.mem.read key)
      ∧ (s.mem.wf = true → ∀ l ea pa kind k j, (l, ea, .glob pa kind) ∈ xs → s.phys pa true = .mem k → j < n →
          (∀ x ∈ xs, l < x.1 → ¬ byteOf s n (k + j) x.2.2) → t.mem.read (k + j) = BitVec.ofNat 8 (wordsNat (wordsOf i 1 v act l) / 256 ^ j))
      ∧ (∀ sl tm off, (∀ x ∈ xs, ¬ scratchByteOf n sl tm off x.2.2) → (t.scratchOf sl tm).read off = (s.scratchOf sl tm).read off)
      ∧ ((∀ x ∈ xs, ∃ pa kind, x.2.2 = .glob pa kind) → ∃ w', t.warp v.ref = some w'
          ∧ OnlyRegs (if xs.any (·.2.2.isSO) then (storing v xs).recordHits v.sp.mask else storing v xs) w'
          ∧ Wrote v.wp (bare h) act (fun _ => []) w' ∧ Moved v w' (fun _ => nextPc v.sp.pc) ∧ ∀ r, r ≠ v.ref → t.warp r = s.warp r))

/-- LDA begins a producer: its registers become pending, none with WS set, and nothing else changes but the warp's list of producers (06 R174;
01 R25; 03 R93). PREF does nothing that a program sees. IPREF changes only the instruction cache: a line there after it was there before or
holds the bytes at its home, and a line that it names, mapped, of no SO page and not poisoned, is there as it is reached (06 R175, R176; 09 R265). -/
def Obligations.AsyncLoadsAndPrefetches : Prop :=
  (∀ h a off m s v act, let i := Instr.lda h a off m
      ready i s = some (v, act) → act ≠ 0 →
      let w := v.wp.launchFlight s.nextId 0x83 (h.outRegs m.size.words) act false (.lda (easOf i false v act off) m [])
      ∃ t, exec i s = .next t ∧ Acted { s with nextId := s.nextId + 1 } v w (bare h) act (fun _ => []) (fun _ => nextPc v.sp.pc) t)
  ∧ (∀ (w : Warp) id major regs lanes commit k n, let w' := w.launchFlight id major regs lanes commit k
      (n ∈ regs → n < w.vregs.length → (w'.vget n).tag = .pending) ∧ (n ∉ regs → w'.vget n = w.vget n) ∧ (∀ l, w'.vlane n l = w.vlane n l)
      ∧ w'.sregs = w.sregs ∧ w'.preds = w.preds ∧ w'.qpreds = w.qpreds
      ∧ w'.flights = w.flights ++ [{ id := id, major := major, regs := regs, lanes := lanes, prior := regs.map w.vget, commit := commit, kind := k, seen := w.gSeen }])
  ∧ (∀ (h : Hdr) n, h.outRegs n = if h.dst = .vec h.dst.num ∧ h.ws = false then (List.range n).map (h.dst.num.toNat + ·) else [])
  ∧ (∀ h a off m, CompletesBare (.pref h a off m))
  ∧ (∀ h nlines a s v act, let i := Instr.ipref h nlines a
      ready i s = some (v, act) → act ≠ 0 →
      ∃ t lines n, exec i s = .next t
        ∧ Acted { (s.modSlice v.cur.slice fun x => { x with icache := lines }) with freeCtr := n } v v.wp (bare h) act (fun _ => [])
            (fun _ => nextPc v.sp.pc) t
        ∧ ∀ c ∈ lines, c ∈ v.sl.icache ∨ (c.cu = icacheOf v.tm.cu ∧ c.bad = false ∧ ∃ k, s.phys c.pa false = .mem k ∧ c.bytes = s.mem.readBytes k 64))
  ∧ (∀ (s : State) n vf cu va pa kind k, n < s.slices.length → s.lineAddr n vf cu va = .ok pa kind → kind ≠ 1 → s.phys pa false = .mem k →
      lineOfKey k ∉ s.mem.poison → (((s.warmLine n vf cu va).slice n).ilineAt cu pa).isSome = true)
  ∧ (∀ i, ((∃ h a off m, i = .lda h a off m) ∨ ∃ h n a, i = .ipref h n a) →
      Does i (bare i.hdr) (fun _ _ act => act = 0) (fun _ v _ => v.wp) (fun _ _ _ _ => []) (fun v _ _ => nextPc v.sp.pc))

/-- The addresses of a cache operation lie in the global space. -/
abbrev cacheOps (i : Instr) (m : MemFn) (off : BitVec 16) (v : View) (act : Mask) : Except (Nat × DWord) (List Nat) :=
  cctlAddrs m.space ((execLanes i.hdr act).map fun l => (l, longA i v act l + off.signExtend 64))

/-- Cache control completes where its addresses lie in the global space: an L1 invalidate takes the lines, or all lines, out of the
issuing CU's L1; a write-back leaves the lines
clean, with every byte of memory as it reads; an instruction-cache invalidate removes the line, or all lines. An address outside the
global space is a bounds trap (06 R177). -/
def Obligations.CacheControl : Prop :=
  (∀ h a off m s v act vas, let i := Instr.l1Inv h a off m
      ready i s = some (v, act) → act ≠ 0 → cacheOps i m off v act = .ok vas → ∃ t l1, exec i s = .next t
        ∧ Acted { s with l1 := l1 } v v.wp (bare h) act (fun _ => []) (fun _ => nextPc v.sp.pc) t
        ∧ (∀ va ∈ vas, ∀ pa kind k, s.xlate v.cur.slice v.tm.vf (some v.tm.cu) va false false = .ok pa kind → s.phys pa false = .mem k →
            ∀ e ∈ l1, ¬ (e.cu = s.actingCu v ∧ e.line = k / 128))
        ∧ (∀ e ∈ l1, e ∈ s.l1) ∧ ∀ e ∈ s.l1, e.cu ≠ s.actingCu v → e ∈ l1)
  ∧ (∀ h m s v act, ready (.l1InvAll h m) s = some (v, act) → act ≠ 0 → ∃ t, exec (.l1InvAll h m) s = .next t
        ∧ Acted { s with l1 := s.l1.filter (·.cu != s.actingCu v) } v v.wp (bare h) act (fun _ => []) (fun _ => nextPc v.sp.pc) t)
  ∧ (∀ i h a off m s v act vas, (i = .l2Wb h a off m ∨ i = .l2WbInv h a off m) → ready i s = some (v, act) → act ≠ 0 →
      cacheOps i m off v act = .ok vas → ∃ t home, exec i s = .next t
        ∧ Acted { s with mem := { s.mem with home := home } } v v.wp (bare h) act (fun _ => []) (fun _ => nextPc v.sp.pc) t
        ∧ (∀ va ∈ vas, ∀ pa kind, s.xlate v.cur.slice v.tm.vf (some v.tm.cu) va false false = .ok pa kind → ∀ e ∈ home, e.1 ≠ pa / 128)
        ∧ (∀ e ∈ home, e ∈ s.mem.home) ∧ (∀ key, t.mem.read key = s.mem.read key))
  ∧ (∀ h a off m s v act vas, let i := Instr.icInv h a off m
      ready i s = some (v, act) → act ≠ 0 → cacheOps i m off v act = .ok vas → ∃ t lines, exec i s = .next t
        ∧ Acted (s.modSlice v.cur.slice fun x => { x with icache := lines }) v v.wp (bare h) act (fun _ => []) (fun _ => nextPc v.sp.pc) t
        ∧ (∀ va ∈ vas, ∀ pa kind, s.xlate v.cur.slice v.tm.vf (some v.tm.cu) va false false = .ok pa kind → ∀ c ∈ lines, c.pa ≠ pa / 64 * 64)
        ∧ ∀ c ∈ lines, c ∈ v.sl.icache)
  ∧ (∀ h m s v act, ready (.icInvAll h m) s = some (v, act) → act ≠ 0 → ∃ t, exec (.icInvAll h m) s = .next t
        ∧ Acted (s.modSlice v.cur.slice fun x => { x with icache := [] }) v v.wp (bare h) act (fun _ => []) (fun _ => nextPc v.sp.pc) t)
  ∧ (∀ i h a off m s v act l ea, (i = .l1Inv h a off m ∨ i = .l2Wb h a off m ∨ i = .l2WbInv h a off m ∨ i = .icInv h a off m) →
      ready i s = some (v, act) → act ≠ 0 → cacheOps i m off v act = .error (l, ea) →
      exec i s = .next (s.takeTrap v { kind := .bounds, lane := if h.u then none else some l, info := ea }))

/-! ### Atomics, fences, watches (06 R178-R183) -/

/-- An atomic waits neither for fence markers of its split (09 R284) nor, on an SO page, for an LDA of it (09 R265). -/
abbrev atomGoes (s : State) (v : View) (m : MemFn) (xs : List (Nat × DWord × Loc)) : Prop :=
  (s.needsMarker v = false ∨ (¬ ((m.ord = .rel ∨ m.ord = .acqrel) ∧ m.scope = .sys) ∧ xs.any (fun x => x.2.2.isSO) = false))
  ∧ (xs.any (fun x => x.2.2.isSO) = true → v.wp.ldaOpen v.sp.mask = false)

/-- The word or pair that an atomic of 4 or 8 bytes returns. -/
abbrev oldWords (bytes o : Nat) : List Word := if bytes = 8 then [BitVec.ofNat 32 o, BitVec.ofNat 32 (o / 2 ^ 32)] else [BitVec.ofNat 32 o]

/-- What an atomic on one lane's word of device memory leaves: the word holds the new value, the destination the old one, every other byte of
memory and every other warp stays. -/
abbrev OneAtomic (i : Instr) (bytes : Nat) (space : Space) (m : MemFn) (off : BitVec 16) (new : View → Mask → Nat → Nat → Nat) : Prop :=
  ∀ s v act l ea pa kind k, ready i s = some (v, act) → laneList act = [l] →
    s.resolveAll v false bytes space .atomic true (easOf i false v act off) = .ok [(l, ea, .glob pa kind)] →
    s.phys pa false = .mem k → s.phys pa true = .mem k → s.mem.wf = true → atomGoes s v m [(l, ea, .glob pa kind)] →
    lineOfKey k ∉ s.mem.poison → lineOfKey (k + bytes - 1) ∉ s.mem.poison →
    let o := s.mem.readN k bytes
    ∃ t w', exec i s = .next t ∧ t.warp v.ref = some w'
      ∧ t.mem.readN k bytes = new v act l o % 256 ^ bytes
      ∧ (∀ key, (key < k ∨ k + bytes ≤ key) → t.mem.read key = s.mem.read key)
      ∧ (∀ r, r ≠ v.ref → t.warp r = s.warp r)
      ∧ OnlyRegs ((storing v [(l, ea, .glob pa kind)]).recordHits v.sp.mask) w'
      ∧ Wrote v.wp i.hdr act (fun _ => oldWords bytes o) w'
      ∧ Moved v w' fun _ => nextPc v.sp.pc

/-- An atomic of several lanes on device memory: the lanes' steps are performed in ascending lane order, and the destination receives the
words that they found. -/
abbrev LanesAtomic (i : Instr) (bytes : Nat) (space : Space) (m : MemFn) (off : BitVec 16) (new : View → Mask → Nat → Nat → Nat) : Prop :=
  ∀ s v act xs, ready i s = some (v, act) → act ≠ 0 →
    s.resolveAll v false bytes space .atomic true (easOf i false v act off) = .ok xs → (∀ x ∈ xs, ∃ pa kind, x.2.2 = .glob pa kind) →
    atomGoes s v m xs →
    let r := (s.acquire v (acquires m || xs.any (·.2.2.isSO))).atomAll v bytes (new v act) xs
    r.bad = none → ∃ t, exec i s = .next t
      ∧ Acted r.s v ((storing v xs).recordHits v.sp.mask) i.hdr act (fun l => oldWords bytes ((kget r.olds l).getD 0)) (fun _ => nextPc v.sp.pc) t

/-- What the steps of an atomic's lanes do one after another. -/
abbrev atomicSteps : Prop :=
  (∀ (s : State) v n f, s.atomAll v n f [] = ⟨s, [], none⟩)
  ∧ (∀ (s : State) v n f l ea pa kind k rest, s.phys pa false = .mem k → s.phys pa true = .mem k → lineOfKey k ∉ s.mem.poison →
      lineOfKey (k + n - 1) ∉ s.mem.poison →
      let r := ((s.l1Shed v n (.glob pa kind)).writeLoc v n (f l (s.mem.readN k n)) (.glob pa kind)).atomAll v n f rest
      s.atomAll v n f ((l, ea, .glob pa kind) :: rest) = { r with olds := (l, s.mem.readN k n) :: r.olds })

/-- The new values of 06 R178 on 32-bit and 64-bit integers. -/
abbrev atomicNewValues : Prop :=
  (∀ o b : Word, ∀ t, (t = .n32 ∨ t = .s32) →
      atomNew .add t o.toNat b.toNat = (o + b).toNat ∧ atomNew .and t o.toNat b.toNat = (o &&& b).toNat
      ∧ atomNew .or t o.toNat b.toNat = (o ||| b).toNat ∧ atomNew .xor t o.toNat b.toNat = (o ^^^ b).toNat
      ∧ atomNew .exch t o.toNat b.toNat = b.toNat ∧ atomNew .inc t o.toNat b.toNat = (if b.ule o then 0 else o + 1).toNat
      ∧ atomNew .dec t o.toNat b.toNat = (if o = 0 ∨ b.ult o then b else o - 1).toNat)
  ∧ (∀ o b : DWord, ∀ t, (t = .n64 ∨ t = .s64) →
      atomNew .add t o.toNat b.toNat = (o + b).toNat ∧ atomNew .and t o.toNat b.toNat = (o &&& b).toNat
      ∧ atomNew .or t o.toNat b.toNat = (o ||| b).toNat ∧ atomNew .xor t o.toNat b.toNat = (o ^^^ b).toNat
      ∧ atomNew .exch t o.toNat b.toNat = b.toNat)
  ∧ (∀ o b : Word, atomNew .min .n32 o.toNat b.toNat = (if o.ule b then o else b).toNat
      ∧ atomNew .max .n32 o.toNat b.toNat = (if b.ule o then o else b).toNat
      ∧ atomNew .min .s32 o.toNat b.toNat = (if o.sle b then o else b).toNat ∧ atomNew .max .s32 o.toNat b.toNat = (if b.sle o then o else b).toNat)
  ∧ (∀ o b : DWord, atomNew .min .n64 o.toNat b.toNat = (if o.ule b then o else b).toNat
      ∧ atomNew .max .s64 o.toNat b.toNat = (if b.sle o then o else b).toNat)

/-- ATOM, ATOMC and RED complete on device memory: in ascending lane order each lane turns the word at its address into its new value, and the
destination receives the old words. With one active lane the word holds the new value afterwards, and every other byte, every other warp
and every register but the destination stays. ATOMC exchanges on equality; the new values of the integer operations are those of 06 R178. A
system-scope release whose fabric stores await markers is held (06 R178-R181; 09 R284). -/
def Obligations.AtomicsComplete : Prop :=
  atomicNewValues
  ∧ ((∀ h op aty a b off m, OneAtomic (.atom h op aty a b off m) (atomBytes aty) m.space m off fun v act l o =>
      atomNew op aty o (wordsNat (wordsOf (.atom h op aty a b off m) 1 v act l)))
  ∧ (∀ h op aty a b off m, OneAtomic (.red h op aty a b off m) (atomBytes aty) m.space m off fun v act l o =>
      atomNew op aty o (wordsNat (wordsOf (.red h op aty a b off m) 1 v act l)))
  ∧ (∀ h aty a b off m, OneAtomic (.atomc h aty a b off m) (atomBytes aty) m.space m off fun v act l o =>
      let x := wordsNat (wordsOf (.atomc h aty a b off m) 1 v act l)
      if o = x % 256 ^ (atomBytes aty) then x / 256 ^ (atomBytes aty) else o)
  ∧ (∀ h op aty a b off m, LanesAtomic (.atom h op aty a b off m) (atomBytes aty) m.space m off fun v act l o =>
      atomNew op aty o (wordsNat (wordsOf (.atom h op aty a b off m) 1 v act l)))
  ∧ (∀ h op aty a b off m, LanesAtomic (.red h op aty a b off m) (atomBytes aty) m.space m off fun v act l o =>
      atomNew op aty o (wordsNat (wordsOf (.red h op aty a b off m) 1 v act l)))
  ∧ (∀ h aty a b off m, LanesAtomic (.atomc h aty a b off m) (atomBytes aty) m.space m off fun v act l o =>
      let x := wordsNat (wordsOf (.atomc h aty a b off m) 1 v act l)
      if o = x % 256 ^ (atomBytes aty) then x / 256 ^ (atomBytes aty) else o)
  ∧ atomicSteps
  ∧ (∀ i bytes (m : MemFn) (off : BitVec 16) s v act xs,
      ((∃ h op aty a b, i = .atom h op aty a b off m ∧ bytes = atomBytes aty) ∨ (∃ h op aty a b, i = .red h op aty a b off m ∧ bytes = atomBytes aty)
        ∨ (∃ h aty a b, i = .atomc h aty a b off m ∧ bytes = atomBytes aty)) →
      ready i s = some (v, act) → act ≠ 0 → s.resolveAll v false bytes m.space .atomic true (easOf i false v act off) = .ok xs →
      xs.any (fun x => x.2.2.isSO) = false → (m.ord = .rel ∨ m.ord = .acqrel) → m.scope = .sys → s.needsMarker v = true →
      ∃ t, exec i s = .next t ∧ HeldAt s v v.wp .marker t)
  ∧ (∀ i, ((∃ h op aty a b off m, i = .atom h op aty a b off m) ∨ (∃ h aty a b off m, i = .atomc h aty a b off m)
        ∨ ∃ h op aty a b off m, i = .red h op aty a b off m) →
      Does i (bare i.hdr) (fun _ _ act => act = 0) (fun _ v _ => v.wp) (fun _ _ _ _ => []) (fun v _ _ => nextPc v.sp.pc)))

/-- FENCE completes: one that acquires for more than its team or on another path discards its CU's L1, and one that releases on path G lets
later reads there find what its split wrote; but one that releases at system scope with fabric stores of its split unmarked is held (06 R182;
07 R223; 09 R284). WATCH completes at once where its comparison holds of the word; else its split is held with a request; one whose watch was
revoked traps (06 R183; 09 R283). -/
def Obligations.FencesAndWatches : Prop :=
  (∀ h scope kind paths s v act, ready (.fence h scope kind paths) s = some (v, act) →
      (act = 0 ∨ s.needsMarker v = false ∨ scope ≠ .sys ∨ kind = .acq) →
      let s1 := if act ≠ 0 ∧ kind ≠ .rel ∧ ((scope ≠ .warp ∧ scope ≠ .team) ∨ paths &&& 0xFE ≠ 0)
            then { s with l1 := s.l1.filter (·.cu != s.actingCu v) } else s
      let g := act ≠ 0 ∧ kind ≠ .acq ∧ paths.getLsbD 3 = true
      ∃ t, exec (.fence h scope kind paths) s = .next t
        ∧ (g → Acted (s1.gFence v) v { v.wp with gSeen := (List.range 32).map fun l => if bit v.sp.mask l then s.gStamp + 1 else v.wp.gSeen.getD l 0 }
            (bare h) act (fun _ => []) (fun _ => nextPc v.sp.pc) t)
        ∧ (¬ g → Acted s1 v v.wp (bare h) act (fun _ => []) (fun _ => nextPc v.sp.pc) t))
  ∧ (∀ (s : State) v, ∃ seen : Warp → List Nat, s.gFence v = { (s.modWarp v.ref fun w => { w with gSeen := seen w }) with
      gStamp := s.gStamp + 2
      gStale := s.gStale.map fun e => if e.released.isNone && e.writer.any (fun w => w.1 == v.ref && w.2 &&& v.sp.mask != 0)
        then { e with released := some s.gStamp } else e })
  ∧ (∀ h kind paths s v act, ready (.fence h .sys kind paths) s = some (v, act) → act ≠ 0 → s.needsMarker v = true → kind ≠ .acq →
      ∃ t, exec (.fence h .sys kind paths) s = .next t ∧ HeldAt s v v.wp .marker t)
  ∧ (∀ h cond aty a b off m s v act x s1 d, let i := Instr.watch h cond aty a b off m
      let ea := longA i v act (leadLane act) + off.signExtend 64
      ready i s = some (v, act) → act ≠ 0 → v.sp.hold ≠ .watchRevoked → s.resolve v none ea (atomBytes aty) m.space .atomic false = .ok x →
      s.readAs v none ea (atomBytes aty) .home x = (s1, .ok d) →
      let val := BitVec.ofNat 64 (wordsNat (wordsOf i 1 v act (leadLane act)))
      (watchHolds cond aty (BitVec.ofNat 64 d) val = true → ∃ t, exec i s = .next t
          ∧ Acted (s1.acquire v (acquires m || x.isSO)) v v.wp (bare h) act (fun _ => []) (fun _ => nextPc v.sp.pc) t)
      ∧ (watchHolds cond aty (BitVec.ofNat 64 d) val = false → ∃ t q, exec i s = .next t
          ∧ HeldAt { s1 with nextId := s.nextId + 1, watches := s.watches ++ [q] } v v.wp (.watch s.nextId) t
          ∧ q.id = s.nextId ∧ q.warp = v.ref ∧ q.cond = cond ∧ q.ty = aty ∧ q.value = val ∧ q.hit = false
          ∧ q.acq = (m.ord == .acq || x.isSO) ∧ q.wide = (acquires m || x.isSO) ∧ q.group = v.groupOf m.space ea.toNat))
  ∧ (∀ h cond aty a b off m, Traps (.watch h cond aty a b off m) (fun _ v act => act ≠ 0 ∧ v.sp.hold = .watchRevoked)
      fun _ v act => { kind := .groupRevoked, info := longA (.watch h cond aty a b off m) v act (leadLane act) + off.signExtend 64 })
  ∧ (∀ cur val : DWord, watchHolds .eq .n64 cur val = (cur == val) ∧ watchHolds .ne .n64 cur val = (cur != val)
      ∧ watchHolds .lt .n64 cur val = cur.ult val ∧ watchHolds .ge .n64 cur val = !cur.ult val ∧ watchHolds .lt .s64 cur val = cur.slt val
      ∧ watchHolds .ge .s64 cur val = !cur.slt val ∧ watchHolds .lt .n32 cur val = (loWord cur).ult (loWord val)
      ∧ watchHolds .lt .s32 cur val = (loWord cur).slt (loWord val) ∧ watchHolds .eq .n32 cur val = (loWord cur == loWord val))

/-! ### Barrier objects, the team barrier, groups (06 R184-R194) -/

/-- The object of 16 bytes at a place of a scratchpad now holds a value; every other byte of every scratchpad and of memory stays. -/
abbrev ObjectIs (s t : State) (sl tm off x : Nat) : Prop :=
  t.mem = s.mem
  ∧ (∀ sl' tm' b, ¬ (sl' = sl ∧ tm' = tm ∧ off ≤ b ∧ b < off + 16) → (t.scratchOf sl' tm').read b = (s.scratchOf sl' tm').read b)
  ∧ ((s.scratchOf sl tm).wf = true → (∃ q ∈ (s.slice sl).teams ++ (s.slice sl).saved ++ (s.slice sl).held, q.id = tm) → sl < s.slices.length →
      (t.scratchOf sl tm).readN off 16 = x % 2 ^ 128)

/-- An instruction on a barrier object that lies in a scratchpad: `n` and `d` stand for its bytes as read. -/
abbrev OnObject (i : Instr) (s : State) (v : View) (act : Mask) (sl tm off d : Nat) : Prop :=
  ready i s = some (v, act) ∧ act ≠ 0 ∧ s.resolve v none (longA i v act (leadLane act)) 16 .generic .barrier true = .ok (.scratch sl tm off)
  ∧ wordPoison (s.scratchOf sl tm) off 16 = false ∧ d = (s.scratchOf sl tm).readN off 16

/-- How many arrivals BARA or BART makes, and the bytes it adds. -/
abbrev arrivals (i : Instr) (h : Hdr) (v : View) (act : Mask) : Nat := if h.u then (wordB i v act (leadLane act)).toNat else (laneList act).length

/-- The phase of the object goes to the destination, PD to a predicate. -/
abbrev Arrived (i : Instr) (h : Hdr) (nt : Bool) (pd : BitVec 3) (bytes : View → Mask → Nat) : Prop :=
  ∀ s v act sl tm off d, OnObject i s v act sl tm off d → (h.u = true → 1 ≤ arrivals i h v act ∧ arrivals i h v act ≤ 65535) →
    let put := fun (o : BarObj) => s.writeLoc v 16 (barBits o) (.scratch sl tm off)
    let go := fun (s1 : State) (b : Bool) =>
      let v1 := s1.review v
      s1.resultC (if nt then { v1 with wp := v1.wp.setPD h.u pd act b } else v1) true h act fun _ => [BitVec.ofNat 32 (d / 2 ^ 32 % 16)]
    (∀ o, barArrive (barOf d) (arrivals i h v act) (bytes v act) = some o →
      exec i s = .next (go (put o) true) ∧ ObjectIs s (go (put o) true) sl tm off (barBits o))
    ∧ (barArrive (barOf d) (arrivals i h v act) (bytes v act) = none → nt = true →
      exec i s = .next (go (put { barOf d with ovr := true }) false)
      ∧ ObjectIs s (go (put { barOf d with ovr := true }) false) sl tm off (barBits { barOf d with ovr := true }))
    ∧ (barArrive (barOf d) (arrivals i h v act) (bytes v act) = none → nt = false →
      exec i s = .next ((put { barOf d with ovr := true }).takeTrap ((put { barOf d with ovr := true }).review v)
        { kind := .overrun, info := longA i v act (leadLane act) }))

/-- BARI, BARA, BART and BARW on an object in a scratchpad (06 R184-R189): BARI writes a fresh object; an arrival that the object has room
for is counted and gives the phase; another sets OVR, and traps or clears PD; BARW gives 1 where the phase has passed, 0 where its timeout
is 0, and else holds its split. -/
abbrev barrierObjects : Prop :=
  (∀ h a b s v act sl tm off, ready (.bari h a b) s = some (v, act) → act ≠ 0 →
      s.resolve v none (longA (.bari h a b) v act (leadLane act)) 16 .generic .barrier true = .ok (.scratch sl tm off) →
      let n := (wordB (.bari h a b) v act (leadLane act)).toNat
      1 ≤ n → n ≤ 65535 →
      let t := s.writeLoc v 16 (n + n * 65536) (.scratch sl tm off)
      exec (.bari h a b) s = .next (t.doneC (t.review v) true) ∧ ObjectIs s (t.doneC (t.review v) true) sl tm off (n + n * 65536))
  ∧ (∀ h nt pd a b, Arrived (.bara h nt pd a b) h nt pd fun _ _ => 0)
  ∧ (∀ h nt pd a b c, Arrived (.bart h nt pd a b c) h nt pd fun v act =>
      ((execLanes h act).map fun l => (wordC (.bart h nt pd a b c) v act l).toNat).sum)
  ∧ (∀ h a b c s v act sl tm off d, let i := Instr.barw h a b c
      OnObject i s v act sl tm off d →
      let awaited := (wordB i v act (leadLane act)).toNat % 16
      let limit := (wordC i v act (leadLane act)).toNat
      (d / 2 ^ 32 % 16 ≠ awaited → ∃ t, exec i s = .next t ∧ Acted (s.l1Clear (s.actingCu v)) v v.wp h act (fun _ => [1]) (fun _ => nextPc v.sp.pc) t)
      ∧ (d / 2 ^ 32 % 16 = awaited → limit = 0 → ∃ t, exec i s = .next t ∧ Acted s v v.wp h act (fun _ => [0]) (fun _ => nextPc v.sp.pc) t)
      ∧ (d / 2 ^ 32 % 16 = awaited → limit ≠ 0 → ∃ t, exec i s = .next t ∧ HeldAt s v v.wp
          (.barw { slice := sl, team := tm, off := off } awaited (if limit = 0xFFFFFFFF then none else some (s.dtime + limit))
            (if h.ws then .none else h.dst) h.u act) t))
  ∧ (∀ o : BarObj, ∀ n bytes, barArrive o n bytes = if n > o.rem ∨ o.xb + bytes > 0xFFFFFF then none
      else if n = o.rem ∧ o.xb + bytes = 0 then some { o with rem := o.exp, xb := 0, ph := (o.ph + 1) % 16, cnt := (o.cnt + 1) % 2 ^ 64 }
      else some { o with rem := o.rem - n, xb := o.xb + bytes })
  ∧ (∀ x < 2 ^ 128, x / 2 ^ 37 % 8 = 0 → barBits (barOf x) = x)

/-- TBAR holds its split, with the region entry moved past it; it ends when every warp of the team stands at it or has ended (06 R190;
01 R33). -/
def Obligations.TeamBarrier : Prop :=
  barrierObjects
  ∧ ((∀ h s v act, ready (.tbar h) s = some (v, act) → act ≠ 0 → ∃ t p, exec (.tbar h) s = .next (t.checkTbar v.cur.slice v.cur.team)
      ∧ OnlyWarp s v { v.wp.recordHits v.sp.mask with front := v.wp.front.set v.cur.split p } t
      ∧ p.pc = v.sp.pc ∧ p.mask = v.sp.mask ∧ p.hold = .tbar ∧ p.parts = [{ entry := nextPc v.sp.pc, mask := v.sp.mask }])
  ∧ (∀ (s : State) n id (t : Team), (s.slice n).anyTeam id = some t →
      (¬ (t.warps.all (·.arrived holdsTbar) = true ∧ t.warps.any (fun w => !w.ended) = true) → s.checkTbar n id = s)
      ∧ (t.warps.all (·.arrived holdsTbar) = true → t.warps.any (fun w => !w.ended) = true → n < s.slices.length → ∃ t' : Team, ((s.checkTbar n id).slice n).anyTeam id = some t'
          ∧ ∀ k w, t.warp k = some w → ∃ w', t'.warp k = some w'
            ∧ (apart (w.front ++ w.wait) → ∀ l, l < 32 → w'.lanePc l =
                ((w.front ++ w.wait).find? fun p => bit p.mask l).map fun p => if p.hold = .tbar then nextPc p.pc else p.pc))))

/-- What GJOIN gives (06 R191): a member index, or a code where the group is not open, the team is a member, its four slots are taken or the
group's 64 places are; joining takes the lowest free place and the lowest free slot. -/
abbrev joinCodes : Prop :=
  ∀ (x : Slice) (t : Team) g, let e := x.group g
    ((g > 255 ∨ e.open_ = false ∨ e.closing = true) → x.join t g = (0x80000003, x))
    ∧ (g ≤ 255 → e.open_ = true → e.closing = false → ∀ m, t.memberOf g = some m → x.join t g = (0x40000000 + BitVec.ofNat 32 m, x))
    ∧ (g ≤ 255 → e.open_ = true → e.closing = false → t.memberOf g = none → (∀ y ∈ t.groups, y ≠ none) → x.join t g = (0x80000001, x))
    ∧ (g ≤ 255 → e.open_ = true → e.closing = false → t.memberOf g = none → none ∈ t.groups → (∀ m < 64, m ∈ e.members.map (·.idx)) →
        x.join t g = (0x80000002, x))
    ∧ (∀ m k, g ≤ 255 → e.open_ = true → e.closing = false → t.memberOf g = none → t.groups.findIdx? (·.isNone) = some k → m < 64 →
        m ∉ e.members.map (·.idx) → (∀ k < m, k ∈ e.members.map (·.idx)) → x.join t g = (BitVec.ofNat 32 m,
          { x.modAnyTeam t.id (fun u => { u with groups := u.groups.set k (some (g, m)) }) with
            groups := kset x.groups g { e with members := e.members ++ [{ idx := m, team := t.id }], joins := e.joins + 1 } }))

/-- What leaving a group does (06 R192, R183): the team is no member of it afterwards and holds no slot of it, the other groups stay, the
watches through the group's window on the team's scratchpad are revoked, and no byte of memory changes. A team that is no member leaves
nothing. That the leaver's own watches through the window are revoked too is the model's choice (log entry 65). -/
abbrev leavingGroup : Prop :=
  ∀ (s : State) n id g, let e := (s.slice n).group g
    let t := s.leaveGroup n id g
    ((∀ y ∈ e.members, y.team ≠ id) → t = s)
    ∧ (n < s.slices.length → (∃ y ∈ e.members, y.team = id) → (∀ y ∈ ((t.slice n).group g).members, y ∈ e.members ∧ y.team ≠ id)
        ∧ (∀ u, (t.slice n).anyTeam id = some u → ∀ k, some (g, k) ∉ u.groups)
        ∧ (∀ g', g' ≠ g → (t.slice n).group g' = (s.slice n).group g')
        ∧ t.watches = s.watches.map (fun q => if q.ofGroup n id g then { q with revoked := true } else q)
        ∧ t.mem = s.mem)

/-- A team counts as arrived at a group's phase once all its warps have arrived, and the phase of which the last member has arrived ends: each
split held for it goes on (06 R193; 11 R297). -/
abbrev groupPhases : Prop :=
  ∀ (s : State) n id g (u : Team) m, n < s.slices.length → (s.slice n).anyTeam id = some u → u.memberOf g = some m →
    let e := (s.slice n).group g
    let t := s.arriveGbar n id g
    let counts := u.warps.all (·.arrived (holdsGbar g)) = true ∧ u.warps.any (fun w => !w.ended) = true ∧ m ∉ e.arrived
    let last := ∀ y ∈ e.members, y.idx ∈ m :: e.arrived
    (¬ counts → t = s)
    ∧ (counts → ¬ last → (t.slice n).group g = { e with arrived := m :: e.arrived } ∧ ∀ r, t.warp r = s.warp r)
    ∧ (counts → last → (t.slice n).group g = { e with arrived := [], phase := (e.phase + 1) % 16 }
        ∧ ∀ r w, r.slice = n → s.warp r = some w → ∃ w', t.warp r = some w'
          ∧ (apart (w.front ++ w.wait) → ∀ l, l < 32 → w'.lanePc l = ((w.front ++ w.wait).find? fun p => bit p.mask l).map fun p =>
              if p.hold = .gbar g e.phase then nextPc p.pc else p.pc))

/-- GJOIN, GLEAVE, GBAR and GQRY complete (06 R191-R194). GJOIN discards its CU's L1, as an acquire, and leaves the group table and the team's
slots as its result says. GLEAVE, once no LDA through the group's window is still to be read, leaves the group. GBAR of a group that the team
is in holds its lanes and counts the team once all its warps have arrived; of another it traps. GQRY reads. With no active lane GJOIN, GLEAVE
and GBAR only go on. -/
def Obligations.GroupInstructions : Prop :=
  joinCodes ∧ leavingGroup ∧ groupPhases
  ∧ (∀ h a s v act, let i := Instr.gjoin h a
      let r := v.sl.join v.tm (wordA i v act (leadLane act)).toNat
      ready i s = some (v, act) → act ≠ 0 → ∃ t, exec i s = .next t
        ∧ Acted ((s.l1Clear (s.actingCu v)).setSlice v.cur.slice r.2) v (v.wp.recordHits v.sp.mask) h act (fun _ => [r.1]) (fun _ => nextPc v.sp.pc) t)
  ∧ (∀ h a s v act, let i := Instr.gleave h a
      let g := (wordA i v act (leadLane act)).toNat
      ready i s = some (v, act) → act ≠ 0 → v.tm.gleaveWaits g = false →
      ∃ t, exec i s = .next (if g ≤ 255 then t.leaveGroup v.cur.slice v.cur.team g else t)
        ∧ Acted s v (v.wp.recordHits v.sp.mask) (bare h) act (fun _ => []) (fun _ => nextPc v.sp.pc) t)
  ∧ (∀ h a s v act, let i := Instr.gleave h a
      let g := (wordA i v act (leadLane act)).toNat
      ready i s = some (v, act) → act ≠ 0 → v.tm.gleaveWaits g = true → exec i s = .next s)
  ∧ (∀ h a s v act, let i := Instr.gbar h a
      let g := (wordA i v act (leadLane act)).toNat
      ready i s = some (v, act) → act = v.sp.mask → act ≠ 0 → g ≤ 255 → (v.tm.memberOf g).isSome = true → ∃ t p,
        exec i s = .next (t.arriveGbar v.cur.slice v.cur.team g)
        ∧ OnlyWarp s v { v.wp.recordHits v.sp.mask with front := v.wp.front.set v.cur.split p } t
        ∧ p.pc = v.sp.pc ∧ p.mask = v.sp.mask ∧ p.hold = .gbar g (v.sl.group g).phase
        ∧ p.parts = [{ entry := nextPc v.sp.pc, mask := v.sp.mask, livein := s.liveAt v.cur.slice v.tm (nextPc v.sp.pc) }])
  ∧ (∀ h a s v act, let i := Instr.gbar h a
      let g := (wordA i v act (leadLane act)).toNat
      ready i s = some (v, act) → act ≠ 0 → (g > 255 ∨ v.tm.memberOf g = none) → ∃ d, exec i s =
        .next (State.takeTrap { s with freeCtr := s.freeCtr + 2 } v { kind := .groupRevoked, info := d }))
  ∧ (∀ i, ((∃ h a, i = .gjoin h a) ∨ (∃ h a, i = .gleave h a) ∨ ∃ h a, i = .gbar h a) →
      Does i (bare i.hdr) (fun _ _ act => act = 0) (fun _ v _ => v.wp) (fun _ _ _ _ => []) (fun v _ _ => nextPc v.sp.pc))
  ∧ (∀ h item a, Completes (.gqry h item a) fun v act _ =>
      let g := (wordA (.gqry h item a) v act (leadLane act)).toNat
      let e := v.sl.group g
      [match item with
        | .count => if g > 255 then 0 else BitVec.ofNat 32 e.members.length
        | .idx => if g > 255 then 0xFFFFFFFF else ((v.tm.memberOf g).map (BitVec.ofNat 32)).getD 0xFFFFFFFF
        | .masklo => if g > 255 then 0 else BitVec.ofNat 32 ((e.members.map fun m => 2 ^ m.idx).sum)
        | .maskhi => if g > 255 then 0 else BitVec.ofNat 32 ((e.members.map fun m => 2 ^ m.idx).sum / 2 ^ 32)])

/-! ### Copies, tasks, collator, tables (06 R195-R212) -/

/-- A command has been accepted: its completion register, if it has one (none with WS set), is pending, no other register changes, and the
split goes on. -/
abbrev Accepted (v : View) (h : Hdr) (t : State) : Prop :=
  ∃ w', t.warp v.ref = some w'
    ∧ (∀ k, k ∉ h.outRegs 1 → w'.vget k = v.wp.vget k)
    ∧ (∀ k ∈ h.outRegs 1, k < v.wp.vregs.length → (w'.vget k).tag = .pending)
    ∧ w'.sregs = v.wp.sregs ∧ w'.preds = v.wp.preds ∧ w'.qpreds = v.wp.qpreds ∧ Moved v w' fun _ => nextPc v.sp.pc

/-- A copy command is accepted into a channel with room, where its descriptor lies in the global space, aligned, can be read, and meets the
rules of 06 R200: it is the channel's last command (06 R197, R201). DCMP is one of mode 2 (06 R211). CPYW reads the write pointer, CPYC
empties the channel (06 R202, R203). A full channel makes the instruction wait. -/
def Obligations.CopyCommands : Prop :=
  (∀ h eng ch any a s v act b0 b1, let i := Instr.cpy h eng ch any a
      let key := if any then s.pickChannel v.cur.slice else 4 * eng.toNat + ch.toNat
      let ad := longA i v act (leadLane act)
      let d := parseCopy (b0 ++ b1)
      let obj := if d.bind then s.boundObj v d.bobj else none
      ready i s = some (v, act) → act ≠ 0 → (v.sl.channel key).queue.length < 16 → ad.toNat % 64 = 0 → ad.toNat / 2 ^ 48 = 0 →
      s.readDesc v ad 8 = (s, .bytes b0) → s.readDesc v (ad + 64) (4 * min (copyNdim b0) 14) = (s, .bytes b1) →
      copyOk (b0 ++ b1) = true → (d.bind = true → obj ≠ none) →
      ∃ t q, exec i s = .next t ∧ ((t.slice v.cur.slice).channel key).queue = (v.sl.channel key).queue ++ [q]
        ∧ q.desc = d ∧ q.bobj = obj ∧ q.pos = 0 ∧ q.ended = none ∧ q.dcmp = false ∧ q.issuer = v.ref ∧ t.mem = s.mem ∧ Accepted v h t)
  ∧ (∀ h a b s v act bs, let i := Instr.dcmp h a b
      let key := s.pickChannel v.cur.slice
      let n := (wordB i v act (leadLane act)).toNat
      let ad := longA i v act (leadLane act)
      let blk := BitVec.ofNat 64 (fieldAt bs 0 8)
      ready i s = some (v, act) → act ≠ 0 → (v.sl.channel key).queue.length < 16 → n ≠ 0 → n ≤ 65535 → ad.toNat % 32 = 0 → ad.toNat / 2 ^ 48 = 0 →
      s.readDesc v ad 4 = (s, .bytes bs) → fieldAt bs 20 12 = 0 → blk.toNat % 4 = 0 →
      ∃ t q, exec i s = .next t ∧ ((t.slice v.cur.slice).channel key).queue = (v.sl.channel key).queue ++ [q]
        ∧ q.desc.src = blk ∧ q.desc.dst = blk ∧ q.desc.mode = 2 ∧ q.desc.dims = [(n, n, 0, 256, 256)] ∧ q.dcmp = true ∧ q.pos = 0 ∧ q.ended = none
        ∧ t.mem = s.mem ∧ Accepted v h t)
  ∧ (∀ h eng ch, Completes (.cpyw h eng ch) fun v _ _ => twoWords (v.sl.channel (4 * eng.toNat + ch.toNat)).wptr)
  ∧ (∀ h eng ch s v act, let i := Instr.cpyc h eng ch
      let key := 4 * eng.toNat + ch.toNat
      ready i s = some (v, act) → act ≠ 0 → ∃ t, exec i s = .next t ∧ ((t.slice v.cur.slice).channel key).queue = []
        ∧ ((t.slice v.cur.slice).channel key).wptr = (v.sl.channel key).wptr ∧ t.mem = s.mem
        ∧ ∀ k, k ≠ key → (t.slice v.cur.slice).channel k = v.sl.channel k)
  ∧ (∀ h eng ch a s v act, let i := Instr.cpy h eng ch false a
      ready i s = some (v, act) → act ≠ 0 → 16 ≤ (v.sl.channel (4 * eng.toNat + ch.toNat)).queue.length → exec i s = .next s)

/-- The token instructions give the token's state before them, 0 clear, 1 set, 2 cancelled, and all ones for a number that is no token; SIGNAL
sets it, CANCEL cancels it and the tasks that signal it, and a task that awaits it and has not started is to end with ST 5 (06 R208). -/
abbrev tokenInstructions : Prop :=
  ∀ h a s v act i (f : Slice → Nat → Slice), (i = .tokenQuery h a ∧ f = fun x _ => x)
      ∨ (i = .tokenSignal h a ∧ f = fun x k => { x with tokens := kset x.tokens k .set })
      ∨ (i = .tokenCancel h a ∧ f = fun x k =>
          { x with tokens := kset x.tokens k .cancelled
                   tasks := x.tasks.map fun (t : Task) =>
                     let ends := t.eng = none ∧ t.failed = none ∧ t.cancelled = false ∧ k ∈ taskAwait t.words
                     { t with cancelled := t.cancelled || decide (taskSig t.words = k),
                              failed := if ends then some (5, taskSig t.words) else t.failed } }) →
    ready i s = some (v, act) → act ≠ 0 →
    let k := (wordA i v act (leadLane act)).toNat
    (1 ≤ k → k ≤ 65535 → ∃ t, exec i s = .next t ∧ Acted (s.modSlice v.cur.slice fun x => f x k) v (v.wp.recordHits v.sp.mask) h act
        (fun _ => [match v.sl.token k with | .clear => 0 | .set => 1 | .cancelled => 2]) (fun _ => nextPc v.sp.pc) t)
    ∧ (k = 0 ∨ 65535 < k → ∃ t, exec i s = .next t ∧ Acted s v (v.wp.recordHits v.sp.mask) h act (fun _ => [0xFFFFFFFF]) (fun _ => nextPc v.sp.pc) t)

/-- TSUB of one format word in every active lane, with a task ring that has a free slot in ordinary memory, writes the record into the slot,
clears its signal token and adds the task, which fails at once where its record breaks a rule or a token that it awaits is cancelled (06
R204-R206); an inactive lane's word of the record is 0. Lanes that disagree on the format
word trap. -/
def Obligations.TaskSubmission : Prop :=
  tokenInstructions
  ∧ ((∀ h a b s v act r slot pa kind k, let i := Instr.tsub h a b
      let fw := (wordB i v act (leadLane act)).toNat
      let ws := (List.range 31).map (fun l => if bit act l then wordA i v act l else 0) ++ [BitVec.ofNat 32 (fmtResolve fw (v.wp.rm .rdyn))]
      ready i s = some (v, act) → act ≠ 0 → (∀ l ∈ laneList act, (wordB i v act l).toNat = fw) → fmtBad fw = none →
      v.sl.ring = some r → v.sl.freeSlot r = some slot →
      s.resolve v none (BitVec.ofNat 64 (r.base + 128 * slot)) 16 .generic .move true = .ok (.glob pa kind) → s.phys pa true = .mem k →
      lineOfKey k ∉ s.mem.poison →
      ∃ t q, exec i s = .next t ∧ (t.slice v.cur.slice).tasks = v.sl.tasks ++ [q] ∧ q.words = ws ∧ q.ringSlot = slot ∧ q.issuer = v.ref
        ∧ q.failed = ((taskBad ws).map (fun d => (3, d)) <|>
            (if ∃ n ∈ taskAwait ws, n ≠ taskSig ws ∧ v.sl.token n = .cancelled then some (5, taskSig ws) else none)) ∧ q.eng = none
        ∧ (taskSig ws ≠ 0 → (t.slice v.cur.slice).token (taskSig ws) = .clear)
        ∧ (∀ n, n ≠ taskSig ws → (t.slice v.cur.slice).token n = v.sl.token n)
        ∧ (∀ key, (key < k ∨ k + 128 ≤ key) → t.mem.read key = s.mem.read key)
        ∧ (s.mem.wf = true → ∀ j < 128, t.mem.read (k + j) = (recordBytes ws).getD j 0) ∧ Accepted v h t)
  ∧ (∀ h a b l, Traps (.tsub h a b)
      (fun _ v act => l ∈ laneList act ∧ wordB (.tsub h a b) v act l ≠ wordB (.tsub h a b) v act (leadLane act)
        ∧ ∀ k ∈ laneList act, k < l → wordB (.tsub h a b) v act k = wordB (.tsub h a b) v act (leadLane act))
      fun _ _ _ => { kind := .divergence, info := BitVec.ofNat 64 l }))

/-- CAPP appends one record for each active lane where every lane names a configured node with room for the words; else it is an illegal
instruction naming A or FN (06 R209). QUIES gives all ones for a graph above 63, 0 for a quiescent graph, and else holds its lanes (06 R210).
TBLD of an aligned image queues a load and holds its lanes (06 R212). -/
def Obligations.CollatorAndTables : Prop :=
  (∀ h nwords a b s v act x, let i := Instr.capp h nwords a b
      let node := fun l => (wordA i v act l).toNat
      ready i s = some (v, act) → act ≠ 0 →
      (∀ l ∈ laneList act, ∃ d, kget v.sl.nodes (node l) = some d ∧ d.rsize ≠ 0 ∧ nwords.toNat + 1 ≤ d.rsize) →
      let pad := fun l => List.replicate (((kget v.sl.nodes (node l)).map (·.rsize)).getD 0 - (nwords.toNat + 1)) 0
      v.sl.append ((laneList act).map fun l => .node (node l) { time := s.dtime, words := wordsOf i 1 v act l ++ pad l }) = some x →
      ∃ t, exec i s = .next t ∧ Acted (s.setSlice v.cur.slice x) v (v.wp.recordHits v.sp.mask) (bare h) act (fun _ => []) (fun _ => nextPc v.sp.pc) t)
  ∧ (∀ h nwords a b, Traps (.capp h nwords a b)
      (fun _ v act => act ≠ 0 ∧ kget v.sl.nodes (wordA (.capp h nwords a b) v act (leadLane act)).toNat = none)
      fun _ _ _ => { kind := .illegal, info := 7 })
  ∧ (∀ h a s v act, let i := Instr.quies h a
      let g := (wordA i v act (leadLane act)).toNat
      ready i s = some (v, act) → act ≠ 0 →
      (63 < g → ∃ t, exec i s = .next t ∧ Acted s v v.wp h act (fun _ => [0xFFFFFFFF]) (fun _ => nextPc v.sp.pc) t)
      ∧ (g ≤ 63 → v.sl.quiescent g (some (v.cur.team, v.cur.warp)) = true →
          ∃ t, exec i s = .next t ∧ Acted (s.l1Clear (s.actingCu v)) v v.wp h act (fun _ => [0]) (fun _ => nextPc v.sp.pc) t)
      ∧ (g ≤ 63 → v.sl.quiescent g (some (v.cur.team, v.cur.warp)) = false → act = v.sp.mask →
          ∃ t, exec i s = .next t ∧ HeldAt s v v.wp (.quies g (if h.ws then .none else h.dst)) t))
  ∧ (∀ h tabl act_ a s v act, let i := Instr.tbld h tabl act_ a
      let ad := longA i v act (leadLane act)
      let job : TbldJob := { id := s.nextId, act := act_, tabl := tabl.toNat, addr := ad, issuer := v.ref, vf := v.tm.vf, cu := v.tm.cu }
      ready i s = some (v, act) → act ≠ 0 → ad.toNat % 64 = 0 → act = v.sp.mask → ∃ t p, exec i s = .next t
        ∧ p.pc = v.sp.pc ∧ p.mask = v.sp.mask ∧ p.hold = .command s.nextId
        ∧ OnlyWarp (State.modSlice { s with nextId := s.nextId + 1 } v.cur.slice fun x => { x with tblds := x.tblds ++ [job] }) v
            { v.wp.recordHits v.sp.mask with front := v.wp.front.set v.cur.split p } t)
  ∧ (∀ h tabl act_ a, Traps (.tbld h tabl act_ a)
      (fun _ v act => act ≠ 0 ∧ (longA (.tbld h tabl act_ a) v act (leadLane act)).toNat % 64 ≠ 0)
      fun _ v act => { kind := .misalign, info := longA (.tbld h tabl act_ a) v act (leadLane act) })

/-! ### Textures, traversal, geometry, pixels (07 R214-R239) -/

/-- What a read on path G gives (07 R223): the bytes at their home where the reader must see every write that touches them, as one that its
split's last release fence naming G follows; else they may be as they were before the last writes that it need not see, and which is free. -/
abbrev readsOnPathG : Prop :=
  (∀ s v lane (a : DWord) n pa kind k, isGlobal a = true → s.resolve v lane a n .global .move false = .ok (.glob pa kind) → s.phys pa false = .mem k →
      (∀ e ∈ s.gStale, e.key < k + n → k < e.key + e.old.length → e.shows v.gParty = true) →
      lineOfKey k ∉ s.mem.poison → lineOfKey (k + n - 1) ∉ s.mem.poison → preciseReader v lane s a n = (s, .ok (s.mem.readN k n)))
  ∧ (∀ (s : State) v lane (a : DWord) n pa kind k, isGlobal a = true → s.resolve v lane a n .global .move false = .ok (.glob pa kind) →
      s.phys pa false = .mem k → lineOfKey k ∉ s.mem.poison → lineOfKey (k + n - 1) ∉ s.mem.poison →
      ∃ j m, preciseReader v lane s a n = ({ s with freeCtr := j }, .ok (if m = (s.gTouch k n).length then s.mem.readN k n else s.gBefore k n ((s.gTouch k n).drop m)))
        ∧ m ≤ (s.gTouch k n).length ∧ ∀ i e, (s.gTouch k n)[i]? = some e → e.shows v.gParty = true → i < m)

/-- TEX begins a producer; TLD and TQRY complete where their descriptor and texels can be read; a misaligned descriptor traps (07 R219-R225).
TRACE allocates an entry in each active lane and begins a producer, and waits while one in flight has the lane's next entry; THIT gives the
item its handle names, and a handle that names none traps (07 R228-R233). -/
def Obligations.TexturesAndTraversal : Prop :=
  readsOnPathG
  ∧ (∀ h mode stoch dim ncomp a b c s v act, let i := Instr.tex h mode stoch dim ncomp a b c
      ready i s = some (v, act) → act ≠ 0 → ∃ t desc n, exec i s = .next t
        ∧ Acted { s with nextId := s.nextId + 1, freeCtr := n } v
            (v.wp.launchFlight s.nextId 0xB0 (h.outRegs (ncomp.toNat + 1)) act false
              (.tex mode stoch dim (longB i v act (leadLane act)) desc ((List.range 32).map fun l => (l, wordsOf i 0 v act l))
                ((laneList act).map fun l => (l, wordsOf i 2 v act l))))
            (bare h) act (fun _ => []) (fun _ => nextPc v.sp.pc) t)
  ∧ (∀ h dim ncomp a b c s v act s1 bs s2 xs, let i := Instr.tld h dim ncomp a b c
      let ad := longB i v act (leadLane act)
      let d := parseTex bs
      ready i s = some (v, act) → act ≠ 0 → ad.toNat % 64 = 0 → readTexDesc (preciseReader v none) ad s = (s1, .ok bs) →
      overLanes (fun l s => if d.valid = false ∨ d.dim ≠ dimNum dim then (s, Except.ok (List.replicate 4 nan32)) else
        match tldPlace d (wordC i v act l).toNat (wordsOf i 0 v act l) with
        | some (lv, x, y, z, layer) => texel (preciseReader v (some l)) d lv x y z layer s
        | none => (s, .ok (List.replicate 4 0))) (laneList act) s1 = (s2, .ok xs) →
      ∃ t so, exec i s = .next t ∧ Acted s2 v (if so = true then v.wp.recordHits v.sp.mask else v.wp) h act
        (fun l => ((kget xs l).getD []).take (ncomp.toNat + 1)) (fun _ => nextPc v.sp.pc) t)
  ∧ (∀ h item b c s v act s1 bs, let i := Instr.tqry h item b c
      let ad := longB i v act (leadLane act)
      let d := parseTex bs
      ready i s = some (v, act) → act ≠ 0 → ad.toNat % 64 = 0 → readTexDesc (preciseReader v none) ad s = (s1, .ok bs) →
      ∃ t so, exec i s = .next t ∧ Acted s1 v (if so = true then v.wp.recordHits v.sp.mask else v.wp) h act
        (fun l => let k := (longC i v act l).toNat % 16
          [if d.valid = false then 0xFFFFFFFF else match item with
            | .size => BitVec.ofNat 32 (d.wl k + 65536 * d.hl k)
            | .levels => BitVec.ofNat 32 (d.levels + 65536 * (if d.dim = 0 then 1 else if d.dim = 1 then d.dl k else d.dm1 + 1))
            | .fmt => BitVec.ofNat 32 (d.fmt + (if d.cmpr then 256 else 0) + 512 * d.dim)]) (fun _ => nextPc v.sp.pc) t)
  ∧ (∀ i ad, ((∃ h dim n a b c, i = .tld h dim n a b c) ∨ ∃ h item b c, i = .tqry h item b c) →
      Traps i (fun _ v act => act ≠ 0 ∧ longB i v act (leadLane act) = ad ∧ ad.toNat % 64 ≠ 0) fun _ _ _ => { kind := .misalign, info := ad })
  ∧ (∀ h any_ cullb a b s v act, let i := Instr.trace h any_ cullb a b
      let k := fun l => (v.wp.hits.getD l {}).k
      let alloc := (laneList act).map fun l => (l, k l % 4, k l / 4 % 16)
      ready i s = some (v, act) → act ≠ 0 → (∀ l ∈ laneList act, v.wp.traceInFlight l (k l % 4) = false) → ∃ t, exec i s = .next t
        ∧ Acted { s with nextId := s.nextId + 1 } v
            ((v.wp.allocHits act).launchFlight s.nextId 0xB3 (h.outRegs 2) act false
              (.trace (longB i v act (leadLane act)) any_ cullb ((laneList act).map fun l => (l, wordsOf i 0 v act l)) alloc))
            (bare h) act (fun _ => []) (fun _ => nextPc v.sp.pc) t)
  ∧ (∀ h any_ cullb a b s v act l, ready (.trace h any_ cullb a b) s = some (v, act) → l ∈ laneList act →
      v.wp.traceInFlight l ((v.wp.hits.getD l {}).k % 4) = true → exec (.trace h any_ cullb a b) s = .next s)
  ∧ (∀ h item a, Does (.thit h item a) h (fun _ v act => ∀ l ∈ laneList act, (v.wp.hitItem item l (wordA (.thit h item a) v act l)).isSome = true)
      (fun _ v _ => v.wp) (fun _ v act l => [(v.wp.hitItem item l (wordA (.thit h item a) v act l)).getD 0]) (fun v _ _ => nextPc v.sp.pc))
  ∧ (∀ h item a l, Traps (.thit h item a)
      (fun _ v act => l ∈ laneList act ∧ v.wp.hitItem item l (wordA (.thit h item a) v act l) = none
        ∧ ∀ k ∈ laneList act, k < l → (v.wp.hitItem item k (wordA (.thit h item a) v act k)).isSome = true)
      fun _ _ _ => { kind := .poisonOp, lane := some l, sub := 2, info := BitVec.ofNat 64 (srcNum a) })
  ∧ (∀ (w : Warp) item l (hd : Word), w.hitItem item l hd =
      let e := (w.hits.getD l {}).ents.getD (hd.toNat % 4) {}
      if hd.toNat < 256 ∧ e.valid = true ∧ e.gen = hd.toNat / 4 % 16 then
        some (match item with | .u => e.u | .v => e.v | .prim => e.prim | .inst => e.inst | .leaf => e.leaf)
      else none)

/-- In a geometry warp of a running render RING.acq gives the handle of the slot its team holds, on whatever CU it acquired it (log entry 31), or of
the lowest free slot of its CU, which it then holds at the next generation; with none free it waits. RING.rel submits the slot its handle names; EMIT writes its records there (07 R235-R237). VRD
gives each pixel's entry and PXW sets each pixel of a shading warp's block (07 R238, R239). Elsewhere each is an illegal instruction naming FN. -/
def Obligations.PayloadsAndPixels : Prop :=
  (∀ v : View, (∀ cu k p, v.ownSlot = some (cu, k, p) → p.state = .held ∧ p.team = v.tm.id ∧ k < 4 ∧ (4 * cu + k, p) ∈ v.sl.payloads)
      ∧ (v.ownSlot = none → ∀ e ∈ v.sl.payloads, ¬ (e.2.state = .held ∧ e.2.team = v.tm.id)))
  ∧ (∀ h s v act k, ready (.ringAcquire h) s = some (v, act) → act ≠ 0 → v.geometry = true → k < 4 →
      let slot := v.sl.payload v.tm.cu
      (∀ cu k p, v.ownSlot = some (cu, k, p) → ∃ t, exec (.ringAcquire h) s = .next t
        ∧ Acted s v v.wp h act (fun _ => [BitVec.ofNat 32 (k + 4 * p.gen)]) (fun _ => nextPc v.sp.pc) t)
      ∧ (v.ownSlot = none → (slot k).state = .free → (∀ j < k, (slot j).state ≠ .free) → ∃ t, exec (.ringAcquire h) s = .next t
        ∧ Acted (s.modSlice v.cur.slice fun x => x.setPayload v.tm.cu k { state := .held, gen := ((slot k).gen + 1) % 65536, team := v.tm.id }) v v.wp h
          act (fun _ => [BitVec.ofNat 32 (k + 4 * (((slot k).gen + 1) % 65536))]) (fun _ => nextPc v.sp.pc) t)
      ∧ (v.ownSlot = none → (∀ j < 4, (slot j).state ≠ .free) → exec (.ringAcquire h) s = .next s))
  ∧ (∀ h b s v act, let i := Instr.ringRelease h b
      let hd := wordB i v act (leadLane act)
      ready i s = some (v, act) → act ≠ 0 → v.geometry = true → ∃ t, exec i s = .next t ∧
        match v.heldSlot hd with
        | none => Acted s v v.wp (bare h) act (fun _ => []) (fun _ => nextPc v.sp.pc) t
        | some (cu, k) => Acted (State.modSlice { s with nextId := s.nextId + 1 } v.cur.slice fun x =>
            x.setPayload cu k { (x.payload cu k) with state := .draining, order := s.nextId }) v v.wp (bare h) act (fun _ => [])
            (fun _ => nextPc v.sp.pc) t)
  ∧ (∀ h prim nwords a b s v act, let i := Instr.emit h prim nwords a b
      let recs := (laneList act).map fun l => wordsOf i 0 v act l
      let hd := wordB i v act (leadLane act)
      ready i s = some (v, act) → act ≠ 0 → v.geometry = true → ∃ t, exec i s = .next t ∧
        match v.heldSlot hd with
        | none => Acted (s.modSlice v.cur.slice (·.ringErrors recs.length)) v v.wp (bare h) act (fun _ => []) (fun _ => nextPc v.sp.pc) t
        | some (cu, k) => Acted (s.modSlice v.cur.slice fun x =>
            (x.setPayload cu k (Payload.emitAll prim recs (v.sl.payload cu k)).1).ringErrors (Payload.emitAll prim recs (v.sl.payload cu k)).2)
            v v.wp (bare h) act (fun _ => []) (fun _ => nextPc v.sp.pc) t)
  ∧ (∀ h item s v act tl b r, ready (.vrd h item) s = some (v, act) → act ≠ 0 → v.tm.kind = .shading tl b → v.sl.render = some r →
      ∃ t, exec (.vrd h item) s = .next t ∧ Acted s v v.wp h act (fun l =>
        let p := blockPixel b (32 * v.cur.warp + l)
        vrdWords r item ((r.tile tl).ids.getD (64 * p.2 + p.1) { depth := 0, order := 0xFFFFFFFF, ref := 0xFFFFFFFF })
          (r.x0 + tl % r.cols * 64 + p.1) (r.y0 + tl / r.cols * 64 + p.2)) (fun _ => nextPc v.sp.pc) t)
  ∧ (∀ h a s v act tl b r, let i := Instr.pxw h a
      ready i s = some (v, act) → act ≠ 0 → v.tm.kind = .shading tl b → v.sl.render = some r → ∃ t tiles, exec i s = .next t
        ∧ Acted (s.modSlice v.cur.slice fun x => { x with render := some { r with tiles := tiles } }) v v.wp (bare h) act (fun _ => [])
            (fun _ => nextPc v.sp.pc) t
        ∧ tiles.map (·.num) = r.tiles.map (·.num)
        ∧ ∀ q, q ∈ r.tiles → q.num = tl → ∃ q' ∈ tiles, q'.num = tl ∧ ∀ j, j < q.px.length →
            let at_ := fun l => 64 * (blockPixel b (32 * v.cur.warp + l)).2 + (blockPixel b (32 * v.cur.warp + l)).1
            ((∀ l ∈ laneList act, at_ l ≠ j) → q'.px.getD j 0 = q.px.getD j 0)
            ∧ (b < 64 → v.cur.warp < 2 → ∀ l ∈ laneList act, at_ l = j → q'.px.getD j 0 = wordA i v act l))
  ∧ (∀ b, b < 64 → ∀ m n, m < 64 → n < 64 → blockPixel b m = blockPixel b n → m = n)
  ∧ (∀ i, ((∃ h, i = .ringAcquire h) ∨ (∃ h b, i = .ringRelease h b) ∨ ∃ h p n a b, i = .emit h p n a b) →
      Traps i (fun _ v act => act ≠ 0 ∧ v.geometry = false) fun _ _ _ => { kind := .illegal, info := 10 })
  ∧ (∀ i, ((∃ h item, i = .vrd h item) ∨ ∃ h a, i = .pxw h a) →
      Traps i (fun _ v act => act ≠ 0 ∧ ∀ tl b, v.tm.kind ≠ .shading tl b) fun _ _ _ => { kind := .illegal, info := 10 })

/-! ### Radiance, Gibbs, system (07 R240-R259) -/

/-- The split is held for a command that the state `s1` has queued. -/
abbrev HeldFor (s1 : State) (v : View) (w : Warp) (id : Nat) (t : State) : Prop :=
  ∃ p, p.pc = v.sp.pc ∧ p.mask = v.sp.mask ∧ p.hold = .command id ∧ OnlyWarp s1 v { w with front := v.wp.front.set v.cur.split p } t

/-- The radiance commands are accepted in order: a query begins a producer (07 R243), RCT, RCSTEP of a count other than 0, RCPUB, RCRD at an
aligned address and RCCFG join the engine's queue, and the last three hold their split (07 R242-R247). -/
def Obligations.RadianceCommands : Prop :=
  (∀ h train a s v act, let i := Instr.rcq h train a
      let feat := (laneList act).map fun l => (l, wordsOf i 0 v act l)
      ready i s = some (v, act) → act ≠ 0 → ∃ t r slots, exec i s = .next t
        ∧ r.accepted = v.sl.radiance.accepted + 1 ∧ r.queue = v.sl.radiance.queue ∧ r.config = v.sl.radiance.config
        ∧ (train = false → slots = none ∧ r.slots = v.sl.radiance.slots)
        ∧ let w := v.wp.launchFlight s.nextId 0xC0 (h.outRegs (if train then 4 else 3)) act train
            (.rcq train feat slots v.sl.radiance.accepted)
          Acted (State.modRad { s with nextId := s.nextId + 1 } v.cur.slice fun _ => r) v (if train then w.recordHits v.sp.mask else w) (bare h) act
            (fun _ => []) (fun _ => nextPc v.sp.pc) t)
  ∧ (∀ h a b s v act, let i := Instr.rct h a b
      ready i s = some (v, act) → act ≠ 0 → ∃ t, exec i s = .next t
        ∧ Acted (s.modRad v.cur.slice (·.push v.tm.vf v.tm.cu v.ref (.ct ((laneList act).map fun l => (wordA i v act l, wordsOf i 1 v act l)))))
            v (v.wp.recordHits v.sp.mask) (bare h) act (fun _ => []) (fun _ => nextPc v.sp.pc) t)
  ∧ (∀ h a s v act, let i := Instr.rcstep h a
      let n := (wordA i v act (leadLane act)).toNat
      ready i s = some (v, act) → act ≠ 0 → ∃ t, exec i s = .next t
        ∧ Acted (if n = 0 then s else s.modRad v.cur.slice (·.push v.tm.vf v.tm.cu v.ref (.step n (v.sl.queue v.tm.queue).earliest)))
            v (v.wp.recordHits v.sp.mask) (bare h) act (fun _ => []) (fun _ => nextPc v.sp.pc) t)
  ∧ (∀ h s v act, ready (.rcpub h) s = some (v, act) → act = v.sp.mask → act ≠ 0 → ∃ t, exec (.rcpub h) s = .next t
        ∧ HeldFor (State.modRad { s with nextId := s.nextId + 1 } v.cur.slice (·.push v.tm.vf v.tm.cu v.ref (.pub s.nextId))) v
            (v.wp.recordHits v.sp.mask) s.nextId t)
  ∧ (∀ h shadow a s v act, let i := Instr.rcrd h shadow a
      let ad := longA i v act (leadLane act)
      ready i s = some (v, act) → act = v.sp.mask → act ≠ 0 → ad.toNat % 64 = 0 → ∃ t, exec i s = .next t
        ∧ HeldFor (State.modRad { s with nextId := s.nextId + 1 } v.cur.slice (·.push v.tm.vf v.tm.cu v.ref (.rd s.nextId ad shadow))) v v.wp s.nextId t)
  ∧ (∀ h shadow a, Traps (.rcrd h shadow a) (fun _ v act => act ≠ 0 ∧ (longA (.rcrd h shadow a) v act (leadLane act)).toNat % 64 ≠ 0)
      fun _ v act => { kind := .misalign, info := longA (.rcrd h shadow a) v act (leadLane act) })
  ∧ (∀ h a s v act, let i := Instr.rccfg h a
      ready i s = some (v, act) → act = v.sp.mask → act ≠ 0 → ∃ t r, exec i s = .next t
        ∧ r = (Radiance.drain v.sl.radiance.skipSteps.queue v.sl.radiance.skipSteps).push v.tm.vf v.tm.cu v.ref
            (.cfg s.nextId (longA i v act (leadLane act)) v.sl.radiance.stepsQueued)
        ∧ HeldFor (State.modRad { s with nextId := s.nextId + 1 } v.cur.slice fun _ => r) v (v.wp.recordHits v.sp.mask) s.nextId t)

/-- The Gibbs commands join the array's queue of 16; a full queue makes them wait; GCFG of no colours or more than 16 is an illegal instruction
naming B (07 R249-R254). GSTAT reads (07 R255). -/
def Obligations.GibbsCommands : Prop :=
  (∀ i c s v act, ready i s = some (v, act) → act ≠ 0 →
      ((∃ h ent a b d, i = .gcfg h ent a b d ∧ 1 ≤ (wordB i v act (leadLane act)).toNat ∧ (wordB i v act (leadLane act)).toNat ≤ 16
          ∧ c = .cfg ((wordA i v act (leadLane act)).toNat % 65536) (wordB i v act (leadLane act)).toNat (longC i v act (leadLane act)) ent)
        ∨ (∃ h a, i = .gld h a ∧ c = .load (longA i v act (leadLane act))) ∨ (∃ h a, i = .gclmp h a ∧ c = .clmp (longA i v act (leadLane act)))) →
      (v.sl.gibbs.queue.length < 16 → ∃ t, exec i s = .next t
        ∧ Acted (State.modGibbs { s with nextId := s.nextId + 1 } v.cur.slice (·.push s.nextId v.tm.vf v.tm.cu v.ref c)) v (v.wp.recordHits v.sp.mask)
            (bare i.hdr) act (fun _ => []) (fun _ => nextPc v.sp.pc) t)
      ∧ (16 ≤ v.sl.gibbs.queue.length → exec i s = .next s))
  ∧ (∀ h ent a b c, Traps (.gcfg h ent a b c) (fun _ v act => act ≠ 0 ∧ ((wordB (.gcfg h ent a b c) v act (leadLane act)).toNat = 0
      ∨ 16 < (wordB (.gcfg h ent a b c) v act (leadLane act)).toNat)) fun _ _ _ => { kind := .illegal, info := 8 })
  ∧ (∀ h a s v act, let i := Instr.gswp h a
      ready i s = some (v, act) → act ≠ 0 → v.sl.gibbs.queue.length < 16 → ∃ t, exec i s = .next t
        ∧ Acted (State.modGibbs { s with nextId := s.nextId + 2 } v.cur.slice
            (·.push s.nextId v.tm.vf v.tm.cu v.ref (.sweep (wordA i v act (leadLane act)).toNat 0 0 (v.ref, s.nextId + 1)))) v
            ((v.wp.launchFlight (s.nextId + 1) 0xCB (h.outRegs 1) act true (.engine none)).recordHits v.sp.mask) (bare h) act (fun _ => [])
            (fun _ => nextPc v.sp.pc) t)
  ∧ (∀ h what a s v act, let i := Instr.grd h what a
      ready i s = some (v, act) → act = v.sp.mask → act ≠ 0 → v.sl.gibbs.queue.length < 16 → ∃ t, exec i s = .next t
        ∧ HeldFor (State.modGibbs { s with nextId := s.nextId + 1 } v.cur.slice
            (·.push s.nextId v.tm.vf v.tm.cu v.ref (.read what (longA i v act (leadLane act)) s.nextId))) v (v.wp.recordHits v.sp.mask) s.nextId t)
  ∧ (∀ h s v act, ready (.gstat h) s = some (v, act) → act ≠ 0 → ∃ t, exec (.gstat h) s = .next t
        ∧ let g := v.sl.gibbs
          let st := if g.error then 3 else match g.queue with
            | [] => 0
            | e :: _ => match e.cmd with | .load _ => 2 | .clmp _ => 2 | .sweep n .. => if n = 0 then 0 else 1 | .cfg .. => 0 | .read .. => 0
          Acted s v (v.wp.recordHits v.sp.mask) h act (fun _ => [g.sweep, BitVec.ofNat 32 (st + 16 * g.queue.length + 65536 * g.code)])
            (fun _ => nextPc v.sp.pc) t)

/-- MFS reads the special registers of 01 R24 and 07 R256; MTS writes PART, FPCTL and FPSTAT, whose reserved bits do not take a value, and an
illegal PART or rounding mode is an illegal instruction naming A (07 R257, R258; 01 R15, R36). ESC posts a record and holds its lanes,
in a handler the whole warp; it waits while the mailbox is full (07 R259). -/
def Obligations.SpecialRegistersAndEscalations : Prop :=
  (∀ h srn, Does (.mfs h srn) h (fun _ _ _ => True) (fun _ v _ => v.wp)
      (fun s v _ l => let x := specialReg s v srn.toNat l
        if srn.toNat ∈ [5, 9, 10, 12, 13, 15] then twoWords x else [loWord x]) (fun v _ _ => nextPc v.sp.pc))
  ∧ (∀ (s : State) (v : View) l, specialReg s v 0 l = BitVec.ofNat 64 l ∧ specialReg s v 1 l = BitVec.ofNat 64 v.cur.warp
      ∧ specialReg s v 2 l = BitVec.ofNat 64 v.tm.teamid ∧ specialReg s v 3 l = BitVec.ofNat 64 v.tm.cu ∧ specialReg s v 6 l = BitVec.ofNat 64 v.wp.part
      ∧ specialReg s v 7 l = v.wp.fpctl.setWidth 64 ∧ specialReg s v 8 l = v.wp.fpstat.setWidth 64 ∧ specialReg s v 9 l = BitVec.ofNat 64 s.dtime
      ∧ specialReg s v 10 l = v.wp.trappc ∧ specialReg s v 11 l = v.wp.trapcause.setWidth 64 ∧ specialReg s v 12 l = v.wp.trapinfo
      ∧ specialReg s v 13 l = v.wp.trapvec ∧ specialReg s v 14 l = (v.wp.origlane.getD l 0).setWidth 64)
  ∧ (∀ h a (w : Word → Warp → Warp) srn, ((srn = 6 ∧ w = fun x p => { p with part := x.toNat % 8 }) ∨ (srn = 7 ∧ w = fun x p => { p with fpctl := x &&& 0x7EF })
        ∨ (srn = 8 ∧ w = fun x p => { p with fpstat := x &&& 0x3F })) →
      Does (.mts h srn a) (bare h)
        (fun _ v act => let x := wordA (.mts h srn a) v act (leadLane act)
          act ≠ 0 ∧ (srn = 6 → 1 ≤ x.toNat % 8 ∧ x.toNat % 8 ≤ 5) ∧ (srn = 7 → x.toNat % 8 ≤ 4))
        (fun _ v act => (w (wordA (.mts h srn a) v act (leadLane act)) v.wp).recordHits v.sp.mask) (fun _ _ _ _ => []) (fun v _ _ => nextPc v.sp.pc))
  ∧ (∀ h a, Traps (.mts h 6 a) (fun _ v act => act ≠ 0 ∧ (wordA (.mts h 6 a) v act (leadLane act)).toNat % 8 ∈ [0, 6, 7]) fun _ _ _ => { kind := .illegal, info := 7 })
  ∧ (∀ h a, Traps (.mts h 7 a) (fun _ v act => act ≠ 0 ∧ 5 ≤ (wordA (.mts h 7 a) v act (leadLane act)).toNat % 8) fun _ _ _ => { kind := .illegal, info := 7 })
  ∧ (∀ h imm s v act, let i := Instr.esc h imm
      ready i s = some (v, act) → act ≠ 0 → v.sl.escs.length < 64 → ∃ t r w', exec i s = .next t
        ∧ OnlyWarp (s.modSlice v.cur.slice fun x => { x with escs := x.escs ++ [r] }) v w' t
        ∧ r.warp = v.ref ∧ r.lane = leadLane act ∧ r.addr = v.sp.pc ∧ r.code = imm ∧ r.inHandler = v.wp.handler.isSome
        ∧ w'.escFrozen = v.wp.handler.isSome
        ∧ w' = { v.wp.recordHits v.sp.mask with escFrozen := w'.escFrozen, front := w'.front, wait := w'.wait }
        ∧ (apart (v.wp.front ++ v.wp.wait) → ∀ l, l < 32 → w'.lanePc l =
            if bit act l then some v.sp.pc else if bit v.sp.mask l then some (nextPc v.sp.pc) else v.wp.lanePc l))
  ∧ (∀ h imm s v act, ready (.esc h imm) s = some (v, act) → act ≠ 0 → 64 ≤ v.sl.escs.length → exec (.esc h imm) s = .next s)

/-! ### Steps of other agents: fills, wakes and the ends of waits -/

/-- A producer in flight of a resident warp. -/
abbrev Flying (s : State) (w : WarpRef) (id : Nat) (f : Flight) : Prop := s.flightOf w id = some f

/-- The fills complete. LDA, once every lane has been read, delivers each lane's datum, or poison with the kind of the lowest lane that failed, 0
for a page of kind SO; while a lane waits it keeps what the others gave (06 R174). TEX delivers its texels (07 R220, R221) and TRACE each
lane's hit distance and handle (07 R228, R231); a misaligned descriptor or root poisons with code 1 (07 R215). RCQ delivers the answer of the
engine, and poisons with code 3 where a lane reads an uncorrectable word, which keeps its words (07 R243; 15 R348); that a word becomes
uncorrectable is free (log entry 58). A completion that arrives for accepted commit-class work reaches its register (01 R34). -/
abbrev fillsDeliver : Prop :=
  (∀ s w id f eas m got s1 open_ gs, Flying s w id f → f.kind = .lda eas m got → s.ldaLanes (s.producer w .c id) m eas = (s1, open_, gs) →
      (open_ ≠ [] → exec (.ldaFill w id) s = .next (s1.modWarp w fun (x : Warp) =>
          { x with flights := x.flights.map fun g => if g.id = id then { g with kind := .lda open_ m (got ++ gs) } else g }))
      ∧ (open_ = [] → (∀ l < 32, ∀ k, kget (got ++ gs) l ≠ some (.failed k)) →
          exec (.ldaFill w id) s = .next (s1.modWarp w (·.fillFlight id fun k l => (loadWords m.size (ldaDatum (got ++ gs) l)).getD k 0)))
      ∧ (open_ = [] → ∀ l k, l < 32 → kget (got ++ gs) l = some (.failed k) → (∀ j < l, ∀ n, kget (got ++ gs) j ≠ some (.failed n)) →
          exec (.ldaFill w id) s = .next (s1.modWarp w (·.failFlight id { cause := 1, code := 0, major := 0x83, kind := k }))))
  ∧ (∀ (s : State) e m l ea s1 x, s.ldaLoc e l ea m = (s1, .ok x) →
      (x.isSO = true → s.ldaLane e m l ea = (s1, some (.failed 0)))
      ∧ (x.isSO = false → ∀ s2 d, s1.readAs (e.view s1) (some l) ea m.size.bytes (throughFor m [(l, ea, x)]) x = (s2, .ok d) →
          s.ldaLane e m l ea = (s2, some (.datum d)))
      ∧ (x.isSO = false → ∀ s2 (t : Trap), s1.readAs (e.view s1) (some l) ea m.size.bytes (throughFor m [(l, ea, x)]) x = (s2, .error t) →
          s.ldaLane e m l ea = (s2, some (.failed t.kind.code))))
  ∧ (∀ (s : State) e m l ea s1 k, s.ldaLoc e l ea m = (s1, .error (some k)) → s.ldaLane e m l ea = (s1, some (.failed k)))
  ∧ (∀ s w id f mode st dim ad b crd ex s2 xs, Flying s w id f → f.kind = .tex mode st dim ad (some b) crd ex → ad.toNat % 64 = 0 →
      (parseTex b).valid = true → (parseTex b).dim = dimNum dim →
      overLanes (texLane (engReader { lanes := f.lanes, seen := f.seen } (s.producer w .g id)) (parseTex b) mode st crd ex) (laneList f.lanes) s = (s2, .ok xs) →
      exec (.texFill w id) s = .next (s2.modWarp w (·.fillFlight id fun k l => ((kget xs l).getD []).getD k 0)))
  ∧ (∀ s w id f mode st dim ad b crd ex, Flying s w id f → f.kind = .tex mode st dim ad b crd ex → ad.toNat % 64 ≠ 0 →
      exec (.texFill w id) s = .next (s.modWarp w (·.failFlight id { cause := 1, code := 1, major := 0xB0, kind := 0 })))
  ∧ (∀ s w id f root anyHit cull rays alloc s1 xs, Flying s w id f → f.kind = .trace root anyHit cull rays alloc → root.toNat % 64 = 0 →
      overLanes (fun l s => traceLane (engReader { lanes := f.lanes, seen := f.seen } (s.producer w .g id)) root anyHit cull ((kget rays l).getD []) s) (rays.map (·.1)) s = (s1, .ok xs) →
      ∃ f', exec (.traceFill w id) s = .next (s1.modWarp w fun x => (x.recordTrace alloc xs).fillFlight id f')
        ∧ ∀ l r ent gen, kget xs l = some r → alloc.find? (·.1 == l) = some (l, ent, gen) →
            f' 0 l = (match r with | some x => toF32 x.t | none => 0x7F800000) ∧ f' 1 l = hitHandle ent gen r)
  ∧ (∀ s w id f root anyHit cull rays alloc, Flying s w id f → f.kind = .trace root anyHit cull rays alloc → root.toNat % 64 ≠ 0 →
      exec (.traceFill w id) s = .next (s.modWarp w (·.failFlight id { cause := 1, code := 1, major := 0xB3, kind := 0 })))
  ∧ (∀ s w id f train feat slots order, Flying s w id f → f.kind = .rcq train feat slots order → (s.slice w.slice).radiance.blocks order = false →
      (s.slice w.slice).radiance.config = none →
      exec (.rcqFill w id) s = .next (State.modAnyWarp { s with freeCtr := s.freeCtr + 6 } w
        (·.fillFlight f.id fun k _ => if k = 3 then 0xFFFFFFFF else 0)))
  ∧ (∀ s w id f feat slots order c, Flying s w id f → f.kind = .rcq false feat slots order → (s.slice w.slice).radiance.blocks order = false →
      (s.slice w.slice).radiance.config = some c → w.slice < s.slices.length →
      let bad := maskOf fun l => match kget feat l with | some ws => queryReads c ws ((s.rad w.slice).checked s.freeCtr).badPub | none => false
      ∃ t, exec (.rcqFill w id) s = .next t ∧ ∀ x, s.warp w = some x →
        ∃ vals, t.warp w = some (x.fillBut f.id bad { cause := 1, code := 3, major := 0xC0, kind := 0 } vals)
          ∧ ∀ l ws, l < 32 → kget feat l = some ws → ∀ k < 3, vals k l = (query c (s.slice w.slice).radiance.published ws).getD k 0)
  ∧ (∀ s w x f v, ((s.slice w.slice).anyTeam w.team).bind (·.warp w.warp) = some x → x.flights.find? (·.id == f.id) = some f → f.kind = .engine (some v) →
      exec (.commitCompletionArrival w f.id) s = .next (s.modAnyWarp w (·.fillFlight f.id fun _ _ => v)))
  ∧ (∀ (w : Warp) (f : Flight) vals, w.flights.find? (·.id == f.id) = some f → f.regs.Nodup → (∀ r ∈ f.regs, r < w.vregs.length) →
      let w' := w.fillFlight f.id vals
      w'.flights = w.flights.filter (·.id != f.id)
      ∧ (∀ k r, f.regs[k]? = some r → (w'.vget r).tag = .full
          ∧ ∀ l < 32, w'.vlane r l = if bit f.lanes l && !bit w.exited l then vals k l else w.vlane r l)
      ∧ (∀ r, r ∉ f.regs → w'.vget r = w.vget r) ∧ w'.sregs = w.sregs ∧ w'.front = w.front ∧ w'.wait = w.wait)
  ∧ (∀ (w : Warp) (f : Flight) bad p vals, w.flights.find? (·.id == f.id) = some f → f.regs.Nodup → (∀ r ∈ f.regs, r < w.vregs.length) →
      let w' := w.fillBut f.id bad p vals
      w'.flights = w.flights.filter (·.id != f.id)
      ∧ (∀ k r, f.regs[k]? = some r → (w'.vget r).tag = (if bad = 0 then .full else .poisoned p)
          ∧ ∀ l < 32, w'.vlane r l = if bit f.lanes l && !bit w.exited l && !bit bad l then vals k l else w.vlane r l)
      ∧ (∀ r, r ∉ f.regs → w'.vget r = w.vget r) ∧ w'.sregs = w.sregs ∧ w'.front = w.front ∧ w'.wait = w.wait)
  ∧ (∀ (w : Warp) (f : Flight) p, w.flights.find? (·.id == f.id) = some f → (∀ r ∈ f.regs, r < w.vregs.length) →
      let w' := w.failFlight f.id p
      w'.flights = w.flights.filter (·.id != f.id) ∧ (∀ r ∈ f.regs, (w'.vget r).tag = .poisoned p ∧ (w'.vget r).words = (w.vget r).words)
      ∧ (∀ r, r ∉ f.regs → w'.vget r = w.vget r) ∧ w'.sregs = w.sregs)

/-- A watch that is hit wakes its split, one that is revoked traps when it issues again; a freed entry goes to the oldest request of its bank whose
comparison fails, and the requests before it whose comparison holds are hit (06 R183; 09 R283). A SLEEP ends when DTIME reaches its value (04
R133), a BARW when its timeout has passed, with the result 0 (06 R189). An answer of the slice core goes to the oldest record: retry, skip and
region end the handler of one posted in a handler, `next` lets the lanes of another go on at their region entry, every other answer kills the
warp, and a saved warp keeps one answer (07 R259; 19 R382, R385). A fetched line joins its instruction cache and ends the fetch (01 R42). An
exited warp with no register pending ends (01 R9). -/
def Obligations.WakesAndAnswers : Prop :=
  fillsDeliver
  ∧ ((∀ s r t w p id q, s.splitAt r = some (t, w, p) → p.hold = .watch id → s.watches.find? (·.id == id) = some q →
      let s1 := { s with watches := s.watches.filter (·.id != id) }
      (q.revoked = true → exec (.watchWake r) s = .next (s1.modSplit r fun p => { p with hold := .watchRevoked }))
      ∧ (q.revoked = false → q.hit = true → exec (.watchWake r) s =
          .next ((if q.wide then s1.l1Clear (s1.teamCu r.slice r.team) else s1).modSplit r Split.finish)))
  ∧ (∀ s bank, ((s.watches.filter fun q => q.entry && q.obj.isNone && watchBank q.addr == bank).length < 2048) →
      ∃ ws, exec (.watchEntryFreed bank) s = .next { s with watches := ws } ∧ ws.length = s.watches.length
        ∧ (∀ q ∈ s.watches, (q.entry = true ∨ q.obj ≠ none ∨ watchBank q.addr ≠ bank) → q ∈ ws)
        ∧ (∀ a q b, s.watches = a ++ q :: b → q.entry = false → q.hit = false → q.obj = none → watchBank q.addr = bank →
            (∀ y ∈ a, y.entry = true ∨ y.hit = true ∨ y.obj ≠ none ∨ watchBank y.addr ≠ bank) →
            ws[a.length]? = some (if watchHolds q.cond q.ty (s.watchedWord q) q.value then { q with hit := true } else { q with entry := true })))
  ∧ (∀ s r t w p obj ph u dst un lanes, s.splitAt r = some (t, w, p) → p.hold = .barw obj ph (some u) dst un lanes →
      (s.dtime < u → exec (.barwTimeout r) s = .next s)
      ∧ (u ≤ s.dtime → exec (.barwTimeout r) s = .next (s.modTeam r.slice r.team fun (tm : Team) => tm.modWarp r.warp fun (x : Warp) =>
          x.endBarw (s.markedFor r.slice tm) (fun p => p.low == r.lane && match p.hold with | .barw .. => true | _ => false) false)))
  ∧ (∀ s r t w p u, s.splitAt r = some (t, w, p) → p.hold = .sleep u →
      (s.dtime < u → exec (.sleepExpiry r) s = .next s) ∧ (u ≤ s.dtime → exec (.sleepExpiry r) s = .next (s.modSplit r Split.finish)))
  ∧ (∀ p : Split, p.finish.pc = nextPc p.pc ∧ p.finish.hold = .none ∧ p.finish.mask = p.mask ∧ p.finish.parts = p.parts)
  ∧ (∀ s n e rest, (s.slice n).escs = e :: rest →
      let s1 := s.modSlice n fun x => { x with escs := rest }
      (∀ a, (s1.slice n).team e.warp.team = none → ∀ w, ((s1.slice n).anyTeam e.warp.team).bind (·.warp e.warp.warp) = some w →
          exec (.escalationAnswer n a) s = .next (if w.escAnswer.isSome = true then s
            else s1.modAnyWarp e.warp fun (w : Warp) => { w with escAnswer := some a, escOf := some (e.inHandler, e.lane) }))
      ∧ (∀ t w, (s1.slice n).team e.warp.team = some t → t.warp e.warp.warp = some w → e.inHandler = true →
          ∀ a m, ((a = .retry ∧ m = .retry) ∨ (a = .skip ∧ m = .skip) ∨ (a = .region ∧ m = .region)) →
            exec (.escalationAnswer n a) s = .next (s1.modWarp e.warp fun _ => s1.endHandler n t w m))
      ∧ (∀ t w a, (s1.slice n).team e.warp.team = some t → t.warp e.warp.warp = some w →
          ((e.inHandler = true ∧ a ≠ .retry ∧ a ≠ .skip ∧ a ≠ .region) ∨ (e.inHandler = false ∧ a ≠ .next)) →
          exec (.escalationAnswer n a) s = .next (s1.kill e.warp))
      ∧ (∀ t w, (s1.slice n).team e.warp.team = some t → t.warp e.warp.warp = some w → e.inHandler = false →
          exec (.escalationAnswer n .next) s = .next (s1.modWarp e.warp fun _ => Warp.settle (s1.markedFor n t) (w.mapSplits fun p =>
            if p.hold = .esc ∧ bit p.mask e.lane = true then
              { p with pc := ((p.parts.find? fun q => bit q.mask p.low).map (·.entry)).getD p.pc, hold := .none, run := none } else p))))
  ∧ (∀ s n cu seq f k, (s.slice n).fetches.find? (fun f => f.cu == cu && f.seq == seq) = some f → s.phys f.pa false = .mem k → n < s.slices.length →
      ∃ t, exec (.instructionLineFill n cu seq) s = .next t ∧ (t.slice n).iline cu f.pa = some (s.mem.readBytes k 64)
        ∧ (∀ g ∈ (t.slice n).fetches, ¬ (g.cu = cu ∧ g.seq = seq)) ∧ t.mem = s.mem)
  ∧ (∀ s w x, s.warp w = some x → x.allExited = true → x.anyPending = false → x.ended = false → exec (.warpEnd w) s = .next (s.endWarp w 0)))

/-! ### Steps of other agents: engines -/

/-- What one step of a channel's first command does, by its mode (06 R198-R201). -/
abbrev landing (s : State) (q : CopyCmd) : Landed := if q.desc.mode = 2 then landMode2 s q else landElem s q

/-- A landing counts the element or block, moves the channel's write pointer above it unless an earlier block was left out, and ends the command
at its last one (06 R201, R202); a channel's ended command completes: it leaves the channel, its status and count reach its
register, and the write pointer stands at its end where all of it was handled (06 R195, R201, R211). A task starts on the first free engine
with the banks it uses latched, but not at the end of a quantum, in a reset or in a slice whose function leaves (06 R205-R207; 20 R418,
R423, R425); a K-block of a task that need not stop adds into the accumulators (06 R206); a task ends failed, cancelled, or
drained, and its token is set or cancelled (06 R207, R208). Held QUIES end when their graph is quiescent (06 R210), and a table
load is judged and flipped in, once no task uses the bank it goes to (06 R212; 05 R165). -/
def Obligations.CopyTaskAndTableSteps : Prop :=
  (∀ (s : State) n eng ch q (s1 : State) k top, ((s.slice n).channel (4 * eng + ch)).queue.head? = some q → q.ended = none → landing s q = .bytes s1 k top false →
      q.bobj = none → n < s1.slices.length →
      let fin := if q.desc.total ≤ q.pos + 1 then some (if q.poisoned then 6 else if q.badMode then 9 else 0) else none
      ∃ t, exec (.copyElementLanding n eng ch) s = .next t ∧ t.mem = s1.mem
        ∧ ((t.slice n).channel (4 * eng + ch)).queue = { q with pos := q.pos + 1, written := q.written + 1, ended := fin }
              :: ((s1.slice n).channel (4 * eng + ch)).queue.tail
        ∧ ((t.slice n).channel (4 * eng + ch)).wptr = if q.gap then ((s1.slice n).channel (4 * eng + ch)).wptr else top)
  ∧ (∀ (s : State) n eng ch q st, ((s.slice n).channel (4 * eng + ch)).queue.head? = some q → q.ended = some st → n < s.slices.length →
      ∃ t, (exec (if q.dcmp then .dcmpComplete n eng ch else .copyComplete n eng ch) s = .next t)
        ∧ ((t.slice n).channel (4 * eng + ch)).queue = ((s.slice n).channel (4 * eng + ch)).queue.tail
        ∧ (((s.slice n).channel (4 * eng + ch)).queue.tail = [] → ((t.slice n).channel (4 * eng + ch)).wptr =
            if st = 0 ∨ st = 6 ∨ st = 9 then q.endAddr else ((s.slice n).channel (4 * eng + ch)).wptr)
        ∧ (∀ r id x, q.comp = some (r, id) → s.warp r = some x →
            t.warp r = some (x.fillFlight id fun _ _ => BitVec.ofNat 32 ((if q.dcmp then q.written else 0) + st * 65536))))
  ∧ (∀ (s : State) n t e k, let x := s.slice n
      x.drain = 0 → x.st ≠ 3 → x.leaving = false → x.tasks.find? x.startable = some t → s.freeEngine n = some e → (t.spill <|> x.freeSpill) = some k →
      exec (.taskStart n) s = .next (s.modSlice n fun y => { y with tasks := y.tasks.map fun (u : Task) => if u.id = t.id then
        { u with eng := some e, spill := some k, kdone := 0, acc := [], fl := BitVec.ofNat 6 (taskW t.words 30 / 2 ^ 16), meterFrom := s.dtime,
                 latched := [(bits (taskW t.words 15) 0 3, false), (bits (taskW t.words 15) 3 3, false), (bits (taskW t.words 15) 6 3, false),
                   (bits (taskW t.words 15) 9 3, true)].map (fun c => x.bank c.2 c.1), banksHeld := x.banksUsed t.words } else u }))
  ∧ (∀ (s : State) n id t acc f0 a b (s1 s2 s3 : State), (s.slice n).tasks.find? (·.id == id) = some t → t.eng ≠ none → t.failed = none → 64 * t.kdone < taskK t.words → s.taskHalts n t = false →
      let ws := t.words
      let f := taskFmt ws
      let kb := min 64 (taskK ws - 64 * t.kdone)
      (if t.kdone = 0 then readAin (t.agent n) ws (f.accm == 1) s else (s, .ok (t.acc, 0))) = (s1, .ok (acc, f0)) →
      readVecs (t.agent n) f.atype f.cmpa (t.latched.getD 0 .identity) s1 (blockA ws (64 * t.kdone) kb) = (s2, .ok a) →
      readVecs (t.agent n) f.btype f.cmpb (t.latched.getD 1 .identity) s2 (blockB ws (64 * t.kdone) kb) = (s3, .ok b) →
      exec (.taskKBlock n id) s = .next (State.chargeTask (s3.modSlice n fun x => x.modTask t.id fun y =>
        { y with kdone := y.kdone + 1, acc := (accBlock (f.accm == 1) acc a b (taskN ws)).1,
                 fl := y.fl ||| f0 ||| (accBlock (f.accm == 1) acc a b (taskN ws)).2 ||| flagsOf a ||| flagsOf b,
                 failed := if y.cancelled then some (4, taskSig ws) else y.failed }) n t))
  ∧ (∀ (s : State) n id t, (s.slice n).tasks.find? (·.id == id) = some t →
      (∀ st det, t.failed = some (st, det) → exec (.taskComplete n id) s = .next ((s.chargeTask n t).endTask n t st det t.fl))
      ∧ (t.failed = none → t.eng = none → t.cancelled = true → exec (.taskComplete n id) s = .next (s.endTask n t 4 (taskSig t.words) t.fl))
      ∧ (t.failed = none → t.eng = none → t.cancelled = false → (∃ k ∈ taskAwait t.words, (s.slice n).token k = .cancelled) →
          exec (.taskComplete n id) s = .next (s.endTask n t 5 (taskSig t.words) t.fl))
      ∧ (t.failed = none → t.eng ≠ none → taskK t.words ≤ 64 * t.kdone → exec (.taskComplete n id) s = .next (s.drainTask n t)))
  ∧ (∀ (s : State) n (t : Task) st det fl, n < s.slices.length → t.comp = none → st ≠ 0 ∨ (st = 0 ∧ t.cancelled = false) →
      let u := s.endTask n t st det fl
      (∀ k, (u.slice n).token k = if k = taskSig t.words ∧ k ≠ 0 then (if st = 0 then .set else .cancelled) else (s.slice n).token k)
      ∧ (u.slice n).tasks = ((s.slice n).tasks.filter (·.id != t.id)).map (fun (y : Task) =>
          if st ≠ 0 ∧ taskSig t.words ≠ 0 ∧ y.eng = none ∧ y.failed = none ∧ y.cancelled = false ∧ taskSig t.words ∈ taskAwait y.words
          then { y with failed := some (5, taskSig y.words) } else y) ∧ u.mem = s.mem)
  ∧ (∀ (s : State) n g, (s.slice n).quiescent g none = true → exec (.quiescence n g) s = .next ((s.l1ClearSlice n).modSlice n fun x =>
      { x with teams := x.teams.map fun (t : Team) => { t with warps := t.warps.map fun w => w.endQuies (s.markedFor n t) g } }))
  ∧ (∀ (s : State) n act tabl j, let x := s.slice n
      x.tblds.find? (fun j => j.act == act && j.tabl == tabl) = some j → x.bankHeld act tabl = false →
      let e : Agent := { slice := n, team := j.issuer.team, vf := j.vf, cu := j.cu, path := .a, id := j.id }
      (isGlobal j.addr = false → exec (.tableFlip n act tabl) s = .next (s.endTbld n j 2))
      ∧ (isGlobal j.addr = true → ∀ (s1 : State) img, s.engBytes e j.addr 64 (if act then 16 else 4) = (s1, .ok img) →
          (imageOk act img = false → exec (.tableFlip n act tabl) s = .next (s1.endTbld n j 1))
          ∧ (imageOk act img = true → n < s1.slices.length → ∃ s2 : State, exec (.tableFlip n act tabl) s = .next (s2.endTbld n j 0)
              ∧ (s2.slice n).table act tabl = { banks := ((s1.slice n).table act tabl).banks.set (1 - ((s1.slice n).table act tabl).active) (.image img),
                                                active := 1 - ((s1.slice n).table act tabl).active }
              ∧ ∀ a k, ¬ (a = act ∧ k = tabl) → (s2.slice n).table a k = (s1.slice n).table a k)))

/-- An optimiser step over committed slots moves the shadow parameters, the step count and the powers, and leaves its slots (15 R351, R352); that
the slot area faults or a word of it or of the shadow copy is uncorrectable is free (log entry 58). One without committed slots ends with no
effect; one whose deadline has come is discarded and counted as skipped (07 R246). RCPUB publishes the shadow copy, RCRD writes the chosen
copy, RCCFG loads a configuration (07 R242, R245, R247). A sweep updates every colour and counts, unless the check of the store before it
finds a word in error, which is free, or the entropy source fails, where the store stays (17 R361-R364, R369); a GSWP ends with the sweep
count, one that waited 1 ms for entropy with status 4 (07 R253; 17 R364); GCFG, GLD, GCLMP and GRD act at the head of the queue (07 R249-R254). -/
def Obligations.RadianceAndGibbsSteps : Prop :=
  (∀ (s : State) n e es k d, let r := s.rad n
      r.queue = e :: es → e.cmd = .step k d →
      (deadlinePassed s.dtime d = true → exec (.optimiserStep n) s = .next (s.modRad n (·.discard k)))
      ∧ (deadlinePassed s.dtime d = false → r.slots.any (·.2.committed) = false → exec (.optimiserStep n) s = .next (s.modRad n (·.stepDone)))
      ∧ (deadlinePassed s.dtime d = false → r.slots.any (·.2.committed) = true → ∀ c owner (s1 s2 : State) b xs, r.config = some c → r.owner = some owner →
          let s0 := s.radCheck n
          let p := c.params
          let ag : Agent := { slice := n, team := owner.2.team, vf := owner.1, cu := 0, path := .a, id := n }
          let g := gradients c r.shadow ((isort (fun (a b : Nat × RadSlot) => a.1 ≤ b.1) (r.slots.filter (·.2.committed))).map (·.2))
          let new := (List.range p).map fun i => adam c (fmulT r.b1t c.beta1) (fmulT r.b2t c.beta2) (r.shadow.getD i 0) (g.getD i 0)
            ((words4 b).getD i 0) ((words4 b).getD (p + i) 0)
          let bad := (s0.rad n).badShadow ≠ [] ∨ ∃ x ∈ r.slots, x.2.committed = true ∧ x.1 ∈ (s0.rad n).badSlots
          s0.engFetch ag (BitVec.ofNat 64 c.mom) 4 (2 * p) = (s1, .ok b) → new.all adamOk = true →
          s1.engCheck ag none 4 true (2 * p) (BitVec.ofNat 64 c.mom) = (s2, .ok xs) →
          (Config.freeBool s1.freeCtr = true → exec (.optimiserStep n) s =
            .next (State.modRad { s1 with freeCtr := s1.freeCtr + 1 } n fun r => { r.discard k with status := 2 }))
          ∧ (Config.freeBool s1.freeCtr = false → bad → exec (.optimiserStep n) s = .next (s1.modRad n fun r => { r.discard k with status := 3 }))
          ∧ (Config.freeBool s1.freeCtr = false → ¬ bad → ∃ s3 : State, exec (.optimiserStep n) s = .next (s3.modRad n fun r =>
            { r.stepDone with shadow := new.map (·.2.2), step := r.step + 1, b1t := fmulT (s.rad n).b1t c.beta1, b2t := fmulT (s.rad n).b2t c.beta2 }))))
  ∧ (∀ s n, let late := fun (e : RadEntry) => match e.cmd with | .step _ d => deadlinePassed s.dtime d | _ => false
      exec (.stepDeadlineExpiry n) s = .next (s.modRad n fun r => Radiance.drain (r.queue.filter (!late ·))
        { r with skipped := r.skipped + BitVec.ofNat 32 ((r.queue.filter late).map fun e => match e.cmd with | .step k _ => k | _ => 0).sum }))
  ∧ (∀ (s : State) n e es, let x := s.slice n
      x.radiance.queue = e :: es →
      (∀ id, e.cmd = .pub id → x.earlierRcq e.order = false → exec (.radianceCommandComplete n) s =
        .next ((s.modRad n fun r => { r with published := r.shadow, badPub := r.badShadow, badSlots := [], slots := [] }).endRad n e id))
      ∧ (∀ id a sh (s1 : State), e.cmd = .rd id a sh →
          s.engStream (e.agent n id) ((x.radiance.image sh).length + 1) a (x.radiance.image sh) [] = (s1, none) →
          exec (.radianceCommandComplete n) s = .next ((s1.spoilChunks (e.agent n id) a
            ((x.radiance.badChunks sh).filter (· < (x.radiance.image sh).length / 64 + 1))).endRad n e id))
      ∧ (∀ id a sk, e.cmd = .cfg id a sk → x.earlierRcq e.order = false →
          exec (.radianceCommandComplete n) s = .next (s.loadRad n e id a sk)
          ∧ (a.toNat % 64 ≠ 0 → s.loadRad n e id a sk = (s.modRad n fun r => { r with status := 1 }).endRad n e id)
          ∧ (a.toNat % 64 = 0 → ∀ (s1 : State) b (s2 : State) p (s3 : State), s.engFetch (e.agent n id) a 64 2 = (s1, .ok b) → radOk b = true →
              s1.engFetch (e.agent n id) (BitVec.ofNat 64 (parseRad b).param) 2 (parseRad b).params = (s2, .ok p) →
              s2.partPoison (e.agent n id) (parseRad b).mom (8 * (parseRad b).params) = false →
              s2.engStream (e.agent n id) (8 * (parseRad b).params) (BitVec.ofNat 64 (parseRad b).mom)
                (List.replicate (8 * (parseRad b).params) 0) [] = (s3, none) →
              s.loadRad n e id a sk = (s3.modRad n (·.install (parseRad b) (BitVec.ofNat 32 (leNat ((b.drop 96).take 4))) (halves p) sk
                (e.vf, e.issuer))).endRad n e id)))
  ∧ (∀ (s : State) n e es left done ph comp, let g := (s.slice n).gibbs
      g.queue = e :: es → e.cmd = .sweep left done ph comp → left ≠ 0 → g.cells.all (fun c => !c.2.bad) = true →
      let k := if ph = 0 then s.freeCtr + 2 else s.freeCtr
      let fails := fun c => g.entFailed.isSome || Config.freeBool (k + c)
      let out := phases g n fails g.colours 0 g.array
      if ph = 0 ∧ Config.freeBool s.freeCtr = true then
        ∃ i < gibbsCells, exec (.gibbsSweep n) s = .next (State.endSweep { s with freeCtr := k } n comp 6 i fun h =>
          Gibbs.record { h with cells := kset g.cells i { (kget g.cells i).getD {} with bad := true } } 3 i)
      else ∃ s1 : State, s1.slices = s.slices ∧ s1.mem = s.mem
        ∧ (out.2.2 = none → exec (.gibbsSweep n) s = .next (s1.modGibbs n fun _ => { g.setArray out.1 with
            drawn := out.2.1, sweep := g.sweep + 1, since := s.dtime, queue := { e with cmd := .sweep (left - 1) (done + 1) 0 comp } :: es }))
        ∧ (∀ c, out.2.2 = some c → exec (.gibbsSweep n) s = .next (s1.modGibbs n fun _ => { g with
            drawn := out.2.1, entFailed := g.entFailed <|> some s.dtime, queue := { e with cmd := .sweep left done (c + 1) comp } :: es })))
  ∧ (∀ (s : State) n e es done ph comp, let g := (s.slice n).gibbs
      g.queue = e :: es → e.cmd = .sweep 0 done ph comp → exec (.gswpComplete n) s = .next (s.endSweep n comp 0 g.sweep.toNat fun g => g))
  ∧ (∀ (s : State) n e es left done ph comp since, let g := (s.slice n).gibbs
      g.queue = e :: es → e.cmd = .sweep left done ph comp → g.entFailed = some since → ph ≠ 0 → since + 1000000 ≤ s.dtime →
      exec (.entropyFailureTimeout n) s = .next (s.endSweep n comp 4 done (·.record 6 0)))
  ∧ (∀ (s : State) n (comp : WarpRef × Nat) st det f (x : Warp), s.warp comp.1 = some x →
      (s.endSweep n comp st det f).warp comp.1 = some (x.fillFlight comp.2 fun _ _ => BitVec.ofNat 32 (det % 65536 + st * 65536)))
  ∧ (∀ s n, exec (.entropySourceRecovery n) s = .next (s.modGibbs n fun g => { g with entFailed := none }))
  ∧ (∀ (s : State) n e es, let g := (s.slice n).gibbs
      g.queue = e :: es →
      (∀ beta k seed ent, e.cmd = .cfg beta k seed ent → exec (.gibbsCommandComplete n) s =
        .next (s.modGibbs n fun g => { g.pop with beta := beta, colours := k, seed := seed, ent := ent, sweep := 0 }))
      ∧ (∀ a (s1 : State) bs, e.cmd = .load a → s.imageRead (e.agent n) a gibbsCells = (s1, .ok bs) →
          bs.zipIdx.find? (fun b => !cellOk b.2 b.1) = none → colourClash (bs.map parseCell).toArray = none →
          exec (.gibbsCommandComplete n) s =
            .next (s1.modGibbs n fun g => Gibbs.pop { g.setArray (bs.map parseCell).toArray with code := 0, detail := 0, error := false }))
      ∧ (∀ a (s1 : State) bs, e.cmd = .clmp a → s.imageRead (e.agent n) a 128 = (s1, .ok bs) →
          ∃ f : Gibbs → Gibbs, exec (.gibbsCommandComplete n) s = .next (s1.modGibbs n fun g => (f g).pop)
            ∧ ∀ g : Gibbs, f g = g.setArray (g.array.toList.zipIdx.map fun ci =>
                { ci.1 with clamp := (bs.flatten.getD (ci.2 / 8) 0).getLsbD (ci.2 % 8) }).toArray)
      ∧ (∀ what a id (s1 : State), e.cmd = .read what a id → a.toNat % 64 = 0 →
          s.engStream (e.agent n) ((g.image what).length + 1) a (g.image what) [] = (s1, none) →
          exec (.gibbsCommandComplete n) s = .next ((State.modGibbs (s1.spoilChunks (e.agent n) a
            ((g.badChunks what).filter (· < (g.image what).length / 64 + 1))) n Gibbs.pop).endCommand e.issuer id)))

/-! ### Steps of other agents: stops, restores, translation -/

/-- A stopped team is saved: its warps are as a restart leaves them, its watches are dropped, and it is resident no more (19 R384, R389). -/
abbrev SavedAs (s t : State) (n : Nat) (tm : Team) (halt : Bool) : Prop :=
  (t.slice n).saved = (s.slice n).saved ++
      [{ tm with warps := tm.warps.map Warp.restart, halted := halt, saveFrom := none, saveFor := .stop, edits := [], headEdits := [] }]
  ∧ (t.slice n).teams = (s.slice n).teams.filter (·.id != tm.id) ∧ (t.slice n).saveTime = s.dtime ∧ t.mem = s.mem
  ∧ t.watches = s.watches.filter fun q => !(q.warp.slice == n && q.warp.team == tm.id)

/-- Pre-emption saves a team that can stop and whose records fit, where its save is awaited, its slice drains, or the escapement's choice takes
it out, and changes nothing otherwise; a debug halt saves it and keeps it halted; each warp's splits restart at their region entries, and what
the image does not hold reads zero. A kill cancels the warp's producers and ends the warp with code 3. A halted team that is resumed, with what the
debugger wrote into its image, can be restored; one whose image cannot be read back is killed. With one queue waiting, a restore seats the
team on the CU that 11 R290 chooses (19 R384-R387, R389, R393; 20 R414, R415; 01 R34). A departed team's scratchpad is freed when no copy
holds it, and a save that waited for it goes on (11 R294; 19 R386). -/
abbrev stopsAndRestores : Prop :=
  (∀ (s : State) n id tm, (s.slice n).team id = some tm → s.stoppable n tm = true → s.saveFits n tm = true → n < s.slices.length →
      (((tm.saveFrom ≠ none ∧ tm.saveFor ≠ .halt) ∨ (tm.saveFrom = none ∧ (2 ≤ (s.slice n).drain ∨ s.wantsOut n id = true))) →
        ∃ t, exec (.preemption n id) s = .next t ∧ SavedAs s t n tm false)
      ∧ (tm.saveFrom ≠ none → tm.saveFor = .halt → ∃ t, exec (.preemption n id) s = .next t ∧ SavedAs s t n tm true)
      ∧ (tm.saveFrom = none → (s.slice n).drain < 2 → s.wantsOut n id = false → exec (.preemption n id) s = .next s)
      ∧ (∃ t, exec (.debugHalt n id) s = .next t ∧ SavedAs s t n tm true))
  ∧ (∀ (s : State) (r : WarpRef) x, ((s.slice r.slice).anyTeam r.team).bind (·.warp r.warp) = some x → x.ended = false → x.inRun = false →
      exec (.kill r) s = .next ((s.modAnyWarp r Warp.cancelKilled).endWarp r 3))
  ∧ (∀ (s : State) n id tm, (s.slice n).team id = some tm → s.saveFits n tm = false → exec (.preemption n id) s = .next s)
  ∧ (∀ (w : Warp), w.ended = false → w.flights.all (·.commit) = true → let w' := w.restart
      (∀ n, n < w.vregs.length → w.savedRegs.getD n false = true → (w.vget n).bad = 0 → w'.vget n = w.vget n)
      ∧ (∀ n, w.savedRegs.getD n false = false → ∀ l, w'.vlane n l = 0)
      ∧ w'.sregs = w.sregs ∧ w'.preds = w.preds ∧ w'.qpreds = w.qpreds ∧ w'.part = w.part ∧ w'.fpctl = w.fpctl ∧ w'.fpstat = w.fpstat
      ∧ w'.flights = w.flights ∧ (∀ (l : Nat) (h : LaneHits), w.hits[l]? = some h → w'.hits[l]? = some { h with k := h.recorded })
      ∧ (apart (w.front ++ w.wait) → (∀ p ∈ w.front ++ w.wait, ∀ l, l < 32 → bit p.mask l = true → ∃ q ∈ p.parts, bit q.mask l = true) →
          (∀ p ∈ w.front ++ w.wait, ∀ q ∈ p.parts, q.mask &&& ~~~p.mask = 0) → ∀ l, l < 32 →
          w'.unfold.lanePc l = ((w.front ++ w.wait).find? fun p => bit p.mask l).bind fun p => (p.parts.find? fun q => bit q.mask l).map (·.entry)))
  ∧ (∀ (s : State) n id, n < s.slices.length → (∀ y ∈ (s.slice n).saved, y.id = id → y.edits = [] ∧ y.headEdits = []) →
      ∃ t, exec (.debugResume n id []) s = .next t ∧ t.mem = s.mem
      ∧ (t.slice n).saved = (s.slice n).saved.map fun (y : Team) => if y.id = id then { y with halted := false } else y)
  ∧ (∀ (s : State) n id edits (tm : Team), n < s.slices.length → edits ≠ [] → (s.slice n).saved = [tm] → tm.id = id → tm.halted = true →
      ∃ t, exec (.debugResume n id edits) s = .next t ∧ t.mem = s.mem ∧ (t.slice n).saved = [{ s.editImage n tm edits with halted := false, edits := [], headEdits := [] }])
  ∧ (∀ (s : State) n (tm : Team) cu seqs, tm.broken = true →
      s.restoreTeam n tm cu seqs = (List.range tm.warps.length).foldl (fun s k => s.kill { slice := n, team := tm.id, warp := k }) s)
  ∧ (∀ (s : State) n q tm cu seqs fr, let x := s.slice n
      x.st = 1 → x.drain < 2 → x.leaving = false → x.waitingQueues = [q] → (x.queue q).be = false → x.cand q = some (.saved tm) →
      pickCu (s.rooms n tm.need []) tm.need = some (cu, seqs, fr) → exec (.teamRestore n tm.id) s = .next (s.restoreTeam n tm cu seqs))
  ∧ (∀ (s : State) n id, s.scratchHeld n id = false → n < s.slices.length →
      ∃ t, exec (.heldScratchpadFreed n id) s = .next t ∧ (t.slice n).held = (s.slice n).held.filter (·.id != id) ∧ t.mem = s.mem
        ∧ ∀ tm, (s.slice n).team id = some tm → tm.inRun = false → s.saveFits n tm = true → tm.saveFrom ≠ none → SavedAs s t n tm (tm.saveFor == .halt))
  ∧ (∀ (s : State) (r : WarpRef) code x, s.warp r = some x → x.ended = false → ∀ w', (s.endWarp r code).warp r = some w' →
      w'.ended = true ∧ w'.front = [] ∧ w'.wait = [] ∧ w'.handler = none)

/-- Acknowledging a fault entry drops it; the splits that it holds issue again, or are marked failed as its other accesses are (19 R400). A walk that finds a leaf enters it in the TLBs of the CU
and the slice; one that meets a replayable fault enters the fault buffer (19 R398-R400). An invalidation takes the entries that it covers out of every
TLB when it ends (19 R398). The scrubber counts what it corrects, and what it cannot it marks and counts (19 R394, R395). -/
def Obligations.TranslationSteps : Prop :=
  stopsAndRestores
  ∧ ((∀ (s : State) n id e, (s.slice n).faults.find? (·.id == id) = some e → n < s.slices.length →
      (∃ t, exec (.faultAckReplay n id) s = .next t ∧ (t.slice n).faults = (s.slice n).faults.filter (·.id != id)
        ∧ (t.slice n).ackFailed = (s.slice n).ackFailed)
      ∧ (∃ t, exec (.faultAckFail n id) s = .next t ∧ (t.slice n).faults = (s.slice n).faults.filter (·.id != id)
        ∧ (t.slice n).ackFailed = (s.slice n).ackFailed ++ e.waiters.map fun w => (w, e.page)))
  ∧ (∀ (s : State) n e h (tm : Team) wi (w : Warp), n < s.slices.length → (s.slice n).team tm.id = some tm → tm.vf = e.vf → tm.warp wi = some w →
      ∃ w1, ((s.ackSplits n e h).slice n).team tm.id = some w1
        ∧ w1.warp wi = some (Warp.settle (s.markedFor n tm) (w.mapSplits fun p => if p.hold = .pageFault e.page e.path then { p with hold := h } else p)))
  ∧ (∀ (s : State) n va wr ft path cu page size pa w x ok nr, let vf := (s.slice n).running.getD (s.slice n).vf
      walk s vf (va % 2 ^ 48) = .leaf page size pa w x ok nr → n < s.slices.length →
      let e : TlbEnt := { vf := vf, cu := none, page := page, size := size, pa := pa, w := w, x := x, ok := ok, nr := nr }
      ∃ t, exec (.translationWalk n va wr ft path cu) s = .next t ∧ e ∈ (t.slice n).tlb ∧ { e with cu := some cu } ∈ (t.slice n).tlb
        ∧ ((t.slice n).tlb.filter (·.cu == some cu)).length ≤ 256 ∧ ((t.slice n).tlb.filter (·.cu == none)).length ≤ 16384 ∧ t.mem = s.mem)
  ∧ (∀ (s : State) n va wr ft path cu sub, let vf := (s.slice n).running.getD (s.slice n).vf
      let page := va % 2 ^ 48 / 4096 * 4096
      walk s vf (va % 2 ^ 48) = .fault sub false → sub ≠ 5 → ((kget s.xl vf).getD {}).fmode = true →
      (s.slice n).faults.any (fun e => e.page == page && e.path == path && e.vf == vf) = false → (s.slice n).faults.length < 4096 → n < s.slices.length →
      ∃ t, exec (.translationWalk n va wr ft path cu) s = .next t ∧ (t.slice n).faults = (s.slice n).faults ++ [
        { id := s.nextId, page := page, path := path, write := wr, fetch := ft, sub := sub, held := 0, cu := s.cuGlobal n cu, vf := vf, dtime := s.dtime }])
  ∧ (∀ (s : State) vf va npg, ((kget s.xl vf).getD {}).busy = false → ∃ t b, exec (.xlinvGo vf va npg) s = .next t ∧ kget t.xl vf = some b
      ∧ b.busy = true ∧ b.va = va / 4096 % 2 ^ 36 * 4096 ∧ b.npg = npg % 256 ∧ t.slices = s.slices ∧ t.mem = s.mem)
  ∧ (∀ (s : State) vf, let b := (kget s.xl vf).getD {}
      b.busy = true → ∃ t, exec (.xlinvComplete vf) s = .next t ∧ t.mem = s.mem
      ∧ (∀ m, m < s.slices.length → (t.slice m).tlb = (s.slice m).tlb.filter fun e => !(e.vf == vf && b.covers e))
      ∧ (b.atsQueue = [] → ∃ c, kget t.xl vf = some c ∧ c.busy = false))
  ∧ (∀ (s : State) f va npg, ((kget s.xl f).getD {}).busy = false → (f = 0 ∨ s.vfEnable = true) →
      exec (.atsInvalidationRequest f va npg) s = .next (s.beginInv f va npg true))
  ∧ (∀ (s : State) n cu k r, (s.slice n).scrub = true → ((s.slice n).rows cu)[k]? = some r → n < s.slices.length →
      ∃ t, exec (.scrubRow n cu k) s = .next t ∧ t.mem = s.mem ∧
        ((t.slice n) = s.slice n
        ∨ (∃ b < 32, t.slice n = (s.slice n).hurtWord b r)
        ∨ t.slice n = { s.slice n with corrected := bump (s.slice n).corrected cu }
        ∨ ∃ b < 32, t.slice n = { (s.slice n).markWord b r with uncorrected := bump ((s.slice n).markWord b r).uncorrected cu })))

/-- The fields of a save area's header that no debugger has written, of a team record and of a warp record stand where 19 R389, R390 and R391 place them; the
registers of a record follow its sections in ascending number. -/
def Obligations.SaveImage : Prop :=
  (∀ (s : State) n k (f : Nat × Nat), f ∈ [(0, 0x64165A5E), (4, 1), (8, n % 2 ^ 32), (12, (s.slice n).fn % 2 ^ 32), (24, (s.saveRecords n).length % 2 ^ 32), (28, 0)] →
      (∀ y ∈ (s.slice n).saved, y.headEdits = []) → k < 4 → s.saveByte n (f.1 + k) = (leBytes 4 f.2).getD k 0)
  ∧ (∀ (s : State) n k, (∀ y ∈ (s.slice n).saved, y.headEdits = []) →
      (k < 8 → s.saveByte n (16 + k) = (leBytes 8 (s.slice n).saveTime).getD k 0) ∧ (40 ≤ k → k < 4096 → s.saveByte n k = 0))
  ∧ (∀ (t : Team), (∀ f ∈ [(0, 2), (4, (64 + t.scratchSize) % 2 ^ 32), (8, t.queue % 2 ^ 32), (12, t.teamid % 2 ^ 32), (16, t.warps.length % 2 ^ 32),
        (20, t.scratchSize % 2 ^ 32), (40, t.pin.getD 0xFF % 2 ^ 32)], recAt t.record f.1 4 = f.2)
      ∧ (∀ a, a < t.scratchSize → t.record.getD (64 + a) 0 = t.scratch.read a) ∧ t.record.length = 64 + t.scratchSize)
  ∧ (∀ (w : Warp) wi a, let b := w.record wi a
      (∀ f ∈ [(0, 1), (4, w.recSize wi % 2 ^ 32), (8, a % 2 ^ 32), (12, wi % 2 ^ 32), (16, w.n % 2 ^ 32), (20, w.recFlags wi % 2 ^ 32), (24, w.part % 2 ^ 32),
          (28, w.fpctl.toNat), (32, w.fpstat.toNat), (48, w.trapcause.toNat), (52, escCode w.escAnswer)], recAt b f.1 4 = f.2)
      ∧ recAt b 40 8 = w.trappc.toNat ∧ recAt b 56 8 = w.trapinfo.toNat ∧ recAt b 64 8 = w.trapvec.toNat)
  ∧ (∀ (w : Warp) wi a j l, w.splitField.length ≤ 512 → w.sregs.length = 64 → w.preds.length = 7 → w.hasHits = false → w.hasStack wi = false →
      (∀ n, n < w.n → (w.vget n).words.length = 32) → j < w.kept.length → w.kept.getD j 0 < w.n → (∀ n ∈ w.kept, n < w.n) → l < 32 →
      recAt (w.record wi a) (1024 + 128 * j + 4 * l) 4 = (w.vlane (w.kept.getD j 0) l).toNat)

/-! ### The memory model (09 R262-R279) -/

/-- What the rules of the memory model forbid and allow (09 R268, R273, R274, R275, R278). A read after an acquire that reads a release
returns nothing older than what the releasing party wrote before; what a copy or an engine wrote is carried so only when its completion
was observed and the release names its path; two reads of one location by one party on one path do not go back. With a plain store in the
release's place the older value may be read. -/
def Obligations.OrderedReads : Prop :=
  (∀ (x : Execution) (i j k l : Nat), x.admitted = true → j < x.size → l < x.size → x.po i j = true → x.po k l = true →
      (x.ev j).party ≠ (x.ev k).party → (x.ev i).writes = true → (x.ev i).plainUo = false → (x.ev j).writes = true → (x.ev j).release = true →
      (x.ev j).covers (x.ev i).path = true → x.readsFrom k j = true → (x.ev k).acquire = true → (x.ev k).covers (x.ev j).path = true →
      (x.ev j).holds (x.ev k).party = true → (x.ev k).holds (x.ev j).party = true → (x.ev k).covers (x.ev l).path = true →
      (x.ev l).reads = true → (x.ev l).plainUo = false → (x.ev l).loc = (x.ev i).loc → x.newer l i = false)
  ∧ (∀ (x : Execution) (i o j k l : Nat), x.admitted = true → i < x.size → j < x.size → l < x.size → x.po o j = true → x.po k l = true →
      (x.ev j).party ≠ (x.ev k).party → (x.ev i).writes = true → (x.ev i).path ≠ .c → i ∈ (x.ev o).obs → (x.ev j).writes = true → (x.ev j).release = true →
      (x.ev i).path ∈ (x.ev j).paths → x.readsFrom k j = true → (x.ev k).acquire = true → (x.ev k).covers (x.ev j).path = true →
      (x.ev j).holds (x.ev k).party = true → (x.ev k).holds (x.ev j).party = true → (x.ev k).covers (x.ev l).path = true →
      (x.ev l).reads = true → (x.ev l).plainUo = false → (x.ev l).loc = (x.ev i).loc → x.newer l i = false)
  ∧ (∀ (x : Execution) (i j v w : Nat), x.admitted = true → j < x.size → x.po i j = true → (x.ev i).reads = true → (x.ev j).reads = true →
      (x.ev i).path = (x.ev j).path → (x.ev i).loc = (x.ev j).loc → x.src i = some v → x.src j = some w → v ≠ w → x.coBefore v w = true)
  ∧ (∀ p q : Party, p ≠ q → p.dev = some 0 → q.dev = some 0 →
      allowed [{ party := p, act := .write, loc := 1 }, { party := p, act := .write, loc := 2 }, { party := q, act := .read, loc := 2, acq := true },
        { party := q, act := .read, loc := 1 }] [none, none, some 1, none] = true)

/-! ### Steps of other agents: queues, packets, placement -/

/-- A taken packet of a kind that may start stands at the head of its queue (20 R410). -/
abbrev AtHead (s : State) (n q kind : Nat) (h : Head) : Prop :=
  ((s.slice n).queue q).head = some h ∧ pktKind h.raw = kind ∧ (s.slice n).ready q h = true ∧ n < s.slices.length

/-- The packet's work has ended with a status and counters: its record says so, and no packet waits to start. -/
abbrev PacketEnded (s t : State) (n q : Nat) (h : Head) (status : Nat) (counters : List Nat := []) : Prop :=
  ((t.slice n).queue q).head = none ∧ ∀ p ∈ ((s.slice n).queue q).pkts, p.idx = h.idx → p.status = none →
    { p with started := true, status := some status, counters := counters } ∈ ((t.slice n).queue q).pkts

/-- A kick moves WRIDX where it is ahead and within the ring, is latched while the slice resets, and changes no queue's index where bits [63:32]
are not zero (20 R408); then each WAITV of the slice whose condition it finds true is marked (20 R410). A packet of a kind above 7 is taken and
completes with STATUS 1 (20 R409-R411). A taken LAUNCH that may start, once ICINV has emptied the instruction caches (01 R43), starts a launch, or
ends with 1 or 2 where a team or a co-launched set fits no empty slice and 5 where its arguments or record could not be read (20 R410; 11
R291); a RENDER starts the render, its geometry launch and, where it binds the encoder lane, that lane's frame, or ends with 7, 1 or 8 (20
R410, R427; 13 R316); FRAME opens a frame (20 R413); WAITV stays at the head and ends when its condition holds; SIGV writes or adds; NODE and
TASKRING install their descriptor (20 R410; 11 R299). A completed packet leaves, its record and message written first where it asks for
them (20 R412; 21 R430). The status of a SIGV whose word cannot be accessed is free (log
entry 35), and so is the map from queues to vectors (log entry 60). -/
abbrev kicksAndPackets : Prop :=
  (∀ (s : State) n q (v : DWord), n < s.slices.length → q < 64 → hiWord v = 0 → ((s.slice n).tsh = true → (s.slice n).running ≠ none) →
      let y := (s.slice n).queue q
      let w := if loWord v ≠ y.wridx ∧ (loWord v - y.wridx).toNat < 2 ^ 31 ∧ (loWord v - y.rdidx).toNat ≤ 2 ^ y.log2n then loWord v else y.wridx
      let l := match y.latched with | some o => if loWord v ≠ o ∧ (loWord v - o).toNat < 2 ^ 31 then loWord v else o | none => loWord v
      ∃ u : State, exec (.kickWordWrite n q v) s = .next (u.seeWaits n) ∧ u.mem = s.mem
        ∧ ((s.slice n).st ≠ 3 → ((u.slice n).queue q) = { y with wridx := w }) ∧ ((s.slice n).st = 3 → ((u.slice n).queue q) = { y with latched := some l }))
  ∧ (∀ (s : State) n q (v : DWord), 64 ≤ q ∨ hiWord v ≠ 0 → exec (.kickWordWrite n q v) s = .next (s.seeWaits n))
  ∧ (∀ (s : State) n q, n < s.slices.length → (s.seeWaits n).mem = s.mem ∧
      let y := (s.slice n).queue q
      ((s.seeWaits n).slice n).queue q = if s.meetsWait n (s.slice n).fn y then { y with head := y.head.map fun h => { h with met := true } } else y)
  ∧ (∀ (s : State) n q raw (s1 s3 : State) r, let y := (s.slice n).queue q
      let a := y.base + 64 * (y.rdidx.toNat % 2 ^ y.log2n)
      y.en = true → y.rdidx ≠ y.wridx → y.head = none → (s.slice n).st = 1 → (s.slice n).drain = 0 → (s.slice n).leaving = false →
      s.escRead n q a 64 = (s1, .ok raw) → 8 ≤ pktKind raw → s1.escWrite n q a [0] = (s3, r) → r ≠ .error .wait → n < s3.slices.length →
      let y3 := (s3.slice n).queue q
      ∃ t p, exec (.packetInvalidKind n q) s = .next t ∧ ((t.slice n).queue q) = { y3 with rdidx := y3.rdidx + 1, pkts := y3.pkts ++ [p] }
        ∧ p.idx = y.rdidx.toNat ∧ p.status = some 1 ∧ p.cmpl = pktCmpl raw ∧ p.caddr = fieldAt raw 8 8)
  ∧ (∀ (s : State) n q h a k, AtHead s n q 1 h → h.args = some a → h.recs = some [k] →
      let pin := if byteAt h.raw 29 = 0xFF then none else some (byteAt h.raw 29)
      let y : Launch := { id := s.nextId, queue := q, pkt := some h.idx, kind := .packet, krec := parseK k, total := fieldAt h.raw 24 4, pin := pin,
                          co := nbit (byteAt h.raw 28) 0, zfill := nbit (byteAt h.raw 28) 1, fpctl := BitVec.ofNat 32 (fieldAt h.raw 32 4),
                          args := a, graph := byteAt h.raw 2 % 64 }
      let cus := s.cuCount n
      ∃ t, exec (.packetLaunch n q) s = .next t ∧ t.mem = s.mem ∧ (t.slice n).icache = (if pktIcinv h.raw then [] else (s.slice n).icache)
        ∧ (y.need.fitsEmpty cus = false → PacketEnded s t n q h 1)
        ∧ (y.need.fitsEmpty cus = true → y.co = true → y.coFits cus = false → PacketEnded s t n q h 2)
        ∧ (y.need.fitsEmpty cus = true → (y.co = false ∨ y.coFits cus = true) →
            (t.slice n).launches = (s.slice n).launches ++ [y] ∧ ((t.slice n).queue q).head = none))
  ∧ (∀ (s : State) n q h, AtHead s n q 1 h → (h.args = none ∨ h.recs = none) → ∃ t, exec (.packetLaunch n q) s = .next t ∧ PacketEnded s t n q h 5)
  ∧ (∀ (s : State) n q h a d g k, AtHead s n q 2 h → h.args = some a → h.recs = some [d, g, k] →
      let fits := fun (k : KRec) => Need.fitsEmpty { warps := k.warps, regs := k.regs, scratch := k.scratch, pin := none } (s.cuCount n)
      let zeros := List.replicate 7 0
      (renderOk d g k = false → ∃ t, exec (.packetRender n q) s = .next t ∧ PacketEnded s t n q h 7 zeros)
      ∧ (renderOk d g k = true → (fits (parseK g) && fits (parseK k)) = false → ∃ t, exec (.packetRender n q) s = .next t ∧ PacketEnded s t n q h 1 zeros)
      ∧ (renderOk d g k = true → (fits (parseK g) && fits (parseK k)) = true → ∃ t r y, exec (.packetRender n q) s = .next t ∧ t.mem = s.mem
        ∧ (t.slice n).render = some r ∧ (t.slice n).launches = (s.slice n).launches ++ [y] ∧ ((t.slice n).queue q).head = none
        ∧ r.queue = q ∧ r.pkt = h.idx ∧ r.x0 = fieldAt d 16 2 ∧ r.y0 = fieldAt d 18 2 ∧ r.width = fieldAt d 20 2 ∧ r.height = fieldAt d 22 2
        ∧ r.geoLaunch = y.id ∧ r.batch = 0 ∧ r.tiles = [] ∧ r.code = 0 ∧ y.kind = .geometry ∧ y.krec = parseK g ∧ y.total = fieldAt h.raw 24 4 ∧ y.args = a
        ∧ (t.slice n).encoder.frames = (s.slice n).encoder.frames ++
            if nbit (byteAt h.raw 28) 0 && (s.slice n).encoder.regs.en then [r.encFrame] else []))
  ∧ (∀ (s : State) n q h, AtHead s n q 2 h → (h.args = none ∨ h.recs = none) →
      ∃ t, exec (.packetRender n q) s = .next t ∧ PacketEnded s t n q h 8 (List.replicate 7 0))
  ∧ (∀ (s : State) n q h, AtHead s n q 3 h → ∃ t, exec (.packetFrame n q) s = .next t ∧ PacketEnded s t n q h 0 ∧ t.mem = s.mem
      ∧ ((t.slice n).queue q).frames = ((s.slice n).queue q).frames ++ [{ seq := s.nextId, deadline := fieldAt h.raw 16 8, frameno := fieldAt h.raw 24 4 }])
  ∧ (∀ (s : State) n q h, AtHead s n q 4 h → ∃ t, exec (.packetWaitv n q) s = .next t ∧ ((t.slice n).queue q).head = some h ∧ t.mem = s.mem
      ∧ ∀ p ∈ ((s.slice n).queue q).pkts, p.idx = h.idx → { p with started := true } ∈ ((t.slice n).queue q).pkts)
  ∧ (∀ (s : State) n q h, AtHead s n q 4 h → h.met = true → ∃ t, exec (.waitvEvaluation n q) s = .next t ∧ PacketEnded s t n q h 0 ∧ t.mem = s.mem)
  ∧ (∀ (s : State) n q h (s1 : State) b, AtHead s n q 4 h → h.met = false → s.escRead n q (fieldAt h.raw 16 8) 8 = (s1, .ok b) → n < s1.slices.length →
      let cond := byteAt h.raw 32
      let cur := leNat b
      let val := fieldAt h.raw 24 8
      let met := (cond = 0 ∧ cur = val) ∨ (cond = 1 ∧ cur ≠ val) ∨ (cond = 2 ∧ val ≤ cur) ∨ (3 ≤ cond ∧ cur < val)
      (met → ∃ t, exec (.waitvEvaluation n q) s = .next t ∧ PacketEnded s1 t n q h 0 ∧ t.mem = s1.mem) ∧ (¬ met → exec (.waitvEvaluation n q) s = .next s1))
  ∧ (∀ (s : State) n q h (s1 : State) e, AtHead s n q 4 h → h.met = false → s.escRead n q (fieldAt h.raw 16 8) 8 = (s1, .error e) →
      exec (.waitvEvaluation n q) s = .next s1)
  ∧ (∀ (s : State) n q h (s1 : State), AtHead s n q 5 h → byteAt h.raw 32 = 0 →
      s.escWrite n q (fieldAt h.raw 16 8) (leBytes 8 (fieldAt h.raw 24 8)) = (s1, .ok ()) → n < s1.slices.length →
      ∃ t, exec (.packetSigv n q) s = .next t ∧ PacketEnded s1 t n q h 0 ∧ t.mem = s1.mem)
  ∧ (∀ (s : State) n q h (s1 s2 : State) b, AtHead s n q 5 h → byteAt h.raw 32 ≠ 0 → s.escRead n q (fieldAt h.raw 16 8) 8 = (s1, .ok b) →
      s1.escWrite n q (fieldAt h.raw 16 8) (leBytes 8 ((leNat b + fieldAt h.raw 24 8) % 2 ^ 64)) = (s2, .ok ()) → n < s2.slices.length →
      ∃ t, exec (.packetSigv n q) s = .next t ∧ PacketEnded s2 t n q h 0 ∧ t.mem = s2.mem)
  ∧ (∀ (s : State) n q h (s1 : State) e, AtHead s n q 5 h → byteAt h.raw 32 = 0 →
      s.escWrite n q (fieldAt h.raw 16 8) (leBytes 8 (fieldAt h.raw 24 8)) = (s1, .error e) → n < s1.slices.length →
      (e = .wait → exec (.packetSigv n q) s = .next s1)
      ∧ (e ≠ .wait → ∃ t st, exec (.packetSigv n q) s = .next t ∧ PacketEnded s1 t n q h st ∧ t.mem = s1.mem))
  ∧ (∀ (s : State) n q h, AtHead s n q 6 h → ∃ t, exec (.packetNode n q) s = .next t ∧ PacketEnded s t n q h 0 ∧ t.mem = s.mem
      ∧ kget (t.slice n).nodes (byteAt h.raw 3) = some (parseNode (h.raw.drop 16))
      ∧ ∀ k, k ≠ byteAt h.raw 3 → kget (t.slice n).nodes k = kget (s.slice n).nodes k)
  ∧ (∀ (s : State) n q h, AtHead s n q 7 h → ∃ t, exec (.packetTaskring n q) s = .next t ∧ PacketEnded s t n q h 0 ∧ t.mem = s.mem
      ∧ (t.slice n).ring = some { base := fieldAt h.raw 16 8, slots := 2 ^ byteAt h.raw 24, spill := fieldAt h.raw 32 8, nspill := fieldAt h.raw 40 2 })
  ∧ (∀ (y : Queue) idx, (y.drop idx).pkts = y.pkts.filter (·.idx != idx))
  ∧ (∀ (s : State) n q idx p, ((s.slice n).queue q).pkts.find? (fun p => p.idx == idx && p.status.isSome) = some p →
      ((p.cmpl = false ∨ p.caddr % 64 ≠ 0) → exec (.packetCompletion n q idx) s = .next (s.modSlice n fun x => x.modQueue q (·.drop idx)))
      ∧ (p.cmpl = true → p.caddr % 64 = 0 → ∀ (s1 : State) r, s.escWrite n q p.caddr (p.record q s.dtime) = (s1, r) →
          (r = .error .wait → exec (.packetCompletion n q idx) s = .next s1)
          ∧ (r ≠ .error .wait → ∃ t v, exec (.packetCompletion n q idx) s = .next t ∧ t.mem = s1.mem ∧ 2 ≤ v ∧ v < 64
            ∧ t.slices = (s1.modSlice n fun x => x.modQueue q (·.drop idx)).slices ∧ t.out = s1.out ++ [.msix (t.slice n).fn v])))

/-- With one queue waiting, of no best-effort class, its next team is placed where it fits: on the CU of 11 R290, a saved one restored, a
co-launched set whole (20 R414; 11 R291); where pre-emption makes room, the teams that it names are saved for it (20 R415); else the refusal is
counted (20 R417). Checked again, a co-launch is placed whole, or ends with 1 or 2 (11 R291). A frame unfinished at its deadline is missed once and
posts an event (20 R416). When a node's or a regroup key's oldest record has waited its timer, the records up to one load are taken (11 R301,
R305); a pool that is short launches every node in ascending number and every key, up to one load each (11 R301); the load that comes next
and fits starts its team, and one that fits no empty CU is logged with code 1 (11 R302; 01 R10; log entry 53). -/
def Obligations.PlacementSteps : Prop :=
  kicksAndPackets
  ∧ ((∀ (s : State) n q c, let x := s.slice n
      x.st = 1 → x.drain < 2 → x.leaving = false → (x.savedRender = none ∨ x.render ≠ none) → x.waitingQueues = [q] → (x.queue q).be = false →
      x.cand q = some c →
      (∀ t, s.placeCand n c [] = some t → exec (.teamPlacement n) s = .next t)
      ∧ (s.placeCand n c [] = none → ∀ ids, s.evicts n q c [] = some ids →
          exec (.teamPlacement n) s = .next (((s.evict n ids).placeCand n c []).getD (s.evict n ids)))
      ∧ (s.placeCand n c [] = none → s.evicts n q c [] = none → n < s.slices.length → ∃ t, exec (.teamPlacement n) s = .next t ∧ t.mem = s.mem
          ∧ (t.slice n).teams = x.teams ∧ (t.slice n).counters = lmod (· + 1) x.counters 3))
  ∧ (∀ (s : State) n y, s.placeCand n (.fresh y) [] = (pickCu (s.rooms n y.need []) y.need).map fun p => s.placeNext n y.id p.1 p.2.1)
  ∧ (∀ (s : State) n tm, s.placeCand n (.saved tm) [] = (pickCu (s.rooms n tm.need []) tm.need).map fun p => s.restoreTeam n tm p.1 p.2.1)
  ∧ (∀ (s t : State) n y, s.placeCand n (.co y) [] = some t →
      ∃ l : List (Nat × List Nat), l.length = y.total - y.placed ∧ t = l.foldl (fun s p => s.placeNext n y.id p.1 p.2) s)
  ∧ (∀ (s : State) n q y, let x := s.slice n
      x.st = 1 → x.drain < 2 → x.leaving = false → x.waitingQueues = [q] → x.cand q = some (.co y) →
      (y.need.fitsEmpty (s.cuCount n) = true → y.coFits (s.cuCount n) = true → (x.queue q).be = false → ∀ t, s.placeCand n (.co y) [] = some t →
        exec (.coLaunchCheck n) s = .next t)
      ∧ (∀ code, (y.need.fitsEmpty (s.cuCount n) = false ∧ code = 1 ∨ y.need.fitsEmpty (s.cuCount n) = true ∧ y.coFits (s.cuCount n) = false ∧ code = 2) →
          exec (.coLaunchCheck n) s = .next (s.modSlice n fun x => (x.modLaunch y.id fun (z : Launch) => { (z.fail code) with total := z.placed }).endLaunches)))
  ∧ (∀ (s : State) n q f, let x := s.slice n
      let y := x.queue q
      n < s.slices.length → y.frames.find? (fun f => y.frameBusy f && !f.missed && f.deadline ≤ s.dtime) = some f →
      ∃ t, exec (.deadlineMiss n q) s = .next t ∧ ((t.slice n).queue q).miss = y.miss + 1 ∧ t.mem = s.mem
        ∧ ((t.slice n).queue q).frames = y.frames.map (fun g => if g.seq = f.seq then { g with missed := true } else g)
        ∧ t.out = s.out ++ [.msix x.fn 0]
        ∧ kget t.events x.fn = some ((kget s.events x.fn).getD [] ++ [{ kind := 0, arg := q, frameno := f.frameno, dtime := s.dtime }]))
  ∧ (∀ (s : State) n k d r rs, n < s.slices.length → kget (s.slice n).nodes k = some d → (kget (s.slice n).nodeRecs k).getD [] = r :: rs →
      r.time + d.timer ≤ s.dtime → ∃ t, exec (.collatorTimerExpiry n k) s = .next t ∧ t.mem = s.mem
        ∧ (t.slice n).loads = (s.slice n).loads ++ [.node k ((r :: rs).take (d.teamw * d.gsize))]
        ∧ ((kget (t.slice n).nodeRecs k = some ((r :: rs).drop (d.teamw * d.gsize))) ∨ (r :: rs).length ≤ d.teamw * d.gsize))
  ∧ (∀ (s : State) n j k r rs, n < s.slices.length → (s.slice n).regroup[j]? = some (k, r :: rs) → kget (s.slice n).regroup k = some (r :: rs) →
      r.time + (s.slice n).rgtim ≤ s.dtime → ∃ t, exec (.regroupTimerExpiry n j) s = .next t ∧ t.mem = s.mem
        ∧ (t.slice n).loads = (s.slice n).loads ++ [.regroup k ((r :: rs).take 32)]
        ∧ (kget (t.slice n).regroup k = some ((r :: rs).drop 32) ∨ (r :: rs).length ≤ 32))
  ∧ (∀ (s : State) n, (s.slice n).poolShort = true → n < s.slices.length → ∃ t, exec (.poolFullLaunch n) s = .next t ∧ t.mem = s.mem
      ∧ t.slice n = ((isort (· ≤ ·) ((s.slice n).nodeRecs.map (·.1))).map BinKey.node ++ (s.slice n).regroup.map (fun e => BinKey.regroup e.1)).foldl
          (fun x k => x.takeLoad (x.loadSize k) k) (s.slice n))
  ∧ (∀ (x : Slice) k r rs m, (kget x.nodeRecs k).getD [] = r :: rs → (x.takeLoad m (.node k)).loads = x.loads ++ [.node k ((r :: rs).take m)])
  ∧ (∀ (s : State) n c, let x := s.slice n
      let y := x.loadLaunch s.nextId c
      n < s.slices.length → x.loads = [c] → x.st = 1 → x.drain < 2 → x.leaving = false →
      (y.need.fitsEmpty (s.cuCount n) = true → x.waitingQueues = [y.queue] → (x.queue y.queue).be = false →
        x.cand y.queue = some (.load 0 (x.loadLaunch 0 c)) → ∀ cu seqs rm, pickCu (s.rooms n y.need []) y.need = some (cu, seqs, rm) →
        ∃ t, exec (.collatorLaunchPlaced n) s = .next t ∧ (t.slice n).loads = [] ∧ y ∈ (t.slice n).launches
          ∧ ∃ tm ∈ (t.slice n).teams, tm.launch = y.id ∧ tm.cu = cu ∧ tm.warps.length = (x.loadWarps y c).length)
      ∧ (y.need.fitsEmpty (s.cuCount n) = false → ∃ t, exec (.collatorLaunchPlaced n) s = .next t ∧ t.mem = s.mem ∧ (t.slice n).loads = []
          ∧ ({ kind := errLaunch, detail := y.queue + 256 } : ErrRec) ∈ (t.slice n).errLog)))

/-! ### Steps of other agents: rendering and the encoder lane -/

/-- The render of a slice stands with a tile in a state. -/
abbrev TileAt (s : State) (n tile : Nat) (st : TileSt) (r : Render) (u : RTile) : Prop :=
  (s.slice n).render = some r ∧ r.tiles.find? (fun v => v.num == tile && v.st == st) = some u

/-- The binning unit frees the slot whose primitives it has binned, and ends the last batch when every geometry team has ended (13 R317, R318); a partial
render that is over empties bin memory and counts (13 R318). A tile loads the surface, or its saved entries and pixels, resolves its samples, is shaded by one
team for each block with a set entry, and is written to the surface or saved (13 R322-R325). A fault or poison in bin memory ends the render with 5
or 6 (13 R324), and the tiles of a render that is dead end it (13 R326). A written tile of an encoded frame is announced (13 R338); a pre-empted render
is saved with its team (13 R326). -/
abbrev renderingSteps : Prop :=
  (∀ (s : State) n r cu k i (s1 : State), (s.slice n).render = some r → (s.slice n).renderDead r = false → r.partialRun = false → r.lastBatch = false →
      (r.reading <|> (s.slice n).nextSlot) = some (cu, k, i) →
      s.binSlot n ((s.slice n).payload cu k) (maxOf (((s.slice n).payload cu k).prims.map (·.1))) 257 i = (s1, .done) → n < s1.slices.length →
      ∃ t, exec (.binningSlotRead n) s = .next t ∧ ((t.slice n).payload cu k) = ((s.slice n).payload cu k).emptied ∧ t.mem = s1.mem)
  ∧ (∀ (s : State) n r, (s.slice n).render = some r → (s.slice n).renderDead r = false → r.partialRun = false → r.lastBatch = false →
      r.reading = none → (s.slice n).nextSlot = none → (s.slice n).geometryOver r = true →
      exec (.binningSlotRead n) s = .next (s.putRender n (r.endBatch true)))
  ∧ (∀ (s : State) n r, (s.slice n).render = some r → r.partialRun = true → r.tiles.all (fun t => !t.due && !t.active) = true → n < s.slices.length →
      ∃ t, exec (.partialRender n) s = .next t ∧ t.mem = s.mem ∧ (t.slice n).render =
        some { r with partialRun := false, prims := [], binUsed := 0, batch := r.batch + 1, counters := lmod (· + 1) r.counters 2 })
  ∧ (∀ (s : State) n tile r u (s1 : State) b, TileAt s n tile .loading r u → (s.slice n).renderDead r = false → u.before = true →
      s.rangeRead (r.agent n) (r.tileArea + 81920 * tile) 81920 = (s1, .ok b) →
      exec (.tileLoadComplete n tile) s = .next (s1.putRender n (r.setTile
        { u with st := .resolving, ids := (List.range 4096).map (fun k => idOf b k), px := wordsOfBytes (b.drop 65536) 4096 })))
  ∧ (∀ (s : State) n tile r u (s1 : State) bs, TileAt s n tile .loading r u → (s.slice n).renderDead r = false → u.before = false →
      s.loadBlocks (r.agent n) r.surface r.meta_ r.compressed r.clear (r.surfBlock tile) (r.blocks tile) = (s1, some (bs, 0, 0)) →
      ∃ ents, exec (.tileLoadComplete n tile) s = .next (s1.putRender n (Render.setTile { r with counters := lmod (· + 0) r.counters 3 }
          { u with st := .resolving, ids := ents, px := tilePixels bs }))
        ∧ ents = List.replicate 4096 { depth := r.clearDepth, order := 0xFFFFFFFF, ref := 0xFFFFFFFF })
  ∧ (∀ (s : State) n tile r u (s0 : State), TileAt s n tile .resolving r u → (s.slice n).renderDead r = false →
      s.binRead (r.agent n) (r.binUsed / 4096 + 2) r.binBase r.binUsed = (s0, .ok ()) →
      let ids := r.resolveTile u
      let bs := (r.blocks tile).filter fun b => (List.range 64).any fun m => ((ids[64 * (blockPixel b m).2 + (blockPixel b m).1]?).map (·.set)).getD false
      (bs = [] → exec (.tileResolveComplete n tile) s = .next (s0.putRender n (r.setTile { u with st := .shading, ids := ids })))
      ∧ (bs ≠ [] → ∃ (s1 : State) (y : Launch), exec (.tileResolveComplete n tile) s = .next (s1.putRender n (r.setTile { u with st := .shading, ids := ids }))
          ∧ s1.slices = (s0.modSlice n fun x => { x with launches := x.launches ++ [y] }).slices ∧ y.kind = .shading ∧ y.krec = r.shade
          ∧ y.queue = r.queue ∧ y.total = bs.length ∧ y.args = r.args ∧ y.blocks = bs.map fun b => (tile, b)))
  ∧ (∀ (s : State) n tile r u (s0 : State) e, TileAt s n tile .resolving r u → (s.slice n).renderDead r = false →
      s.binRead (r.agent n) (r.binUsed / 4096 + 2) r.binBase r.binUsed = (s0, .error e) →
      (e = .wait → exec (.tileResolveComplete n tile) s = .next s0)
      ∧ (e ≠ .wait → exec (.tileResolveComplete n tile) s = .next (s0.putRender n
          { (if r.code = 0 then { r with code := if e = .poison then 6 else 5 } else r) with ended := true })))
  ∧ (∀ (s : State) n tile r u, (s.slice n).renderDead r = true →
      (TileAt s n tile .loading r u → exec (.tileLoadComplete n tile) s = .next (s.endRender n))
      ∧ (TileAt s n tile .resolving r u → exec (.tileResolveComplete n tile) s = .next (s.endRender n))
      ∧ (TileAt s n tile .shading r u → exec (.tileShadingComplete n tile) s = .next (s.endRender n))
      ∧ (TileAt s n tile .writing r u → exec (.tileWriteOut n tile) s = .next (s.endRender n)))
  ∧ (∀ (s : State) n tile r u, TileAt s n tile .shading r u → (s.slice n).renderDead r = false →
      (∀ y ∈ (s.slice n).launches, y.kind = .shading → ∀ b ∈ y.blocks, b.1 ≠ tile) →
      exec (.tileShadingComplete n tile) s = .next (s.putRender n (r.setTile { u with st := .writing })))
  ∧ (∀ (s : State) n tile r u (s1 : State) r1, TileAt s n tile .writing r u → (s.slice n).renderDead r = false → r.lastBatch = true →
      s.writeBlocks r (r.agent n) tile u.px (r.blocks tile) = (s1, some r1) →
      exec (.tileWriteOut n tile) s = .next (s1.putRender n (r1.setTile { u with st := .done, due := false, ids := [], px := [] })))
  ∧ (∀ (s : State) n tile r u (s1 : State), TileAt s n tile .writing r u → (s.slice n).renderDead r = false → r.lastBatch = false →
      s.rangeWrite (r.agent n) (r.tileArea + 81920 * tile) ((u.ids.map idBytes).flatten ++ (u.px.map fun w => leBytes 4 w.toNat).flatten) = (s1, .ok ()) →
      exec (.tileWriteOut n tile) s = .next (s1.putRender n (r.setTile { u with st := .idle, due := false, before := true, ids := [], px := [] })))
  ∧ (∀ (s : State) n tile k f, n < s.slices.length → (s.slice n).encoder.frames.findIdx? ((s.slice n).announceable · tile) = some k →
      (s.slice n).encoder.frames[k]? = some f → ∃ t, exec (.tileAnnounce n tile) s = .next t ∧ t.mem = s.mem
        ∧ (t.slice n).encoder.frames[k]? = some { f with announced := f.announced ++ [tile] })
  ∧ (∀ (s : State) n r, (s.slice n).render = some r → r.tiles.all (fun t => t.st == .idle || t.st == .shading || t.st == .done) = true →
      (s.slice n).teams.all (fun t => !(t.queue == r.queue && t.kind != .plain)) = true → n < s.slices.length →
      ∃ t, exec (.renderPreemption n) s = .next t ∧ (t.slice n).render = none ∧ (t.slice n).savedRender = some r ∧ t.mem = s.mem)
  ∧ (∀ (s : State) n r tm, (s.slice n).render = some r → r.tiles.all (fun t => t.st == .idle || t.st == .shading || t.st == .done) = true →
      (s.slice n).teams.filter (fun t => t.queue == r.queue && t.kind != .plain) = [tm] → s.stoppable n tm = true →
      exec (.renderPreemption n) s = .next ((s.saveTeam n tm.id false).modSlice n fun x => { x with render := none, savedRender := some r }))

/-- The encoder lane takes the announced tiles of its oldest unfinished frame in order, and copies of the last frame's for a render killed before its end
(13 R338; 20 R427), each in the expert setting with its byte of the quantiser map (20 R426). An access unit within its budget enters the ring as a
record, once it does not pass RP, else the stall is counted; WP moves past it when no marker of its stores is awaited (20 R427, R428; 09 R284);
one whose write fails is lost, and WP stays, and one beyond the budget or whose KEY is not as KINT has it is not made (log 79). A record goes to its
flow in packets, or is dropped and counted where the flow is not valid (21 R438). With EN = 1 only EN of ENCCTL changes; EN takes 1 only where the sizes allow (20 R426); RP takes a write (20 R428). -/
def Obligations.EncoderSteps : Prop :=
  renderingSteps
  ∧ ((∀ (s : State) n f fs (s1 s2 : State) ls c k q, let e := (s.slice n).encoder
      e.frames = f :: fs → f.taken.length < f.ntiles → f.taken.length ∈ f.announced →
      let tl := f.taken.length
      let ag : Agent := { slice := n, team := noTeam, vf := f.vf, cu := 0xFFFF, path := .e, id := 2 ^ 42 + n }
      let bs := (List.range 64).filter fun b =>
        64 * (tl % f.tileCols) + b % 8 * 8 < e.regs.w && 64 * (tl / f.tileCols) + b / 8 * 8 < e.regs.h
      s.loadBlocks ag f.surface f.meta_ f.compressed f.clear (f.block f.surfW tl) bs = (s1, some (ls, c, k)) →
      s1.tileQp ag e.regs tl = (s2, some q) → n < s2.slices.length →
      (s2.slice n).encoder = e → ∃ t, exec (.encoderTileTake n) s = .next t ∧ t.mem = s2.mem
        ∧ (t.slice n).encoder =
          { e with frames := { f with taken := f.taken ++ [(tl, tileYuv (e.regs.codec == 2) (tilePixels ls))], qps := f.qps ++ q } :: fs })
  ∧ (∀ (s : State) n f fs (s1 : State) q, let e := (s.slice n).encoder
      let tl := f.taken.length
      e.frames = f :: fs → tl < f.ntiles → tl ∉ f.announced → f.closed = true → f.damaged = true →
      s.tileQp { slice := n, team := noTeam, vf := f.vf, cu := 0xFFFF, path := .e, id := 2 ^ 42 + n } e.regs tl = (s1, some q) → n < s1.slices.length →
      (s1.slice n).encoder = e → ∃ t, exec (.encoderTileTake n) s = .next t ∧ t.mem = s1.mem
        ∧ (t.slice n).encoder = { e with frames := { f with taken := f.taken ++ [(tl, (kget e.last tl).getD [])], qps := f.qps ++ q } :: fs })
  ∧ (∀ (s : State) (ag : Agent) (r : EncRegs) tl, (r.exp = false → s.tileQp ag r tl = (s, some []))
      ∧ (r.exp = true → ∀ (s1 : State) q, s.engRead ag (r.qpm + BitVec.ofNat 64 tl) 1 = (s1, .ok q) → s.tileQp ag r tl = (s1, some [q])))
  ∧ (∀ p : Word, let r : Int := (p.toNat % 256 : Nat)
      let g : Int := (p.toNat / 256 % 256 : Nat)
      let b : Int := (p.toNat / 65536 % 256 : Nat)
      toYuv p = (16 + (47 * r + 157 * g + 16 * b + 128) / 256, 128 + (112 * b - 26 * r - 86 * g + 128) / 256, 128 + (112 * r - 102 * g - 10 * b + 128) / 256))
  ∧ (∀ (s : State) n f fs payload (s1 : State) r, let e := (s.slice n).encoder
      let ag := (s.slice n).encAgent n
      let urec := unitRecord payload f.frameno e.keyNext f.damaged
      e.frames = f :: fs → f.ntiles ≤ f.taken.length → (e.regs.exp = true ∨ 8 * payload.length ≤ e.budget) → f.inRing = none →
      (e.regs.wp - e.regs.rp).toNat + urec.length ≤ e.regs.ringBytes →
      s.ringWrite ag e.regs.rbase e.regs.ringBytes (urec.length / 64) e.regs.wp.toNat urec = (s1, r) →
      n < s1.slices.length → (s1.slice n).encoder = e →
      (r = .ok () → s1.engMarkers.contains (n, .e, ag.id) = false →
        ∃ t, exec (.accessUnitWrite n payload e.keyNext) s = .next t ∧ t.mem = s1.mem ∧ (t.slice n).encoder = e.recorded urec.length payload.length)
      ∧ (r = .ok () → s1.engMarkers.contains (n, .e, ag.id) = true →
        ∃ t, exec (.accessUnitWrite n payload e.keyNext) s = .next t ∧ t.mem = s1.mem
          ∧ (t.slice n).encoder = { e with frames := { f with inRing := some (urec.length, payload.length) } :: fs })
      ∧ (r = .error .wait → exec (.accessUnitWrite n payload e.keyNext) s = .next s1)
      ∧ (∀ x, r = .error x → x ≠ .wait → ∃ t, exec (.accessUnitWrite n payload e.keyNext) s = .next t ∧ t.mem = s1.mem ∧ (t.slice n).encoder.frames = fs
          ∧ (t.slice n).encoder.regs = e.regs ∧ (t.slice n).errLog = (s1.slice n).errLog ++ [{ kind := errUnit, detail := f.frameno }]))
  ∧ (∀ (s : State) n f fs payload key p, let e := (s.slice n).encoder
      e.frames = f :: fs → f.ntiles ≤ f.taken.length → f.inRing = some p → s.engMarkers.contains (n, .e, ((s.slice n).encAgent n).id) = false →
      n < s.slices.length → ∃ t, exec (.accessUnitWrite n payload key) s = .next t ∧ t.mem = s.mem ∧ (t.slice n).encoder = e.recorded p.1 p.2)
  ∧ (∀ (e : Encoder) f fs len k, e.frames = f :: fs → (e.recorded len k).frames = fs ∧ (e.recorded len k).last = f.taken
      ∧ (e.recorded len k).regs = { e.regs with wp := e.regs.wp + BitVec.ofNat 32 len }
      ∧ (e.recorded len k).toSend = if e.regs.strm then e.toSend ++ [(e.regs.wp.toNat, len)] else e.toSend)
  ∧ (∀ (s : State) n f fs payload, let e := (s.slice n).encoder
      e.frames = f :: fs → f.ntiles ≤ f.taken.length → n < s.slices.length → (e.regs.exp = true ∨ 8 * payload.length ≤ e.budget) → f.inRing = none →
      e.regs.ringBytes < (e.regs.wp - e.regs.rp).toNat + (unitRecord payload f.frameno e.keyNext f.damaged).length → f.stalled = false →
      ∃ t, exec (.accessUnitWrite n payload e.keyNext) s = .next t ∧ t.mem = s.mem ∧ (t.slice n).encoder.stall = e.stall + 1
        ∧ (t.slice n).encoder.frames = { f with stalled := true } :: fs ∧ (t.slice n).encoder.regs = e.regs)
  ∧ (∀ (s : State) n f fs payload key, let e := (s.slice n).encoder
      e.frames = f :: fs → f.inRing = none → (key ≠ e.keyNext ∨ (e.regs.exp = false ∧ e.budget < 8 * payload.length)) →
      exec (.accessUnitWrite n payload key) s = .next s)
  ∧ (∀ payload frameno key damaged, (unitRecord payload frameno key damaged).length % 64 = 0
      ∧ (unitRecord payload frameno key damaged).take (16 + payload.length) =
          leBytes 4 payload.length ++ leBytes 4 frameno ++ leBytes 8 ((if key then 1 else 0) + (if damaged then 2 else 0)) ++ payload)
  ∧ (∀ (s : State) n off len rest f (s1 : State) b, let e := (s.slice n).encoder
      e.toSend = (off, len) :: rest → kget s.flows e.regs.flow = some f → f.valid = true →
      s.ringRead ((s.slice n).encAgent n) e.regs.rbase e.regs.ringBytes (len / 64) off = (s1, .ok b) → n < s1.slices.length → (s1.slice n).encoder = e →
      let data := (b.drop 16).take (fieldAt b 0 4)
      ∃ t, exec (.accessUnitSend n) s = .next t ∧ t.mem = s1.mem
        ∧ t.out = s1.out ++ [.accessUnit e.regs.flow (cutPackets f.limit data.length data) (s.dtime * 9 / 100000)]
        ∧ (t.slice n).encoder.toSend = rest ∧ (t.slice n).encoder.regs.rp = e.regs.rp + BitVec.ofNat 32 len)
  ∧ (∀ (s : State) n off len rest, let e := (s.slice n).encoder
      e.toSend = (off, len) :: rest → n < s.slices.length → (∀ f, kget s.flows e.regs.flow = some f → f.valid = false) →
      ∃ t, exec (.accessUnitSend n) s = .next t ∧ t.mem = s.mem ∧ t.out = s.out ∧ (t.slice n).encoder.toSend = rest
        ∧ (t.slice n).encoder.dropped = e.dropped + 1 ∧ (t.slice n).encoder.regs.rp = e.regs.rp + BitVec.ofNat 32 len)
  ∧ (∀ (s : State) n (v : Word), n < s.slices.length → let r := (s.slice n).encoder.regs
      ∃ t, exec (.encctlEnWrite n v) s = .next t ∧ t.mem = s.mem
        ∧ (r.en = true → (t.slice n).encoder.regs = { r with en := v.getLsbD 0 && r.mayEnable })
        ∧ (r.en = false → let r1 := { r with exp := v.getLsbD 1, codec := bits v.toNat 2 2, strm := v.getLsbD 4, flow := bits v.toNat 16 8 }
            (t.slice n).encoder.regs = { r1 with en := v.getLsbD 0 && r1.mayEnable }))
  ∧ (∀ (s : State) n (v : Word), n < s.slices.length → ∃ t, exec (.encrpWrite n v) s = .next t ∧ t.mem = s.mem
      ∧ (t.slice n).encoder.regs = { (s.slice n).encoder.regs with rp := v } ∧ (t.slice n).encoder.frames = (s.slice n).encoder.frames))

/-! ### Steps of other agents: register windows and leases -/

/-- Register writes: a group opens, closes, or is cleared when its last member has left (11 R295, R296); ICINV empties the instruction caches (20 R405; 01 R43); a queue
descriptor takes EN, BE, PRIO, WEIGHT and MISS, and BASE and LOG2N while EN = 0 (20 R407); an access-control entry takes its defined bits (11 R310); and
the other registers take their fields (20 R405, R417, R426; 19 R398). -/
abbrev registerWindows : Prop :=
  (∀ (s : State) n g b, n < s.slices.length → g < 256 → ∃ t, exec (.groupOpenWrite n g b) s = .next t ∧ t.mem = s.mem
      ∧ let e := (s.slice n).group g
        (t.slice n).group g = (if b then (if e.open_ then { e with closing := false } else { open_ := true })
          else if e.members = [] then {} else { e with closing := true })
        ∧ ∀ k, k ≠ g → (t.slice n).group k = (s.slice n).group k)
  ∧ (∀ (s : State) n, n < s.slices.length → ∃ t, exec (.icinvWrite n true) s = .next t ∧ (t.slice n).icache = [] ∧ t.mem = s.mem)
  ∧ (∀ (s : State) n q (v : BitVec 512), n < s.slices.length → q < 64 → ∃ t, exec (.queueDescriptorWrite n q v) s = .next t ∧ t.mem = s.mem
      ∧ let y := (s.slice n).queue q
        let z := (t.slice n).queue q
        z.en = v.getLsbD 0 ∧ z.be = v.getLsbD 1 ∧ z.prio = bits v.toNat 2 3 ∧ z.weight = max 1 (bits v.toNat 8 8)
        ∧ z.miss = BitVec.ofNat 32 (bits v.toNat 288 32) ∧ z.rdidx = y.rdidx ∧ z.wridx = y.wridx
        ∧ (y.en = true → z.base = y.base ∧ z.log2n = y.log2n)
        ∧ (y.en = false → z.base = bits v.toNat 76 52 * 4096 ∧ z.log2n = if bits v.toNat 16 4 < 4 then 4 else bits v.toNat 16 4))
  ∧ (∀ (s : State) n k (v : BitVec 128), n < s.slices.length → k < 256 → ∃ t, exec (.accessControlWrite n k v) s = .next t ∧ t.mem = s.mem
      ∧ kget (t.slice n).acl k = some (v &&& aclMask) ∧ ∀ j, j ≠ k → kget (t.slice n).acl j = kget (s.slice n).acl j)
  ∧ (∀ (s : State) n (v : DWord), n < s.slices.length →
      (∃ t, exec (.registerWrite n .slctl v) s = .next t ∧ (t.slice n).errpol = v.getLsbD 0 ∧ (t.slice n).scrub = v.getLsbD 1)
      ∧ (∃ t, exec (.registerWrite n .wdog v) s = .next t ∧ (t.slice n).wdog = max 1 (v.toNat % 2 ^ 32))
      ∧ (∃ t, exec (.registerWrite n .hyst v) s = .next t ∧ (t.slice n).hyst = min 10000000 (v.toNat % 2 ^ 32))
      ∧ (∃ t, exec (.registerWrite n .rgtim v) s = .next t ∧ (t.slice n).rgtim = v.toNat % 2 ^ 32)
      ∧ (∀ k, k < (s.slice n).counters.length → ∃ t, exec (.registerWrite n (.counter k) v) s = .next t ∧ (t.slice n).counters[k]? = some (loWord v))
      ∧ (∀ q, q < 64 → ∃ t, exec (.registerWrite n (.queueMiss q) v) s = .next t ∧ ((t.slice n).queue q).miss = loWord v)
      ∧ (∀ f, ∃ t b, exec (.registerWrite n (.xlroot f) v) s = .next t ∧ kget t.xl f = some b ∧ b.root = bits v.toNat 12 40 * 4096)
      ∧ (∀ f, ∃ t b, exec (.registerWrite n (.xlctl f) v) s = .next t ∧ kget t.xl f = some b ∧ b.fmode = v.getLsbD 0)
      ∧ let r := (s.slice n).encoder.regs
        ∀ reg r1, ((reg = .encctl ∧ r1 = { r with exp := v.getLsbD 1, codec := bits v.toNat 2 2, strm := v.getLsbD 4, flow := bits v.toNat 16 8 })
          ∨ (reg = .encsize ∧ r1 = { r with w := bits v.toNat 0 16, h := bits v.toNat 16 16 })
          ∨ (reg = .encfps ∧ r1 = { r with fps := bits v.toNat 0 9 })
          ∨ (reg = .encbr ∧ r1 = { r with kbps := loWord v }) ∨ (reg = .enckint ∧ r1 = { r with kint := bits v.toNat 0 16 })
          ∨ (reg = .encqpm ∧ r1 = { r with qpm := v }) ∨ (reg = .encslc ∧ r1 = { r with rows := bits v.toNat 0 8 })
          ∨ (reg = .encring ∧ r1 = { r with rbase := v.toNat / 4096 * 4096 }) ∨ (reg = .encrsz ∧ r1 = { r with log2b := bits v.toNat 0 5 })) →
        ∃ t, exec (.registerWrite n reg v) s = .next t ∧ t.mem = s.mem ∧ (t.slice n).encoder.regs = if r.en then r else r1)

/-- A GO write grants a lease, or rejects it with STATE 4 and CAUSE 6 (18 R371); engines pass as they come free, and the last one makes the lease active (18
R371, R372); a reclaim, an empty meter and a past expiry charge its tasks and begin its revocation with the cause that comes first (18 R374,
R375); a field takes a write in STATE 0 and 4 (18 R370, R371); a revocation without tasks returns the engines and ends in STATE 4 (18 R375). -/
def Obligations.Leases : Prop :=
  registerWindows
  ∧ ((∀ (s : State) k, k < 32 → (s.lease k).live = false → s.leaseBad k (s.lease k) = true →
      exec (.leaseGo k) s = .next (s.setLease k { s.lease k with st := 4, cause := 6 }))
  ∧ (∀ (s : State) k, k < 32 → let l := s.lease k
      l.live = false → s.leaseBad k l = false → ∃ t, exec (.leaseGo k) s = .next t ∧ t.mem = s.mem
        ∧ t.lease k = { l with budget := l.meter, cause := 0, st := 1, passed := s.idleEngs l }
        ∧ ∀ e, e < 6 → l.lender < s.slices.length → (t.engine l.lender e).lent = if l.engs.getLsbD e then some k else (s.engine l.lender e).lent)
  ∧ (∀ (s : State) k l, s.leaseBad k l = true ↔ (l.lender = l.borrower ∨ l.engs = 0 ∨ l.meter = 0 ∨ l.expiry ≤ s.dtime
      ∨ s.inService l.lender = false ∨ s.inService l.borrower = false
      ∨ ∃ o ∈ s.leases, o.1 ≠ k ∧ o.2.live = true ∧ o.2.lender = l.lender ∧ o.2.engs &&& l.engs ≠ 0))
  ∧ (∀ (s : State) k, let l := s.lease k
      l.st = 1 → exec (.leaseEnginesPassed k) s = .next (s.setLease k
        { l with passed := l.passed ||| s.idleEngs l, st := if l.passed ||| s.idleEngs l = l.engs then 2 else 1 }))
  ∧ (∀ (s : State) k, let c := s.chargeLease k
      let l := c.lease k
      (l.st = 1 ∨ l.st = 2) →
      exec (.leaseReclaim k) s = .next (c.setLease k { l with st := 3, cause := c.firstCause l 3 })
      ∧ ((s.lease k).expiry ≤ s.dtime → exec (.leaseExpiry k) s = .next (c.setLease k { l with st := 3, cause := c.firstCause l 2 }))
      ∧ ((s.lease k).st = 2 → (s.lease k).meter = 0 → exec (.meterEmpty k) s = .next (c.setLease k { l with st := 3, cause := c.firstCause l 1 }))
      ∧ ((s.lease k).meter ≠ 0 → l.meter ≠ 0 → exec (.meterEmpty k) s = .next c)
      ∧ ((s.lease k).meter ≠ 0 → l.st = 2 → l.meter = 0 → exec (.meterEmpty k) s = .next (c.revoke k 1)))
  ∧ (∀ (s : State) k, (s.slice (s.lease k).borrower).leaseTasks k = [] → s.chargeLease k = s)
  ∧ (∀ (s : State) (l : Lease) c, let b := s.slice l.borrower
      (b.errDue ≠ [] → s.firstCause l c = 4) ∧ (b.errDue = [] → c ≠ 4 → b.resetDue = true → s.firstCause l c = 5)
      ∧ (b.errDue = [] → b.resetDue = false → (s.slice l.lender).resetDue = false → (l.st ≠ 2 ∨ l.meter ≠ 0) → s.dtime < l.expiry →
          c ∈ [1, 2, 3, 4, 5] → s.firstCause l c = c))
  ∧ (∀ (s : State) k (v : DWord), k < 32 → let l := s.lease k
      (l.live = true → ∀ f, exec (.leaseFieldWrite k f v) s = .next (s.setLease k l))
      ∧ (l.live = false →
          exec (.leaseFieldWrite k .lender v) s = .next (s.setLease k { l with lender := v.toNat % 16 })
          ∧ exec (.leaseFieldWrite k .borrower v) s = .next (s.setLease k { l with borrower := v.toNat % 16 })
          ∧ exec (.leaseFieldWrite k .engs v) s = .next (s.setLease k { l with engs := v.setWidth 6 })
          ∧ exec (.leaseFieldWrite k .meter v) s = .next (s.setLease k { l with meter := v.toNat })
          ∧ exec (.leaseFieldWrite k .expiry v) s = .next (s.setLease k { l with expiry := v.toNat })))
  ∧ (∀ (s : State) k, let l := s.lease k
      l.st = 3 → (s.slice l.borrower).leaseTasks k = [] → l.lender < s.slices.length →
      ∃ t, exec (.leaseRevocation k) s = .next t ∧ t.mem = s.mem ∧ t.lease k = { l with st := 4, passed := 0 }
        ∧ ∀ e, e < 6 → l.engs.getLsbD e = true → (t.engine l.lender e).lent = none ∧ (l.passed.getLsbD e = true → (t.engine l.lender e).tiles = []))
  ∧ (∀ (s : State) k l j, (s.setLease k l).lease j = if j = k then l else s.lease j))

/-! ### Steps of other agents: errors, resets, fusing, sharing -/

/-- Slice n is a logical slice of one member. -/
abbrev Single (s : State) (n : Nat) : Prop := n < s.slices.length ∧ s.members n = [n] ∧ (s.slice n).lsl = n

/-- A firmware fault asks for a reset; poison or a hang asks for one or, under ERRPOL, is recorded or ends what hangs, with an event (20 R422, R424). A reset clears
the slice once no lease names it, keeps its registers, counters and logs, and ends with the slice in service, freed where its function leaves, or out of service where
the self-test fails (20 R423, R425). -/
def Obligations.ErrorsAndResets : Prop :=
  (∀ (s : State) n, (s.slice n).lsl = n → (s.slice n).st = 1 → n < s.slices.length → (s.leases.map (·.1)).Nodup → ∃ t, exec (.sliceError n .firmware) s = .next t
      ∧ (t.slice n).resetDue = true ∧ t.mem = s.mem ∧ ∀ k l, kget s.leases k = some l → l.borrower ≠ n → kget t.leases k = some l)
  ∧ (∀ (s : State) n a, (s.slice n).lsl = n → (s.slice n).st = 1 → n < s.slices.length → .poison a ∈ (s.slice n).errDue → (s.slice n).faultLog.length < 256 →
      ∃ t, exec (.sliceError n (.poison a)) s = .next t ∧ (t.slice n).faultLog = (s.slice n).faultLog ++ [.error 0 a] ∧ t.mem = s.mem
        ∧ .poison a ∉ (t.slice n).errDue ∧ (t.slice n).resetDue = if (s.slice n).errpol then (s.slice n).resetDue else true)
  ∧ (∀ (s : State) n c from_, (s.slice n).st = 1 → s.stuckFrom n c = some from_ → from_ + 1000000 * max 1 (s.slice n).wdog ≤ s.dtime →
      exec (.hangTimeout n c) s = .next (s.sliceErr n c)
      ∧ ((s.slice n).errpol = true → s.sliceErr n c = ((s.revokeAll 4 (·.borrower == n)).endHang n c).post (s.slice n).fn 1 (errNumber c).2 0)
      ∧ ((s.slice n).errpol = false → n < s.slices.length → (s.slice n).faultLog.length < 256 →
          ((s.sliceErr n c).slice n).resetDue = true
          ∧ ((s.sliceErr n c).slice n).faultLog = (s.slice n).faultLog ++ [.error (errNumber c).1 (errNumber c).2]))
  ∧ (∀ (s : State) n, let m := s.logicalOf n
      m < s.slices.length → (s.slice m).st ≠ 3 → (s.slice m).st ≠ 4 →
      ∃ t, exec (.sliceResetRequest n) s = .next t ∧ t.slice m = { s.slice m with resetDue := true } ∧ t.mem = s.mem)
  ∧ (∀ (s : State) n, Single s n → (s.slice n).resetDue = true → (s.slice n).st = 1 → s.leases = [] →
      ∃ t, exec (.sliceReset n) s = .next t ∧ let x := s.slice n
        let y := t.slice n
        y.st = 3 ∧ y.resetDue = false ∧ y.teams = [] ∧ y.saved = [] ∧ y.launches = [] ∧ y.tasks = [] ∧ y.tokens = [] ∧ y.channels = [] ∧ y.groups = []
        ∧ y.acl = [] ∧ y.nodes = [] ∧ y.ring = none ∧ y.render = none ∧ y.escs = [] ∧ y.faults = [] ∧ y.radiance = {} ∧ y.comp = [] ∧ y.act = []
        ∧ y.icache = [] ∧ y.tlb = [] ∧ y.engines = []
        ∧ y.vf = x.vf ∧ y.fmhz = x.fmhz ∧ y.errpol = x.errpol ∧ y.wdog = x.wdog ∧ y.counters = x.counters ∧ y.faultLog = x.faultLog ∧ y.errLog = x.errLog
        ∧ (∀ m, m ≠ n → t.slice m = s.slice m) ∧ ∀ q ∈ t.watches, q.warp.slice ≠ n)
  ∧ (∀ (y : Queue) f, (y.cleared false f).head = none ∧ (y.cleared false f).rdidx = y.wridx
      ∧ ∀ p ∈ (y.cleared false f).pkts, ∃ q ∈ y.pkts, p.idx = q.idx ∧ p.status = some (q.status.getD (f q).1))
  ∧ (∀ (s : State) n, Single s n → (s.slice n).st = 3 → (s.slice n).resetDue = false →
      ((s.slice n).leaving = false → ∃ t, exec (.sliceResetComplete n false) s = .next t ∧ t.slice n = { s.slice n with st := 4 })
      ∧ ((s.slice n).leaving = false → ∃ t, exec (.sliceResetComplete n true) s = .next t ∧ (t.slice n).st = 1
          ∧ (t.slice n).rst = ((s.slice n).rst + 1) % 256 ∧ (t.slice n).vf = (s.slice n).vf ∧ t.mem = s.mem)
      ∧ ((s.slice n).leaving = true → (s.slice n).quietReset = false → ∃ t, exec (.sliceResetComplete n true) s = .next t ∧ (t.slice n).st = 1
          ∧ (t.slice n).rst = ((s.slice n).rst + 1) % 256 ∧ (t.slice n).resetDue = true ∧ (t.slice n).quietReset = true ∧ t.mem = s.mem)
      ∧ ((s.slice n).leaving = true → (s.slice n).quietReset = true → ∃ t, exec (.sliceResetComplete n true) s = .next t ∧ (t.slice n).st = 0
          ∧ (t.slice n).vf = 0 ∧ (t.slice n).fus = 0 ∧ t.mem = s.mem))

/-- Two or four idle single slices of one owner on one die begin to fuse, a fused slice begins to split; a request not met is refused (20 R419). When it
ends the members act as one slice of the lowest number, the other members' radiance engines unloaded (15 R345), or each alone (20 R419, R420). A free slice takes an owner (20 R406); a clock point is clamped (20
R406). A slice is shared from its owner on, and at the end of a quantum the next function runs (20 R418). Clearing VF Enable
and function-level resets ask for resets of the functions' slices (20 R425; 21 R431). -/
def Obligations.FusingAndSharing : Prop :=
  (∀ (s : State) n k i, ((k = 2 ∧ i = .fuseTwo n) ∨ (k = 4 ∧ i = .fuseFour n)) → n + k ≤ s.slices.length →
      let ok := n / 8 = (n + k - 1) / 8 ∧ n + k ≤ 16 ∧ ∀ m, n ≤ m → m < n + k → s.fusable m = true ∧ (s.slice m).lsl = m ∧ (s.slice m).fus = 0
        ∧ (s.slice m).vf = (s.slice n).vf
      (ok → ∃ t, exec i s = .next t ∧ (t.slice n).fusing = some k ∧ (t.slice n).rqst = 3 ∧ (∀ m, n ≤ m → m < n + k → (t.slice m).st = 2) ∧ t.mem = s.mem)
      ∧ (¬ ok → ∃ t, exec i s = .next t ∧ t.slice n = { s.slice n with rqst := 2 } ∧ ∀ m, m ≠ n → t.slice m = s.slice m))
  ∧ (∀ (s : State) n, n < s.slices.length → (s.slice n).lsl = n → (s.slice n).fus ≠ 0 → (∀ m ∈ s.members n, s.fusable m = true) →
      ∃ t, exec (.split n) s = .next t ∧ (t.slice n).fusing = some 1 ∧ (t.slice n).rqst = 3 ∧ ∀ m ∈ s.members n, (t.slice m).st = 2)
  ∧ (∀ (s : State) n k, (s.slice n).fusing = some k → (k = 2 ∨ k = 4) → n + k ≤ s.slices.length →
      ∃ t, exec (.fusionComplete n) s = .next t ∧ t.mem = s.mem ∧ (t.slice n).fusing = none ∧ (t.slice n).rqst = 1
        ∧ ∀ m, n ≤ m → m < n + k → (t.slice m).lsl = n ∧ (t.slice m).st = 1 ∧ (t.slice m).fus = k / 2 ∧ (t.slice m).fmhz = (s.slice n).fmhz
            ∧ (m ≠ n → (t.slice m).radiance = {}))
  ∧ (∀ (s : State) n, (s.slice n).fusing = some 1 → n ∈ s.members n → ∃ t, exec (.fusionComplete n) s = .next t ∧ t.mem = s.mem ∧ (t.slice n).fusing = none
      ∧ (t.slice n).rqst = 1 ∧ ∀ m ∈ s.members n, (t.slice m).lsl = m ∧ (t.slice m).st = 1 ∧ (t.slice m).fus = 0)
  ∧ (∀ (s : State) n vf, n < s.slices.length → vf ≤ 16 → (s.slice n).st = 0 → ∃ t, exec (.sliceVfWrite n vf) s = .next t ∧ t.mem = s.mem
      ∧ t.slice n = { s.slice n with vf := vf, st := if (s.slice n).coreOk then 1 else 0 })
  ∧ (∀ (s : State) n mhz, Single s n → ∃ t, exec (.sliceFmhzWrite n mhz) s = .next t ∧ t.mem = s.mem ∧ (t.slice n).fmhz = max 800 (min 2100 mhz)
      ∧ 520 ≤ (t.slice n).vmv ∧ (t.slice n).vmv ≤ 750)
  ∧ (∀ (s : State) n fns quantum, let x := s.slice n
      Single s n → x.st = 1 → x.tsh = false → x.vf ∈ fns → (∀ f ∈ fns, f ≤ 16) → 500 ≤ quantum → quantum ≤ 100000 →
      ∃ t, exec (.timeSharingStart n fns quantum) s = .next t ∧ t.mem = s.mem ∧ (t.slice n).tsh = true ∧ (t.slice n).running = some x.vf
        ∧ (t.slice n).quantum = quantum ∧ (t.slice n).quantumFrom = s.dtime ∧ ∀ f, f ∈ (t.slice n).sharers ↔ f ∈ fns)
  ∧ (∀ (s : State) n, let x := s.slice n
      x.tsh = true → x.lsl = n → x.st = 1 → (x.drain ≠ 0 ∨ x.quantumFrom + 1000 * x.quantum ≤ s.dtime) →
      exec (.quantumExpiry n) s = .next (s.endQuantum n)
      ∧ (n < s.slices.length → x.channels = [] → x.tblds = [] → x.tasks = [] → x.radiance.queue = [] → x.gibbs.queue = [] → x.encoder.frames = [] →
          x.render = none → x.teams = [] → ((s.endQuantum n).slice n).running = some x.nextFn ∧ ((s.endQuantum n).slice n).drain = 0
            ∧ ((s.endQuantum n).slice n).quantumFrom = s.dtime))
  ∧ (∀ s : State, exec .vfEnableSet s = .next { s with vfEnable := true })
  ∧ (∀ s : State, ∃ t, exec .vfEnableClear s = .next t ∧ t.vfEnable = false ∧ t.mem = s.mem
      ∧ (∀ n, (s.slice n).foreign = false → { t.slice n with tasks := [] } = { s.slice n with tasks := [] } ∧ ((s.slice n).tasks = [] → t.slice n = s.slice n))
      ∧ ∀ n, n < s.slices.length → (s.slice n).foreign = true → s.logicalOf n = n → (s.slice n).st = 1 →
          (t.slice n).resetDue = true ∧ (t.slice n).leaving = true ∧ (t.slice n).quietReset = true)
  ∧ (∀ (s : State) f, 1 ≤ f → f ≤ 16 → s.vfEnable = true → ∃ t, exec (.functionLevelReset f) s = .next t ∧ t.mem = s.mem
      ∧ ∀ n, n < s.slices.length → (s.slice n).lsl = n → (s.slice n).tsh = false →
          ((s.slice n).st = 1 → (s.slice n).fn = f → (t.slice n).resetDue = true ∧ (t.slice n).quietReset = true)
          ∧ ((s.slice n).fn ≠ f → t.slice n = s.slice n))

/-! ### Steps of other agents: the host, the fabric, the network -/

/-- The link goes down and trains (21 R432). A host access reaches the device only over the link; it reads the slice table and writes queue descriptors of BAR 0
and writes the kick words and memory of BAR 2, and an absent function or a device without its crown core answers so (20 R404, R425; 21 R439); a network
controller's access does the same whatever the link does (21 R437). A fabric access is admitted by an import entry or refused and counted, and one to a ring or kick word
is judged by the access-control table (21 R434, R435; 11 R311). A release marker ends the waits of releases (09 R284); a lost store poisons its line and is logged
(09 R285); a failed lane narrows its port (21 R435). A correction steps or slews the device time, forward only, and a lost grandmaster posts an event (21 R436). -/
def Obligations.HostFabricAndNetwork : Prop :=
  (∀ s : State, ∃ t, exec .linkDown s = .next t ∧ t.linkUp = false ∧ t.posted = []
      ∧ (∀ a, (∀ e ∈ s.posted, a < e.pa ∨ e.pa + e.old.length ≤ a) → t.mem.read a = s.mem.read a)
      ∧ (s.posted = [] → t = { s with linkUp := false })
      ∧ ∀ e, s.posted = [e] → e.slice < s.slices.length → s.mem.wf = true →
          ((∀ a, t.mem.read a = s.mem.read a) ∧ t.slices = s.slices)
          ∨ ((∀ k b, e.old[k]? = some b → t.mem.read (e.pa + k) = b)
            ∧ (t.slice e.slice).errLog = (s.slice e.slice).errLog ++ [{ kind := errHostLost, detail := e.pa }]))
  ∧ (∀ s : State, ∃ t, exec .linkTrained s = .next t ∧ t.linkUp = true ∧ t.linkWidth ∈ [1, 2, 4, 8, 16] ∧ 1 ≤ t.linkRate ∧ t.linkRate ≤ 6
      ∧ t.mem = s.mem ∧ t.slices = s.slices)
  ∧ (∀ (s : State) f bar off wr data,
      (s.linkUp = false → exec (.hostBarAccess f bar off wr data) s = .next s)
      ∧ (s.linkUp = true → exec (.hostBarAccess f bar off wr data) s = exec (.networkCommandAccess f bar off wr data) s))
  ∧ (∀ (s : State) f bar off wr data,
      (s.crownOk = false → ∃ t, exec (.networkCommandAccess f bar off wr data) s = .next t
        ∧ t = { s with out := s.out ++ [if f = 0 then .status 0 else .absent] })
      ∧ (s.crownOk = true → (16 < f ∨ (f ≠ 0 ∧ s.vfEnable = false)) →
          exec (.networkCommandAccess f bar off wr data) s = .next { s with out := s.out ++ [.absent] }))
  ∧ (∀ (s : State) n, s.crownOk = true → n < 16 →
      (∃ t, exec (.networkCommandAccess 0 0 (8 * n) false (List.replicate 8 0)) s = .next t
        ∧ t = { s with out := s.out ++ [.read (leBytes 8 (s.slice n).entry) false] })
      ∧ (∀ f q (data : List Byte), f ≤ 16 → (f ≠ 0 → s.vfEnable = true) → data.length = 64 → q < 64 → ∀ m, n < s.slices.length →
          ((s.slice n).tsh = false ∨ (s.slice n).running = some f) →
          s.window f (0x100000 + 0x100000 * m + 0x1000 + 64 * q) = some (n, 0x1000 + 64 * q) →
          ∃ t, exec (.networkCommandAccess f 0 (0x100000 + 0x100000 * m + 0x1000 + 64 * q) true data) s = .next t
            ∧ (t.slice n).queue q = ((s.slice n).queue q).write (leNat data) ∧ t.mem = s.mem)
      ∧ (∀ f a (data : List Byte) pa (s1 : State), f ≤ 16 → (f ≠ 0 → s.vfEnable = true) → a < 2 ^ 48 → a % 4096 + data.length ≤ 4096 → data ≠ [] →
          s.hostTo f a true = (s1, .mem pa) →
          ∃ t, exec (.networkCommandAccess f 2 (2 ^ 48 + a) true data) s = .next t
            ∧ t = (s1.noteAccess (s.hostSlice f) pa true).physWrite pa data)
      ∧ (∀ f k i (v : Word), f ≤ 16 → (f ≠ 0 → s.vfEnable = true) → k < 16 → i < 64 → (s.sliceList f)[k]? = some n →
          exec (.networkCommandAccess f 2 (4096 * k + 8 * i) true (leBytes 8 v.toNat)) s = .next (s.kickStore f n (8 * i) 8 v.toNat)))
  ∧ (∀ (s : State) peer pa (data : List Byte), pa + data.length ≤ 0x6000000000 →
      (∃ e ∈ s.imports, e.2.valid = true ∧ e.2.peer = peer ∧ e.2.base ≤ pa ∧ pa + data.length ≤ e.2.base + e.2.size ∧ e.2.wr = true) →
      exec (.fabricAccessArrival peer pa .write data) s = .next (s.fabricWrite peer pa data)
      ∧ (s.kickPhys pa = none → (∀ n, n < s.slices.length → ∀ q ∈ s.ringsAt n pa data.length, (s.slice n).grants peer q 1 = true) →
          s.fabricWrite peer pa data = s.physWrite pa data)
      ∧ (s.kickPhys pa = none → ∀ n q, n < s.slices.length → q ∈ s.ringsAt n pa data.length → (s.slice n).grants peer q 1 = false →
          ∃ m, m < s.slices.length ∧ (s.fabricWrite peer pa data).mem = s.mem
            ∧ ((s.fabricWrite peer pa data).slice m).violations = (s.slice m).violations + 1
            ∧ ((s.fabricWrite peer pa data).slice m).aclLog = (s.slice m).aclLog ++ [(peer, pa)])
      ∧ (∀ vf n off, s.kickPhys pa = some (vf, n, off) → off < 512 →
          let touched := fun q => off / 8 ≤ q ∧ q < 64 ∧ 8 * q < off + data.length
          ((∀ q, touched q → (s.slice n).grants peer q 2 = true) → s.fabricWrite peer pa data = s.kickPut vf n 513 off data)
          ∧ (n < s.slices.length → (∃ q, touched q ∧ (s.slice n).grants peer q 2 = false) → (s.fabricWrite peer pa data).mem = s.mem
              ∧ ((s.fabricWrite peer pa data).slice n).violations = (s.slice n).violations + 1
              ∧ ((s.fabricWrite peer pa data).slice n).aclLog = (s.slice n).aclLog ++ [(peer, pa)])))
  ∧ (∀ (s : State) peer pa f ty (data b : List Byte), let k := atomBytes ty
      pa + k ≤ 0x6000000000 →
      (∃ e ∈ s.imports, e.2.valid = true ∧ e.2.peer = peer ∧ e.2.base ≤ pa ∧ pa + k ≤ e.2.base + e.2.size ∧ e.2.wr = true) → s.kickPhys pa = none →
      (∀ n, n < s.slices.length → ∀ q ∈ s.ringsAt n pa k, (s.slice n).grants peer q 1 = true) → s.readBytes pa k = some b →
      exec (.fabricAccessArrival peer pa (.atom f ty) data) s =
          .next ((s.physWrite pa (leBytes k (atomNew f ty (leNat b) (leNat (data.take k))))).tell (some b))
      ∧ exec (.fabricAccessArrival peer pa (.atomc ty) data) s =
          .next ((s.physWrite pa (leBytes k (if leNat b = leNat (data.take k) then leNat ((data.drop k).take k) else leNat b))).tell (some b)))
  ∧ (∀ (s : State) peer pa (data : List Byte), pa + data.length ≤ 0x6000000000 →
      (∃ e ∈ s.imports, e.2.valid = true ∧ e.2.peer = peer ∧ e.2.base ≤ pa ∧ pa + data.length ≤ e.2.base + e.2.size) →
      s.kickPhys pa = none → (∀ k, k < data.length → lineOfKey (pa + k) ∉ s.mem.poison) →
      exec (.fabricAccessArrival peer pa .read data) s = .next { s with out := s.out ++ [.read (s.mem.readBytes pa data.length) false] })
  ∧ (∀ (s : State) peer pa op (data : List Byte), (∀ e ∈ s.imports, e.2.admits peer pa (fabricBytes op data) (fabricWrites op) = false) →
      ∃ t, exec (.fabricAccessArrival peer pa op data) s = .next t ∧ t.importRefused = s.importRefused + 1 ∧ t.mem = s.mem ∧ t.slices = s.slices
        ∧ t.out = if op = .write then s.out else s.out ++ [.read [] true])
  ∧ (∀ s : State, ∃ t, exec .fabricReleaseMarker s = .next t ∧ t.markers = 0 ∧ t.engMarkers = [] ∧ t.fenceOut = [] ∧ t.mem = s.mem
      ∧ ∀ n (tm : Team) k (w : Warp), n < s.slices.length → (s.slice n).team tm.id = some tm → tm.warp k = some w →
          t.warp { slice := n, team := tm.id, warp := k } =
            some (Warp.settle (s.markedFor n tm) { w.mapSplits (fun p => if p.hold = .marker then { p with hold := .none } else p) with fabric := 0 }))
  ∧ (∀ (s : State) n pa, 0x800000000000 ≤ pa →
      (∀ k, s.phys pa true = .mem k →
        ∃ t, exec (.fabricStoreLost n pa) s = .next t ∧ k / 128 ∈ t.mem.poison ∧ (∀ a, t.mem.read a = s.mem.read a)
          ∧ (n < s.slices.length → (t.slice n).errLog = (s.slice n).errLog ++ [{ kind := 7, detail := pa }]))
      ∧ (s.phys pa true = .nowhere → exec (.fabricStoreLost n pa) s = .next s))
  ∧ (∀ (s : State) port whole p, s.ports[port]? = some p → ∃ t, exec (.mioferLaneFail port whole) s = .next t ∧ t.mem = s.mem
      ∧ t.ports[port]? = some (if whole then 0 else min p 2))
  ∧ (∀ (s : State) (o : Int), s.grandmaster = true →
      (1000000 ≤ o → (∀ x ∈ s.slices, ∀ e ∈ x.queues, e.2.oldest = none) →
          ∃ t, exec (.ptpCorrection o) s = .next t ∧ (t.dtime : Int) = s.dtime + o ∧ t.mem = s.mem)
      ∧ ((o < 1000000 ∨ ∃ x ∈ s.slices, ∃ e ∈ x.queues, e.2.oldest ≠ none) → exec (.ptpCorrection o) s = .next { s with slew := o }))
  ∧ (∀ (s : State) lost, ∃ t, exec (.grandmasterLoss lost) s = .next t ∧ t.grandmaster = !lost ∧ t.dtime = s.dtime ∧ t.mem = s.mem
      ∧ kget t.events 0 = some ((kget s.events 0).getD [] ++ [{ kind := 2, arg := if lost then 1 else 0, frameno := 0, dtime := s.dtime }]))

/-! ### Steps of other agents: firmware, management, power, temperature -/

/-- An image is accepted by its signature and version, the crown core's first; one refused takes its slice out of service (21 R439). Reports and management requests are served
by a crown core that runs (21 R440, R441). A cold reset leaves the device as after power-up but for device time and the rollback counter; a warm one
keeps HBM and the link; a rail of the device, the thermal trip and power-down stop it (21 R442, R443). A hot slice runs slower and its function
learns of it, the power cap slows every slice, and a slice returns to its clock point (21 R444). -/
def Obligations.DeviceSteps : Prop :=
  (∀ (s : State) ok v, s.powered = true → ∃ t, exec (.bootImageVerify 0 ok v) s = .next t ∧ t.crownOk = (ok && decide (s.rollback ≤ v)) ∧ t.mem = s.mem
      ∧ t.slices = s.slices)
  ∧ (∀ (s : State) k ok v, s.powered = true → s.crownOk = true → 1 ≤ k → k ≤ 16 → k ≤ s.slices.length →
      ∃ t, exec (.bootImageVerify k ok v) s = .next t ∧ t.mem = s.mem
        ∧ (ok = true → s.rollback ≤ v → t.slice (k - 1) = { s.slice (k - 1) with coreOk := true } ∧ kget t.images k = some v)
        ∧ ((ok = false ∨ v < s.rollback) → t.slice (k - 1) = { s.slice (k - 1) with coreOk := false, st := 4 }))
  ∧ (∀ (s : State) nonce, s.crownOk = true → nonce.length = 64 → ∃ t, exec (.attestationRequest nonce) s = .next t
      ∧ t = { s with out := s.out ++ [.report nonce s.dtime s.images (s.slices.map fun x => (x.lsl, x.st, x.vf, x.fus)) s.sysWins s.imports] })
  ∧ (∀ (s : State), s.crownOk = true →
      (∀ i (v : DWord), i < 256 → ∃ t, exec (.managementRequest (.sysWindow i v)) s = .next t ∧ t.mem = s.mem
        ∧ kget t.sysWins i = some { valid := v.getLsbD 0, wr := v.getLsbD 1, peer := bits v.toNat 16 16 })
      ∧ (∀ i valid wr peer base size, i < 64 → base % 65536 = 0 → size % 65536 = 0 →
          ∃ t, exec (.managementRequest (.importEntry i valid wr peer base size)) s = .next t ∧ t.mem = s.mem
            ∧ kget t.imports i = some { valid := valid, wr := wr, peer := peer % 65536, base := base, size := size })
      ∧ (∀ v, exec (.managementRequest (.rollback v)) s = .next { s with rollback := max s.rollback v })
      ∧ (∀ d, exec (.managementRequest (.deviceId d)) s = .next { s with deviceId := d % 65536 })
      ∧ (∀ w, 1000 ≤ w → w ≤ 2200 → exec (.managementRequest (.powerCap w)) s = .next { s with capWatts := w }))
  ∧ (∀ s : State, ∃ t, exec .perst s = .next t ∧ t.slices = State.reset.slices ∧ t.leases = [] ∧ t.sysWins = [] ∧ t.imports = [] ∧ t.watches = []
      ∧ t.crownOk = false ∧ t.powered = true ∧ t.dtime = s.dtime ∧ t.rollback = s.rollback ∧ t.mem.poison = s.mem.poison.filter (fun l => 0x6000000000 ≤ l * 128)
      ∧ ∀ a, 0x6000000000 ≤ a → s.mem.wf = true → t.mem.read a = s.mem.read a)
  ∧ (∀ s : State, s.powered = false → s.railFailed = false → exec .powerUp s = exec .perst s)
  ∧ (∀ s : State, s.powered = true → s.mem.home = [] → ∃ t, exec .warmReset s = .next t ∧ t.slices = State.reset.slices ∧ t.mem = s.mem ∧ t.linkUp = s.linkUp
      ∧ t.ports = s.ports ∧ t.dtime = s.dtime ∧ t.crownOk = false)
  ∧ (∀ s : State, (∃ t, exec .powerDown s = .next t ∧ t.powered = false ∧ t.railFailed = false ∧ t.dtime = s.dtime)
      ∧ (∃ t, exec .thermtrip s = .next t ∧ t.powered = false ∧ t.railFailed = true ∧ t.dtime = s.dtime)
      ∧ (∀ r, s.powered = true → r < 4 → exec (.railFault r) s = exec .thermtrip s))
  ∧ (∀ (s : State) n, Single s n → s.powered = true → n < 16 → s.leases = [] → ∃ t, exec (.railFault (4 + n)) s = .next t
      ∧ (t.slice n).st = 4 ∧ (t.slice n).coreOk = false ∧ (t.slice n).teams = [] ∧ (t.slice n).launches = [] ∧ ∀ m, m ≠ n → t.slice m = s.slice m)
  ∧ (∀ (s : State) n mhz, Single s n → 800 ≤ mhz → mhz < (s.slice n).fmhz → ∃ t, exec (.thermalThrottle n mhz) s = .next t ∧ t.mem = s.mem
      ∧ t.slice n = { s.slice n with clock := mhz } ∧ n ∈ t.throttled
      ∧ kget t.events (s.slice n).fn = some ((kget s.events (s.slice n).fn).getD [] ++ [{ kind := 3, arg := n, frameno := 0, dtime := s.dtime }]))
  ∧ (∀ (s : State) w, s.capWatts < w → ∃ t, exec (.powerCapThrottle w) s = .next t ∧ t.mem = s.mem
      ∧ ∀ n, n < s.slices.length → 800 ≤ (s.slice n).clock → 800 ≤ (t.slice n).clock ∧ (t.slice n).clock ≤ (s.slice n).clock
          ∧ (900 ≤ (s.slice n).clock → (t.slice n).clock + 100 = (s.slice n).clock) ∧ (t.slice n).fmhz = (s.slice n).fmhz)
  ∧ (∀ (s : State) n, Single s n → ∃ t, exec (.throttleEnd n) s = .next t ∧ t.mem = s.mem ∧ t.slice n = { s.slice n with clock := (s.slice n).fmhz }
      ∧ n ∉ t.throttled)

/-! ### The machine as a whole -/

/-- Right after reset the slice table, the slice-control registers, the queues, the encoder lane, the system windows, the memory and
the device time hold the values of the reset columns of 20 R405-R407 and R426 and 21 R434; no team is resident, and the memory is in
its canonical form. That memory then reads as zero, and that the device time starts at zero, are the model's choices (log entries
4, 5). -/
def Obligations.ResetValues : Prop :=
  State.reset.slices.length = 16
  ∧ (∀ n, n < 16 → ∃ x, State.reset.slices[n]? = some x
      ∧ x.lsl = n ∧ x.fus = 0 ∧ x.st = 0 ∧ x.tsh = false ∧ x.vf = 0 ∧ x.fmhz = 2100 ∧ x.vmv = 600 ∧ x.rst = 0 ∧ x.rqst = 0
      ∧ x.errpol = false ∧ x.scrub = true ∧ x.wdog = 100 ∧ x.hyst = 500000 ∧ x.rgtim = 2000
      ∧ x.entry = n + 2100 * 2 ^ 16 + 600 * 2 ^ 28
      ∧ x.teams = [] ∧ x.saved = [] ∧ x.launches = [] ∧ x.tlb = [] ∧ x.icache = [] ∧ x.faults = [] ∧ x.faultLog = [] ∧ x.groups = []
      ∧ (∀ q, (x.queue q).en = false ∧ (x.queue q).be = false ∧ (x.queue q).prio = 0 ∧ (x.queue q).weight = 1 ∧ (x.queue q).log2n = 4
          ∧ (x.queue q).base = 0 ∧ (x.queue q).rdidx = 0 ∧ (x.queue q).wridx = 0)
      ∧ x.encoder.regs.en = false ∧ x.encoder.regs.exp = false ∧ x.encoder.regs.codec = 0 ∧ x.encoder.regs.strm = false
      ∧ x.encoder.regs.flow = 0 ∧ x.encoder.regs.w = 0 ∧ x.encoder.regs.h = 0 ∧ x.encoder.regs.fps = 60 ∧ x.encoder.regs.kbps = 20000
      ∧ x.encoder.regs.kint = 0 ∧ x.encoder.regs.qpm = 0 ∧ x.encoder.regs.rows = 1 ∧ x.encoder.regs.rbase = 0 ∧ x.encoder.regs.log2b = 20
      ∧ x.encoder.regs.wp = 0 ∧ x.encoder.regs.rp = 0)
  ∧ State.reset.sysWins = [] ∧ State.reset.dtime = 0 ∧ State.reset.mem.wf = true ∧ ∀ a, State.reset.mem.read a = 0

/-- The state in which the instruction of split `c` runs once its line is fetched: the acting split set, its bound run opened or
continued (01 R27), and the sequencer's rotation at that split (01 R41). -/
abbrev issued (s1 : State) (v : View) (b : List Byte) (c : Cursor) : State :=
  let p := v.sp.opening (lineBind b (pcSlot v.sp.pc))
  let w := { v.wp with front := v.wp.front.set c.split p }
  (s1.putWarp v w).setRotor c.slice v.tm.cu w.seq (splitKey w p)

/-- One step takes the first turn of the agenda, after its time has passed. A turn of another agent runs its instruction; a turn of
a sequencer runs, for the first split in its rotation that can issue, the instruction that its slot of the fetched line decodes to,
with a softmax idiom standing there taken whole (01 R41; 05 R166), and a word that decodes to no instruction takes the
illegal-instruction trap with its field code (03 R114). Before an instruction that follows the split's accesses on path C, the reads of the
split's LDAs are performed (09 R268); after a release that is not held for its markers, the step records that the split's writes are released
to path G and accepted by the host (07 R223; 09 R286), and it adds nothing else. A sequencer whose line is on its way issues nothing (01 R42). -/
def Obligations.StepRunsTurn : Prop :=
  (∀ (s : State) dt i rest, s.agenda = (dt, .event i) :: rest → step s = exec i { s.passTime dt with agenda := rest, cur := none })
  ∧ (∀ (s : State) dt n cu seq rest (c : Cursor) k cs v s1 b i, s.agenda = (dt, .issue n cu seq) :: rest →
      let s0 : State := { s.passTime dt with agenda := rest }
      (s0.slice n).fetches.any (fun f => f.cu == cu && f.seq == seq) = false → s0.candidates n cu seq = (c, k) :: cs →
      ({ s0 with cur := some c } : State).view = some v → ({ s0 with cur := some c } : State).fetch v = .line s1 b →
      s1.decodeAt v b = .ok i → runBlocked v b = false →
      let j := (s1.idiomAt v b).getD i
      let s2 := if j.afterLdas then s1.performLdas v else s1
      let v2 := s2.review v
      let u := issued s2 v2 b c
      let held := ({ v2.wp with front := v2.wp.front.set c.split (v2.sp.opening (lineBind b (pcSlot v2.sp.pc))) } : Warp).awaitingMarker c.split
        (v2.sp.opening (lineBind b (pcSlot v2.sp.pc)))
      (∀ t, exec j u = .next t → t.warp v2.ref ≠ u.warp v2.ref → t.warp v2.ref ≠ some held → step s = .next (t.released j v2))
      ∧ (∀ t, exec j u = .next t → t.warp v2.ref ≠ u.warp v2.ref → t.warp v2.ref = some held → step s = .next t)
      ∧ ((∀ t, exec j u ≠ .next t) → step s = exec j u))
  ∧ (∀ (s : State) (v : View), v.wp.ldaOpen v.sp.mask = false → s.performLdas v = s)
  ∧ (∀ (t : State) j v, (j.releases = false → t.released j v = t)
      ∧ { t.released j v with gStale := t.gStale, gStamp := t.gStamp, posted := t.posted } = t)
  ∧ (∀ (s : State) dt n cu seq rest (c : Cursor) k cs v s1 b f, s.agenda = (dt, .issue n cu seq) :: rest →
      let s0 : State := { s.passTime dt with agenda := rest }
      (s0.slice n).fetches.any (fun f => f.cu == cu && f.seq == seq) = false → s0.candidates n cu seq = (c, k) :: cs →
      ({ s0 with cur := some c } : State).view = some v → ({ s0 with cur := some c } : State).fetch v = .line s1 b →
      s1.decodeAt v b = .bad f → step s = .next (s1.takeTrap v (illegal f)))
  ∧ (∀ (s : State) dt n cu seq rest, s.agenda = (dt, .issue n cu seq) :: rest →
      (({ s.passTime dt with agenda := rest } : State).slice n).fetches.any (fun f => f.cu == cu && f.seq == seq) = true →
      step s = .next { s.passTime dt with agenda := rest })
  ∧ (∀ s : State, s.agenda = [] → step s = (issueAny (s.passTime (Config.elapsed s.tick))).getD (.next (s.passTime (Config.elapsed s.tick))))

/-- Encoding and decoding agree: the word of an instruction that no check refuses decodes to that instruction, with every operand at
every value the encoding admits; and a word that decodes has one instruction, whose word it is (03 R86-R114). -/
def Obligations.EncodeThenDecode : Prop :=
  (∀ n i w, encode i = some w → i.check n = [] → decodeWord n w = .ok i)
  ∧ (∀ i w, encode i = some w → i.wellFormed = true → decodeTableWord 96 w.toNat = some i)
  ∧ (∀ n w i, decodeWord n w = .ok i → encode i = some w ∧ i.check n = [])
  ∧ (∀ i j w n m, encode i = some w → encode j = some w → i.check n = [] → j.check m = [] → i = j)

/-- No step takes the device time back (01 R23; 21 R436). -/
def Obligations.ClockNeverFalls : Prop := ∀ s t : State, step s = .next t → s.dtime ≤ t.dtime

/-- Every step keeps memory, the address space of 21 R433, in its canonical form: the cells rise strictly in address, and none outside the free ranges lists a
zero, so that equal memories are equal data. The form is the model's own (log entry 5). -/
def Obligations.MemoryStaysCanonical : Prop := ∀ s t : State, s.mem.wf = true → step s = .next t → t.mem.wf = true

/-- An instruction whose guard holds in no lane of its split writes no register, no predicate, no memory and no flag, and only takes
its lanes to the next instruction, whichever instruction it is (01 R14; 03 R91). -/
def Obligations.GuardFalseDoesNothing : Prop :=
  ∀ i : Instr, i.sig.isSome = true →
    Does i (bare i.hdr) (fun _ _ act => act = 0) (fun _ v _ => v.wp) (fun _ _ _ _ => []) (fun v _ _ => nextPc v.sp.pc)

/-- A plain vector register as a source, an immediate, and the header of an unguarded vector instruction. -/
abbrev vsrc (n : BitVec 8) : Src := { base := .vec n, perm := .none, neg := false, abs := false }
abbrev isrc (n : BitVec 8) : Src := { base := .imm n, perm := .none, neg := false, abs := false }
abbrev hd (d : Dst) : Hdr := { guard := .always, u := false, ws := false, dst := d }

/-- The majors that name no instruction (03 R114, order 1). -/
abbrev reservedMajor (m : Nat) : Prop :=
  (0x2B ≤ m ∧ m ≤ 0x2F) ∨ (0x4B ≤ m ∧ m ≤ 0x4F) ∨ m = 0x5F ∨ (0x6A ≤ m ∧ m ≤ 0x6F) ∨ m = 0x7E ∨ m = 0x7F ∨ (0x8C ≤ m ∧ m ≤ 0x8F)
  ∨ (0x99 ≤ m ∧ m ≤ 0x9F) ∨ (0xA9 ≤ m ∧ m ≤ 0xAF) ∨ (0xB9 ≤ m ∧ m ≤ 0xBF) ∨ m = 0xC6 ∨ m = 0xC7 ∨ m = 0xCE ∨ m = 0xCF ∨ 0xD3 ≤ m

/-- The words that the spec works out decode to the instructions they stand for (03, the worked line; 04 R127; 05 R157; 06 R181; 07
R231), and a word of a reserved major, whatever its other bits, is an illegal instruction with field code 1 (03 R114). -/
def Obligations.WorkedWordsDecode : Prop :=
  decodeWord 256 0x377000200000000000000000 = .ok (.regn ⟨0, 8⟩ ⟨0, 0⟩ ⟨0, 0⟩ ⟨0, 0⟩ false)
  ∧ decodeWord 256 0x047104004000880000000000 = .ok (.iadd (hd (.vec 4)) (vsrc 1) { vsrc 2 with perm := .rot 1 })
  ∧ decodeWord 256 0x057105804000C00000000000 = .ok (.isub (hd (.vec 5)) { vsrc 1 with base := .latch 1 } (vsrc 3))
  ∧ decodeWord 256 0x367000000000000000000000 = .ok (.exit (hd .none))
  ∧ decodeWord 256 0x2673020100C280000020C700 = .ok (.ipred (hd (.pred 2)) .lt .and .s32 .always (vsrc 4) (isrc 10))
  ∧ decodeWord 256 0x302000000000090000000000 = .ok (.bra { hd .none with guard := { neg := false, num := 2 } } 1 1)
  ∧ decodeWord 256 0x707101008000000000EC0000 = .ok (.cvt (hd (.vec 1)) (.b8 true true 3) .f32 .rne .sat (vsrc 2))
  ∧ decodeWord 256 0x8771050080C04000240004C4 = .ok (.atom (hd (.vec 5)) .add .n32 (vsrc 2) (isrc 1) 36
      { size := .w32, space := .generic, ord := .acqrel, scope := .dev, cp := .dflt, mp := .c })
  ∧ decodeWord 256 0xB37114020041000000000002 = .ok (.trace (hd (.vec 20)) false true (vsrc 8) { vsrc 4 with base := .scal 4 })
  ∧ decodeWord 256 0xB47118054000000000000000 = .ok (.thit (hd (.vec 24)) .u (vsrc 21))
  ∧ (∀ n w, reservedMajor (fMaj w).toNat → decodeWord n w = .bad 1)
end

