-- ==== Sys2Proof/Laws/Frontier.lean ====
section
/-! SUPPORT. The rules of the frontier (01 R12, R13) keep every lane at its counter: splits leave, merge and enter, and no lane is
lost, doubled or moved. -/

namespace Sys2Proof.Machine

/-- A lane stands at a counter in a list of splits. -/
def At (ps : List Split) (l : Nat) (pc : DWord) : Prop := ∃ p ∈ ps, bit p.mask l = true ∧ p.pc = pc

/-- The second list holds the same lanes at the same counters as the first, in splits that share no lane. -/
def Keeps (ps qs : List Split) : Prop := apart ps → apart qs ∧ ∀ l pc, At qs l pc ↔ At ps l pc

theorem Keeps.refl (ps : List Split) : Keeps ps ps := fun h => ⟨h, fun _ _ => Iff.rfl⟩

theorem Keeps.trans {a b c : List Split} (h : Keeps a b) (k : Keeps b c) : Keeps a c := fun ha =>
  have hb := h ha
  have hc := k hb.1
  ⟨hc.1, fun l pc => (hc.2 l pc).trans (hb.2 l pc)⟩

theorem Keeps.perm {a b : List Split} (h : a.Perm b) : Keeps a b := fun ha =>
  ⟨⟨(h.pairwise_iff (fun {x y} hxy => by rw [BitVec.and_comm]; exact hxy)).1 ha.1, fun p hp => ha.2 p (h.mem_iff.2 hp)⟩,
   fun l pc => by simp only [At, h.mem_iff]⟩

theorem zero_lane (i : Nat) : (0 : Mask).getLsbD i = false := by simp

theorem bit_and {a b : Mask} (l : Nat) : bit (a &&& b) l = (bit a l && bit b l) := by simp [bit]
theorem bit_or {a b : Mask} (l : Nat) : bit (a ||| b) l = (bit a l || bit b l) := by simp [bit]

/-- Two splits of a list without common lanes that share a lane are the same place of the list: here, for the head. -/
theorem apart_head {p : Split} {ps : List Split} (h : apart (p :: ps)) {q : Split} (hq : q ∈ ps) : p.mask ≠ q.mask := by
  intro he
  have h1 := (List.pairwise_cons.1 h.1).1 q hq
  rw [← he, BitVec.and_self] at h1
  exact h.2 p (by simp) h1

theorem apart_tail {p : Split} {ps : List Split} (h : apart (p :: ps)) : apart ps :=
  ⟨(List.pairwise_cons.1 h.1).2, fun q hq => h.2 q (by simp [hq])⟩

theorem apart_left {a b : List Split} (h : apart (a ++ b)) : apart a :=
  ⟨(List.pairwise_append.1 h.1).1, fun q hq => h.2 q (by simp [hq])⟩

/-- Taking a split out by its mask takes out that split alone. -/
theorem perm_takeOut {f : List Split} (h : apart f) {p : Split} (hp : p ∈ f) :
    f.Perm (p :: f.filter (·.mask != p.mask)) := by
  induction f with
  | nil => cases hp
  | cons q f ih =>
    have hrest := apart_tail h
    by_cases he : q = p
    · subst he
      have : (q :: f).filter (·.mask != q.mask) = f := by
        rw [List.filter_cons_of_neg (by simp)]
        apply List.filter_eq_self.2
        intro r hr
        have := apart_head h hr
        simp [Ne.symm this]
      rw [this]
    · have hpf : p ∈ f := by
        rcases List.mem_cons.1 hp with e | e
        · exact absurd e.symm he
        · exact e
      have hne := apart_head h hpf
      rw [List.filter_cons_of_pos (by simpa using hne)]
      exact ((ih hrest hpf).cons q).trans (List.Perm.swap p q _)

theorem leaver_mem {f : List Split} {p : Split} (h : leaver f = some p) : p ∈ f := by
  induction f generalizing p with
  | nil => cases h
  | cons q f ih =>
    simp only [leaver] at h
    split at h
    · cases h; simp
    · rename_i r hr
      split at h <;> cases h
      · exact List.mem_cons_of_mem _ (ih hr)
      · simp

theorem enterer_mem {f : List Split} {p : Split} (h : enterer f = some p) : p ∈ f := by
  induction f generalizing p with
  | nil => cases h
  | cons q f ih =>
    simp only [enterer] at h
    split at h
    · cases h; simp
    · rename_i r hr
      split at h <;> cases h
      · exact List.mem_cons_of_mem _ (ih hr)
      · simp

theorem trim_keeps (n : Nat) (f out : List Split) :
    Keeps (f ++ out) ((trimFront n f out).1 ++ (trimFront n f out).2) := by
  induction n generalizing f out with
  | zero => exact Keeps.refl _
  | succ n ih =>
    simp only [trimFront]
    split
    · exact Keeps.refl _
    · split
      · exact Keeps.refl _
      · rename_i p hp
        intro ha
        have hperm := (perm_takeOut (apart_left ha) (leaver_mem hp)).append_right out
        have h2 : (p :: f.filter (·.mask != p.mask) ++ out).Perm (f.filter (·.mask != p.mask) ++ p :: out) := by
          rw [List.cons_append]; exact List.perm_middle.symm
        exact (Keeps.trans (Keeps.perm (hperm.trans h2)) (ih _ _)) ha

theorem fill_keeps (n : Nat) (f w : List Split) :
    Keeps (f ++ w) ((fillFront n f w).1 ++ (fillFront n f w).2) := by
  induction n generalizing f w with
  | zero => exact Keeps.refl _
  | succ n ih =>
    simp only [fillFront]
    split
    · exact Keeps.refl _
    · split
      · exact Keeps.refl _
      · rename_i p hp
        intro ha
        have haw : apart w := ⟨(List.pairwise_append.1 ha.1).2.1, fun q hq => ha.2 q (by simp [hq])⟩
        have hperm := (perm_takeOut haw (enterer_mem hp)).append_left f
        have h2 : f ++ p :: w.filter (·.mask != p.mask) = (f ++ [p]) ++ w.filter (·.mask != p.mask) := by simp
        rw [h2] at hperm
        exact (Keeps.trans (Keeps.perm hperm) (ih _ _)) ha

theorem insertBy_perm {α : Type} (le : α → α → Bool) (x : α) (l : List α) : (insertBy le x l).Perm (x :: l) := by
  induction l with
  | nil => exact List.Perm.refl _
  | cons y t ih =>
    simp only [insertBy]
    split
    · exact List.Perm.refl _
    · exact (ih.cons y).trans (List.Perm.swap x y t)

theorem isort_perm {α : Type} (le : α → α → Bool) (l : List α) : (isort le l).Perm l := by
  induction l with
  | nil => exact List.Perm.refl _
  | cons x t ih => exact (insertBy_perm le x _).trans (ih.cons x)

theorem addWaiting_perm (w out : List Split) : (addWaiting w out).Perm (w ++ out) :=
  (isort_perm _ out).append_left w

/-- Merging two splits at one counter keeps their lanes there. -/
theorem merge_keeps {p q : Split} {r : List Split} (h : q.pc = p.pc) : Keeps (p :: q :: r) (mergeSplits p q :: r) := by
  intro ha
  have hp := List.pairwise_cons.1 ha.1
  have hq := List.pairwise_cons.1 hp.2
  refine ⟨⟨List.pairwise_cons.2 ⟨?_, hq.2⟩, ?_⟩, ?_⟩
  · intro x hx
    have h1 := hp.1 x (by simp [hx])
    have h2 := hq.1 x hx
    apply BitVec.eq_of_getLsbD_eq
    intro i hi
    have e1 := congrArg (fun m => BitVec.getLsbD m i) h1
    have e2 := congrArg (fun m => BitVec.getLsbD m i) h2
    simp only [mergeSplits, BitVec.getLsbD_and, BitVec.getLsbD_or, zero_lane] at *
    cases ha' : p.mask.getLsbD i <;> cases hb' : q.mask.getLsbD i <;> simp_all
  · intro x hx
    rcases List.mem_cons.1 hx with e | e
    · subst e
      intro h0
      apply ha.2 p (by simp)
      apply BitVec.eq_of_getLsbD_eq
      intro i hi
      have e1 := congrArg (fun m => BitVec.getLsbD m i) h0
      simp only [mergeSplits, BitVec.getLsbD_or, zero_lane, Bool.or_eq_false_iff] at *
      exact e1.1
    · exact ha.2 x (by simp [e])
  · intro l pc
    simp only [At, List.mem_cons, exists_eq_or_imp, mergeSplits, bit_or, Bool.or_eq_true, h]
    constructor
    · rintro (⟨h1 | h1, h2⟩ | h1)
      · exact .inl ⟨h1, h2⟩
      · exact .inr (.inl ⟨h1, h2⟩)
      · exact .inr (.inr h1)
    · rintro (⟨h1, h2⟩ | ⟨h1, h2⟩ | h1)
      · exact .inl ⟨.inl h1, h2⟩
      · exact .inl ⟨.inr h1, h2⟩
      · exact .inr h1

theorem absorb_go {pc : DWord} (l done : List Split) (a : Split) (h : a.pc = pc) :
    Keeps (a :: (done ++ l))
      (l.foldl (fun a q => if q.pc == pc && q.hold.reissues then mergeSplits a q else a) a
        :: (done ++ l.filter fun q => !(q.pc == pc && q.hold.reissues)))
    ∧ (l.foldl (fun a q => if q.pc == pc && q.hold.reissues then mergeSplits a q else a) a).pc = pc := by
  induction l generalizing a done with
  | nil => exact ⟨Keeps.refl _, h⟩
  | cons q l ih =>
    simp only [List.foldl_cons]
    by_cases hc : (q.pc == pc && q.hold.reissues) = true
    · rw [if_pos hc, List.filter_cons_of_neg (by simp [hc])]
      have hq : q.pc = pc := by simp at hc; exact hc.1
      have hm : (mergeSplits a q).pc = pc := h
      refine ⟨Keeps.trans (Keeps.perm ?_) (Keeps.trans (merge_keeps (p := a) (q := q) (r := done ++ l) (hq.trans h.symm)) (ih done _ hm).1), (ih done _ hm).2⟩
      exact (List.perm_middle).cons a
    · rw [if_neg hc, List.filter_cons_of_pos (by rw [Bool.not_eq_true] at hc; simp [hc])]
      have := ih (done ++ [q]) a h
      simpa using this

theorem absorb_keeps (p : Split) (l : List Split) :
    Keeps (p :: l) ((absorb p l).1 :: (absorb p l).2) ∧ (absorb p l).1.pc = p.pc := by
  have := absorb_go (pc := p.pc) l [] p rfl
  simpa [absorb] using this

theorem mergeFront_keeps (marked : DWord → Bool) (n : Nat) (f w done : List Split) :
    Keeps (done ++ f ++ w) ((mergeFront marked n f w done).1 ++ (mergeFront marked n f w done).2) := by
  induction n generalizing f w done with
  | zero => simpa [mergeFront] using Keeps.refl _
  | succ n ih =>
    cases f with
    | nil => simpa [mergeFront] using Keeps.refl _
    | cons p f =>
      simp only [mergeFront]
      split
      · have h1 := absorb_keeps p f
        have h2 := absorb_keeps (absorb p f).1 w
        refine Keeps.trans ?_ (ih (absorb p f).2 (absorb (absorb p f).1 w).2 (done ++ [(absorb (absorb p f).1 w).1]))
        -- bring the pieces side by side
        have k1 : Keeps (done ++ p :: f ++ w) ((p :: f) ++ (done ++ w)) := by
          apply Keeps.perm
          simp only [List.append_assoc]
          exact List.perm_append_comm_assoc _ _ _
        have k2 : Keeps ((p :: f) ++ (done ++ w)) (((absorb p f).1 :: (absorb p f).2) ++ (done ++ w)) := by
          have := absorb_go (pc := p.pc) f (done ++ w) p rfl
          have e := this.1
          simp only [absorb] at *
          refine Keeps.trans (Keeps.perm ?_) (Keeps.trans e (Keeps.perm ?_))
          · simp only [List.cons_append]; exact (List.perm_append_comm).cons p
          · simp only [List.cons_append]; exact (List.perm_append_comm).cons _
        have k3 : Keeps (((absorb p f).1 :: (absorb p f).2) ++ (done ++ w))
            ((absorb (absorb p f).1 w).1 :: ((absorb p f).2 ++ done ++ (absorb (absorb p f).1 w).2)) := by
          have e := (absorb_go (pc := (absorb p f).1.pc) w ((absorb p f).2 ++ done) (absorb p f).1 rfl).1
          simp only [List.cons_append, List.append_assoc] at *
          exact e
        refine Keeps.trans k1 (Keeps.trans k2 (Keeps.trans k3 (Keeps.perm ?_)))
        generalize (absorb (absorb p f).1 w).1 = x
        generalize (absorb (absorb p f).1 w).2 = y
        generalize (absorb p f).2 = z
        simp only [List.append_assoc, List.singleton_append]
        refine List.Perm.trans ?_ List.perm_middle.symm
        apply List.Perm.cons
        exact List.perm_append_comm_assoc _ _ _
      · have := ih f w (done ++ [p])
        simpa using this

theorem mergeWait_keeps (marked : DWord → Bool) (n : Nat) (rest w done : List Split) :
    Keeps (rest ++ (done ++ w)) (rest ++ mergeWait marked n w done) := by
  induction n generalizing w done with
  | zero => exact Keeps.refl _
  | succ n ih =>
    cases w with
    | nil => simpa [mergeWait] using Keeps.refl _
    | cons p w =>
      simp only [mergeWait]
      split
      · refine Keeps.trans ?_ (ih (absorb p w).2 (done ++ [(absorb p w).1]))
        have e := (absorb_go (pc := p.pc) w (rest ++ done) p rfl).1
        simp only [absorb] at *
        refine Keeps.trans (Keeps.perm ?_) (Keeps.trans e (Keeps.perm ?_))
        · simp only [← List.append_assoc]; exact List.perm_middle
        · simp only [List.append_assoc, List.singleton_append]
          have := (List.perm_middle (a := (List.foldl (fun a q => if (q.pc == p.pc && q.hold.reissues) = true then mergeSplits a q else a) p w)) (l₁ := rest ++ done) (l₂ := w.filter fun q => !(q.pc == p.pc && q.hold.reissues))).symm
          simpa using this
      · have := ih w (done ++ [p])
        simpa using this

/-- The waiting list after an instruction holds the splits it held. -/
theorem requeue_perm (old w : List Split) : (requeue old w).Perm w := by
  refine (addWaiting_perm _ _).trans ?_
  exact List.filter_append_perm (fun p => old.contains p) w

/-- Rows 2 to 4 of R12 keep every lane at its counter. -/
theorem settle_keeps (marked : DWord → Bool) (old f w : List Split) :
    Keeps (f ++ w) ((settle marked old f w).1 ++ (settle marked old f w).2) := by
  simp only [settle]
  have k1 := trim_keeps 32 f []
  generalize trimFront 32 f [] = a at *
  have k2 := mergeFront_keeps marked 33 a.1 (addWaiting w a.2) []
  generalize mergeFront marked 33 a.1 (addWaiting w a.2) [] = b at *
  have k3 := mergeWait_keeps marked 33 b.1 b.2 []
  generalize mergeWait marked 33 b.2 [] = c at *
  have k4 := fill_keeps 4 b.1 c
  generalize fillFront 4 b.1 c = d at *
  have k5 := mergeFront_keeps marked 33 d.1 d.2 []
  generalize mergeFront marked 33 d.1 d.2 [] = e at *
  have k6 := fill_keeps 4 e.1 e.2
  have k7 : Keeps ((fillFront 4 e.1 e.2).1 ++ (fillFront 4 e.1 e.2).2) ((fillFront 4 e.1 e.2).1 ++ requeue old (fillFront 4 e.1 e.2).2) :=
    Keeps.perm ((requeue_perm old _).symm.append_left _)
  intro ha
  have hperm : (a.1 ++ addWaiting w a.2).Perm (w ++ (a.1 ++ a.2)) :=
    ((addWaiting_perm w a.2).append_left a.1).trans (List.perm_append_comm_assoc _ _ _)
  -- the trimmed frontier with the waiting splits
  have k0 : Keeps (f ++ w) (a.1 ++ addWaiting w a.2) := by
    refine Keeps.trans (b := (a.1 ++ a.2) ++ w) ?_ (Keeps.perm ?_)
    · intro hfw
      have hf : apart f := apart_left hfw
      have hk := k1 (by simpa using hf)
      have hw : apart w := ⟨(List.pairwise_append.1 hfw.1).2.1, fun q hq => hfw.2 q (by simp [hq])⟩
      have hx := (List.pairwise_append.1 hfw.1).2.2
      have hat : ∀ l pc, At (a.1 ++ a.2) l pc ↔ At f l pc := fun l pc => by simpa using hk.2 l pc
      refine ⟨⟨List.pairwise_append.2 ⟨hk.1.1, hw.1, ?_⟩, ?_⟩, ?_⟩
      · intro x hx1 y hy1
        apply BitVec.eq_of_getLsbD_eq
        intro i hi
        simp only [BitVec.getLsbD_and, zero_lane]
        cases hxi : x.mask.getLsbD i with
        | false => simp
        | true =>
          obtain ⟨z, hz, hzb, -⟩ := (hat i x.pc).1 ⟨x, hx1, hxi, rfl⟩
          have := congrArg (fun m => BitVec.getLsbD m i) (hx z hz y hy1)
          simp only [BitVec.getLsbD_and, zero_lane] at this
          have hzb' : z.mask.getLsbD i = true := hzb
          rw [hzb'] at this
          simpa using this
      · intro q hq
        rcases List.mem_append.1 hq with h | h
        · exact hk.1.2 q h
        · exact hw.2 q h
      · intro l pc
        have := hat l pc
        simp only [At, List.mem_append] at *
        constructor
        · rintro ⟨p, hp | hp, h1⟩
          · obtain ⟨z, hz, h2⟩ := this.1 ⟨p, hp, h1⟩
            exact ⟨z, .inl hz, h2⟩
          · exact ⟨p, .inr hp, h1⟩
        · rintro ⟨p, hp | hp, h1⟩
          · obtain ⟨z, hz, h2⟩ := this.2 ⟨p, hp, h1⟩
            exact ⟨z, .inl hz, h2⟩
          · exact ⟨p, .inr hp, h1⟩
    · exact (List.perm_append_comm).trans hperm.symm
  simp only [List.nil_append] at *
  exact (Keeps.trans k0 (Keeps.trans k2 (Keeps.trans k3 (Keeps.trans k4 (Keeps.trans k5 (Keeps.trans k6 k7)))))) ha

/-- Under a list without common lanes, the counter of a lane is the one it stands at. -/
theorem pcIn_iff {ps : List Split} (h : apart ps) (l : Nat) (pc : DWord) : pcIn ps l = some pc ↔ At ps l pc := by
  induction ps with
  | nil => simp [pcIn, At]
  | cons p ps ih =>
    have ih := ih (apart_tail h)
    simp only [pcIn, List.find?_cons, At, List.mem_cons, exists_eq_or_imp] at *
    cases hb : bit p.mask l with
    | true =>
      simp only [Option.map_some, Option.some.injEq, true_and]
      constructor
      · exact fun e => .inl e
      · rintro (e | ⟨q, hq, hqb, -⟩)
        · exact e
        · have := congrArg (fun m => bit m l) ((List.pairwise_cons.1 h.1).1 q hq)
          simp only [bit_and, hb, hqb] at this
          simp [bit] at this
    | false => simp only [ih, Bool.false_eq_true, false_and, false_or]

theorem pcIn_keeps {ps qs : List Split} (ha : apart ps) (h : Keeps ps qs) (l : Nat) : pcIn qs l = pcIn ps l := by
  have hk := h ha
  apply Option.ext
  intro pc
  rw [pcIn_iff hk.1, pcIn_iff ha, hk.2]

end Sys2Proof.Machine
end

