-- ==== Sys2Proof/Laws/Put.lean ====
section
/-! SUPPORT. What putting the acting warp back changes, and that nothing else changes. -/

namespace Sys2Proof.Machine

theorem lmod_length {α : Type} (f : α → α) (l : List α) (n : Nat) : (lmod f l n).length = l.length := by
  induction l generalizing n with
  | nil => rfl
  | cons x t ih => cases n <;> simp [lmod, ih]

theorem lmod_get_ne {α : Type} (f : α → α) (l : List α) {n m : Nat} (h : m ≠ n) : (lmod f l n)[m]? = l[m]? := by
  induction l generalizing n m with
  | nil => rfl
  | cons x t ih =>
    cases n with
    | zero => cases m with
      | zero => exact absurd rfl h
      | succ m => simp [lmod]
    | succ n => cases m with
      | zero => simp [lmod]
      | succ m => simp [lmod, ih (by omega : m ≠ n)]

theorem lmod_get {α : Type} (f : α → α) (l : List α) (n : Nat) : (lmod f l n)[n]? = l[n]?.map f := by
  induction l generalizing n with
  | nil => rfl
  | cons x t ih => cases n <;> simp [lmod, ih]

theorem slice_modSlice_ne (s : State) {n m : Nat} (f : Slice → Slice) (h : m ≠ n) : (s.modSlice n f).slice m = s.slice m := by
  simp [State.slice, State.modSlice, List.getD, lmod_get_ne f s.slices h]

/-- A slice that exists changes as told. -/
theorem slice_modSlice (s : State) {n : Nat} (f : Slice → Slice) (h : n < s.slices.length) :
    (s.modSlice n f).slice n = f (s.slice n) := by
  simp [State.slice, State.modSlice, List.getD, lmod_get, List.getElem?_eq_getElem h]

/-- A slice that does not exist has no team. -/
theorem slice_absent (s : State) {n : Nat} (h : ¬ n < s.slices.length) : s.slice n = { lsl := n, st := 4 } := by
  simp [State.slice, List.getD, List.getElem?_eq_none (Nat.le_of_not_lt h)]

/-- Changing the team of one name: the first team of that name changes, every other search finds what it found. -/
theorem find_modTeam (ts : List Team) (id k : Nat) (f : Team → Team) (hf : ∀ t, (f t).id = t.id) :
    (ts.map fun t => if t.id = id then f t else t).find? (·.id == k)
      = (ts.find? (·.id == k)).map fun t => if t.id = id then f t else t := by
  induction ts with
  | nil => rfl
  | cons t ts ih =>
    simp only [List.map_cons, List.find?_cons]
    by_cases h : t.id = id
    · simp only [h, if_true, hf]
      by_cases hk : id = k
      · simp [hk ▸ h, hk]
      · have : (id == k) = false := by simpa using hk
        simp [this, ih]
    · simp only [h, if_false]
      by_cases hk : t.id = k
      · subst hk; simp [h]
      · have : (t.id == k) = false := by simpa using hk
        simp [this, ih]

theorem team_view {s : State} {v : View} (h : s.view = some v) :
    s.cur = some v.cur ∧ v.cur.slice < s.slices.length ∧ v.sl = s.slice v.cur.slice
      ∧ (s.slice v.cur.slice).team v.cur.team = some v.tm ∧ v.tm.warp v.cur.warp = some v.wp
      ∧ v.wp.front[v.cur.split]? = some v.sp := by
  unfold State.view at h
  split at h
  · cases h
  rename_i c hc
  split at h
  · cases h
  rename_i t ht
  split at h
  · cases h
  rename_i w hw
  split at h
  · cases h
  rename_i p hp
  cases h
  refine ⟨hc, ?_, rfl, ht, hw, hp⟩
  by_cases hl : c.slice < s.slices.length
  · exact hl
  · rw [slice_absent s hl] at ht
    simp [Slice.team] at ht

theorem scratch_find (ts : List Team) (id k i : Nat) (w : Warp) :
    ((ts.map fun t => if t.id = id then t.modWarp i (fun _ => w) else t).find? (·.id == k)).map (·.scratch)
      = (ts.find? (·.id == k)).map (·.scratch) := by
  rw [find_modTeam ts id k (fun t => t.modWarp i fun _ => w) (fun _ => rfl), Option.map_map]
  congr 1
  funext t
  simp only [Function.comp]
  split <;> rfl

/-- Putting the acting warp back changes that warp and nothing else. -/
theorem onlyWarp_put {s : State} {v : View} (h : s.view = some v) (w : Warp) : OnlyWarp s v w (s.putWarp v w) := by
  obtain ⟨-, hn, hsl, ht, hw, -⟩ := team_view h
  have hsame : ∀ t : Team, (t.modWarp v.ref.warp fun _ => w).id = t.id := fun _ => rfl
  refine ⟨rfl, ?_, fun _ => rfl, ?_, ?_⟩
  · simp only [State.warp, State.putWarp, State.modWarp, State.modTeam, View.ref, Cursor.ref] at *
    rw [slice_modSlice s _ hn]
    have := find_modTeam (s.slice v.cur.slice).teams v.cur.team v.cur.team (fun t => t.modWarp v.cur.warp fun _ => w) (fun _ => rfl)
    simp only [Slice.team, Slice.modTeam] at *
    rw [this, ht]
    have hid : v.tm.id = v.cur.team := by have := List.find?_some ht; simpa using this
    simp [hid, Team.warp, Team.modWarp, lmod_get]
    simp only [Team.warp] at hw
    simp [hw]
  · intro n id a
    by_cases hc : n = v.cur.slice
    · subst hc
      congr 1
      simp only [State.scratchOf, State.putWarp, State.modWarp, State.modTeam, View.ref, Cursor.ref]
      rw [slice_modSlice s _ hn]
      simp only [Slice.modTeam, List.find?_append]
      have := scratch_find (s.slice v.cur.slice).teams v.cur.team id v.cur.warp w
      cases h1 : (s.slice v.cur.slice).teams.find? (·.id == id) with
      | none => rw [h1] at this; simp only [Option.map_none, Option.map_eq_none_iff] at this; rw [this]
      | some t1 =>
        rw [h1] at this
        simp only [Option.map_some, Option.map_eq_some_iff] at this
        obtain ⟨t2, h2, h3⟩ := this
        rw [h2]; simp [h3]
    · congr 1
      simp only [State.scratchOf, State.putWarp, State.modWarp, State.modTeam, View.ref, Cursor.ref]
      rw [slice_modSlice_ne s _ hc]
  · intro r hr
    simp only [State.warp, State.putWarp, State.modWarp, State.modTeam, View.ref, Cursor.ref]
    by_cases hc : r.slice = v.cur.slice
    · rw [hc, slice_modSlice s _ hn]
      simp only [Slice.team, Slice.modTeam]
      rw [find_modTeam _ _ _ (fun t => t.modWarp v.cur.warp fun _ => w) (fun _ => rfl)]
      cases h1 : (s.slice v.cur.slice).teams.find? (·.id == r.team) with
      | none => rfl
      | some t1 =>
        have hid : t1.id = r.team := by have := List.find?_some h1; simpa using this
        simp only [Option.map_some, Option.bind_some]
        split
        · rename_i he
          simp only [Team.warp, Team.modWarp]
          apply lmod_get_ne
          intro hwp
          apply hr
          cases r
          simp_all [View.ref, Cursor.ref]
        · rfl
    · rw [slice_modSlice_ne s _ hc]

end Sys2Proof.Machine
end

