-- ==== Sys2Proof/Laws/Move.lean ====
section
/-! SUPPORT. What completing an instruction does to the counters of the warp's lanes (01 R9, R12, R13). -/

namespace Sys2Proof.Machine

theorem oneBit (l i : Nat) (hl : l < 32) : (BitVec.ofNat 32 (2 ^ l)).getLsbD i = decide (i = l) := by
  rw [BitVec.getLsbD_ofNat, Nat.testBit_two_pow]
  by_cases h : i = l
  · subst h; simp [hl]
  · simp [h, Ne.symm h]

theorem maskOf_go (f : Nat → Bool) (ls : List Nat) (hls : ∀ l ∈ ls, l < 32) (a : Mask) (i : Nat) :
    bit (ls.foldl (fun a l => if f l then a ||| BitVec.ofNat 32 (2 ^ l) else a) a) i = (bit a i || (ls.contains i && f i)) := by
  induction ls generalizing a with
  | nil => simp
  | cons l ls ih =>
    have hl : l < 32 := hls l (by simp)
    simp only [List.foldl_cons]
    rw [ih (fun k hk => hls k (by simp [hk]))]
    by_cases hf : f l = true
    · rw [if_pos hf]
      simp only [bit, BitVec.getLsbD_or, oneBit l i hl, List.contains_cons]
      by_cases hi : i = l
      · subst hi; simp [hf]
      · have : (i == l) = false := by simpa using hi
        simp [hi, this]
    · rw [if_neg hf]
      simp only [List.contains_cons]
      by_cases hi : i = l
      · subst hi; simp [hf]
      · have : (i == l) = false := by simpa using hi
        simp [this]

/-- A mask built lane by lane holds the lanes it was told to. -/
theorem bit_maskOf (f : Nat → Bool) (i : Nat) : bit (maskOf f) i = (decide (i < 32) && f i) := by
  unfold maskOf
  rw [maskOf_go f (List.range 32) (fun l hl => List.mem_range.1 hl)]
  have : (List.range 32).contains i = decide (i < 32) := by
    by_cases h : i < 32
    · simp [h]
    · simp [h]
  rw [this]
  simp [bit]

theorem mem_laneList (m : Mask) (l : Nat) : l ∈ laneList m ↔ l < 32 ∧ bit m l = true := by
  simp [laneList, List.mem_filter]

theorem bit_lt {m : Mask} {l : Nat} (h : bit m l = true) : l < 32 := by
  have := BitVec.lt_of_getLsbD (x := m) (i := l) h
  exact this

/-- A list of splits stands for a partial map of lanes to counters. -/
def Stands (ps : List Split) (P : Nat → DWord → Prop) : Prop := apart ps ∧ ∀ l pc, At ps l pc ↔ P l pc

theorem Stands.append {a b : List Split} {P Q : Nat → DWord → Prop} (ha : Stands a P) (hb : Stands b Q)
    (hd : ∀ l p q, P l p → Q l q → False) : Stands (a ++ b) (fun l pc => P l pc ∨ Q l pc) := by
  refine ⟨⟨List.pairwise_append.2 ⟨ha.1.1, hb.1.1, ?_⟩, ?_⟩, ?_⟩
  · intro x hx y hy
    apply BitVec.eq_of_getLsbD_eq
    intro i hi
    simp only [BitVec.getLsbD_and, zero_lane]
    cases h1 : x.mask.getLsbD i with
    | false => simp
    | true =>
      cases h2 : y.mask.getLsbD i with
      | false => simp
      | true => exact absurd (hd i x.pc y.pc ((ha.2 i x.pc).1 ⟨x, hx, h1, rfl⟩) ((hb.2 i y.pc).1 ⟨y, hy, h2, rfl⟩)) id
  · intro p hp
    rcases List.mem_append.1 hp with h | h
    · exact ha.1.2 p h
    · exact hb.1.2 p h
  · intro l pc
    show At (a ++ b) l pc ↔ P l pc ∨ Q l pc
    rw [← ha.2, ← hb.2]
    simp only [At, List.mem_append]
    constructor
    · rintro ⟨p, hp | hp, h⟩
      · exact .inl ⟨p, hp, h⟩
      · exact .inr ⟨p, hp, h⟩
    · rintro (⟨p, hp, h⟩ | ⟨p, hp, h⟩)
      · exact ⟨p, .inl hp, h⟩
      · exact ⟨p, .inr hp, h⟩

theorem Stands.keeps {a b : List Split} {P : Nat → DWord → Prop} (h : Stands a P) (k : Keeps a b) : Stands b P :=
  ⟨(k h.1).1, fun l pc => ((k h.1).2 l pc).trans (h.2 l pc)⟩

/-- Taking repeats out leaves none. -/
theorem eraseDups_nodup_of (n : Nat) (l : List DWord) (h : l.length ≤ n) : l.eraseDups.Nodup := by
  induction n generalizing l with
  | zero => cases l with
    | nil => simp
    | cons x l => simp at h
  | succ n ih =>
    cases l with
    | nil => simp
    | cons x l =>
      rw [List.eraseDups_cons, List.nodup_cons]
      refine ⟨?_, ih _ (Nat.le_trans (List.length_filter_le _ _) (by simpa using h))⟩
      rw [List.mem_eraseDups, List.mem_filter]
      simp

theorem eraseDups_nodup (l : List DWord) : l.eraseDups.Nodup := eraseDups_nodup_of l.length l (Nat.le_refl _)

/-- Splits made of lanes that share their new counters. -/
theorem stands_new (pcOf : Nat → DWord) (ls : List Nat) (hls : ∀ l ∈ ls, l < 32) (mk : List Nat → DWord → Split)
    (hpc : ∀ pc, (mk ls pc).pc = pc) (hm : ∀ pc, (mk ls pc).mask = maskOf fun l => ls.contains l && pcOf l == pc) :
    Stands ((counters pcOf ls).map (mk ls)) (fun l pc => l ∈ ls ∧ pcOf l = pc) := by
  have hbit : ∀ pc l, bit (mk ls pc).mask l = true ↔ l ∈ ls ∧ pcOf l = pc := by
    intro pc l
    rw [hm, bit_maskOf]
    simp only [Bool.and_eq_true, decide_eq_true_eq, List.contains_iff_mem, beq_iff_eq]
    exact ⟨fun h => h.2, fun h => ⟨hls l h.1, h⟩⟩
  refine ⟨⟨?_, ?_⟩, ?_⟩
  · rw [List.pairwise_map]
    have hnd : (counters pcOf ls).Nodup := eraseDups_nodup _
    refine hnd.imp ?_
    intro a b hab
    apply BitVec.eq_of_getLsbD_eq
    intro i hi
    simp only [BitVec.getLsbD_and, zero_lane]
    cases h1 : (mk ls a).mask.getLsbD i with
    | false => simp
    | true =>
      cases h2 : (mk ls b).mask.getLsbD i with
      | false => simp
      | true => exact absurd (((hbit a i).1 h1).2.symm.trans ((hbit b i).1 h2).2) hab
  · intro p hp h0
    obtain ⟨pc, hpc', rfl⟩ := List.mem_map.1 hp
    obtain ⟨l, hl, hlp⟩ := List.mem_map.1 (List.mem_eraseDups.1 hpc')
    have := (hbit pc l).2 ⟨hl, hlp⟩
    rw [h0] at this
    simp [bit] at this
  · intro l pc
    simp only [At, List.mem_map]
    constructor
    · rintro ⟨p, ⟨c, hc, rfl⟩, hb, he⟩
      rw [hpc] at he
      subst he
      exact (hbit _ _).1 hb
    · rintro ⟨hl, he⟩
      refine ⟨mk ls pc, ⟨pc, ?_, rfl⟩, (hbit _ _).2 ⟨hl, he⟩, hpc pc⟩
      exact List.mem_eraseDups.2 (List.mem_map.2 ⟨l, hl, he⟩)

theorem settle_fields (marked : DWord → Bool) (w : Warp) :
    Warp.settle marked w = { w with front := (Warp.settle marked w).front, wait := (Warp.settle marked w).wait } := rfl

/-- Settling keeps what the splits stand for. -/
theorem settleFrom_stands {marked : DWord → Bool} {old : List Split} {w : Warp} {P : Nat → DWord → Prop}
    (h : Stands (w.front ++ w.wait) P) :
    Stands ((Warp.settleFrom marked old w).front ++ (Warp.settleFrom marked old w).wait) P :=
  h.keeps (settle_keeps marked old w.front w.wait)

theorem settle_stands {marked : DWord → Bool} {w : Warp} {P : Nat → DWord → Prop} (h : Stands (w.front ++ w.wait) P) :
    Stands ((Warp.settle marked w).front ++ (Warp.settle marked w).wait) P := settleFrom_stands h

/-- The splits that some lanes become hold those lanes at their new counters. -/
theorem divided_stands (sp : Split) (marked : DWord → Bool) (pcOf : Nat → DWord) (took : Nat → Bool) (ls : List Nat)
    (hls : ∀ l ∈ ls, l < 32) : Stands (sp.divided marked pcOf took ls) (fun l pc => l ∈ ls ∧ pcOf l = pc) := by
  have part : ∀ f : Nat → Bool, Stands ((counters pcOf (ls.filter f)).map (sp.moved pcOf took (ls.filter f)))
      (fun l pc => l ∈ ls.filter f ∧ pcOf l = pc) := fun f =>
    stands_new pcOf _ (fun l hl => hls l (List.mem_filter.1 hl).1) _ (fun _ => rfl) (fun _ => rfl)
  have h := (part (!sp.astray marked pcOf took ·)).append (part (sp.astray marked pcOf took)) (by
    rintro l p q ⟨a, -⟩ ⟨b, -⟩
    simp [(List.mem_filter.1 b).2] at a)
  refine ⟨h.1, fun l pc => (h.2 l pc).trans ?_⟩
  simp only [List.mem_filter, Bool.not_eq_true']
  cases sp.astray marked pcOf took l <;> simp

/-- The rest of the frontier and the waiting splits, where the moving lanes are none of theirs. -/
theorem move_stands {w : Warp} {idx : Nat} {sp : Split} {marked : DWord → Bool} {pcOf : Nat → DWord} {took : Nat → Bool}
    {P : Nat → DWord → Prop} (hrest : Stands (w.front.eraseIdx idx ++ w.wait) P)
    (hd : ∀ l pc, P l pc → bit sp.mask l = true → False) :
    Stands ((w.moveLanes idx sp marked pcOf took).front ++ (w.moveLanes idx sp marked pcOf took).wait)
      (fun l pc => (bit sp.mask l = true ∧ pcOf l = pc) ∨ P l pc) := by
  have hlt : ∀ l ∈ laneList sp.mask, l < 32 := fun l hl => ((mem_laneList _ _).1 hl).1
  have hmem : ∀ l, l ∈ laneList sp.mask ↔ bit sp.mask l = true := fun l => by
    rw [mem_laneList]; exact ⟨fun h => h.2, fun h => ⟨bit_lt h, h⟩⟩
  have part : ∀ f : Nat → Bool, Stands (sp.divided marked pcOf took ((laneList sp.mask).filter f))
      (fun l pc => l ∈ (laneList sp.mask).filter f ∧ pcOf l = pc) := fun f =>
    divided_stands sp marked pcOf took _ (fun l hl => hlt l (List.mem_filter.1 hl).1)
  unfold Warp.moveLanes
  simp only
  split
  · rename_i hback
    apply settleFrom_stands
    simp only
    let back := fun l => took l && decide ((pcOf l).toNat ≤ sp.pc.toNat)
    have h1 := (part (!back ·)).append (part back) (by
      rintro l p q ⟨a, -⟩ ⟨b, -⟩
      simp [(List.mem_filter.1 b).2] at a)
    have h2 := hrest.append h1 (by
      rintro l p q hp (⟨a, -⟩ | ⟨a, -⟩)
      · exact hd l p hp ((hmem l).1 (List.mem_filter.1 a).1)
      · exact hd l p hp ((hmem l).1 (List.mem_filter.1 a).1))
    have hne : w.wait ≠ [] := by
      intro h0; simp [h0] at hback
    obtain ⟨x, xs, hx⟩ : ∃ x xs, w.wait = x :: xs := List.exists_cons_of_ne_nil hne
    have hperm : ∀ r a b : List Split, (r ++ w.wait ++ (a ++ b)).Perm ((r ++ a ++ w.wait.head?.toList) ++ (w.wait.tail ++ b)) := by
      intro r a b
      rw [hx]
      simp only [List.head?_cons, Option.toList_some, List.tail_cons, List.append_assoc, List.cons_append, List.nil_append]
      apply List.Perm.append_left
      refine List.Perm.trans ?_ (List.perm_middle.symm)
      apply List.Perm.cons
      exact List.perm_append_comm_assoc _ _ _
    have h3 := h2.keeps (Keeps.perm (hperm _ _ _))
    refine ⟨h3.1, fun l pc => (h3.2 l pc).trans ?_⟩
    constructor
    · rintro (h | ⟨a, h⟩ | ⟨a, h⟩)
      · exact .inr h
      · exact .inl ⟨(hmem l).1 (List.mem_filter.1 a).1, h⟩
      · exact .inl ⟨(hmem l).1 (List.mem_filter.1 a).1, h⟩
    · rintro (⟨a, h⟩ | h)
      · by_cases hb : back l = true
        · exact .inr (.inr ⟨List.mem_filter.2 ⟨(hmem l).2 a, hb⟩, h⟩)
        · exact .inr (.inl ⟨List.mem_filter.2 ⟨(hmem l).2 a, by simpa using hb⟩, h⟩)
      · exact .inl h
  · apply settle_stands
    simp only
    have h2 := hrest.append (divided_stands sp marked pcOf took _ hlt) (by rintro l p q hp ⟨a, -⟩; exact hd l p hp ((hmem l).1 a))
    have hperm : ∀ (r a b : List Split), (r ++ a ++ b).Perm (r ++ b ++ a) := by
      intro r a b
      simp only [List.append_assoc]
      exact (List.perm_append_comm).append_left r
    have h3 := h2.keeps (Keeps.perm (hperm _ _ _))
    refine ⟨h3.1, fun l pc => (h3.2 l pc).trans ?_⟩
    constructor
    · rintro (h | ⟨a, h⟩)
      · exact .inr h
      · exact .inl ⟨(hmem l).1 a, h⟩
    · rintro (⟨a, h⟩ | h)
      · exact .inr ⟨(hmem l).2 a, h⟩
      · exact .inl h

theorem eraseIdx_perm {ps : List Split} {idx : Nat} {p : Split} (h : ps[idx]? = some p) : ps.Perm (p :: ps.eraseIdx idx) := by
  induction ps generalizing idx with
  | nil => simp at h
  | cons q ps ih =>
    cases idx with
    | zero => simp only [List.getElem?_cons_zero, Option.some.injEq] at h; subst h; exact List.Perm.refl _
    | succ idx =>
      simp only [List.getElem?_cons_succ] at h
      simp only [List.eraseIdx_cons_succ]
      exact ((ih h).cons q).trans (List.Perm.swap _ _ _)

/-- A split leaves the list: the others stand where they stood, on none of its lanes. -/
theorem stands_without {ps ws : List Split} {idx : Nat} {p : Split} (h : ps[idx]? = some p) (ha : apart (ps ++ ws)) :
    Stands (ps.eraseIdx idx ++ ws) (fun l pc => bit p.mask l = false ∧ At (ps ++ ws) l pc) := by
  have hperm := (eraseIdx_perm h).append_right ws
  have hk := (Keeps.perm hperm) ha
  rw [List.cons_append] at hk
  refine ⟨apart_tail hk.1, fun l pc => ?_⟩
  show At (ps.eraseIdx idx ++ ws) l pc ↔ bit p.mask l = false ∧ At (ps ++ ws) l pc
  rw [← hk.2]
  constructor
  · rintro ⟨q, hq, hb, he⟩
    refine ⟨?_, q, List.mem_cons_of_mem _ hq, hb, he⟩
    cases hp : bit p.mask l with
    | false => rfl
    | true =>
      have := congrArg (fun m => bit m l) ((List.pairwise_cons.1 hk.1.1).1 q hq)
      simp only [bit_and, hp, hb] at this
      simp [bit] at this
  · rintro ⟨hb, q, hq, hqb, he⟩
    rcases List.mem_cons.1 hq with e | e
    · subst e; rw [hb] at hqb; cases hqb
    · exact ⟨q, e, hqb, he⟩

/-- Completing an instruction takes every lane of the split to its new counter and leaves the others where they are. -/
theorem moved_moveLanes {v : View} {w : Warp} {sp : Split} (hv : v.wp.front[v.cur.split]? = some v.sp)
    (hf : w.front = v.wp.front) (hw : w.wait = v.wp.wait) (hm : sp.mask = v.sp.mask)
    (marked : DWord → Bool) (pcOf : Nat → DWord) (took : Nat → Bool) :
    Moved v (w.moveLanes v.cur.split sp marked pcOf took) pcOf := by
  intro ha l _
  have h0 := stands_without hv ha
  rw [← hf, ← hw] at h0
  have h1 := move_stands (sp := sp) (marked := marked) (pcOf := pcOf) (took := took) h0 (by
    rintro l pc ⟨hb, -⟩ hc; rw [hm, hb] at hc; cases hc)
  unfold Warp.lanePc
  apply Option.ext
  intro pc
  rw [pcIn_iff h1.1]
  refine (h1.2 l pc).trans ?_
  rw [hm, hf, hw]
  by_cases hb : bit v.sp.mask l = true
  · rw [if_pos hb]
    constructor
    · rintro (⟨-, h⟩ | ⟨h, -⟩)
      · rw [h]
      · rw [hb] at h; exact absurd h (by decide)
    · exact fun h => .inl ⟨hb, Option.some.inj h⟩
  · rw [if_neg hb, pcIn_iff ha]
    exact ⟨fun h => h.elim (fun h => absurd h.1 hb) (·.2), fun h => .inr ⟨by simpa using hb, h⟩⟩

/-- Completing an instruction changes only the splits of the warp. -/
theorem moveLanes_fields (w : Warp) (idx : Nat) (sp : Split) (marked : DWord → Bool) (pcOf : Nat → DWord) (took : Nat → Bool) :
    w.moveLanes idx sp marked pcOf took
      = { w with front := (w.moveLanes idx sp marked pcOf took).front, wait := (w.moveLanes idx sp marked pcOf took).wait } := by
  unfold Warp.moveLanes
  simp only
  split <;> rfl

end Sys2Proof.Machine
end

