-- ==== Sys2Proof/Laws/Ready.lean ====
section
/-! SUPPORT. What beginning an instruction does, said once: a ready instruction goes on to its own meaning. -/

namespace Sys2Proof.Machine

/-- A ready instruction goes on to its meaning with the acting split and its active lanes. -/
theorem start_of_ready {i : Instr} {s : State} {v : View} {act : Mask} (h : ready i s = some (v, act)) (k : View → Mask → Res) :
    start i s k = k v act := by
  unfold ready at h
  unfold start
  split at h
  · cases h
  · rename_i u hu
    simp only [hu] at h ⊢
    split at h
    · cases h
    · rename_i hn
      rw [Bool.or_eq_true, not_or] at hn
      have hp : u.wp.readP i.hdr.u i.hdr.guard.num.toNat = none := by
        cases hq : u.wp.readP i.hdr.u i.hdr.guard.num.toNat with
        | none => rfl
        | some x => simp [hq] at hn
      have hw : mustWait i u.wp u.sp.mask = false := by simpa using hn.2
      simp only [hp, hw, Bool.false_eq_true, if_false]
      split at h
      · rename_i h0
        cases h
        rw [if_pos h0]
      · rename_i h0
        split at h
        · cases h
        · rename_i hm
          cases h
          have : metOf i v (v.wp.active v.sp.mask i.hdr) = none := by
            cases hq : metOf i v (v.wp.active v.sp.mask i.hdr) with
            | none => rfl
            | some x => simp [hq] at hm
          simp only [if_neg h0, this]

theorem view_of_ready {i : Instr} {s : State} {v : View} {act : Mask} (h : ready i s = some (v, act)) : s.view = some v := by
  unfold ready at h
  split at h
  · cases h
  · rename_i u hu
    simp only at h
    split at h
    · cases h
    · split at h
      · cases h; exact hu
      · split at h
        · cases h
        · cases h; exact hu

/-- The active lanes of a ready instruction are lanes of the split. -/
theorem act_of_ready {i : Instr} {s : State} {v : View} {act : Mask} (h : ready i s = some (v, act)) :
    act = v.wp.active v.sp.mask i.hdr := by
  unfold ready at h
  split at h
  · cases h
  · rename_i u hu
    simp only at h
    split at h
    · cases h
    · split at h
      · rename_i h0; cases h; exact h0.symm
      · split at h
        · cases h
        · cases h; rfl

end Sys2Proof.Machine
end

