-- ==== Sys2Proof/Laws/Write.lean ====
section
/-! SUPPORT. What writing a result does to the registers (01 R22; 03 R93), and what completing an instruction leaves. -/

namespace Sys2Proof.Machine

/-! ### One register -/

theorem vget_vset (w : Warp) (n m : Nat) (r : VReg) :
    (w.vset n r).vget m = if m = n ∧ n < w.vregs.length then r else w.vget m := by
  simp only [Warp.vget, Warp.vset, List.getD_eq_getElem?_getD, List.getElem?_set]
  by_cases h : n = m
  · subst h
    by_cases hn : n < w.vregs.length <;> simp [hn]
  · have : ¬ m = n := fun e => h e.symm
    simp [h, this]

theorem put_lane (r : VReg) (lanes : Mask) (f : Nat → Word) {l : Nat} (hl : l < 32) :
    (r.put lanes f).words.getD l 0 = if bit lanes l then f l else r.words.getD l 0 := by
  simp [VReg.put, List.getD_eq_getElem?_getD, hl]

theorem put_bad (r : VReg) (lanes : Mask) (f : Nat → Word) {l : Nat} (hl : l < 32) :
    bit (r.put lanes f).bad l = (bit r.bad l && !bit lanes l) := by
  simp [VReg.put, bit, hl]

/-! ### Ranges of registers -/

theorem vwrite_length (w : Warp) (n : Nat) (lanes : Mask) (f : Nat → Word) : (w.vwrite n lanes f).vregs.length = w.vregs.length := by
  simp [Warp.vwrite, Warp.vset]

theorem swrite_length (w : Warp) (n : Nat) (x : Word) : (w.swrite n x).sregs.length = w.sregs.length := by simp [Warp.swrite]

theorem vget_vwrite (w : Warp) (n m : Nat) (lanes : Mask) (f : Nat → Word) :
    (w.vwrite n lanes f).vget m = if m = n ∧ n < w.vregs.length then (w.vget n).put lanes f else w.vget m := vget_vset ..

theorem sget_swrite (w : Warp) (n m : Nat) (x : Word) :
    (w.swrite n x).sget m = if m = n ∧ n < w.sregs.length then x else w.sget m := by
  simp only [Warp.swrite, Warp.sget, List.getD_eq_getElem?_getD, List.getElem?_set]
  by_cases h : n = m
  · subst h
    by_cases hn : n < w.sregs.length <;> simp [hn]
  · have : ¬ m = n := fun e => h e.symm
    simp [h, this]

theorem vwrites_length (w : Warp) (b k : Nat) (lanes : Mask) (f : Nat → Nat → Word) :
    ((List.range k).foldl (fun w i => w.vwrite (b + i) lanes (f i)) w).vregs.length = w.vregs.length := by
  induction k with
  | zero => rfl
  | succ k ih => rw [List.range_succ, List.foldl_append, List.foldl_cons, List.foldl_nil, vwrite_length, ih]

theorem swrites_length (w : Warp) (b k : Nat) (f : Nat → Word) :
    ((List.range k).foldl (fun w i => w.swrite (b + i) (f i)) w).sregs.length = w.sregs.length := by
  induction k with
  | zero => rfl
  | succ k ih => rw [List.range_succ, List.foldl_append, List.foldl_cons, List.foldl_nil, swrite_length, ih]

/-- Writing consecutive vector registers from a base. -/
theorem vwrite_range (w : Warp) (b k : Nat) (lanes : Mask) (f : Nat → Nat → Word) (m : Nat) :
    ((List.range k).foldl (fun w i => w.vwrite (b + i) lanes (f i)) w).vget m
      = if b ≤ m ∧ m < b + k ∧ m < w.vregs.length then (w.vget m).put lanes (f (m - b)) else w.vget m := by
  induction k with
  | zero => rw [if_neg (by omega)]; rfl
  | succ k ih =>
    rw [List.range_succ, List.foldl_append, List.foldl_cons, List.foldl_nil, vget_vwrite, vwrites_length]
    by_cases hm : m = b + k
    · subst hm
      have hk : ((List.range k).foldl (fun w i => w.vwrite (b + i) lanes (f i)) w).vget (b + k) = w.vget (b + k) := by
        rw [ih, if_neg (by omega)]
      by_cases hn : b + k < w.vregs.length
      · rw [if_pos ⟨rfl, hn⟩, if_pos ⟨by omega, by omega, hn⟩, hk, Nat.add_sub_cancel_left]
      · rw [if_neg (by omega), if_neg (by omega), hk]
    · rw [if_neg (by omega), ih]
      by_cases hc : b ≤ m ∧ m < b + k ∧ m < w.vregs.length
      · rw [if_pos hc, if_pos ⟨hc.1, by omega, hc.2.2⟩]
      · rw [if_neg hc, if_neg (by omega)]

/-- Writing consecutive scalar registers from a base. -/
theorem swrite_range (w : Warp) (b k : Nat) (f : Nat → Word) (m : Nat) :
    ((List.range k).foldl (fun w i => w.swrite (b + i) (f i)) w).sget m
      = if b ≤ m ∧ m < b + k ∧ m < w.sregs.length then f (m - b) else w.sget m := by
  induction k with
  | zero => rw [if_neg (by omega)]; rfl
  | succ k ih =>
    rw [List.range_succ, List.foldl_append, List.foldl_cons, List.foldl_nil, sget_swrite, swrites_length, ih]
    by_cases hm : m = b + k
    · subst hm
      by_cases hn : b + k < w.sregs.length
      · rw [if_pos ⟨rfl, hn⟩, if_pos ⟨by omega, by omega, hn⟩, Nat.add_sub_cancel_left]
      · rw [if_neg (by omega), if_neg (by omega), if_neg (by omega)]
    · rw [if_neg (by omega)]
      by_cases hc : b ≤ m ∧ m < b + k ∧ m < w.sregs.length
      · rw [if_pos hc, if_pos ⟨hc.1, by omega, hc.2.2⟩]
      · rw [if_neg hc, if_neg (by omega)]

/-- Writing vector registers touches no other kind of register, and writing scalar ones none either. -/
theorem vwrite_fields (w : Warp) (b k : Nat) (lanes : Mask) (f : Nat → Nat → Word) :
    (List.range k).foldl (fun w i => w.vwrite (b + i) lanes (f i)) w
      = { w with vregs := ((List.range k).foldl (fun w i => w.vwrite (b + i) lanes (f i)) w).vregs } := by
  induction k with
  | zero => rfl
  | succ k ih =>
    rw [List.range_succ, List.foldl_append]
    simp only [List.foldl_cons, List.foldl_nil]
    rw [ih]
    rfl

theorem swrite_fields (w : Warp) (b k : Nat) (f : Nat → Word) :
    (List.range k).foldl (fun w i => w.swrite (b + i) (f i)) w
      = { w with sregs := ((List.range k).foldl (fun w i => w.swrite (b + i) (f i)) w).sregs
                 sbad := ((List.range k).foldl (fun w i => w.swrite (b + i) (f i)) w).sbad } := by
  induction k with
  | zero => rfl
  | succ k ih =>
    rw [List.range_succ, List.foldl_append]
    simp only [List.foldl_cons, List.foldl_nil]
    rw [ih]
    rfl

theorem pget_pwrite (w : Warp) (n k : Nat) (lanes : Mask) (f : Nat → Bool) {l : Nat} (hl : l < 32) (hn : n < 7) (hk : k < 7) :
    (w.pwrite n lanes f).pget k l
      = if k = n ∧ n < w.preds.length then (if bit lanes l then f l else w.pget k l) else w.pget k l := by
  have h7 : ¬ n ≥ 7 := by omega
  have hk7 : ¬ k = 7 := by omega
  simp only [Warp.pwrite, h7, if_false, Warp.pget, hk7, List.getD_eq_getElem?_getD, List.getElem?_set]
  by_cases h : n = k
  · subst h
    by_cases hp : n < w.preds.length
    · simp [hp, bit_maskOf, hl]
    · simp [hp]
  · have : ¬ k = n := fun e => h e.symm
    simp [h, this]

theorem qget_qwrite (w : Warp) (n k : Nat) (b : Bool) (hn : n < 7) (hk : k < 7) :
    (w.qwrite n b).qget k = if k = n then b else w.qget k := by
  have h7 : ¬ n ≥ 7 := by omega
  have hk7 : ¬ k = 7 := by omega
  simp only [Warp.qwrite, h7, if_false, Warp.qget, hk7]
  have hb : (BitVec.ofNat 7 (2 ^ n)).getLsbD k = decide (k = n) := by
    rw [BitVec.getLsbD_ofNat, Nat.testBit_two_pow]
    by_cases h : k = n
    · subst h; simp [hk]
    · simp [h, Ne.symm h]
  cases b
  · simp only [Bool.false_eq_true, if_false, BitVec.getLsbD_and, BitVec.getLsbD_not, hb, hk]
    by_cases h : k = n <;> simp [h, hk]
  · simp only [if_true, BitVec.getLsbD_or, hb]
    by_cases h : k = n <;> simp [h]

/-- Nothing is written where the destination is none, or the write is off. -/
theorem wrote_none (w : Warp) (h : Hdr) (act : Mask) (vals : Nat → List Word)
    (hoff : act = 0 ∨ h.ws = true ∨ h.dst = .none) : Wrote w h act vals w := by
  have hno : ∀ P : Prop, (P → ¬ h.dst = .none) → ¬ ((act ≠ 0 ∧ h.ws = false) ∧ P) := by
    rintro P hP ⟨⟨h1, h2⟩, h3⟩
    rcases hoff with e | e | e
    · exact h1 e
    · rw [h2] at e; cases e
    · exact hP h3 e
  refine ⟨?_, fun _ _ _ _ => ⟨rfl, rfl⟩, fun _ _ => rfl, ?_, fun _ _ => rfl, ?_, fun _ _ _ _ _ => rfl, ?_, fun _ _ _ => rfl⟩
  · intro n l _ ho hv; exact absurd ⟨ho, hv⟩ (hno _ fun h => by rw [h.1]; simp)
  · intro k ho hv; exact absurd ⟨ho, hv⟩ (hno _ fun h => by rw [h.1]; simp)
  · intro k l _ ho _ hv; exact absurd ⟨ho, hv⟩ (hno _ fun h => by rw [h]; simp)
  · intro k ho _ hv; exact absurd ⟨ho, hv⟩ (hno _ fun h => by rw [h]; simp)

/-- Writing a result writes what it says and nothing else. -/
theorem wrote_writeDst (w : Warp) (h : Hdr) (act : Mask) (vals : Nat → List Word) : Wrote w h act vals (w.writeDst h act vals) := by
  unfold Warp.writeDst
  by_cases hon : act ≠ 0 ∧ h.ws = false
  · have h0 : ¬ ((act == 0 || h.ws) = true) := by
      simp only [Bool.or_eq_true, beq_iff_eq, not_or]
      exact ⟨hon.1, by simp [hon.2]⟩
    have hc : ¬ ((decide (act = 0) || h.ws) = true) := by simpa using h0
    rw [if_neg hc]
    simp only
    cases hd : h.dst with
    | none => exact wrote_none w h act vals (.inr (.inr hd))
    | vec n =>
      have hv := vwrite_range w n.toNat (vals (leadLane act)).length act (fun i l => (vals l).getD i 0)
      have hf := vwrite_fields w n.toNat (vals (leadLane act)).length act (fun i l => (vals l).getD i 0)
      dsimp only at hv hf ⊢
      generalize (List.range (vals (leadLane act)).length).foldl (fun w i => w.vwrite (n.toNat + i) act fun l => (vals l).getD i 0) w = u at *
      have hs : ∀ k, u.sget k = w.sget k := fun k => by rw [hf]; rfl
      have hp : ∀ k l, u.pget k l = w.pget k l := fun k l => by rw [hf]; rfl
      have hq : ∀ k, u.qget k = w.qget k := fun k => by rw [hf]; rfl
      simp only [Wrote, vecDst, scalDst, hd, Dst.num, true_and]
      refine ⟨?_, ?_, ?_, fun k _ h => absurd h.1 (by simp), fun k _ => hs k, fun k l _ _ _ h => absurd h (by simp), fun k l _ _ _ => hp k l,
        fun k _ _ h => absurd h (by simp), fun k _ _ => hq k⟩
      · intro m l hl _ hm hlen hb
        have e := hv m
        rw [if_pos ⟨hm.1, hm.2, hlen⟩] at e
        refine ⟨?_, by rw [e]; rfl, ?_⟩
        · simp only [Warp.vlane]; rw [e, put_lane _ _ _ hl, if_pos hb]
        · rw [e, put_bad _ _ _ hl, hb]; simp
      · intro m l hl hnot
        have e := hv m
        by_cases hin : n.toNat ≤ m ∧ m < n.toNat + (vals (leadLane act)).length ∧ m < w.vregs.length
        · rw [if_pos hin] at e
          have hb : bit act l = false := by
            cases hb : bit act l with
            | false => rfl
            | true => exact absurd ⟨hon, ⟨hin.1, hin.2.1⟩, hb⟩ hnot
          simp only [Warp.vlane]
          rw [e, put_lane _ _ _ hl, put_bad _ _ _ hl, hb]
          simp
        · rw [if_neg hin] at e
          simp only [Warp.vlane, e, and_self]
      · intro m hnot
        have e := hv m
        rw [if_neg (fun hin => hnot ⟨hon, hin.1, hin.2.1⟩)] at e
        exact e
    | scal n =>
      have hv := swrite_range w n.toNat (vals (leadLane act)).length (fun i => (vals (leadLane act)).getD i 0)
      have hf := swrite_fields w n.toNat (vals (leadLane act)).length (fun i => (vals (leadLane act)).getD i 0)
      dsimp only at hv hf ⊢
      generalize (List.range (vals (leadLane act)).length).foldl (fun w i => w.swrite (n.toNat + i) ((vals (leadLane act)).getD i 0)) w = u at *
      have hs : ∀ k, u.vget k = w.vget k := fun k => by rw [hf]; rfl
      have hp : ∀ k l, u.pget k l = w.pget k l := fun k l => by rw [hf]; rfl
      have hq : ∀ k, u.qget k = w.qget k := fun k => by rw [hf]; rfl
      simp only [Wrote, vecDst, scalDst, hd, Dst.num, true_and]
      refine ⟨fun _ _ _ _ h => absurd h.1 (by simp), fun _ l _ _ => ⟨by simp only [Warp.vlane, hs], by rw [hs]⟩, fun m _ => hs m, ?_, ?_,
        fun k l _ _ _ h => absurd h (by simp), fun k l _ _ _ => hp k l, fun k _ _ h => absurd h (by simp), fun k _ _ => hq k⟩
      · intro k _ hm hlen
        rw [hv, if_pos ⟨hm.1, hm.2, hlen⟩]
      · intro k hnot
        rw [hv, if_neg (fun hin => hnot ⟨hon, hin.1, hin.2.1⟩)]
    | pred n =>
      simp only [Wrote, vecDst, scalDst, hd, Dst.num]
      by_cases hu : h.u = true
      · have hq : ∀ k, k < 7 → n.toNat < 7 → (w.qwrite n.toNat ((vals (leadLane act)).getD 0 0 != 0)).qget k
            = if k = n.toNat then ((vals (leadLane act)).getD 0 0 != 0) else w.qget k := fun k hk hn => qget_qwrite w _ _ _ hn hk
        have hn7 : ¬ n.toNat < 7 → w.qwrite n.toNat ((vals (leadLane act)).getD 0 0 != 0) = w := fun hn => by
          simp [Warp.qwrite, Nat.le_of_not_lt hn]
        have hv : ∀ k, (w.qwrite n.toNat ((vals (leadLane act)).getD 0 0 != 0)).vget k = w.vget k := fun k => by
          simp only [Warp.qwrite]; split <;> rfl
        have hs : ∀ k, (w.qwrite n.toNat ((vals (leadLane act)).getD 0 0 != 0)).sget k = w.sget k := fun k => by
          simp only [Warp.qwrite]; split <;> rfl
        have hp : ∀ k l, (w.qwrite n.toNat ((vals (leadLane act)).getD 0 0 != 0)).pget k l = w.pget k l := fun k l => by
          simp only [Warp.qwrite]; split <;> rfl
        have hq7 : ∀ k, 7 ≤ k → (w.qwrite n.toNat ((vals (leadLane act)).getD 0 0 != 0)).qget k = w.qget k := fun k hk => by
          simp only [Warp.qwrite]
          split
          · rfl
          · simp only [Warp.qget]
            split
            · rfl
            · rw [BitVec.getLsbD_of_ge _ _ hk, BitVec.getLsbD_of_ge _ _ hk]
        rw [hu]
        simp only [if_true]
        generalize w.qwrite n.toNat ((vals (leadLane act)).getD 0 0 != 0) = u at *
        refine ⟨fun _ _ _ _ h => absurd h.1 (by simp), fun _ l _ _ => ⟨by simp only [Warp.vlane, hv], by rw [hv]⟩, fun m _ => hv m,
          fun _ _ h => absurd h.1 (by simp), fun k _ => hs k, fun k l _ _ h => absurd h (by simp), fun k l _ _ _ => hp k l, ?_, ?_⟩
        · intro k _ _ he hk
          have he : n = BitVec.ofNat 8 k := Dst.pred.inj he
          have hn : n.toNat = k := by rw [he, BitVec.toNat_ofNat]; omega
          rw [hq k hk (hn ▸ hk), if_pos hn.symm]
        · intro k hnot hk
          by_cases hk7 : k < 7
          · by_cases hn : n.toNat < 7
            · rw [hq k hk7 hn, if_neg]
              intro he
              apply hnot
              refine ⟨hon, trivial, ?_, hk7⟩
              rw [he]; simp
            · rw [hn7 hn]
          · exact hq7 k (by omega)
      · have hu : h.u = false := by simpa using hu
        rw [hu]
        have hn7 : ¬ n.toNat < 7 → w.pwrite n.toNat act (fun l => (vals l).getD 0 0 != 0) = w := fun hn => by
          simp [Warp.pwrite, Nat.le_of_not_lt hn]
        have hv : ∀ k, (w.pwrite n.toNat act (fun l => (vals l).getD 0 0 != 0)).vget k = w.vget k := fun k => by
          simp only [Warp.pwrite]; split <;> rfl
        have hs : ∀ k, (w.pwrite n.toNat act (fun l => (vals l).getD 0 0 != 0)).sget k = w.sget k := fun k => by
          simp only [Warp.pwrite]; split <;> rfl
        have hq : ∀ k, (w.pwrite n.toNat act (fun l => (vals l).getD 0 0 != 0)).qget k = w.qget k := fun k => by
          simp only [Warp.pwrite]; split <;> rfl
        have hp := fun (k l : Nat) (hl : l < 32) (hn : n.toNat < 7) (hk : k < 7) => pget_pwrite w n.toNat k act (fun l => (vals l).getD 0 0 != 0) hl hn hk
        have hp7 : ∀ k l, 7 ≤ k → (w.pwrite n.toNat act (fun l => (vals l).getD 0 0 != 0)).pget k l = w.pget k l := fun k l hk => by
          simp only [Warp.pwrite]
          split
          · rfl
          · simp only [Warp.pget]
            split
            · rfl
            · simp only [List.getD_eq_getElem?_getD, List.getElem?_set]
              rw [if_neg (by omega)]
        simp only [Bool.false_eq_true, if_false]
        generalize w.pwrite n.toNat act (fun l => (vals l).getD 0 0 != 0) = u at *
        refine ⟨fun _ _ _ _ h => absurd h.1 (by simp), fun _ l _ _ => ⟨by simp only [Warp.vlane, hv], by rw [hv]⟩, fun m _ => hv m,
          fun _ _ h => absurd h.1 (by simp), fun k _ => hs k, ?_, ?_, fun k _ h => absurd h (by simp), fun k _ _ => hq k⟩
        · intro k l hl _ _ he hk hlen hb
          have he : n = BitVec.ofNat 8 k := Dst.pred.inj he
          have hn : n.toNat = k := by rw [he, BitVec.toNat_ofNat]; omega
          rw [hp k l hl (hn ▸ hk) hk, if_pos ⟨hn.symm, hn ▸ hlen⟩, if_pos hb]
        · intro k l hl hnot hk
          by_cases hk7 : k < 7
          · by_cases hn : n.toNat < 7
            · rw [hp k l hl hn hk7]
              split
              · rename_i hc
                rw [if_neg]
                intro hb
                apply hnot
                refine ⟨hon, trivial, ?_, hk7, hb⟩
                rw [hc.1]; simp
              · rfl
            · rw [hn7 hn]
          · exact hp7 k l (by omega)
  · have h0 : (decide (act = 0) || h.ws) = true := by
      by_cases ha : act = 0
      · simp [ha]
      · have : h.ws = true := by
          cases hw : h.ws with
          | true => rfl
          | false => exact absurd ⟨ha, hw⟩ hon
        simp [this]
    rw [if_pos h0]
    apply wrote_none
    by_cases ha : act = 0
    · exact .inl ha
    · cases hw : h.ws with
      | true => exact .inr (.inl rfl)
      | false => exact absurd ⟨ha, hw⟩ hon

/-- Writing a result leaves what is no register as it was. -/
theorem writeDst_onlyRegs (w : Warp) (h : Hdr) (act : Mask) (vals : Nat → List Word) :
    w.writeDst h act vals = { w with
      vregs := (w.writeDst h act vals).vregs
      sregs := (w.writeDst h act vals).sregs
      sbad := (w.writeDst h act vals).sbad
      preds := (w.writeDst h act vals).preds
      pbad := (w.writeDst h act vals).pbad
      qpreds := (w.writeDst h act vals).qpreds } := by
  unfold Warp.writeDst
  split
  · rfl
  · simp only
    split
    · rfl
    · rw [vwrite_fields]
    · rw [swrite_fields]
    · split
      · simp only [Warp.qwrite]; split <;> rfl
      · simp only [Warp.pwrite]; split <;> rfl

/-! ### Completing an instruction -/

theorem wrote_splits {w w' : Warp} {h : Hdr} {act : Mask} {vals : Nat → List Word} (hw : Wrote w h act vals w') (f q : List Split) :
    Wrote w h act vals { w' with front := f, wait := q } := hw

/-- Completing an instruction with a result in a warp that is the acting one but for what the instruction set in it. -/
theorem acted_retireTo {s : State} {v : View} (hv : s.view = some v) (w : Warp) (hf : w.front = v.wp.front) (hq : w.wait = v.wp.wait)
    (h : Hdr) (act : Mask) (vals : Nat → List Word) (sp : Split) (hm : sp.mask = v.sp.mask) (pcOf : Nat → DWord) (took : Nat → Bool) :
    Acted s v w h act vals pcOf (s.retireTo v (w.writeDst h act vals) sp pcOf took) := by
  have hr := writeDst_onlyRegs w h act vals
  have hmv := moveLanes_fields (w.writeDst h act vals) v.cur.split { sp with hold := .none } (v.marked s) pcOf took
  have hwf : (w.writeDst h act vals).front = v.wp.front := by rw [hr]; exact hf
  have hww : (w.writeDst h act vals).wait = v.wp.wait := by rw [hr]; exact hq
  refine ⟨_, onlyWarp_put hv _, ?_, ?_, moved_moveLanes (team_view hv).2.2.2.2.2 hwf hww hm _ pcOf took⟩
  · unfold OnlyRegs
    rw [hmv]
    generalize ((w.writeDst h act vals).moveLanes v.cur.split { sp with hold := .none } (v.marked s) pcOf took).front = f
    generalize ((w.writeDst h act vals).moveLanes v.cur.split { sp with hold := .none } (v.marked s) pcOf took).wait = q
    rw [hr]
  · rw [hmv]
    exact wrote_splits (wrote_writeDst w h act vals) _ _

/-- Completing an instruction with a result. -/
theorem acted_result {s : State} {v : View} (hv : s.view = some v) (w : Warp) (hf : w.front = v.wp.front) (hq : w.wait = v.wp.wait)
    (h : Hdr) (act : Mask) (vals : Nat → List Word) : Acted s v w h act vals (fun _ => nextPc v.sp.pc) (s.result v w h act vals) :=
  acted_retireTo hv w hf hq h act vals (v.sp.latch _) rfl _ _

end Sys2Proof.Machine
end

