-- ==== Sys2Proof/Laws/Alu.lean ====
section
/-! SUPPORT. What a register-to-register instruction does, said once (01 R37-R39): a result without flags, and one with flags. -/

namespace Sys2Proof.Machine

theorem raise_none (w : Warp) : w.raise 0 = w := by
  have : w.fpstat ||| (0 : Flags).setWidth 32 = w.fpstat := by
    rw [show ((0 : Flags).setWidth 32 : Word) = 0 from rfl]; exact BitVec.or_zero
  simp only [Warp.raise, this]

theorem or_all_zero {ls : List Nat} {f : Nat → Flags} (h : ∀ l ∈ ls, f l = 0) (a : Flags) : ls.foldl (fun a l => a ||| f l) a = a := by
  induction ls generalizing a with
  | nil => rfl
  | cons l ls ih =>
    rw [List.foldl_cons, h l (by simp), show a ||| (0 : Flags) = a from BitVec.or_zero]
    exact ih (fun k hk => h k (by simp [hk])) a

theorem and_or_zero {ls : List Nat} {f : Nat → Flags} {e : Flags} (h : ∀ l ∈ ls, f l &&& e = 0) (a : Flags) (ha : a &&& e = 0) :
    ls.foldl (fun a l => a ||| f l) a &&& e = 0 := by
  induction ls generalizing a with
  | nil => exact ha
  | cons l ls ih =>
    rw [List.foldl_cons]
    refine ih (fun k hk => h k (by simp [hk])) _ ?_
    rw [BitVec.and_or_distrib_right, ha, h l (by simp)]
    rfl

/-- No enabled flag, no trap (01 R39). -/
theorem fpTrap_none {w : Warp} {ls : List Nat} {fl : Nat → Flags} (h : ∀ l ∈ ls, fl l &&& w.enables = 0) : fpTrap w ls fl = none := by
  have h0 : lowFlag (ls.foldl (fun a l => a ||| fl l) 0 &&& w.enables) = none := by
    rw [and_or_zero h 0 BitVec.zero_and]
    rfl
  simp only [fpTrap, h0]

/-- An operation whose lanes trap on nothing sets its flags. -/
theorem aluFlags_quiet {w : Warp} {h : Hdr} {act : Mask} {out : Nat → AluOut} (hq : Quiet w h act out) :
    aluFlags w h act out = .ok (w.raise (raised h act out)) := by
  unfold aluFlags
  have h1 : (execLanes h act).find? (fun l => (out l).event) = none := by
    rw [List.find?_eq_none]
    intro l hl
    simp [(hq l hl).1]
  simp only [h1, fpTrap_none (fun l hl => (hq l hl).2)]
  rfl

theorem finish_quiet {s : State} {v : View} {h : Hdr} {words : Nat} {act : Mask} {out : Nat → AluOut} (hq : Quiet v.wp h act out) :
    finishAlu s v h words act out = .next (s.result v (v.wp.raise (raised h act out)) h act (outWords words out)) := by
  simp only [finishAlu, aluFlags_quiet hq]

/-- An operation without flags leaves FPSTAT as it was. -/
theorem finish_plain {s : State} {v : View} {h : Hdr} {words : Nat} {act : Mask} {out : Nat → AluOut}
    (hf : ∀ l, (out l).fl = 0 ∧ (out l).quiet = 0 ∧ (out l).event = false) :
    finishAlu s v h words act out = .next (s.result v v.wp h act (outWords words out)) := by
  have hq : Quiet v.wp h act out := fun l _ => ⟨(hf l).2.2, by rw [(hf l).1]; exact BitVec.zero_and⟩
  have hr : raised h act out = 0 := by
    unfold raised
    have : ∀ l ∈ execLanes h act, (out l).fl ||| (out l).quiet = 0 := fun l _ => by rw [(hf l).1, (hf l).2.1]; rfl
    have h2 := or_all_zero (f := fun l => (out l).fl ||| (out l).quiet) this 0
    simpa [BitVec.or_assoc] using h2
  rw [finish_quiet hq, hr, raise_none]

theorem val1_plain (f : DWord → DWord) (w : Warp) (l : Nat) (xs : List DWord) :
    (val1 f w l xs).fl = 0 ∧ (val1 f w l xs).quiet = 0 ∧ (val1 f w l xs).event = false := by
  rcases xs with _ | ⟨a, _⟩ <;> exact ⟨rfl, rfl, rfl⟩

theorem val2_plain (f : DWord → DWord → DWord) (w : Warp) (l : Nat) (xs : List DWord) :
    (val2 f w l xs).fl = 0 ∧ (val2 f w l xs).quiet = 0 ∧ (val2 f w l xs).event = false := by
  rcases xs with _ | ⟨a, _ | ⟨b, _⟩⟩ <;> exact ⟨rfl, rfl, rfl⟩

theorem val3_plain (f : DWord → DWord → DWord → DWord) (w : Warp) (l : Nat) (xs : List DWord) :
    (val3 f w l xs).fl = 0 ∧ (val3 f w l xs).quiet = 0 ∧ (val3 f w l xs).event = false := by
  rcases xs with _ | ⟨a, _ | ⟨b, _ | ⟨c, _⟩⟩⟩ <;> exact ⟨rfl, rfl, rfl⟩

/-- An instruction that finishes with a result completes. -/
theorem completes_of {i : Instr} {vals : View → Mask → Nat → List Word}
    (h : ∀ s v act, ready i s = some (v, act) → exec i s = .next (s.result v v.wp i.hdr act (vals v act))) : Completes i vals :=
  fun s v act hr => ⟨_, h s v act hr, acted_result (view_of_ready hr) v.wp rfl rfl i.hdr act (vals v act)⟩

/-- An instruction that writes no register and goes on completes. -/
theorem acted_done {s : State} {v : View} (hv : s.view = some v) (w : Warp) (hf : w.front = v.wp.front) (hq : w.wait = v.wp.wait)
    (h : Hdr) (hd : h.dst = .none) (act : Mask) (vals : Nat → List Word) :
    Acted s v w h act vals (fun _ => nextPc v.sp.pc) (s.done v w) := by
  have hw : w.writeDst h act vals = w := by
    unfold Warp.writeDst
    rw [hd]
    split <;> rfl
  have := acted_retireTo hv w hf hq h act vals (v.sp.latch fun _ => 0) rfl (fun _ => nextPc v.sp.pc) (fun _ => false)
  rw [hw] at this
  exact this

theorem completesBare_of {i : Instr} (h : ∀ s v act, ready i s = some (v, act) → exec i s = .next (s.done v v.wp)) : CompletesBare i :=
  fun s v act hr => ⟨_, h s v act hr, acted_done (view_of_ready hr) v.wp rfl rfl _ rfl act _⟩

/-- A register-to-register instruction without flags completes with its words. -/
theorem completes_alu {i : Instr} {g : Sig} (hg : i.sig = some g) {f : Warp → Nat → List DWord → AluOut}
    (he : ∀ s, exec i s = alu i f s) {vals : View → Mask → Nat → List Word}
    (hf : ∀ w l xs, (f w l xs).fl = 0 ∧ (f w l xs).quiet = 0 ∧ (f w l xs).event = false)
    (hv : ∀ v act l, outWords g.words (fun l => f v.wp l (operandsOf i v act l)) l = vals v act l) : Completes i vals := by
  apply completes_of
  intro s v act hr
  rw [he, alu, start_of_ready hr]
  simp only [hg]
  rw [finish_plain (fun l => hf _ _ _)]
  congr 2
  funext l
  exact hv v act l

/-- The words of a 32-bit or 64-bit answer. -/
def answer (words : Nat) (d : DWord) : List Word := if words = 2 then twoWords d else [loWord d]

/-- An instruction of one, two or three sources that only gives a value. -/
theorem completes_val1 {i : Instr} {g : Sig} (hg : i.sig = some g) (f : DWord → DWord) (he : ∀ s, exec i s = alu i (val1 f) s)
    (ho : ∀ v act l, operandsOf i v act l = [longA i v act l]) {vals : View → Mask → Nat → List Word}
    (hv : ∀ v act l, answer g.words (f (longA i v act l)) = vals v act l) : Completes i vals :=
  completes_alu hg he (val1_plain f) fun v act l => by simp only [outWords, ho]; exact hv v act l

theorem completes_val2 {i : Instr} {g : Sig} (hg : i.sig = some g) (f : DWord → DWord → DWord) (he : ∀ s, exec i s = alu i (val2 f) s)
    (ho : ∀ v act l, operandsOf i v act l = [longA i v act l, longB i v act l]) {vals : View → Mask → Nat → List Word}
    (hv : ∀ v act l, answer g.words (f (longA i v act l) (longB i v act l)) = vals v act l) : Completes i vals :=
  completes_alu hg he (val2_plain f) fun v act l => by simp only [outWords, ho]; exact hv v act l

theorem completes_val3 {i : Instr} {g : Sig} (hg : i.sig = some g) (f : DWord → DWord → DWord → DWord)
    (he : ∀ s, exec i s = alu i (val3 f) s)
    (ho : ∀ v act l, operandsOf i v act l = [longA i v act l, longB i v act l, longC i v act l]) {vals : View → Mask → Nat → List Word}
    (hv : ∀ v act l, answer g.words (f (longA i v act l) (longB i v act l) (longC i v act l)) = vals v act l) : Completes i vals :=
  completes_alu hg he (val3_plain f) fun v act l => by simp only [outWords, ho]; exact hv v act l

/-- A register-to-register instruction with flags completes where none of its lanes traps. -/
theorem completes_aluFp {i : Instr} {g : Sig} (hg : i.sig = some g) {f : Warp → Nat → List DWord → AluOut}
    (he : ∀ s, exec i s = alu i f s) {out : View → Mask → Nat → AluOut}
    (hv : ∀ v act l, f v.wp l (operandsOf i v act l) = out v act l) : CompletesFp i g.words out := by
  intro s v act hr hq
  refine ⟨_, ?_, acted_result (view_of_ready hr) (v.wp.raise (raised i.hdr act (out v act))) rfl rfl i.hdr act _⟩
  rw [he, alu, start_of_ready hr]
  simp only [hg]
  have : (fun l => f v.wp l (operandsOf i v act l)) = out v act := funext (hv v act)
  rw [this, finish_quiet hq]
  rfl

end Sys2Proof.Machine
end

