-- ==== Sys2Proof/Laws/Memory.lean ====
section
/-! SUPPORT. Memory: a read after a write, and that every memory operation keeps the canonical form. -/

namespace Sys2Proof

/-! ### Lists of cells -/

/-- The bound of a rising list, as a number that every address reaches. -/
def boundOk (lo : Option Nat) (x : Nat) : Bool := match lo with | none => true | some l => l < x

theorem cellsRise_cons (a : Nat) (b : Byte) (cs : List Host.Cell) (lo : Option Nat) :
    cellsRise ((a, b) :: cs) lo = (boundOk lo a && cellsRise cs (some a)) := by
  cases lo <;> rfl

/-- A rising list is rising above every lower bound. -/
theorem cellsRise_mono {cs : List Host.Cell} {lo : Option Nat} {x : Nat} (h : cellsRise cs (some x) = true) (hx : boundOk lo x = true) :
    cellsRise cs lo = true := by
  cases cs with
  | nil => rfl
  | cons c t =>
    obtain ⟨a, b⟩ := c
    rw [cellsRise_cons, Bool.and_eq_true] at h ⊢
    refine ⟨?_, h.2⟩
    cases lo with
    | none => rfl
    | some l =>
      have h1 : x < a := by simpa [boundOk] using h.1
      have h2 : l < x := by simpa [boundOk] using hx
      simp [boundOk]; omega

theorem cellsRise_put (cs : List Host.Cell) (lo : Option Nat) (x : Nat) (v : Byte) (h : cellsRise cs lo = true) (hx : boundOk lo x = true) :
    cellsRise (cellPut cs x v) lo = true := by
  induction cs generalizing lo with
  | nil => show cellsRise [(x, v)] lo = true; rw [cellsRise_cons, hx]; rfl
  | cons c t ih =>
    obtain ⟨a, b⟩ := c
    rw [cellsRise_cons, Bool.and_eq_true] at h
    unfold cellPut
    split
    · next hlt =>
      rw [cellsRise_cons, cellsRise_cons, hx, h.2]
      simp [boundOk, hlt]
    · split
      · next heq => subst heq; rw [cellsRise_cons, hx, h.2]; rfl
      · next hge hne =>
        rw [cellsRise_cons, Bool.and_eq_true]
        refine ⟨h.1, ih _ h.2 ?_⟩
        simp [boundOk]; omega

theorem cellsRise_drop (cs : List Host.Cell) (lo : Option Nat) (x : Nat) (h : cellsRise cs lo = true) : cellsRise (cellDrop cs x) lo = true := by
  induction cs generalizing lo with
  | nil => rfl
  | cons c t ih =>
    obtain ⟨a, b⟩ := c
    rw [cellsRise_cons, Bool.and_eq_true] at h
    unfold cellDrop
    split
    · exact cellsRise_mono h.2 h.1
    · rw [cellsRise_cons, Bool.and_eq_true]
      exact ⟨h.1, ih _ h.2⟩

theorem cellsRise_filter (cs : List Host.Cell) (lo : Option Nat) (p : Host.Cell → Bool) (h : cellsRise cs lo = true) :
    cellsRise (cs.filter p) lo = true := by
  induction cs generalizing lo with
  | nil => rfl
  | cons c t ih =>
    obtain ⟨a, b⟩ := c
    rw [cellsRise_cons, Bool.and_eq_true] at h
    rw [List.filter_cons]
    split
    · rw [cellsRise_cons, Bool.and_eq_true]
      exact ⟨h.1, ih _ h.2⟩
    · exact ih _ (cellsRise_mono h.2 h.1)

theorem cellPut_mem {cs : List Host.Cell} {x : Nat} {v : Byte} {c : Host.Cell} (h : c ∈ cellPut cs x v) : c = (x, v) ∨ c ∈ cs := by
  induction cs with
  | nil => simpa [cellPut] using h
  | cons d t ih =>
    obtain ⟨a, b⟩ := d
    unfold cellPut at h
    split at h
    · simpa using h
    · split at h
      · simp only [List.mem_cons] at h ⊢
        rcases h with h | h
        · exact .inl h
        · exact .inr (.inr h)
      · simp only [List.mem_cons] at h ⊢
        rcases h with h | h
        · exact .inr (.inl h)
        · rcases ih h with h | h
          · exact .inl h
          · exact .inr (.inr h)

theorem cellDrop_mem {cs : List Host.Cell} {x : Nat} {c : Host.Cell} (h : c ∈ cellDrop cs x) : c ∈ cs := by
  induction cs with
  | nil => simpa [cellDrop] using h
  | cons d t ih =>
    obtain ⟨a, b⟩ := d
    unfold cellDrop at h
    split at h
    · exact List.mem_cons_of_mem _ h
    · simp only [List.mem_cons] at h ⊢
      rcases h with h | h
      · exact .inl h
      · exact .inr (ih h)

/-! ### Lookups -/

/-- An address below every cell is not listed. -/
theorem cellAt_below {cs : List Host.Cell} {x : Nat} (h : cellsRise cs (some x) = true) : cellAt cs x = none ∧ ∀ y, y ≤ x → cellAt cs y = none := by
  have all : ∀ (cs : List Host.Cell) (x : Nat), cellsRise cs (some x) = true → ∀ y, y ≤ x → cellAt cs y = none := by
    intro cs
    induction cs with
    | nil => intros; rfl
    | cons c t ih =>
      obtain ⟨a, b⟩ := c
      intro x h y hy
      rw [cellsRise_cons, Bool.and_eq_true] at h
      have h1 : x < a := by simpa [boundOk] using h.1
      have hn : ¬ a = y := by omega
      simp only [cellAt, hn, if_false]
      exact ih a h.2 y (by omega)
  exact ⟨all cs x h x (Nat.le_refl x), all cs x h⟩

theorem cellAt_put (cs : List Host.Cell) (x : Nat) (v : Byte) : cellAt (cellPut cs x v) x = some v := by
  induction cs with
  | nil => simp [cellPut, cellAt]
  | cons c t ih =>
    obtain ⟨a, b⟩ := c
    unfold cellPut
    split
    · simp [cellAt]
    · split
      · simp [cellAt]
      · next hge hne =>
        have hn : ¬ a = x := fun h => hne h.symm
        simp only [cellAt, hn, if_false]
        exact ih

theorem cellAt_put_ne (cs : List Host.Cell) {x y : Nat} (v : Byte) (h : y ≠ x) : cellAt (cellPut cs x v) y = cellAt cs y := by
  induction cs with
  | nil => simp [cellPut, cellAt, Ne.symm h]
  | cons c t ih =>
    obtain ⟨a, b⟩ := c
    unfold cellPut
    split
    · simp [cellAt, Ne.symm h]
    · split
      · next heq => subst heq; simp [cellAt, Ne.symm h]
      · simp only [cellAt, ih]

theorem cellAt_drop (cs : List Host.Cell) (lo : Option Nat) (x : Nat) (h : cellsRise cs lo = true) : cellAt (cellDrop cs x) x = none := by
  induction cs generalizing lo with
  | nil => rfl
  | cons c t ih =>
    obtain ⟨a, b⟩ := c
    rw [cellsRise_cons, Bool.and_eq_true] at h
    unfold cellDrop
    split
    · next heq => subst heq; exact (cellAt_below h.2).1
    · next hne => simp only [cellAt, hne, if_false]; exact ih _ h.2

theorem cellAt_drop_ne (cs : List Host.Cell) {x y : Nat} (h : y ≠ x) : cellAt (cellDrop cs x) y = cellAt cs y := by
  induction cs with
  | nil => rfl
  | cons c t ih =>
    obtain ⟨a, b⟩ := c
    unfold cellDrop
    split
    · next heq => subst heq; simp [cellAt, Ne.symm h]
    · simp only [cellAt, ih]

namespace Memory

/-! ### Reading and writing bytes -/

theorem init_eq {m k : Memory} (h : k.hazy = m.hazy) (a : Nat) : k.init a = m.init a := by simp [init, h]
theorem isPlain_eq {m k : Memory} (h : k.hazy = m.hazy) (a : Nat) : k.isPlain a = m.isPlain a := by simp [isPlain, h]

/-- An address in no free range reads as zero when it is not listed. -/
theorem init_plain {m : Memory} {a : Nat} (h : m.isPlain a = true) : m.init a = 0 := by
  unfold isPlain at h
  unfold init
  rw [Option.isNone_iff_eq_none.mp h]

theorem wf_rise {m : Memory} (h : m.wf = true) : cellsRise m.cells none = true := by
  unfold wf at h; rw [Bool.and_eq_true] at h; exact h.1

theorem write_hazy (m : Memory) (a : Nat) (v : Byte) : (m.write a v).hazy = m.hazy := rfl
theorem write_poison (m : Memory) (a : Nat) (v : Byte) : (m.write a v).poison = m.poison := rfl
theorem write_home (m : Memory) (a : Nat) (v : Byte) : (m.write a v).home = m.home := rfl

/-- A byte reads as it was written. -/
theorem read_write (m : Memory) (a : Nat) (v : Byte) (h : m.wf = true) : (m.write a v).read a = v := by
  unfold read write
  dsimp only
  split
  · next hc =>
    rw [Bool.and_eq_true] at hc
    rw [cellAt_drop m.cells none a (wf_rise h)]
    have : ({ m with cells := cellDrop m.cells a } : Memory).init a = 0 := init_plain (m := { m with cells := cellDrop m.cells a }) hc.1
    rw [this]
    have hv : v = 0 := by simpa using hc.2
    rw [hv]; rfl
  · rw [cellAt_put]; rfl

/-- A write leaves every other byte alone. -/
theorem read_write_ne (m : Memory) {a b : Nat} (v : Byte) (h : b ≠ a) : (m.write a v).read b = m.read b := by
  unfold read write
  dsimp only
  split
  · rw [cellAt_drop_ne m.cells h]; rfl
  · rw [cellAt_put_ne m.cells v h]; rfl

/-- Writing a byte keeps the canonical form. -/
theorem wf_write (m : Memory) (a : Nat) (v : Byte) (h : m.wf = true) : (m.write a v).wf = true := by
  have hr := wf_rise h
  unfold wf at h ⊢
  rw [Bool.and_eq_true, List.all_eq_true] at h
  rw [Bool.and_eq_true, List.all_eq_true]
  unfold write
  dsimp only
  split
  · refine ⟨cellsRise_drop _ _ _ hr, fun c hc => ?_⟩
    exact h.2 c (cellDrop_mem hc)
  · next hn =>
    refine ⟨cellsRise_put _ _ _ _ hr rfl, fun c hc => ?_⟩
    rcases cellPut_mem hc with hc | hc
    · subst hc
      simp only [Bool.not_eq_true'] at *
      exact Bool.eq_false_iff.mpr hn
    · exact h.2 c hc

theorem wf_writeBytes (m : Memory) (a : Nat) (b : List Byte) (h : m.wf = true) : (m.writeBytes a b).wf = true := by
  induction b generalizing m a with
  | nil => exact h
  | cons x t ih => exact ih _ _ (wf_write m a x h)

theorem wf_writeN (m : Memory) (a n v : Nat) (h : m.wf = true) : (m.writeN a n v).wf = true := by
  induction n generalizing m a v with
  | zero => exact h
  | succ n ih => exact ih _ _ _ (wf_write m a _ h)

theorem writeBytes_hazy (m : Memory) (a : Nat) (b : List Byte) : (m.writeBytes a b).hazy = m.hazy := by
  induction b generalizing m a with
  | nil => rfl
  | cons x t ih => exact ih _ _
theorem writeBytes_poison (m : Memory) (a : Nat) (b : List Byte) : (m.writeBytes a b).poison = m.poison := by
  induction b generalizing m a with
  | nil => rfl
  | cons x t ih => exact ih _ _

/-- Outside the bytes written every byte reads as before. -/
theorem read_writeBytes_out (m : Memory) (a : Nat) (b : List Byte) (x : Nat) (h : x < a ∨ a + b.length ≤ x) : (m.writeBytes a b).read x = m.read x := by
  induction b generalizing m a with
  | nil => rfl
  | cons y t ih =>
    simp only [List.length_cons] at h
    unfold writeBytes
    rw [ih (m.write a y) (a + 1) (by omega), read_write_ne m y (by omega)]

/-- The bytes written read as they were written. -/
theorem read_writeBytes_in (m : Memory) (a : Nat) (b : List Byte) (k : Nat) (hk : k < b.length) (h : m.wf = true) :
    (m.writeBytes a b).read (a + k) = b[k] := by
  induction b generalizing m a k with
  | nil => exact absurd hk (Nat.not_lt_zero k)
  | cons y t ih =>
    unfold writeBytes
    cases k with
    | zero => show ((m.write a y).writeBytes (a + 1) t).read a = _; rw [ read_writeBytes_out _ _ _ _ (.inl (Nat.lt_succ_self a)), read_write m a y h]; rfl
    | succ k =>
      have := ih (m.write a y) (a + 1) k (by simpa using hk) (wf_write m a y h)
      rw [show a + (k + 1) = a + 1 + k by omega, this]
      rfl

/-! ### The canonical form -/

/-- The form depends on the cells and the free ranges alone. -/
theorem wf_eq {m k : Memory} (hc : k.cells = m.cells) (hh : k.hazy = m.hazy) : k.wf = m.wf := by simp [wf, isPlain, hc, hh]

theorem wf_empty : (({} : Memory).wf) = true := rfl

/-- Taking cells out keeps the form, where the free ranges only grow. -/
theorem wf_filter {m k : Memory} {p : Host.Cell → Bool} (h : m.wf = true) (hc : k.cells = m.cells.filter p)
    (hp : ∀ a, k.isPlain a = true → m.isPlain a = true) : k.wf = true := by
  have hr := wf_rise h
  unfold wf at h ⊢
  rw [Bool.and_eq_true, List.all_eq_true] at h ⊢
  rw [hc]
  refine ⟨cellsRise_filter _ _ _ hr, fun c hm => ?_⟩
  have := h.2 c (List.mem_filter.mp hm).1
  cases hk : k.isPlain c.1 with
  | false => rfl
  | true => rw [hp _ hk] at this; exact this

theorem isPlain_cons {m : Memory} {z : Hazy} {k : Memory} (hk : k.hazy = z :: m.hazy) (a : Nat) (h : k.isPlain a = true) : m.isPlain a = true := by
  unfold isPlain at h ⊢
  rw [hk, List.find?_cons] at h
  split at h
  · exact absurd h (by simp)
  · exact h

end Memory

namespace Machine

theorem Memory.wf_dirty (m : Memory) (l : Nat) (h : m.wf = true) : (Memory.dirty m l).wf = true := by
  unfold Memory.dirty; split
  · exact h
  · exact h
theorem Memory.wf_dirties (ls : List Nat) (m : Memory) (h : m.wf = true) : (ls.foldl Memory.dirty m).wf = true := by
  induction ls generalizing m with
  | nil => exact h
  | cons l t ih => exact ih _ (Memory.wf_dirty m l h)
theorem Memory.dirty_reads (m : Memory) (l a : Nat) : (Memory.dirty m l).read a = m.read a := by unfold Memory.dirty; split <;> rfl
theorem Memory.dirties_read (ls : List Nat) (m : Memory) (a : Nat) : (ls.foldl Memory.dirty m).read a = m.read a := by
  induction ls generalizing m with
  | nil => rfl
  | cons l t ih => rw [List.foldl_cons, ih, Memory.dirty_reads]

theorem Memory.wf_lost (m : Memory) (seed : Nat) (h : m.wf = true) : (Memory.lost m seed).wf = true :=
  Memory.wf_filter h rfl (Memory.isPlain_cons (z := { base := 0, len := hbmTop, seed := seed }) rfl)

/-- Memory keeps its canonical form from one state to another. -/
abbrev KeepsMem (s t : State) : Prop := s.mem.wf = true → t.mem.wf = true

theorem KeepsMem.of_eq {s t : State} (h : t.mem = s.mem) : KeepsMem s t := fun hw => by rw [h]; exact hw
theorem KeepsMem.trans {s t u : State} (h1 : KeepsMem s t) (h2 : KeepsMem t u) : KeepsMem s u := fun hw => h2 (h1 hw)
theorem KeepsMem.fold {α : Type} (f : State → α → State) (hf : ∀ s a, KeepsMem s (f s a)) (l : List α) : ∀ s, KeepsMem s (l.foldl f s) := by
  induction l with
  | nil => exact fun _ h => h
  | cons a t ih => exact fun s => (hf s a).trans (ih (f s a))

/-- The memory after reset has the form. -/
theorem reset_wf : State.reset.mem.wf = true := rfl

/-! ### The operations of the machine on memory -/

/-- Making room for a dirty line writes lines back: it changes no byte, and nothing else but the count of free values. -/
theorem l2Room_frame (s : State) (l : Nat) : ∃ h k, s.l2Room l = { s with mem := { s.mem with home := h }, freeCtr := k } := by
  unfold State.l2Room
  split
  · exact ⟨_, _, rfl⟩
  · dsimp only
    split
    · exact ⟨_, _, rfl⟩
    · exact ⟨_, _, rfl⟩
theorem rooms_frame (ls : List Nat) (p : State → Nat → Prop) [∀ s l, Decidable (p s l)] (s : State) :
    ∃ h k, ls.foldl (fun s l => if p s l then s.l2Room l else s) s = { s with mem := { s.mem with home := h }, freeCtr := k } := by
  induction ls generalizing s with
  | nil => exact ⟨_, _, rfl⟩
  | cons l t ih =>
    obtain ⟨h, k, e⟩ := ih (if p s l then s.l2Room l else s)
    rw [List.foldl_cons, e]
    split
    · obtain ⟨h', k', e⟩ := l2Room_frame s l
      rw [e]; exact ⟨_, _, rfl⟩
    · exact ⟨_, _, rfl⟩

/-- Putting bytes changes memory, the lines of L1, what path G may still read, and the watches; and the count of free values. -/
theorem memPut_frame (s : State) (key : Nat) (b : List Byte) (w : Option (WarpRef × Mask)) :
    ∃ m l1 g n k ws, s.memPut key b w = { s with mem := m, l1 := l1, gStale := g, gStamp := n, freeCtr := k, watches := ws } := by
  obtain ⟨h, k, e⟩ := rooms_frame (((List.range (b.length / 128 + 2)).map (key / 128 + ·)).filter fun l => l * 128 < key + b.length)
    (fun s l => l * 128 < hbmTop ∧ s.mem.homeOf l = none) (s.gNote w key b.length)
  unfold State.memPut
  dsimp only
  rw [e]
  exact ⟨_, _, _, _, _, _, rfl⟩

theorem memPut_mem (s : State) (key : Nat) (b : List Byte) (w : Option (WarpRef × Mask)) :
    ∃ h ls p, (s.memPut key b w).mem = { ((ls : List Nat).foldl Memory.dirty { s.mem with home := h }).writeBytes key b with poison := p } := by
  obtain ⟨h, k, e⟩ := rooms_frame (((List.range (b.length / 128 + 2)).map (key / 128 + ·)).filter fun l => l * 128 < key + b.length)
    (fun s l => l * 128 < hbmTop ∧ s.mem.homeOf l = none) (s.gNote w key b.length)
  refine ⟨h, ((List.range (b.length / 128 + 2)).map (key / 128 + ·)).filter fun l => l * 128 < key + b.length, (s.memPut key b w).mem.poison, ?_⟩
  have e := congrArg State.mem e
  dsimp only at e
  rw [show (State.gNote s w key b.length).mem = s.mem from rfl] at e
  rw [← e]
  rfl
theorem memPut_keeps (s : State) (key : Nat) (b : List Byte) (w : Option (WarpRef × Mask)) : KeepsMem s (s.memPut key b w) := fun h => by
  obtain ⟨k, ls, p, he⟩ := memPut_mem s key b w
  rw [he]
  exact Memory.wf_writeBytes _ key b (Memory.wf_dirties ls { s.mem with home := k } h)
/-- Outside the bytes put, every byte reads as before. -/
theorem memPut_read_out (s : State) (key : Nat) (b : List Byte) (w : Option (WarpRef × Mask)) (x : Nat) (h : x < key ∨ key + b.length ≤ x) :
    (s.memPut key b w).mem.read x = s.mem.read x := by
  obtain ⟨k, ls, p, he⟩ := memPut_mem s key b w
  rw [he]
  show ((ls.foldl Memory.dirty { s.mem with home := k }).writeBytes key b).read x = _
  rw [Memory.read_writeBytes_out _ _ _ _ h, Memory.dirties_read]
  rfl
/-- The bytes put read as they were put. -/
theorem memPut_read_in (s : State) (key : Nat) (b : List Byte) (w : Option (WarpRef × Mask)) (k : Nat) (hk : k < b.length) (h : s.mem.wf = true) :
    (s.memPut key b w).mem.read (key + k) = b[k] := by
  obtain ⟨m, ls, p, he⟩ := memPut_mem s key b w
  rw [he]
  exact Memory.read_writeBytes_in _ key b k hk (Memory.wf_dirties ls { s.mem with home := m } h)

theorem physWrite_keeps (s : State) (pa : Nat) (b : List Byte) (w : Option (WarpRef × Mask)) : KeepsMem s (s.physWrite pa b w) := by
  unfold State.physWrite
  split
  · exact fun h => h
  · dsimp only
    split
    · exact memPut_keeps s _ b w
    · exact memPut_keeps s _ b w

/-- Putting bytes back keeps the form. -/
theorem undo_wf (m : Memory) (pa : Nat) (old : List Byte) (kept : List (Nat × Nat)) (h : m.wf = true) : (Memory.undo m pa old kept).wf = true := by
  unfold Memory.undo
  generalize old.mapIdx (fun i b => (pa + i, b)) = cs
  induction cs generalizing m with
  | nil => exact h
  | cons c t ih =>
    rw [List.foldl_cons]
    apply ih
    split
    · exact h
    · exact Memory.wf_write m _ _ h

/-- The writes lost with the link leave a memory in the form. -/
theorem losePosted_keeps (s : State) : KeepsMem s s.losePosted := fun h => by
  show (s.posted.foldr State.lose1 (s, [])).1.mem.wf = true
  generalize s.posted = ps
  induction ps with
  | nil => exact h
  | cons e t ih =>
    rw [List.foldr_cons]
    unfold State.lose1
    split
    · exact ih
    · exact undo_wf _ _ _ _ ih

theorem modSlice_mem (s : State) (n : Nat) (f : Slice → Slice) : (s.modSlice n f).mem = s.mem := rfl
theorem modSlices_mem (ms : List Nat) (f : Slice → Slice) : ∀ s : State, (s.modSlices ms f).mem = s.mem := by
  induction ms with
  | nil => intro s; rfl
  | cons m t ih => intro s; exact ih (s.modSlice m f)
theorem logErr_mem (s : State) (sl kind detail : Nat) : (s.logErr sl kind detail).mem = s.mem := rfl
theorem noteAccess_mem (s : State) (sl pa : Nat) (wr : Bool) : (s.noteAccess sl pa wr).mem = s.mem := by
  unfold State.noteAccess
  split
  · rfl
  · split
    · split <;> rfl
    · split
      · split <;> rfl
      · rfl

theorem joinStores_keeps (s : State) (ws : List (Nat × Nat)) : KeepsMem s (s.joinStores ws) := by
  unfold State.joinStores
  split
  · exact fun h => h
  · exact fun h => h

theorem engSpoil_keeps (s : State) (n0 n : Nat) (x : Loc) : KeepsMem s (s.engSpoil n0 n x) := by
  cases x with
  | glob pa k =>
    unfold State.engSpoil
    dsimp only
    split
    · exact fun h => h
    · exact KeepsMem.of_eq (noteAccess_mem s n0 pa true)
  | kick _ _ => exact fun h => h
  | scratch _ _ _ => exact fun h => h
  | reg _ _ => exact fun h => h

theorem writeBack_keeps (s : State) (pa : Nat) : KeepsMem s (s.writeBack pa) := fun h => h

theorem blur_keeps (s : State) (key len : Nat) : KeepsMem s (s.blur key len) := fun h =>
  Memory.wf_filter h rfl (Memory.isPlain_cons (z := { base := key, len := len, seed := s.nextId }) rfl)

theorem discardDirty_keeps (s : State) (ms : List Nat) : KeepsMem s (s.discardDirty ms) := by
  unfold State.discardDirty
  refine KeepsMem.fold _ (fun s l => ?_) _ s
  split
  · dsimp only
    intro h
    dsimp only
    split
    · exact h
    · exact Memory.wf_writeBytes _ _ _ h
  · exact fun h => h

theorem cold_keeps (s : State) : KeepsMem s s.cold := fun h => Memory.wf_lost s.mem s.nextId h
theorem warm_keeps (s : State) : KeepsMem s s.warm := fun h => discardDirty_keeps s (List.range 16) h
theorem switchFn_keeps (s : State) (n : Nat) : KeepsMem s (s.switchFn n) := fun h => h

end Machine

end Sys2Proof
end

