-- ==== Sys2Proof/Laws/State.lean ====
section
/-! SUPPORT. What each update of the state leaves alone: one lemma for each field. -/

namespace Sys2Proof.Machine

/-! ### One slice of the state -/

@[simp] theorem State.modSlice_mem (s : State) (n : Nat) (f : Slice → Slice) : (s.modSlice n f).mem = s.mem := rfl
@[simp] theorem State.modSlice_leases (s : State) (n : Nat) (f : Slice → Slice) : (s.modSlice n f).leases = s.leases := rfl
@[simp] theorem State.modSlice_sysWins (s : State) (n : Nat) (f : Slice → Slice) : (s.modSlice n f).sysWins = s.sysWins := rfl
@[simp] theorem State.modSlice_imports (s : State) (n : Nat) (f : Slice → Slice) : (s.modSlice n f).imports = s.imports := rfl
@[simp] theorem State.modSlice_importRefused (s : State) (n : Nat) (f : Slice → Slice) : (s.modSlice n f).importRefused = s.importRefused := rfl
@[simp] theorem State.modSlice_flows (s : State) (n : Nat) (f : Slice → Slice) : (s.modSlice n f).flows = s.flows := rfl
@[simp] theorem State.modSlice_xl (s : State) (n : Nat) (f : Slice → Slice) : (s.modSlice n f).xl = s.xl := rfl
@[simp] theorem State.modSlice_watches (s : State) (n : Nat) (f : Slice → Slice) : (s.modSlice n f).watches = s.watches := rfl
@[simp] theorem State.modSlice_l1 (s : State) (n : Nat) (f : Slice → Slice) : (s.modSlice n f).l1 = s.l1 := rfl
@[simp] theorem State.modSlice_gStale (s : State) (n : Nat) (f : Slice → Slice) : (s.modSlice n f).gStale = s.gStale := rfl
@[simp] theorem State.modSlice_gStamp (s : State) (n : Nat) (f : Slice → Slice) : (s.modSlice n f).gStamp = s.gStamp := rfl
@[simp] theorem State.modSlice_dtime (s : State) (n : Nat) (f : Slice → Slice) : (s.modSlice n f).dtime = s.dtime := rfl
@[simp] theorem State.modSlice_kickVa (s : State) (n : Nat) (f : Slice → Slice) : (s.modSlice n f).kickVa = s.kickVa := rfl
@[simp] theorem State.modSlice_events (s : State) (n : Nat) (f : Slice → Slice) : (s.modSlice n f).events = s.events := rfl
@[simp] theorem State.modSlice_vfEnable (s : State) (n : Nat) (f : Slice → Slice) : (s.modSlice n f).vfEnable = s.vfEnable := rfl
@[simp] theorem State.modSlice_linkUp (s : State) (n : Nat) (f : Slice → Slice) : (s.modSlice n f).linkUp = s.linkUp := rfl
@[simp] theorem State.modSlice_linkWidth (s : State) (n : Nat) (f : Slice → Slice) : (s.modSlice n f).linkWidth = s.linkWidth := rfl
@[simp] theorem State.modSlice_linkRate (s : State) (n : Nat) (f : Slice → Slice) : (s.modSlice n f).linkRate = s.linkRate := rfl
@[simp] theorem State.modSlice_cfgRegs (s : State) (n : Nat) (f : Slice → Slice) : (s.modSlice n f).cfgRegs = s.cfgRegs := rfl
@[simp] theorem State.modSlice_debugOn (s : State) (n : Nat) (f : Slice → Slice) : (s.modSlice n f).debugOn = s.debugOn := rfl
@[simp] theorem State.modSlice_deviceId (s : State) (n : Nat) (f : Slice → Slice) : (s.modSlice n f).deviceId = s.deviceId := rfl
@[simp] theorem State.modSlice_ports (s : State) (n : Nat) (f : Slice → Slice) : (s.modSlice n f).ports = s.ports := rfl
@[simp] theorem State.modSlice_markers (s : State) (n : Nat) (f : Slice → Slice) : (s.modSlice n f).markers = s.markers := rfl
@[simp] theorem State.modSlice_engMarkers (s : State) (n : Nat) (f : Slice → Slice) : (s.modSlice n f).engMarkers = s.engMarkers := rfl
@[simp] theorem State.modSlice_fenceCounts (s : State) (n : Nat) (f : Slice → Slice) : (s.modSlice n f).fenceCounts = s.fenceCounts := rfl
@[simp] theorem State.modSlice_fenceOut (s : State) (n : Nat) (f : Slice → Slice) : (s.modSlice n f).fenceOut = s.fenceOut := rfl
@[simp] theorem State.modSlice_posted (s : State) (n : Nat) (f : Slice → Slice) : (s.modSlice n f).posted = s.posted := rfl
@[simp] theorem State.modSlice_grandmaster (s : State) (n : Nat) (f : Slice → Slice) : (s.modSlice n f).grandmaster = s.grandmaster := rfl
@[simp] theorem State.modSlice_slew (s : State) (n : Nat) (f : Slice → Slice) : (s.modSlice n f).slew = s.slew := rfl
@[simp] theorem State.modSlice_rollback (s : State) (n : Nat) (f : Slice → Slice) : (s.modSlice n f).rollback = s.rollback := rfl
@[simp] theorem State.modSlice_images (s : State) (n : Nat) (f : Slice → Slice) : (s.modSlice n f).images = s.images := rfl
@[simp] theorem State.modSlice_crownOk (s : State) (n : Nat) (f : Slice → Slice) : (s.modSlice n f).crownOk = s.crownOk := rfl
@[simp] theorem State.modSlice_powered (s : State) (n : Nat) (f : Slice → Slice) : (s.modSlice n f).powered = s.powered := rfl
@[simp] theorem State.modSlice_railFailed (s : State) (n : Nat) (f : Slice → Slice) : (s.modSlice n f).railFailed = s.railFailed := rfl
@[simp] theorem State.modSlice_capWatts (s : State) (n : Nat) (f : Slice → Slice) : (s.modSlice n f).capWatts = s.capWatts := rfl
@[simp] theorem State.modSlice_throttled (s : State) (n : Nat) (f : Slice → Slice) : (s.modSlice n f).throttled = s.throttled := rfl
@[simp] theorem State.modSlice_out (s : State) (n : Nat) (f : Slice → Slice) : (s.modSlice n f).out = s.out := rfl
@[simp] theorem State.modSlice_agenda (s : State) (n : Nat) (f : Slice → Slice) : (s.modSlice n f).agenda = s.agenda := rfl
@[simp] theorem State.modSlice_cur (s : State) (n : Nat) (f : Slice → Slice) : (s.modSlice n f).cur = s.cur := rfl
@[simp] theorem State.modSlice_tick (s : State) (n : Nat) (f : Slice → Slice) : (s.modSlice n f).tick = s.tick := rfl
@[simp] theorem State.modSlice_freeCtr (s : State) (n : Nat) (f : Slice → Slice) : (s.modSlice n f).freeCtr = s.freeCtr := rfl
@[simp] theorem State.modSlice_nextId (s : State) (n : Nat) (f : Slice → Slice) : (s.modSlice n f).nextId = s.nextId := rfl

/-! ### One team of a slice -/

@[simp] theorem State.modTeam_mem (s : State) (n id : Nat) (f : Team → Team) : (s.modTeam n id f).mem = s.mem := rfl
@[simp] theorem State.modTeam_leases (s : State) (n id : Nat) (f : Team → Team) : (s.modTeam n id f).leases = s.leases := rfl
@[simp] theorem State.modTeam_sysWins (s : State) (n id : Nat) (f : Team → Team) : (s.modTeam n id f).sysWins = s.sysWins := rfl
@[simp] theorem State.modTeam_imports (s : State) (n id : Nat) (f : Team → Team) : (s.modTeam n id f).imports = s.imports := rfl
@[simp] theorem State.modTeam_importRefused (s : State) (n id : Nat) (f : Team → Team) : (s.modTeam n id f).importRefused = s.importRefused := rfl
@[simp] theorem State.modTeam_flows (s : State) (n id : Nat) (f : Team → Team) : (s.modTeam n id f).flows = s.flows := rfl
@[simp] theorem State.modTeam_xl (s : State) (n id : Nat) (f : Team → Team) : (s.modTeam n id f).xl = s.xl := rfl
@[simp] theorem State.modTeam_watches (s : State) (n id : Nat) (f : Team → Team) : (s.modTeam n id f).watches = s.watches := rfl
@[simp] theorem State.modTeam_l1 (s : State) (n id : Nat) (f : Team → Team) : (s.modTeam n id f).l1 = s.l1 := rfl
@[simp] theorem State.modTeam_gStale (s : State) (n id : Nat) (f : Team → Team) : (s.modTeam n id f).gStale = s.gStale := rfl
@[simp] theorem State.modTeam_gStamp (s : State) (n id : Nat) (f : Team → Team) : (s.modTeam n id f).gStamp = s.gStamp := rfl
@[simp] theorem State.modTeam_dtime (s : State) (n id : Nat) (f : Team → Team) : (s.modTeam n id f).dtime = s.dtime := rfl
@[simp] theorem State.modTeam_kickVa (s : State) (n id : Nat) (f : Team → Team) : (s.modTeam n id f).kickVa = s.kickVa := rfl
@[simp] theorem State.modTeam_events (s : State) (n id : Nat) (f : Team → Team) : (s.modTeam n id f).events = s.events := rfl
@[simp] theorem State.modTeam_vfEnable (s : State) (n id : Nat) (f : Team → Team) : (s.modTeam n id f).vfEnable = s.vfEnable := rfl
@[simp] theorem State.modTeam_linkUp (s : State) (n id : Nat) (f : Team → Team) : (s.modTeam n id f).linkUp = s.linkUp := rfl
@[simp] theorem State.modTeam_linkWidth (s : State) (n id : Nat) (f : Team → Team) : (s.modTeam n id f).linkWidth = s.linkWidth := rfl
@[simp] theorem State.modTeam_linkRate (s : State) (n id : Nat) (f : Team → Team) : (s.modTeam n id f).linkRate = s.linkRate := rfl
@[simp] theorem State.modTeam_cfgRegs (s : State) (n id : Nat) (f : Team → Team) : (s.modTeam n id f).cfgRegs = s.cfgRegs := rfl
@[simp] theorem State.modTeam_debugOn (s : State) (n id : Nat) (f : Team → Team) : (s.modTeam n id f).debugOn = s.debugOn := rfl
@[simp] theorem State.modTeam_deviceId (s : State) (n id : Nat) (f : Team → Team) : (s.modTeam n id f).deviceId = s.deviceId := rfl
@[simp] theorem State.modTeam_ports (s : State) (n id : Nat) (f : Team → Team) : (s.modTeam n id f).ports = s.ports := rfl
@[simp] theorem State.modTeam_markers (s : State) (n id : Nat) (f : Team → Team) : (s.modTeam n id f).markers = s.markers := rfl
@[simp] theorem State.modTeam_engMarkers (s : State) (n id : Nat) (f : Team → Team) : (s.modTeam n id f).engMarkers = s.engMarkers := rfl
@[simp] theorem State.modTeam_fenceCounts (s : State) (n id : Nat) (f : Team → Team) : (s.modTeam n id f).fenceCounts = s.fenceCounts := rfl
@[simp] theorem State.modTeam_fenceOut (s : State) (n id : Nat) (f : Team → Team) : (s.modTeam n id f).fenceOut = s.fenceOut := rfl
@[simp] theorem State.modTeam_posted (s : State) (n id : Nat) (f : Team → Team) : (s.modTeam n id f).posted = s.posted := rfl
@[simp] theorem State.modTeam_grandmaster (s : State) (n id : Nat) (f : Team → Team) : (s.modTeam n id f).grandmaster = s.grandmaster := rfl
@[simp] theorem State.modTeam_slew (s : State) (n id : Nat) (f : Team → Team) : (s.modTeam n id f).slew = s.slew := rfl
@[simp] theorem State.modTeam_rollback (s : State) (n id : Nat) (f : Team → Team) : (s.modTeam n id f).rollback = s.rollback := rfl
@[simp] theorem State.modTeam_images (s : State) (n id : Nat) (f : Team → Team) : (s.modTeam n id f).images = s.images := rfl
@[simp] theorem State.modTeam_crownOk (s : State) (n id : Nat) (f : Team → Team) : (s.modTeam n id f).crownOk = s.crownOk := rfl
@[simp] theorem State.modTeam_powered (s : State) (n id : Nat) (f : Team → Team) : (s.modTeam n id f).powered = s.powered := rfl
@[simp] theorem State.modTeam_railFailed (s : State) (n id : Nat) (f : Team → Team) : (s.modTeam n id f).railFailed = s.railFailed := rfl
@[simp] theorem State.modTeam_capWatts (s : State) (n id : Nat) (f : Team → Team) : (s.modTeam n id f).capWatts = s.capWatts := rfl
@[simp] theorem State.modTeam_throttled (s : State) (n id : Nat) (f : Team → Team) : (s.modTeam n id f).throttled = s.throttled := rfl
@[simp] theorem State.modTeam_out (s : State) (n id : Nat) (f : Team → Team) : (s.modTeam n id f).out = s.out := rfl
@[simp] theorem State.modTeam_agenda (s : State) (n id : Nat) (f : Team → Team) : (s.modTeam n id f).agenda = s.agenda := rfl
@[simp] theorem State.modTeam_cur (s : State) (n id : Nat) (f : Team → Team) : (s.modTeam n id f).cur = s.cur := rfl
@[simp] theorem State.modTeam_tick (s : State) (n id : Nat) (f : Team → Team) : (s.modTeam n id f).tick = s.tick := rfl
@[simp] theorem State.modTeam_freeCtr (s : State) (n id : Nat) (f : Team → Team) : (s.modTeam n id f).freeCtr = s.freeCtr := rfl
@[simp] theorem State.modTeam_nextId (s : State) (n id : Nat) (f : Team → Team) : (s.modTeam n id f).nextId = s.nextId := rfl

/-! ### One warp of a team -/

@[simp] theorem State.modWarp_mem (s : State) (r : WarpRef) (f : Warp → Warp) : (s.modWarp r f).mem = s.mem := rfl
@[simp] theorem State.modWarp_leases (s : State) (r : WarpRef) (f : Warp → Warp) : (s.modWarp r f).leases = s.leases := rfl
@[simp] theorem State.modWarp_sysWins (s : State) (r : WarpRef) (f : Warp → Warp) : (s.modWarp r f).sysWins = s.sysWins := rfl
@[simp] theorem State.modWarp_imports (s : State) (r : WarpRef) (f : Warp → Warp) : (s.modWarp r f).imports = s.imports := rfl
@[simp] theorem State.modWarp_importRefused (s : State) (r : WarpRef) (f : Warp → Warp) : (s.modWarp r f).importRefused = s.importRefused := rfl
@[simp] theorem State.modWarp_flows (s : State) (r : WarpRef) (f : Warp → Warp) : (s.modWarp r f).flows = s.flows := rfl
@[simp] theorem State.modWarp_xl (s : State) (r : WarpRef) (f : Warp → Warp) : (s.modWarp r f).xl = s.xl := rfl
@[simp] theorem State.modWarp_watches (s : State) (r : WarpRef) (f : Warp → Warp) : (s.modWarp r f).watches = s.watches := rfl
@[simp] theorem State.modWarp_l1 (s : State) (r : WarpRef) (f : Warp → Warp) : (s.modWarp r f).l1 = s.l1 := rfl
@[simp] theorem State.modWarp_gStale (s : State) (r : WarpRef) (f : Warp → Warp) : (s.modWarp r f).gStale = s.gStale := rfl
@[simp] theorem State.modWarp_gStamp (s : State) (r : WarpRef) (f : Warp → Warp) : (s.modWarp r f).gStamp = s.gStamp := rfl
@[simp] theorem State.modWarp_dtime (s : State) (r : WarpRef) (f : Warp → Warp) : (s.modWarp r f).dtime = s.dtime := rfl
@[simp] theorem State.modWarp_kickVa (s : State) (r : WarpRef) (f : Warp → Warp) : (s.modWarp r f).kickVa = s.kickVa := rfl
@[simp] theorem State.modWarp_events (s : State) (r : WarpRef) (f : Warp → Warp) : (s.modWarp r f).events = s.events := rfl
@[simp] theorem State.modWarp_vfEnable (s : State) (r : WarpRef) (f : Warp → Warp) : (s.modWarp r f).vfEnable = s.vfEnable := rfl
@[simp] theorem State.modWarp_linkUp (s : State) (r : WarpRef) (f : Warp → Warp) : (s.modWarp r f).linkUp = s.linkUp := rfl
@[simp] theorem State.modWarp_linkWidth (s : State) (r : WarpRef) (f : Warp → Warp) : (s.modWarp r f).linkWidth = s.linkWidth := rfl
@[simp] theorem State.modWarp_linkRate (s : State) (r : WarpRef) (f : Warp → Warp) : (s.modWarp r f).linkRate = s.linkRate := rfl
@[simp] theorem State.modWarp_cfgRegs (s : State) (r : WarpRef) (f : Warp → Warp) : (s.modWarp r f).cfgRegs = s.cfgRegs := rfl
@[simp] theorem State.modWarp_debugOn (s : State) (r : WarpRef) (f : Warp → Warp) : (s.modWarp r f).debugOn = s.debugOn := rfl
@[simp] theorem State.modWarp_deviceId (s : State) (r : WarpRef) (f : Warp → Warp) : (s.modWarp r f).deviceId = s.deviceId := rfl
@[simp] theorem State.modWarp_ports (s : State) (r : WarpRef) (f : Warp → Warp) : (s.modWarp r f).ports = s.ports := rfl
@[simp] theorem State.modWarp_markers (s : State) (r : WarpRef) (f : Warp → Warp) : (s.modWarp r f).markers = s.markers := rfl
@[simp] theorem State.modWarp_engMarkers (s : State) (r : WarpRef) (f : Warp → Warp) : (s.modWarp r f).engMarkers = s.engMarkers := rfl
@[simp] theorem State.modWarp_fenceCounts (s : State) (r : WarpRef) (f : Warp → Warp) : (s.modWarp r f).fenceCounts = s.fenceCounts := rfl
@[simp] theorem State.modWarp_fenceOut (s : State) (r : WarpRef) (f : Warp → Warp) : (s.modWarp r f).fenceOut = s.fenceOut := rfl
@[simp] theorem State.modWarp_posted (s : State) (r : WarpRef) (f : Warp → Warp) : (s.modWarp r f).posted = s.posted := rfl
@[simp] theorem State.modWarp_grandmaster (s : State) (r : WarpRef) (f : Warp → Warp) : (s.modWarp r f).grandmaster = s.grandmaster := rfl
@[simp] theorem State.modWarp_slew (s : State) (r : WarpRef) (f : Warp → Warp) : (s.modWarp r f).slew = s.slew := rfl
@[simp] theorem State.modWarp_rollback (s : State) (r : WarpRef) (f : Warp → Warp) : (s.modWarp r f).rollback = s.rollback := rfl
@[simp] theorem State.modWarp_images (s : State) (r : WarpRef) (f : Warp → Warp) : (s.modWarp r f).images = s.images := rfl
@[simp] theorem State.modWarp_crownOk (s : State) (r : WarpRef) (f : Warp → Warp) : (s.modWarp r f).crownOk = s.crownOk := rfl
@[simp] theorem State.modWarp_powered (s : State) (r : WarpRef) (f : Warp → Warp) : (s.modWarp r f).powered = s.powered := rfl
@[simp] theorem State.modWarp_railFailed (s : State) (r : WarpRef) (f : Warp → Warp) : (s.modWarp r f).railFailed = s.railFailed := rfl
@[simp] theorem State.modWarp_capWatts (s : State) (r : WarpRef) (f : Warp → Warp) : (s.modWarp r f).capWatts = s.capWatts := rfl
@[simp] theorem State.modWarp_throttled (s : State) (r : WarpRef) (f : Warp → Warp) : (s.modWarp r f).throttled = s.throttled := rfl
@[simp] theorem State.modWarp_out (s : State) (r : WarpRef) (f : Warp → Warp) : (s.modWarp r f).out = s.out := rfl
@[simp] theorem State.modWarp_agenda (s : State) (r : WarpRef) (f : Warp → Warp) : (s.modWarp r f).agenda = s.agenda := rfl
@[simp] theorem State.modWarp_cur (s : State) (r : WarpRef) (f : Warp → Warp) : (s.modWarp r f).cur = s.cur := rfl
@[simp] theorem State.modWarp_tick (s : State) (r : WarpRef) (f : Warp → Warp) : (s.modWarp r f).tick = s.tick := rfl
@[simp] theorem State.modWarp_freeCtr (s : State) (r : WarpRef) (f : Warp → Warp) : (s.modWarp r f).freeCtr = s.freeCtr := rfl
@[simp] theorem State.modWarp_nextId (s : State) (r : WarpRef) (f : Warp → Warp) : (s.modWarp r f).nextId = s.nextId := rfl

/-! ### One warp of a team, resident or saved -/

@[simp] theorem State.modAnyWarp_mem (s : State) (r : WarpRef) (f : Warp → Warp) : (s.modAnyWarp r f).mem = s.mem := rfl
@[simp] theorem State.modAnyWarp_leases (s : State) (r : WarpRef) (f : Warp → Warp) : (s.modAnyWarp r f).leases = s.leases := rfl
@[simp] theorem State.modAnyWarp_sysWins (s : State) (r : WarpRef) (f : Warp → Warp) : (s.modAnyWarp r f).sysWins = s.sysWins := rfl
@[simp] theorem State.modAnyWarp_imports (s : State) (r : WarpRef) (f : Warp → Warp) : (s.modAnyWarp r f).imports = s.imports := rfl
@[simp] theorem State.modAnyWarp_importRefused (s : State) (r : WarpRef) (f : Warp → Warp) : (s.modAnyWarp r f).importRefused = s.importRefused := rfl
@[simp] theorem State.modAnyWarp_flows (s : State) (r : WarpRef) (f : Warp → Warp) : (s.modAnyWarp r f).flows = s.flows := rfl
@[simp] theorem State.modAnyWarp_xl (s : State) (r : WarpRef) (f : Warp → Warp) : (s.modAnyWarp r f).xl = s.xl := rfl
@[simp] theorem State.modAnyWarp_watches (s : State) (r : WarpRef) (f : Warp → Warp) : (s.modAnyWarp r f).watches = s.watches := rfl
@[simp] theorem State.modAnyWarp_l1 (s : State) (r : WarpRef) (f : Warp → Warp) : (s.modAnyWarp r f).l1 = s.l1 := rfl
@[simp] theorem State.modAnyWarp_gStale (s : State) (r : WarpRef) (f : Warp → Warp) : (s.modAnyWarp r f).gStale = s.gStale := rfl
@[simp] theorem State.modAnyWarp_gStamp (s : State) (r : WarpRef) (f : Warp → Warp) : (s.modAnyWarp r f).gStamp = s.gStamp := rfl
@[simp] theorem State.modAnyWarp_dtime (s : State) (r : WarpRef) (f : Warp → Warp) : (s.modAnyWarp r f).dtime = s.dtime := rfl
@[simp] theorem State.modAnyWarp_kickVa (s : State) (r : WarpRef) (f : Warp → Warp) : (s.modAnyWarp r f).kickVa = s.kickVa := rfl
@[simp] theorem State.modAnyWarp_events (s : State) (r : WarpRef) (f : Warp → Warp) : (s.modAnyWarp r f).events = s.events := rfl
@[simp] theorem State.modAnyWarp_vfEnable (s : State) (r : WarpRef) (f : Warp → Warp) : (s.modAnyWarp r f).vfEnable = s.vfEnable := rfl
@[simp] theorem State.modAnyWarp_linkUp (s : State) (r : WarpRef) (f : Warp → Warp) : (s.modAnyWarp r f).linkUp = s.linkUp := rfl
@[simp] theorem State.modAnyWarp_linkWidth (s : State) (r : WarpRef) (f : Warp → Warp) : (s.modAnyWarp r f).linkWidth = s.linkWidth := rfl
@[simp] theorem State.modAnyWarp_linkRate (s : State) (r : WarpRef) (f : Warp → Warp) : (s.modAnyWarp r f).linkRate = s.linkRate := rfl
@[simp] theorem State.modAnyWarp_cfgRegs (s : State) (r : WarpRef) (f : Warp → Warp) : (s.modAnyWarp r f).cfgRegs = s.cfgRegs := rfl
@[simp] theorem State.modAnyWarp_debugOn (s : State) (r : WarpRef) (f : Warp → Warp) : (s.modAnyWarp r f).debugOn = s.debugOn := rfl
@[simp] theorem State.modAnyWarp_deviceId (s : State) (r : WarpRef) (f : Warp → Warp) : (s.modAnyWarp r f).deviceId = s.deviceId := rfl
@[simp] theorem State.modAnyWarp_ports (s : State) (r : WarpRef) (f : Warp → Warp) : (s.modAnyWarp r f).ports = s.ports := rfl
@[simp] theorem State.modAnyWarp_markers (s : State) (r : WarpRef) (f : Warp → Warp) : (s.modAnyWarp r f).markers = s.markers := rfl
@[simp] theorem State.modAnyWarp_engMarkers (s : State) (r : WarpRef) (f : Warp → Warp) : (s.modAnyWarp r f).engMarkers = s.engMarkers := rfl
@[simp] theorem State.modAnyWarp_fenceCounts (s : State) (r : WarpRef) (f : Warp → Warp) : (s.modAnyWarp r f).fenceCounts = s.fenceCounts := rfl
@[simp] theorem State.modAnyWarp_fenceOut (s : State) (r : WarpRef) (f : Warp → Warp) : (s.modAnyWarp r f).fenceOut = s.fenceOut := rfl
@[simp] theorem State.modAnyWarp_posted (s : State) (r : WarpRef) (f : Warp → Warp) : (s.modAnyWarp r f).posted = s.posted := rfl
@[simp] theorem State.modAnyWarp_grandmaster (s : State) (r : WarpRef) (f : Warp → Warp) : (s.modAnyWarp r f).grandmaster = s.grandmaster := rfl
@[simp] theorem State.modAnyWarp_slew (s : State) (r : WarpRef) (f : Warp → Warp) : (s.modAnyWarp r f).slew = s.slew := rfl
@[simp] theorem State.modAnyWarp_rollback (s : State) (r : WarpRef) (f : Warp → Warp) : (s.modAnyWarp r f).rollback = s.rollback := rfl
@[simp] theorem State.modAnyWarp_images (s : State) (r : WarpRef) (f : Warp → Warp) : (s.modAnyWarp r f).images = s.images := rfl
@[simp] theorem State.modAnyWarp_crownOk (s : State) (r : WarpRef) (f : Warp → Warp) : (s.modAnyWarp r f).crownOk = s.crownOk := rfl
@[simp] theorem State.modAnyWarp_powered (s : State) (r : WarpRef) (f : Warp → Warp) : (s.modAnyWarp r f).powered = s.powered := rfl
@[simp] theorem State.modAnyWarp_railFailed (s : State) (r : WarpRef) (f : Warp → Warp) : (s.modAnyWarp r f).railFailed = s.railFailed := rfl
@[simp] theorem State.modAnyWarp_capWatts (s : State) (r : WarpRef) (f : Warp → Warp) : (s.modAnyWarp r f).capWatts = s.capWatts := rfl
@[simp] theorem State.modAnyWarp_throttled (s : State) (r : WarpRef) (f : Warp → Warp) : (s.modAnyWarp r f).throttled = s.throttled := rfl
@[simp] theorem State.modAnyWarp_out (s : State) (r : WarpRef) (f : Warp → Warp) : (s.modAnyWarp r f).out = s.out := rfl
@[simp] theorem State.modAnyWarp_agenda (s : State) (r : WarpRef) (f : Warp → Warp) : (s.modAnyWarp r f).agenda = s.agenda := rfl
@[simp] theorem State.modAnyWarp_cur (s : State) (r : WarpRef) (f : Warp → Warp) : (s.modAnyWarp r f).cur = s.cur := rfl
@[simp] theorem State.modAnyWarp_tick (s : State) (r : WarpRef) (f : Warp → Warp) : (s.modAnyWarp r f).tick = s.tick := rfl
@[simp] theorem State.modAnyWarp_freeCtr (s : State) (r : WarpRef) (f : Warp → Warp) : (s.modAnyWarp r f).freeCtr = s.freeCtr := rfl
@[simp] theorem State.modAnyWarp_nextId (s : State) (r : WarpRef) (f : Warp → Warp) : (s.modAnyWarp r f).nextId = s.nextId := rfl

/-! ### The acting warp -/

@[simp] theorem State.putWarp_mem (s : State) (v : View) (w : Warp) : (s.putWarp v w).mem = s.mem := rfl
@[simp] theorem State.putWarp_leases (s : State) (v : View) (w : Warp) : (s.putWarp v w).leases = s.leases := rfl
@[simp] theorem State.putWarp_sysWins (s : State) (v : View) (w : Warp) : (s.putWarp v w).sysWins = s.sysWins := rfl
@[simp] theorem State.putWarp_imports (s : State) (v : View) (w : Warp) : (s.putWarp v w).imports = s.imports := rfl
@[simp] theorem State.putWarp_importRefused (s : State) (v : View) (w : Warp) : (s.putWarp v w).importRefused = s.importRefused := rfl
@[simp] theorem State.putWarp_flows (s : State) (v : View) (w : Warp) : (s.putWarp v w).flows = s.flows := rfl
@[simp] theorem State.putWarp_xl (s : State) (v : View) (w : Warp) : (s.putWarp v w).xl = s.xl := rfl
@[simp] theorem State.putWarp_watches (s : State) (v : View) (w : Warp) : (s.putWarp v w).watches = s.watches := rfl
@[simp] theorem State.putWarp_l1 (s : State) (v : View) (w : Warp) : (s.putWarp v w).l1 = s.l1 := rfl
@[simp] theorem State.putWarp_gStale (s : State) (v : View) (w : Warp) : (s.putWarp v w).gStale = s.gStale := rfl
@[simp] theorem State.putWarp_gStamp (s : State) (v : View) (w : Warp) : (s.putWarp v w).gStamp = s.gStamp := rfl
@[simp] theorem State.putWarp_dtime (s : State) (v : View) (w : Warp) : (s.putWarp v w).dtime = s.dtime := rfl
@[simp] theorem State.putWarp_kickVa (s : State) (v : View) (w : Warp) : (s.putWarp v w).kickVa = s.kickVa := rfl
@[simp] theorem State.putWarp_events (s : State) (v : View) (w : Warp) : (s.putWarp v w).events = s.events := rfl
@[simp] theorem State.putWarp_vfEnable (s : State) (v : View) (w : Warp) : (s.putWarp v w).vfEnable = s.vfEnable := rfl
@[simp] theorem State.putWarp_linkUp (s : State) (v : View) (w : Warp) : (s.putWarp v w).linkUp = s.linkUp := rfl
@[simp] theorem State.putWarp_linkWidth (s : State) (v : View) (w : Warp) : (s.putWarp v w).linkWidth = s.linkWidth := rfl
@[simp] theorem State.putWarp_linkRate (s : State) (v : View) (w : Warp) : (s.putWarp v w).linkRate = s.linkRate := rfl
@[simp] theorem State.putWarp_cfgRegs (s : State) (v : View) (w : Warp) : (s.putWarp v w).cfgRegs = s.cfgRegs := rfl
@[simp] theorem State.putWarp_debugOn (s : State) (v : View) (w : Warp) : (s.putWarp v w).debugOn = s.debugOn := rfl
@[simp] theorem State.putWarp_deviceId (s : State) (v : View) (w : Warp) : (s.putWarp v w).deviceId = s.deviceId := rfl
@[simp] theorem State.putWarp_ports (s : State) (v : View) (w : Warp) : (s.putWarp v w).ports = s.ports := rfl
@[simp] theorem State.putWarp_markers (s : State) (v : View) (w : Warp) : (s.putWarp v w).markers = s.markers := rfl
@[simp] theorem State.putWarp_engMarkers (s : State) (v : View) (w : Warp) : (s.putWarp v w).engMarkers = s.engMarkers := rfl
@[simp] theorem State.putWarp_fenceCounts (s : State) (v : View) (w : Warp) : (s.putWarp v w).fenceCounts = s.fenceCounts := rfl
@[simp] theorem State.putWarp_fenceOut (s : State) (v : View) (w : Warp) : (s.putWarp v w).fenceOut = s.fenceOut := rfl
@[simp] theorem State.putWarp_posted (s : State) (v : View) (w : Warp) : (s.putWarp v w).posted = s.posted := rfl
@[simp] theorem State.putWarp_grandmaster (s : State) (v : View) (w : Warp) : (s.putWarp v w).grandmaster = s.grandmaster := rfl
@[simp] theorem State.putWarp_slew (s : State) (v : View) (w : Warp) : (s.putWarp v w).slew = s.slew := rfl
@[simp] theorem State.putWarp_rollback (s : State) (v : View) (w : Warp) : (s.putWarp v w).rollback = s.rollback := rfl
@[simp] theorem State.putWarp_images (s : State) (v : View) (w : Warp) : (s.putWarp v w).images = s.images := rfl
@[simp] theorem State.putWarp_crownOk (s : State) (v : View) (w : Warp) : (s.putWarp v w).crownOk = s.crownOk := rfl
@[simp] theorem State.putWarp_powered (s : State) (v : View) (w : Warp) : (s.putWarp v w).powered = s.powered := rfl
@[simp] theorem State.putWarp_railFailed (s : State) (v : View) (w : Warp) : (s.putWarp v w).railFailed = s.railFailed := rfl
@[simp] theorem State.putWarp_capWatts (s : State) (v : View) (w : Warp) : (s.putWarp v w).capWatts = s.capWatts := rfl
@[simp] theorem State.putWarp_throttled (s : State) (v : View) (w : Warp) : (s.putWarp v w).throttled = s.throttled := rfl
@[simp] theorem State.putWarp_out (s : State) (v : View) (w : Warp) : (s.putWarp v w).out = s.out := rfl
@[simp] theorem State.putWarp_agenda (s : State) (v : View) (w : Warp) : (s.putWarp v w).agenda = s.agenda := rfl
@[simp] theorem State.putWarp_cur (s : State) (v : View) (w : Warp) : (s.putWarp v w).cur = s.cur := rfl
@[simp] theorem State.putWarp_tick (s : State) (v : View) (w : Warp) : (s.putWarp v w).tick = s.tick := rfl
@[simp] theorem State.putWarp_freeCtr (s : State) (v : View) (w : Warp) : (s.putWarp v w).freeCtr = s.freeCtr := rfl
@[simp] theorem State.putWarp_nextId (s : State) (v : View) (w : Warp) : (s.putWarp v w).nextId = s.nextId := rfl

/-! ### The pointer of a sequencer -/

@[simp] theorem State.setRotor_mem (s : State) (n cu seq key : Nat) : (s.setRotor n cu seq key).mem = s.mem := rfl
@[simp] theorem State.setRotor_leases (s : State) (n cu seq key : Nat) : (s.setRotor n cu seq key).leases = s.leases := rfl
@[simp] theorem State.setRotor_sysWins (s : State) (n cu seq key : Nat) : (s.setRotor n cu seq key).sysWins = s.sysWins := rfl
@[simp] theorem State.setRotor_imports (s : State) (n cu seq key : Nat) : (s.setRotor n cu seq key).imports = s.imports := rfl
@[simp] theorem State.setRotor_importRefused (s : State) (n cu seq key : Nat) : (s.setRotor n cu seq key).importRefused = s.importRefused := rfl
@[simp] theorem State.setRotor_flows (s : State) (n cu seq key : Nat) : (s.setRotor n cu seq key).flows = s.flows := rfl
@[simp] theorem State.setRotor_xl (s : State) (n cu seq key : Nat) : (s.setRotor n cu seq key).xl = s.xl := rfl
@[simp] theorem State.setRotor_watches (s : State) (n cu seq key : Nat) : (s.setRotor n cu seq key).watches = s.watches := rfl
@[simp] theorem State.setRotor_l1 (s : State) (n cu seq key : Nat) : (s.setRotor n cu seq key).l1 = s.l1 := rfl
@[simp] theorem State.setRotor_gStale (s : State) (n cu seq key : Nat) : (s.setRotor n cu seq key).gStale = s.gStale := rfl
@[simp] theorem State.setRotor_gStamp (s : State) (n cu seq key : Nat) : (s.setRotor n cu seq key).gStamp = s.gStamp := rfl
@[simp] theorem State.setRotor_dtime (s : State) (n cu seq key : Nat) : (s.setRotor n cu seq key).dtime = s.dtime := rfl
@[simp] theorem State.setRotor_kickVa (s : State) (n cu seq key : Nat) : (s.setRotor n cu seq key).kickVa = s.kickVa := rfl
@[simp] theorem State.setRotor_events (s : State) (n cu seq key : Nat) : (s.setRotor n cu seq key).events = s.events := rfl
@[simp] theorem State.setRotor_vfEnable (s : State) (n cu seq key : Nat) : (s.setRotor n cu seq key).vfEnable = s.vfEnable := rfl
@[simp] theorem State.setRotor_linkUp (s : State) (n cu seq key : Nat) : (s.setRotor n cu seq key).linkUp = s.linkUp := rfl
@[simp] theorem State.setRotor_linkWidth (s : State) (n cu seq key : Nat) : (s.setRotor n cu seq key).linkWidth = s.linkWidth := rfl
@[simp] theorem State.setRotor_linkRate (s : State) (n cu seq key : Nat) : (s.setRotor n cu seq key).linkRate = s.linkRate := rfl
@[simp] theorem State.setRotor_cfgRegs (s : State) (n cu seq key : Nat) : (s.setRotor n cu seq key).cfgRegs = s.cfgRegs := rfl
@[simp] theorem State.setRotor_debugOn (s : State) (n cu seq key : Nat) : (s.setRotor n cu seq key).debugOn = s.debugOn := rfl
@[simp] theorem State.setRotor_deviceId (s : State) (n cu seq key : Nat) : (s.setRotor n cu seq key).deviceId = s.deviceId := rfl
@[simp] theorem State.setRotor_ports (s : State) (n cu seq key : Nat) : (s.setRotor n cu seq key).ports = s.ports := rfl
@[simp] theorem State.setRotor_markers (s : State) (n cu seq key : Nat) : (s.setRotor n cu seq key).markers = s.markers := rfl
@[simp] theorem State.setRotor_engMarkers (s : State) (n cu seq key : Nat) : (s.setRotor n cu seq key).engMarkers = s.engMarkers := rfl
@[simp] theorem State.setRotor_fenceCounts (s : State) (n cu seq key : Nat) : (s.setRotor n cu seq key).fenceCounts = s.fenceCounts := rfl
@[simp] theorem State.setRotor_fenceOut (s : State) (n cu seq key : Nat) : (s.setRotor n cu seq key).fenceOut = s.fenceOut := rfl
@[simp] theorem State.setRotor_posted (s : State) (n cu seq key : Nat) : (s.setRotor n cu seq key).posted = s.posted := rfl
@[simp] theorem State.setRotor_grandmaster (s : State) (n cu seq key : Nat) : (s.setRotor n cu seq key).grandmaster = s.grandmaster := rfl
@[simp] theorem State.setRotor_slew (s : State) (n cu seq key : Nat) : (s.setRotor n cu seq key).slew = s.slew := rfl
@[simp] theorem State.setRotor_rollback (s : State) (n cu seq key : Nat) : (s.setRotor n cu seq key).rollback = s.rollback := rfl
@[simp] theorem State.setRotor_images (s : State) (n cu seq key : Nat) : (s.setRotor n cu seq key).images = s.images := rfl
@[simp] theorem State.setRotor_crownOk (s : State) (n cu seq key : Nat) : (s.setRotor n cu seq key).crownOk = s.crownOk := rfl
@[simp] theorem State.setRotor_powered (s : State) (n cu seq key : Nat) : (s.setRotor n cu seq key).powered = s.powered := rfl
@[simp] theorem State.setRotor_railFailed (s : State) (n cu seq key : Nat) : (s.setRotor n cu seq key).railFailed = s.railFailed := rfl
@[simp] theorem State.setRotor_capWatts (s : State) (n cu seq key : Nat) : (s.setRotor n cu seq key).capWatts = s.capWatts := rfl
@[simp] theorem State.setRotor_throttled (s : State) (n cu seq key : Nat) : (s.setRotor n cu seq key).throttled = s.throttled := rfl
@[simp] theorem State.setRotor_out (s : State) (n cu seq key : Nat) : (s.setRotor n cu seq key).out = s.out := rfl
@[simp] theorem State.setRotor_agenda (s : State) (n cu seq key : Nat) : (s.setRotor n cu seq key).agenda = s.agenda := rfl
@[simp] theorem State.setRotor_cur (s : State) (n cu seq key : Nat) : (s.setRotor n cu seq key).cur = s.cur := rfl
@[simp] theorem State.setRotor_tick (s : State) (n cu seq key : Nat) : (s.setRotor n cu seq key).tick = s.tick := rfl
@[simp] theorem State.setRotor_freeCtr (s : State) (n cu seq key : Nat) : (s.setRotor n cu seq key).freeCtr = s.freeCtr := rfl
@[simp] theorem State.setRotor_nextId (s : State) (n cu seq key : Nat) : (s.setRotor n cu seq key).nextId = s.nextId := rfl

/-! ### A CU's L1 -/

@[simp] theorem State.l1Clear_mem (s : State) (cu : Nat) : (s.l1Clear cu).mem = s.mem := rfl
@[simp] theorem State.l1Clear_slices (s : State) (cu : Nat) : (s.l1Clear cu).slices = s.slices := rfl
@[simp] theorem State.l1Clear_leases (s : State) (cu : Nat) : (s.l1Clear cu).leases = s.leases := rfl
@[simp] theorem State.l1Clear_sysWins (s : State) (cu : Nat) : (s.l1Clear cu).sysWins = s.sysWins := rfl
@[simp] theorem State.l1Clear_imports (s : State) (cu : Nat) : (s.l1Clear cu).imports = s.imports := rfl
@[simp] theorem State.l1Clear_importRefused (s : State) (cu : Nat) : (s.l1Clear cu).importRefused = s.importRefused := rfl
@[simp] theorem State.l1Clear_flows (s : State) (cu : Nat) : (s.l1Clear cu).flows = s.flows := rfl
@[simp] theorem State.l1Clear_xl (s : State) (cu : Nat) : (s.l1Clear cu).xl = s.xl := rfl
@[simp] theorem State.l1Clear_watches (s : State) (cu : Nat) : (s.l1Clear cu).watches = s.watches := rfl
@[simp] theorem State.l1Clear_gStale (s : State) (cu : Nat) : (s.l1Clear cu).gStale = s.gStale := rfl
@[simp] theorem State.l1Clear_gStamp (s : State) (cu : Nat) : (s.l1Clear cu).gStamp = s.gStamp := rfl
@[simp] theorem State.l1Clear_dtime (s : State) (cu : Nat) : (s.l1Clear cu).dtime = s.dtime := rfl
@[simp] theorem State.l1Clear_kickVa (s : State) (cu : Nat) : (s.l1Clear cu).kickVa = s.kickVa := rfl
@[simp] theorem State.l1Clear_events (s : State) (cu : Nat) : (s.l1Clear cu).events = s.events := rfl
@[simp] theorem State.l1Clear_vfEnable (s : State) (cu : Nat) : (s.l1Clear cu).vfEnable = s.vfEnable := rfl
@[simp] theorem State.l1Clear_linkUp (s : State) (cu : Nat) : (s.l1Clear cu).linkUp = s.linkUp := rfl
@[simp] theorem State.l1Clear_linkWidth (s : State) (cu : Nat) : (s.l1Clear cu).linkWidth = s.linkWidth := rfl
@[simp] theorem State.l1Clear_linkRate (s : State) (cu : Nat) : (s.l1Clear cu).linkRate = s.linkRate := rfl
@[simp] theorem State.l1Clear_cfgRegs (s : State) (cu : Nat) : (s.l1Clear cu).cfgRegs = s.cfgRegs := rfl
@[simp] theorem State.l1Clear_debugOn (s : State) (cu : Nat) : (s.l1Clear cu).debugOn = s.debugOn := rfl
@[simp] theorem State.l1Clear_deviceId (s : State) (cu : Nat) : (s.l1Clear cu).deviceId = s.deviceId := rfl
@[simp] theorem State.l1Clear_ports (s : State) (cu : Nat) : (s.l1Clear cu).ports = s.ports := rfl
@[simp] theorem State.l1Clear_markers (s : State) (cu : Nat) : (s.l1Clear cu).markers = s.markers := rfl
@[simp] theorem State.l1Clear_engMarkers (s : State) (cu : Nat) : (s.l1Clear cu).engMarkers = s.engMarkers := rfl
@[simp] theorem State.l1Clear_fenceCounts (s : State) (cu : Nat) : (s.l1Clear cu).fenceCounts = s.fenceCounts := rfl
@[simp] theorem State.l1Clear_fenceOut (s : State) (cu : Nat) : (s.l1Clear cu).fenceOut = s.fenceOut := rfl
@[simp] theorem State.l1Clear_posted (s : State) (cu : Nat) : (s.l1Clear cu).posted = s.posted := rfl
@[simp] theorem State.l1Clear_grandmaster (s : State) (cu : Nat) : (s.l1Clear cu).grandmaster = s.grandmaster := rfl
@[simp] theorem State.l1Clear_slew (s : State) (cu : Nat) : (s.l1Clear cu).slew = s.slew := rfl
@[simp] theorem State.l1Clear_rollback (s : State) (cu : Nat) : (s.l1Clear cu).rollback = s.rollback := rfl
@[simp] theorem State.l1Clear_images (s : State) (cu : Nat) : (s.l1Clear cu).images = s.images := rfl
@[simp] theorem State.l1Clear_crownOk (s : State) (cu : Nat) : (s.l1Clear cu).crownOk = s.crownOk := rfl
@[simp] theorem State.l1Clear_powered (s : State) (cu : Nat) : (s.l1Clear cu).powered = s.powered := rfl
@[simp] theorem State.l1Clear_railFailed (s : State) (cu : Nat) : (s.l1Clear cu).railFailed = s.railFailed := rfl
@[simp] theorem State.l1Clear_capWatts (s : State) (cu : Nat) : (s.l1Clear cu).capWatts = s.capWatts := rfl
@[simp] theorem State.l1Clear_throttled (s : State) (cu : Nat) : (s.l1Clear cu).throttled = s.throttled := rfl
@[simp] theorem State.l1Clear_out (s : State) (cu : Nat) : (s.l1Clear cu).out = s.out := rfl
@[simp] theorem State.l1Clear_agenda (s : State) (cu : Nat) : (s.l1Clear cu).agenda = s.agenda := rfl
@[simp] theorem State.l1Clear_cur (s : State) (cu : Nat) : (s.l1Clear cu).cur = s.cur := rfl
@[simp] theorem State.l1Clear_tick (s : State) (cu : Nat) : (s.l1Clear cu).tick = s.tick := rfl
@[simp] theorem State.l1Clear_freeCtr (s : State) (cu : Nat) : (s.l1Clear cu).freeCtr = s.freeCtr := rfl
@[simp] theorem State.l1Clear_nextId (s : State) (cu : Nat) : (s.l1Clear cu).nextId = s.nextId := rfl

/-! ### Lines of a CU's L1 -/

@[simp] theorem State.l1Drop_mem (s : State) (cu key n : Nat) : (s.l1Drop cu key n).mem = s.mem := rfl
@[simp] theorem State.l1Drop_slices (s : State) (cu key n : Nat) : (s.l1Drop cu key n).slices = s.slices := rfl
@[simp] theorem State.l1Drop_leases (s : State) (cu key n : Nat) : (s.l1Drop cu key n).leases = s.leases := rfl
@[simp] theorem State.l1Drop_sysWins (s : State) (cu key n : Nat) : (s.l1Drop cu key n).sysWins = s.sysWins := rfl
@[simp] theorem State.l1Drop_imports (s : State) (cu key n : Nat) : (s.l1Drop cu key n).imports = s.imports := rfl
@[simp] theorem State.l1Drop_importRefused (s : State) (cu key n : Nat) : (s.l1Drop cu key n).importRefused = s.importRefused := rfl
@[simp] theorem State.l1Drop_flows (s : State) (cu key n : Nat) : (s.l1Drop cu key n).flows = s.flows := rfl
@[simp] theorem State.l1Drop_xl (s : State) (cu key n : Nat) : (s.l1Drop cu key n).xl = s.xl := rfl
@[simp] theorem State.l1Drop_watches (s : State) (cu key n : Nat) : (s.l1Drop cu key n).watches = s.watches := rfl
@[simp] theorem State.l1Drop_gStale (s : State) (cu key n : Nat) : (s.l1Drop cu key n).gStale = s.gStale := rfl
@[simp] theorem State.l1Drop_gStamp (s : State) (cu key n : Nat) : (s.l1Drop cu key n).gStamp = s.gStamp := rfl
@[simp] theorem State.l1Drop_dtime (s : State) (cu key n : Nat) : (s.l1Drop cu key n).dtime = s.dtime := rfl
@[simp] theorem State.l1Drop_kickVa (s : State) (cu key n : Nat) : (s.l1Drop cu key n).kickVa = s.kickVa := rfl
@[simp] theorem State.l1Drop_events (s : State) (cu key n : Nat) : (s.l1Drop cu key n).events = s.events := rfl
@[simp] theorem State.l1Drop_vfEnable (s : State) (cu key n : Nat) : (s.l1Drop cu key n).vfEnable = s.vfEnable := rfl
@[simp] theorem State.l1Drop_linkUp (s : State) (cu key n : Nat) : (s.l1Drop cu key n).linkUp = s.linkUp := rfl
@[simp] theorem State.l1Drop_linkWidth (s : State) (cu key n : Nat) : (s.l1Drop cu key n).linkWidth = s.linkWidth := rfl
@[simp] theorem State.l1Drop_linkRate (s : State) (cu key n : Nat) : (s.l1Drop cu key n).linkRate = s.linkRate := rfl
@[simp] theorem State.l1Drop_cfgRegs (s : State) (cu key n : Nat) : (s.l1Drop cu key n).cfgRegs = s.cfgRegs := rfl
@[simp] theorem State.l1Drop_debugOn (s : State) (cu key n : Nat) : (s.l1Drop cu key n).debugOn = s.debugOn := rfl
@[simp] theorem State.l1Drop_deviceId (s : State) (cu key n : Nat) : (s.l1Drop cu key n).deviceId = s.deviceId := rfl
@[simp] theorem State.l1Drop_ports (s : State) (cu key n : Nat) : (s.l1Drop cu key n).ports = s.ports := rfl
@[simp] theorem State.l1Drop_markers (s : State) (cu key n : Nat) : (s.l1Drop cu key n).markers = s.markers := rfl
@[simp] theorem State.l1Drop_engMarkers (s : State) (cu key n : Nat) : (s.l1Drop cu key n).engMarkers = s.engMarkers := rfl
@[simp] theorem State.l1Drop_fenceCounts (s : State) (cu key n : Nat) : (s.l1Drop cu key n).fenceCounts = s.fenceCounts := rfl
@[simp] theorem State.l1Drop_fenceOut (s : State) (cu key n : Nat) : (s.l1Drop cu key n).fenceOut = s.fenceOut := rfl
@[simp] theorem State.l1Drop_posted (s : State) (cu key n : Nat) : (s.l1Drop cu key n).posted = s.posted := rfl
@[simp] theorem State.l1Drop_grandmaster (s : State) (cu key n : Nat) : (s.l1Drop cu key n).grandmaster = s.grandmaster := rfl
@[simp] theorem State.l1Drop_slew (s : State) (cu key n : Nat) : (s.l1Drop cu key n).slew = s.slew := rfl
@[simp] theorem State.l1Drop_rollback (s : State) (cu key n : Nat) : (s.l1Drop cu key n).rollback = s.rollback := rfl
@[simp] theorem State.l1Drop_images (s : State) (cu key n : Nat) : (s.l1Drop cu key n).images = s.images := rfl
@[simp] theorem State.l1Drop_crownOk (s : State) (cu key n : Nat) : (s.l1Drop cu key n).crownOk = s.crownOk := rfl
@[simp] theorem State.l1Drop_powered (s : State) (cu key n : Nat) : (s.l1Drop cu key n).powered = s.powered := rfl
@[simp] theorem State.l1Drop_railFailed (s : State) (cu key n : Nat) : (s.l1Drop cu key n).railFailed = s.railFailed := rfl
@[simp] theorem State.l1Drop_capWatts (s : State) (cu key n : Nat) : (s.l1Drop cu key n).capWatts = s.capWatts := rfl
@[simp] theorem State.l1Drop_throttled (s : State) (cu key n : Nat) : (s.l1Drop cu key n).throttled = s.throttled := rfl
@[simp] theorem State.l1Drop_out (s : State) (cu key n : Nat) : (s.l1Drop cu key n).out = s.out := rfl
@[simp] theorem State.l1Drop_agenda (s : State) (cu key n : Nat) : (s.l1Drop cu key n).agenda = s.agenda := rfl
@[simp] theorem State.l1Drop_cur (s : State) (cu key n : Nat) : (s.l1Drop cu key n).cur = s.cur := rfl
@[simp] theorem State.l1Drop_tick (s : State) (cu key n : Nat) : (s.l1Drop cu key n).tick = s.tick := rfl
@[simp] theorem State.l1Drop_freeCtr (s : State) (cu key n : Nat) : (s.l1Drop cu key n).freeCtr = s.freeCtr := rfl
@[simp] theorem State.l1Drop_nextId (s : State) (cu key n : Nat) : (s.l1Drop cu key n).nextId = s.nextId := rfl

/-! ### A fresh name -/

@[simp] theorem State.fresh_mem (s : State) : (s.fresh.2).mem = s.mem := rfl
@[simp] theorem State.fresh_slices (s : State) : (s.fresh.2).slices = s.slices := rfl
@[simp] theorem State.fresh_leases (s : State) : (s.fresh.2).leases = s.leases := rfl
@[simp] theorem State.fresh_sysWins (s : State) : (s.fresh.2).sysWins = s.sysWins := rfl
@[simp] theorem State.fresh_imports (s : State) : (s.fresh.2).imports = s.imports := rfl
@[simp] theorem State.fresh_importRefused (s : State) : (s.fresh.2).importRefused = s.importRefused := rfl
@[simp] theorem State.fresh_flows (s : State) : (s.fresh.2).flows = s.flows := rfl
@[simp] theorem State.fresh_xl (s : State) : (s.fresh.2).xl = s.xl := rfl
@[simp] theorem State.fresh_watches (s : State) : (s.fresh.2).watches = s.watches := rfl
@[simp] theorem State.fresh_l1 (s : State) : (s.fresh.2).l1 = s.l1 := rfl
@[simp] theorem State.fresh_gStale (s : State) : (s.fresh.2).gStale = s.gStale := rfl
@[simp] theorem State.fresh_gStamp (s : State) : (s.fresh.2).gStamp = s.gStamp := rfl
@[simp] theorem State.fresh_dtime (s : State) : (s.fresh.2).dtime = s.dtime := rfl
@[simp] theorem State.fresh_kickVa (s : State) : (s.fresh.2).kickVa = s.kickVa := rfl
@[simp] theorem State.fresh_events (s : State) : (s.fresh.2).events = s.events := rfl
@[simp] theorem State.fresh_vfEnable (s : State) : (s.fresh.2).vfEnable = s.vfEnable := rfl
@[simp] theorem State.fresh_linkUp (s : State) : (s.fresh.2).linkUp = s.linkUp := rfl
@[simp] theorem State.fresh_linkWidth (s : State) : (s.fresh.2).linkWidth = s.linkWidth := rfl
@[simp] theorem State.fresh_linkRate (s : State) : (s.fresh.2).linkRate = s.linkRate := rfl
@[simp] theorem State.fresh_cfgRegs (s : State) : (s.fresh.2).cfgRegs = s.cfgRegs := rfl
@[simp] theorem State.fresh_debugOn (s : State) : (s.fresh.2).debugOn = s.debugOn := rfl
@[simp] theorem State.fresh_deviceId (s : State) : (s.fresh.2).deviceId = s.deviceId := rfl
@[simp] theorem State.fresh_ports (s : State) : (s.fresh.2).ports = s.ports := rfl
@[simp] theorem State.fresh_markers (s : State) : (s.fresh.2).markers = s.markers := rfl
@[simp] theorem State.fresh_engMarkers (s : State) : (s.fresh.2).engMarkers = s.engMarkers := rfl
@[simp] theorem State.fresh_fenceCounts (s : State) : (s.fresh.2).fenceCounts = s.fenceCounts := rfl
@[simp] theorem State.fresh_fenceOut (s : State) : (s.fresh.2).fenceOut = s.fenceOut := rfl
@[simp] theorem State.fresh_posted (s : State) : (s.fresh.2).posted = s.posted := rfl
@[simp] theorem State.fresh_grandmaster (s : State) : (s.fresh.2).grandmaster = s.grandmaster := rfl
@[simp] theorem State.fresh_slew (s : State) : (s.fresh.2).slew = s.slew := rfl
@[simp] theorem State.fresh_rollback (s : State) : (s.fresh.2).rollback = s.rollback := rfl
@[simp] theorem State.fresh_images (s : State) : (s.fresh.2).images = s.images := rfl
@[simp] theorem State.fresh_crownOk (s : State) : (s.fresh.2).crownOk = s.crownOk := rfl
@[simp] theorem State.fresh_powered (s : State) : (s.fresh.2).powered = s.powered := rfl
@[simp] theorem State.fresh_railFailed (s : State) : (s.fresh.2).railFailed = s.railFailed := rfl
@[simp] theorem State.fresh_capWatts (s : State) : (s.fresh.2).capWatts = s.capWatts := rfl
@[simp] theorem State.fresh_throttled (s : State) : (s.fresh.2).throttled = s.throttled := rfl
@[simp] theorem State.fresh_out (s : State) : (s.fresh.2).out = s.out := rfl
@[simp] theorem State.fresh_agenda (s : State) : (s.fresh.2).agenda = s.agenda := rfl
@[simp] theorem State.fresh_cur (s : State) : (s.fresh.2).cur = s.cur := rfl
@[simp] theorem State.fresh_tick (s : State) : (s.fresh.2).tick = s.tick := rfl
@[simp] theorem State.fresh_freeCtr (s : State) : (s.fresh.2).freeCtr = s.freeCtr := rfl

/-! ### A team within its slice -/

@[simp] theorem Slice.modTeam_lsl (x : Slice) (id : Nat) (f : Team → Team) : (x.modTeam id f).lsl = x.lsl := rfl
@[simp] theorem Slice.modTeam_fus (x : Slice) (id : Nat) (f : Team → Team) : (x.modTeam id f).fus = x.fus := rfl
@[simp] theorem Slice.modTeam_st (x : Slice) (id : Nat) (f : Team → Team) : (x.modTeam id f).st = x.st := rfl
@[simp] theorem Slice.modTeam_tsh (x : Slice) (id : Nat) (f : Team → Team) : (x.modTeam id f).tsh = x.tsh := rfl
@[simp] theorem Slice.modTeam_vf (x : Slice) (id : Nat) (f : Team → Team) : (x.modTeam id f).vf = x.vf := rfl
@[simp] theorem Slice.modTeam_ways (x : Slice) (id : Nat) (f : Team → Team) : (x.modTeam id f).ways = x.ways := rfl
@[simp] theorem Slice.modTeam_coreMem (x : Slice) (id : Nat) (f : Team → Team) : (x.modTeam id f).coreMem = x.coreMem := rfl
@[simp] theorem Slice.modTeam_fmhz (x : Slice) (id : Nat) (f : Team → Team) : (x.modTeam id f).fmhz = x.fmhz := rfl
@[simp] theorem Slice.modTeam_vmv (x : Slice) (id : Nat) (f : Team → Team) : (x.modTeam id f).vmv = x.vmv := rfl
@[simp] theorem Slice.modTeam_rst (x : Slice) (id : Nat) (f : Team → Team) : (x.modTeam id f).rst = x.rst := rfl
@[simp] theorem Slice.modTeam_rqst (x : Slice) (id : Nat) (f : Team → Team) : (x.modTeam id f).rqst = x.rqst := rfl
@[simp] theorem Slice.modTeam_clock (x : Slice) (id : Nat) (f : Team → Team) : (x.modTeam id f).clock = x.clock := rfl
@[simp] theorem Slice.modTeam_coreOk (x : Slice) (id : Nat) (f : Team → Team) : (x.modTeam id f).coreOk = x.coreOk := rfl
@[simp] theorem Slice.modTeam_errpol (x : Slice) (id : Nat) (f : Team → Team) : (x.modTeam id f).errpol = x.errpol := rfl
@[simp] theorem Slice.modTeam_scrub (x : Slice) (id : Nat) (f : Team → Team) : (x.modTeam id f).scrub = x.scrub := rfl
@[simp] theorem Slice.modTeam_wdog (x : Slice) (id : Nat) (f : Team → Team) : (x.modTeam id f).wdog = x.wdog := rfl
@[simp] theorem Slice.modTeam_hyst (x : Slice) (id : Nat) (f : Team → Team) : (x.modTeam id f).hyst = x.hyst := rfl
@[simp] theorem Slice.modTeam_rgtim (x : Slice) (id : Nat) (f : Team → Team) : (x.modTeam id f).rgtim = x.rgtim := rfl
@[simp] theorem Slice.modTeam_counters (x : Slice) (id : Nat) (f : Team → Team) : (x.modTeam id f).counters = x.counters := rfl
@[simp] theorem Slice.modTeam_queues (x : Slice) (id : Nat) (f : Team → Team) : (x.modTeam id f).queues = x.queues := rfl
@[simp] theorem Slice.modTeam_launches (x : Slice) (id : Nat) (f : Team → Team) : (x.modTeam id f).launches = x.launches := rfl
@[simp] theorem Slice.modTeam_saved (x : Slice) (id : Nat) (f : Team → Team) : (x.modTeam id f).saved = x.saved := rfl
@[simp] theorem Slice.modTeam_savedRender (x : Slice) (id : Nat) (f : Team → Team) : (x.modTeam id f).savedRender = x.savedRender := rfl
@[simp] theorem Slice.modTeam_saveTime (x : Slice) (id : Nat) (f : Team → Team) : (x.modTeam id f).saveTime = x.saveTime := rfl
@[simp] theorem Slice.modTeam_held (x : Slice) (id : Nat) (f : Team → Team) : (x.modTeam id f).held = x.held := rfl
@[simp] theorem Slice.modTeam_rotor (x : Slice) (id : Nat) (f : Team → Team) : (x.modTeam id f).rotor = x.rotor := rfl
@[simp] theorem Slice.modTeam_icache (x : Slice) (id : Nat) (f : Team → Team) : (x.modTeam id f).icache = x.icache := rfl
@[simp] theorem Slice.modTeam_fetches (x : Slice) (id : Nat) (f : Team → Team) : (x.modTeam id f).fetches = x.fetches := rfl
@[simp] theorem Slice.modTeam_tlb (x : Slice) (id : Nat) (f : Team → Team) : (x.modTeam id f).tlb = x.tlb := rfl
@[simp] theorem Slice.modTeam_faults (x : Slice) (id : Nat) (f : Team → Team) : (x.modTeam id f).faults = x.faults := rfl
@[simp] theorem Slice.modTeam_ackFailed (x : Slice) (id : Nat) (f : Team → Team) : (x.modTeam id f).ackFailed = x.ackFailed := rfl
@[simp] theorem Slice.modTeam_faultLog (x : Slice) (id : Nat) (f : Team → Team) : (x.modTeam id f).faultLog = x.faultLog := rfl
@[simp] theorem Slice.modTeam_logOverflow (x : Slice) (id : Nat) (f : Team → Team) : (x.modTeam id f).logOverflow = x.logOverflow := rfl
@[simp] theorem Slice.modTeam_errLog (x : Slice) (id : Nat) (f : Team → Team) : (x.modTeam id f).errLog = x.errLog := rfl
@[simp] theorem Slice.modTeam_errDue (x : Slice) (id : Nat) (f : Team → Team) : (x.modTeam id f).errDue = x.errDue := rfl
@[simp] theorem Slice.modTeam_escs (x : Slice) (id : Nat) (f : Team → Team) : (x.modTeam id f).escs = x.escs := rfl
@[simp] theorem Slice.modTeam_corrected (x : Slice) (id : Nat) (f : Team → Team) : (x.modTeam id f).corrected = x.corrected := rfl
@[simp] theorem Slice.modTeam_uncorrected (x : Slice) (id : Nat) (f : Team → Team) : (x.modTeam id f).uncorrected = x.uncorrected := rfl
@[simp] theorem Slice.modTeam_groups (x : Slice) (id : Nat) (f : Team → Team) : (x.modTeam id f).groups = x.groups := rfl
@[simp] theorem Slice.modTeam_acl (x : Slice) (id : Nat) (f : Team → Team) : (x.modTeam id f).acl = x.acl := rfl
@[simp] theorem Slice.modTeam_violations (x : Slice) (id : Nat) (f : Team → Team) : (x.modTeam id f).violations = x.violations := rfl
@[simp] theorem Slice.modTeam_aclLog (x : Slice) (id : Nat) (f : Team → Team) : (x.modTeam id f).aclLog = x.aclLog := rfl
@[simp] theorem Slice.modTeam_nodes (x : Slice) (id : Nat) (f : Team → Team) : (x.modTeam id f).nodes = x.nodes := rfl
@[simp] theorem Slice.modTeam_nodeRecs (x : Slice) (id : Nat) (f : Team → Team) : (x.modTeam id f).nodeRecs = x.nodeRecs := rfl
@[simp] theorem Slice.modTeam_regroup (x : Slice) (id : Nat) (f : Team → Team) : (x.modTeam id f).regroup = x.regroup := rfl
@[simp] theorem Slice.modTeam_loads (x : Slice) (id : Nat) (f : Team → Team) : (x.modTeam id f).loads = x.loads := rfl
@[simp] theorem Slice.modTeam_poolFull (x : Slice) (id : Nat) (f : Team → Team) : (x.modTeam id f).poolFull = x.poolFull := rfl
@[simp] theorem Slice.modTeam_comp (x : Slice) (id : Nat) (f : Team → Team) : (x.modTeam id f).comp = x.comp := rfl
@[simp] theorem Slice.modTeam_act (x : Slice) (id : Nat) (f : Team → Team) : (x.modTeam id f).act = x.act := rfl
@[simp] theorem Slice.modTeam_tableStatus (x : Slice) (id : Nat) (f : Team → Team) : (x.modTeam id f).tableStatus = x.tableStatus := rfl
@[simp] theorem Slice.modTeam_tblds (x : Slice) (id : Nat) (f : Team → Team) : (x.modTeam id f).tblds = x.tblds := rfl
@[simp] theorem Slice.modTeam_channels (x : Slice) (id : Nat) (f : Team → Team) : (x.modTeam id f).channels = x.channels := rfl
@[simp] theorem Slice.modTeam_ring (x : Slice) (id : Nat) (f : Team → Team) : (x.modTeam id f).ring = x.ring := rfl
@[simp] theorem Slice.modTeam_tasks (x : Slice) (id : Nat) (f : Team → Team) : (x.modTeam id f).tasks = x.tasks := rfl
@[simp] theorem Slice.modTeam_tokens (x : Slice) (id : Nat) (f : Team → Team) : (x.modTeam id f).tokens = x.tokens := rfl
@[simp] theorem Slice.modTeam_engines (x : Slice) (id : Nat) (f : Team → Team) : (x.modTeam id f).engines = x.engines := rfl
@[simp] theorem Slice.modTeam_radiance (x : Slice) (id : Nat) (f : Team → Team) : (x.modTeam id f).radiance = x.radiance := rfl
@[simp] theorem Slice.modTeam_gibbs (x : Slice) (id : Nat) (f : Team → Team) : (x.modTeam id f).gibbs = x.gibbs := rfl
@[simp] theorem Slice.modTeam_render (x : Slice) (id : Nat) (f : Team → Team) : (x.modTeam id f).render = x.render := rfl
@[simp] theorem Slice.modTeam_payloads (x : Slice) (id : Nat) (f : Team → Team) : (x.modTeam id f).payloads = x.payloads := rfl
@[simp] theorem Slice.modTeam_encoder (x : Slice) (id : Nat) (f : Team → Team) : (x.modTeam id f).encoder = x.encoder := rfl
@[simp] theorem Slice.modTeam_running (x : Slice) (id : Nat) (f : Team → Team) : (x.modTeam id f).running = x.running := rfl
@[simp] theorem Slice.modTeam_sharers (x : Slice) (id : Nat) (f : Team → Team) : (x.modTeam id f).sharers = x.sharers := rfl
@[simp] theorem Slice.modTeam_quantum (x : Slice) (id : Nat) (f : Team → Team) : (x.modTeam id f).quantum = x.quantum := rfl
@[simp] theorem Slice.modTeam_quantumFrom (x : Slice) (id : Nat) (f : Team → Team) : (x.modTeam id f).quantumFrom = x.quantumFrom := rfl
@[simp] theorem Slice.modTeam_drain (x : Slice) (id : Nat) (f : Team → Team) : (x.modTeam id f).drain = x.drain := rfl
@[simp] theorem Slice.modTeam_savedFns (x : Slice) (id : Nat) (f : Team → Team) : (x.modTeam id f).savedFns = x.savedFns := rfl
@[simp] theorem Slice.modTeam_quietReset (x : Slice) (id : Nat) (f : Team → Team) : (x.modTeam id f).quietReset = x.quietReset := rfl
@[simp] theorem Slice.modTeam_resetDue (x : Slice) (id : Nat) (f : Team → Team) : (x.modTeam id f).resetDue = x.resetDue := rfl
@[simp] theorem Slice.modTeam_leaving (x : Slice) (id : Nat) (f : Team → Team) : (x.modTeam id f).leaving = x.leaving := rfl
@[simp] theorem Slice.modTeam_fusing (x : Slice) (id : Nat) (f : Team → Team) : (x.modTeam id f).fusing = x.fusing := rfl

/-! ### A warp within its team -/

@[simp] theorem Team.modWarp_id (t : Team) (k : Nat) (f : Warp → Warp) : (t.modWarp k f).id = t.id := rfl
@[simp] theorem Team.modWarp_launch (t : Team) (k : Nat) (f : Warp → Warp) : (t.modWarp k f).launch = t.launch := rfl
@[simp] theorem Team.modWarp_queue (t : Team) (k : Nat) (f : Warp → Warp) : (t.modWarp k f).queue = t.queue := rfl
@[simp] theorem Team.modWarp_graph (t : Team) (k : Nat) (f : Warp → Warp) : (t.modWarp k f).graph = t.graph := rfl
@[simp] theorem Team.modWarp_teamid (t : Team) (k : Nat) (f : Warp → Warp) : (t.modWarp k f).teamid = t.teamid := rfl
@[simp] theorem Team.modWarp_cu (t : Team) (k : Nat) (f : Warp → Warp) : (t.modWarp k f).cu = t.cu := rfl
@[simp] theorem Team.modWarp_pin (t : Team) (k : Nat) (f : Warp → Warp) : (t.modWarp k f).pin = t.pin := rfl
@[simp] theorem Team.modWarp_kind (t : Team) (k : Nat) (f : Warp → Warp) : (t.modWarp k f).kind = t.kind := rfl
@[simp] theorem Team.modWarp_n (t : Team) (k : Nat) (f : Warp → Warp) : (t.modWarp k f).n = t.n := rfl
@[simp] theorem Team.modWarp_scratchSize (t : Team) (k : Nat) (f : Warp → Warp) : (t.modWarp k f).scratchSize = t.scratchSize := rfl
@[simp] theorem Team.modWarp_scratch (t : Team) (k : Nat) (f : Warp → Warp) : (t.modWarp k f).scratch = t.scratch := rfl
@[simp] theorem Team.modWarp_groups (t : Team) (k : Nat) (f : Warp → Warp) : (t.modWarp k f).groups = t.groups := rfl
@[simp] theorem Team.modWarp_gbarAt (t : Team) (k : Nat) (f : Warp → Warp) : (t.modWarp k f).gbarAt = t.gbarAt := rfl
@[simp] theorem Team.modWarp_placedAt (t : Team) (k : Nat) (f : Warp → Warp) : (t.modWarp k f).placedAt = t.placedAt := rfl
@[simp] theorem Team.modWarp_halted (t : Team) (k : Nat) (f : Warp → Warp) : (t.modWarp k f).halted = t.halted := rfl
@[simp] theorem Team.modWarp_broken (t : Team) (k : Nat) (f : Warp → Warp) : (t.modWarp k f).broken = t.broken := rfl
@[simp] theorem Team.modWarp_saveFrom (t : Team) (k : Nat) (f : Warp → Warp) : (t.modWarp k f).saveFrom = t.saveFrom := rfl
@[simp] theorem Team.modWarp_saveFor (t : Team) (k : Nat) (f : Warp → Warp) : (t.modWarp k f).saveFor = t.saveFor := rfl
@[simp] theorem Team.modWarp_edits (t : Team) (k : Nat) (f : Warp → Warp) : (t.modWarp k f).edits = t.edits := rfl
@[simp] theorem Team.modWarp_headEdits (t : Team) (k : Nat) (f : Warp → Warp) : (t.modWarp k f).headEdits = t.headEdits := rfl
@[simp] theorem Team.modWarp_vf (t : Team) (k : Nat) (f : Warp → Warp) : (t.modWarp k f).vf = t.vf := rfl

/-! ### A vector register -/

@[simp] theorem Warp.vset_n (w : Warp) (n : Nat) (r : VReg) : (w.vset n r).n = w.n := rfl
@[simp] theorem Warp.vset_sregs (w : Warp) (n : Nat) (r : VReg) : (w.vset n r).sregs = w.sregs := rfl
@[simp] theorem Warp.vset_sbad (w : Warp) (n : Nat) (r : VReg) : (w.vset n r).sbad = w.sbad := rfl
@[simp] theorem Warp.vset_preds (w : Warp) (n : Nat) (r : VReg) : (w.vset n r).preds = w.preds := rfl
@[simp] theorem Warp.vset_pbad (w : Warp) (n : Nat) (r : VReg) : (w.vset n r).pbad = w.pbad := rfl
@[simp] theorem Warp.vset_qpreds (w : Warp) (n : Nat) (r : VReg) : (w.vset n r).qpreds = w.qpreds := rfl
@[simp] theorem Warp.vset_part (w : Warp) (n : Nat) (r : VReg) : (w.vset n r).part = w.part := rfl
@[simp] theorem Warp.vset_fpctl (w : Warp) (n : Nat) (r : VReg) : (w.vset n r).fpctl = w.fpctl := rfl
@[simp] theorem Warp.vset_fpstat (w : Warp) (n : Nat) (r : VReg) : (w.vset n r).fpstat = w.fpstat := rfl
@[simp] theorem Warp.vset_trappc (w : Warp) (n : Nat) (r : VReg) : (w.vset n r).trappc = w.trappc := rfl
@[simp] theorem Warp.vset_trapcause (w : Warp) (n : Nat) (r : VReg) : (w.vset n r).trapcause = w.trapcause := rfl
@[simp] theorem Warp.vset_trapinfo (w : Warp) (n : Nat) (r : VReg) : (w.vset n r).trapinfo = w.trapinfo := rfl
@[simp] theorem Warp.vset_trapvec (w : Warp) (n : Nat) (r : VReg) : (w.vset n r).trapvec = w.trapvec := rfl
@[simp] theorem Warp.vset_origlane (w : Warp) (n : Nat) (r : VReg) : (w.vset n r).origlane = w.origlane := rfl
@[simp] theorem Warp.vset_origin (w : Warp) (n : Nat) (r : VReg) : (w.vset n r).origin = w.origin := rfl
@[simp] theorem Warp.vset_hits (w : Warp) (n : Nat) (r : VReg) : (w.vset n r).hits = w.hits := rfl
@[simp] theorem Warp.vset_returns (w : Warp) (n : Nat) (r : VReg) : (w.vset n r).returns = w.returns := rfl
@[simp] theorem Warp.vset_front (w : Warp) (n : Nat) (r : VReg) : (w.vset n r).front = w.front := rfl
@[simp] theorem Warp.vset_wait (w : Warp) (n : Nat) (r : VReg) : (w.vset n r).wait = w.wait := rfl
@[simp] theorem Warp.vset_exited (w : Warp) (n : Nat) (r : VReg) : (w.vset n r).exited = w.exited := rfl
@[simp] theorem Warp.vset_handler (w : Warp) (n : Nat) (r : VReg) : (w.vset n r).handler = w.handler := rfl
@[simp] theorem Warp.vset_escFrozen (w : Warp) (n : Nat) (r : VReg) : (w.vset n r).escFrozen = w.escFrozen := rfl
@[simp] theorem Warp.vset_kept (w : Warp) (n : Nat) (r : VReg) : (w.vset n r).kept = w.kept := rfl
@[simp] theorem Warp.vset_escAnswer (w : Warp) (n : Nat) (r : VReg) : (w.vset n r).escAnswer = w.escAnswer := rfl
@[simp] theorem Warp.vset_escOf (w : Warp) (n : Nat) (r : VReg) : (w.vset n r).escOf = w.escOf := rfl
@[simp] theorem Warp.vset_flights (w : Warp) (n : Nat) (r : VReg) : (w.vset n r).flights = w.flights := rfl
@[simp] theorem Warp.vset_fabric (w : Warp) (n : Nat) (r : VReg) : (w.vset n r).fabric = w.fabric := rfl
@[simp] theorem Warp.vset_gSeen (w : Warp) (n : Nat) (r : VReg) : (w.vset n r).gSeen = w.gSeen := rfl
@[simp] theorem Warp.vset_seq (w : Warp) (n : Nat) (r : VReg) : (w.vset n r).seq = w.seq := rfl
@[simp] theorem Warp.vset_slot (w : Warp) (n : Nat) (r : VReg) : (w.vset n r).slot = w.slot := rfl
@[simp] theorem Warp.vset_ended (w : Warp) (n : Nat) (r : VReg) : (w.vset n r).ended = w.ended := rfl

/-! ### A scalar register -/

@[simp] theorem Warp.swrite_n (w : Warp) (k : Nat) (x : Word) : (w.swrite k x).n = w.n := rfl
@[simp] theorem Warp.swrite_vregs (w : Warp) (k : Nat) (x : Word) : (w.swrite k x).vregs = w.vregs := rfl
@[simp] theorem Warp.swrite_preds (w : Warp) (k : Nat) (x : Word) : (w.swrite k x).preds = w.preds := rfl
@[simp] theorem Warp.swrite_pbad (w : Warp) (k : Nat) (x : Word) : (w.swrite k x).pbad = w.pbad := rfl
@[simp] theorem Warp.swrite_qpreds (w : Warp) (k : Nat) (x : Word) : (w.swrite k x).qpreds = w.qpreds := rfl
@[simp] theorem Warp.swrite_part (w : Warp) (k : Nat) (x : Word) : (w.swrite k x).part = w.part := rfl
@[simp] theorem Warp.swrite_fpctl (w : Warp) (k : Nat) (x : Word) : (w.swrite k x).fpctl = w.fpctl := rfl
@[simp] theorem Warp.swrite_fpstat (w : Warp) (k : Nat) (x : Word) : (w.swrite k x).fpstat = w.fpstat := rfl
@[simp] theorem Warp.swrite_trappc (w : Warp) (k : Nat) (x : Word) : (w.swrite k x).trappc = w.trappc := rfl
@[simp] theorem Warp.swrite_trapcause (w : Warp) (k : Nat) (x : Word) : (w.swrite k x).trapcause = w.trapcause := rfl
@[simp] theorem Warp.swrite_trapinfo (w : Warp) (k : Nat) (x : Word) : (w.swrite k x).trapinfo = w.trapinfo := rfl
@[simp] theorem Warp.swrite_trapvec (w : Warp) (k : Nat) (x : Word) : (w.swrite k x).trapvec = w.trapvec := rfl
@[simp] theorem Warp.swrite_origlane (w : Warp) (k : Nat) (x : Word) : (w.swrite k x).origlane = w.origlane := rfl
@[simp] theorem Warp.swrite_origin (w : Warp) (k : Nat) (x : Word) : (w.swrite k x).origin = w.origin := rfl
@[simp] theorem Warp.swrite_hits (w : Warp) (k : Nat) (x : Word) : (w.swrite k x).hits = w.hits := rfl
@[simp] theorem Warp.swrite_returns (w : Warp) (k : Nat) (x : Word) : (w.swrite k x).returns = w.returns := rfl
@[simp] theorem Warp.swrite_front (w : Warp) (k : Nat) (x : Word) : (w.swrite k x).front = w.front := rfl
@[simp] theorem Warp.swrite_wait (w : Warp) (k : Nat) (x : Word) : (w.swrite k x).wait = w.wait := rfl
@[simp] theorem Warp.swrite_exited (w : Warp) (k : Nat) (x : Word) : (w.swrite k x).exited = w.exited := rfl
@[simp] theorem Warp.swrite_handler (w : Warp) (k : Nat) (x : Word) : (w.swrite k x).handler = w.handler := rfl
@[simp] theorem Warp.swrite_escFrozen (w : Warp) (k : Nat) (x : Word) : (w.swrite k x).escFrozen = w.escFrozen := rfl
@[simp] theorem Warp.swrite_kept (w : Warp) (k : Nat) (x : Word) : (w.swrite k x).kept = w.kept := rfl
@[simp] theorem Warp.swrite_escAnswer (w : Warp) (k : Nat) (x : Word) : (w.swrite k x).escAnswer = w.escAnswer := rfl
@[simp] theorem Warp.swrite_escOf (w : Warp) (k : Nat) (x : Word) : (w.swrite k x).escOf = w.escOf := rfl
@[simp] theorem Warp.swrite_flights (w : Warp) (k : Nat) (x : Word) : (w.swrite k x).flights = w.flights := rfl
@[simp] theorem Warp.swrite_fabric (w : Warp) (k : Nat) (x : Word) : (w.swrite k x).fabric = w.fabric := rfl
@[simp] theorem Warp.swrite_gSeen (w : Warp) (k : Nat) (x : Word) : (w.swrite k x).gSeen = w.gSeen := rfl
@[simp] theorem Warp.swrite_seq (w : Warp) (k : Nat) (x : Word) : (w.swrite k x).seq = w.seq := rfl
@[simp] theorem Warp.swrite_slot (w : Warp) (k : Nat) (x : Word) : (w.swrite k x).slot = w.slot := rfl
@[simp] theorem Warp.swrite_ended (w : Warp) (k : Nat) (x : Word) : (w.swrite k x).ended = w.ended := rfl

/-! ### The rules of the frontier -/

@[simp] theorem Warp.settle_n (marked : DWord → Bool) (w : Warp) : (w.settle marked).n = w.n := rfl
@[simp] theorem Warp.settle_vregs (marked : DWord → Bool) (w : Warp) : (w.settle marked).vregs = w.vregs := rfl
@[simp] theorem Warp.settle_sregs (marked : DWord → Bool) (w : Warp) : (w.settle marked).sregs = w.sregs := rfl
@[simp] theorem Warp.settle_sbad (marked : DWord → Bool) (w : Warp) : (w.settle marked).sbad = w.sbad := rfl
@[simp] theorem Warp.settle_preds (marked : DWord → Bool) (w : Warp) : (w.settle marked).preds = w.preds := rfl
@[simp] theorem Warp.settle_pbad (marked : DWord → Bool) (w : Warp) : (w.settle marked).pbad = w.pbad := rfl
@[simp] theorem Warp.settle_qpreds (marked : DWord → Bool) (w : Warp) : (w.settle marked).qpreds = w.qpreds := rfl
@[simp] theorem Warp.settle_part (marked : DWord → Bool) (w : Warp) : (w.settle marked).part = w.part := rfl
@[simp] theorem Warp.settle_fpctl (marked : DWord → Bool) (w : Warp) : (w.settle marked).fpctl = w.fpctl := rfl
@[simp] theorem Warp.settle_fpstat (marked : DWord → Bool) (w : Warp) : (w.settle marked).fpstat = w.fpstat := rfl
@[simp] theorem Warp.settle_trappc (marked : DWord → Bool) (w : Warp) : (w.settle marked).trappc = w.trappc := rfl
@[simp] theorem Warp.settle_trapcause (marked : DWord → Bool) (w : Warp) : (w.settle marked).trapcause = w.trapcause := rfl
@[simp] theorem Warp.settle_trapinfo (marked : DWord → Bool) (w : Warp) : (w.settle marked).trapinfo = w.trapinfo := rfl
@[simp] theorem Warp.settle_trapvec (marked : DWord → Bool) (w : Warp) : (w.settle marked).trapvec = w.trapvec := rfl
@[simp] theorem Warp.settle_origlane (marked : DWord → Bool) (w : Warp) : (w.settle marked).origlane = w.origlane := rfl
@[simp] theorem Warp.settle_origin (marked : DWord → Bool) (w : Warp) : (w.settle marked).origin = w.origin := rfl
@[simp] theorem Warp.settle_hits (marked : DWord → Bool) (w : Warp) : (w.settle marked).hits = w.hits := rfl
@[simp] theorem Warp.settle_returns (marked : DWord → Bool) (w : Warp) : (w.settle marked).returns = w.returns := rfl
@[simp] theorem Warp.settle_exited (marked : DWord → Bool) (w : Warp) : (w.settle marked).exited = w.exited := rfl
@[simp] theorem Warp.settle_handler (marked : DWord → Bool) (w : Warp) : (w.settle marked).handler = w.handler := rfl
@[simp] theorem Warp.settle_escFrozen (marked : DWord → Bool) (w : Warp) : (w.settle marked).escFrozen = w.escFrozen := rfl
@[simp] theorem Warp.settle_kept (marked : DWord → Bool) (w : Warp) : (w.settle marked).kept = w.kept := rfl
@[simp] theorem Warp.settle_escAnswer (marked : DWord → Bool) (w : Warp) : (w.settle marked).escAnswer = w.escAnswer := rfl
@[simp] theorem Warp.settle_escOf (marked : DWord → Bool) (w : Warp) : (w.settle marked).escOf = w.escOf := rfl
@[simp] theorem Warp.settle_flights (marked : DWord → Bool) (w : Warp) : (w.settle marked).flights = w.flights := rfl
@[simp] theorem Warp.settle_fabric (marked : DWord → Bool) (w : Warp) : (w.settle marked).fabric = w.fabric := rfl
@[simp] theorem Warp.settle_gSeen (marked : DWord → Bool) (w : Warp) : (w.settle marked).gSeen = w.gSeen := rfl
@[simp] theorem Warp.settle_seq (marked : DWord → Bool) (w : Warp) : (w.settle marked).seq = w.seq := rfl
@[simp] theorem Warp.settle_slot (marked : DWord → Bool) (w : Warp) : (w.settle marked).slot = w.slot := rfl
@[simp] theorem Warp.settle_ended (marked : DWord → Bool) (w : Warp) : (w.settle marked).ended = w.ended := rfl

/-! ### The splits of a warp -/

@[simp] theorem Warp.mapSplits_n (f : Split → Split) (w : Warp) : (w.mapSplits f).n = w.n := rfl
@[simp] theorem Warp.mapSplits_vregs (f : Split → Split) (w : Warp) : (w.mapSplits f).vregs = w.vregs := rfl
@[simp] theorem Warp.mapSplits_sregs (f : Split → Split) (w : Warp) : (w.mapSplits f).sregs = w.sregs := rfl
@[simp] theorem Warp.mapSplits_sbad (f : Split → Split) (w : Warp) : (w.mapSplits f).sbad = w.sbad := rfl
@[simp] theorem Warp.mapSplits_preds (f : Split → Split) (w : Warp) : (w.mapSplits f).preds = w.preds := rfl
@[simp] theorem Warp.mapSplits_pbad (f : Split → Split) (w : Warp) : (w.mapSplits f).pbad = w.pbad := rfl
@[simp] theorem Warp.mapSplits_qpreds (f : Split → Split) (w : Warp) : (w.mapSplits f).qpreds = w.qpreds := rfl
@[simp] theorem Warp.mapSplits_part (f : Split → Split) (w : Warp) : (w.mapSplits f).part = w.part := rfl
@[simp] theorem Warp.mapSplits_fpctl (f : Split → Split) (w : Warp) : (w.mapSplits f).fpctl = w.fpctl := rfl
@[simp] theorem Warp.mapSplits_fpstat (f : Split → Split) (w : Warp) : (w.mapSplits f).fpstat = w.fpstat := rfl
@[simp] theorem Warp.mapSplits_trappc (f : Split → Split) (w : Warp) : (w.mapSplits f).trappc = w.trappc := rfl
@[simp] theorem Warp.mapSplits_trapcause (f : Split → Split) (w : Warp) : (w.mapSplits f).trapcause = w.trapcause := rfl
@[simp] theorem Warp.mapSplits_trapinfo (f : Split → Split) (w : Warp) : (w.mapSplits f).trapinfo = w.trapinfo := rfl
@[simp] theorem Warp.mapSplits_trapvec (f : Split → Split) (w : Warp) : (w.mapSplits f).trapvec = w.trapvec := rfl
@[simp] theorem Warp.mapSplits_origlane (f : Split → Split) (w : Warp) : (w.mapSplits f).origlane = w.origlane := rfl
@[simp] theorem Warp.mapSplits_origin (f : Split → Split) (w : Warp) : (w.mapSplits f).origin = w.origin := rfl
@[simp] theorem Warp.mapSplits_hits (f : Split → Split) (w : Warp) : (w.mapSplits f).hits = w.hits := rfl
@[simp] theorem Warp.mapSplits_returns (f : Split → Split) (w : Warp) : (w.mapSplits f).returns = w.returns := rfl
@[simp] theorem Warp.mapSplits_exited (f : Split → Split) (w : Warp) : (w.mapSplits f).exited = w.exited := rfl
@[simp] theorem Warp.mapSplits_escFrozen (f : Split → Split) (w : Warp) : (w.mapSplits f).escFrozen = w.escFrozen := rfl
@[simp] theorem Warp.mapSplits_kept (f : Split → Split) (w : Warp) : (w.mapSplits f).kept = w.kept := rfl
@[simp] theorem Warp.mapSplits_escAnswer (f : Split → Split) (w : Warp) : (w.mapSplits f).escAnswer = w.escAnswer := rfl
@[simp] theorem Warp.mapSplits_escOf (f : Split → Split) (w : Warp) : (w.mapSplits f).escOf = w.escOf := rfl
@[simp] theorem Warp.mapSplits_flights (f : Split → Split) (w : Warp) : (w.mapSplits f).flights = w.flights := rfl
@[simp] theorem Warp.mapSplits_fabric (f : Split → Split) (w : Warp) : (w.mapSplits f).fabric = w.fabric := rfl
@[simp] theorem Warp.mapSplits_gSeen (f : Split → Split) (w : Warp) : (w.mapSplits f).gSeen = w.gSeen := rfl
@[simp] theorem Warp.mapSplits_seq (f : Split → Split) (w : Warp) : (w.mapSplits f).seq = w.seq := rfl
@[simp] theorem Warp.mapSplits_slot (f : Split → Split) (w : Warp) : (w.mapSplits f).slot = w.slot := rfl
@[simp] theorem Warp.mapSplits_ended (f : Split → Split) (w : Warp) : (w.mapSplits f).ended = w.ended := rfl

end Sys2Proof.Machine
end

