-- ==== Sys2Proof/Tests/Slice0.lean ====
section
/-! SUPPORT. Tests of the decoder on words written out from 03 R86-R114, a state that meets the hypotheses of each statement, and
results worked out from the rules. -/

set_option Elab.async false

namespace Sys2Proof.Tests

open Sys2Proof.Machine

/-! ### Words -/

/-- A word as bits [95:64], [63:32] and [31:0], as 03 writes it. -/
def w3 (a b c : Nat) : IWord := BitVec.ofNat 32 a ++ BitVec.ofNat 32 b ++ BitVec.ofNat 32 c
def hN : Hdr := ⟨⟨false, 7⟩, false, false, .none⟩
def hV (n : BitVec 8) : Hdr := ⟨⟨false, 7⟩, false, false, .vec n⟩
def hS (n : BitVec 8) : Hdr := ⟨⟨false, 7⟩, false, false, .scal n⟩
def hU (n : BitVec 8) : Hdr := ⟨⟨false, 7⟩, true, false, .scal n⟩
def hP (n : BitVec 8) : Hdr := ⟨⟨false, 7⟩, false, false, .pred n⟩
def V (n : BitVec 8) : Src := ⟨.vec n, .none, false, false⟩
def S (n : BitVec 8) : Src := ⟨.scal n, .none, false, false⟩
def K (n : BitVec 8) : Src := ⟨.imm n, .none, false, false⟩

/-- Each word decodes to its instruction. -/
def decodes (l : List (IWord × Instr)) : Bool := l.all fun x => decodeTableWord 96 x.1.toNat == some x.2
/-- Each word is refused with its field code. -/
def refused (l : List (IWord × Nat)) : Bool := l.all fun x => decodeWord 256 x.1 == .bad x.2

def words_integers : List (IWord × Instr) :=
  [(w3 0x00700000 0x00000000 0x00000000, .nop hN),
   (w3 0x01710401 0x80000000 0x00000001, .mov (hV 4) true (V 6)),
   (w3 0x02710900 0x003F8000 0x00000000, .movi (hV 9) .w32 0x3F800000),
   (w3 0x027A0A00 0x00FFFFFF 0xFE000001, .movi (hU 10) .sx 0xFFFFFFFE),
   (w3 0x03710300 0x40008000 0x0000001A, .sel (hV 3) false ⟨true, 5⟩ (V 1) (V 2)),
   (w3 0x04710400 0x40008800 0x00000000, .iadd (hV 4) (V 1) { V 2 with perm := .rot 1 }),
   (w3 0x05710580 0x4000C000 0x00000000, .isub (hV 5) ⟨.latch 1, .none, false, false⟩ (V 3)),
   (w3 0x06710600 0x80010000 0x00000000, .iadd64 (hV 6) (V 2) (V 4)),
   (w3 0x077A0640 0x80C04000 0x00000000, .isub64 (hU 6) (S 2) (K 1)),
   (w3 0x08710300 0x42008100 0x00000000, .imul (hV 3) { V 1 with neg := true } { V 2 with abs := true }),
   (w3 0x09710300 0x40008000 0x00340000, .imulh (hV 3) .n32 (V 1) (V 2)),
   (w3 0x0A710400 0x40008000 0xC0000000, .imad (hV 4) (V 1) (V 2) (V 3)),
   (w3 0x0B710600 0x40008001 0x00300000, .imad64 (hV 6) .s32 (V 1) (V 2) (V 4)),
   (w3 0x0C710600 0x80010000 0x00380000, .idiv (hV 6) .s64 (V 2) (V 4)),
   (w3 0x0D710300 0x40008000 0x00340000, .irem (hV 3) .n32 (V 1) (V 2)),
   (w3 0x0E710300 0x40008000 0x00300000, .imin (hV 3) .s32 (V 1) (V 2)),
   (w3 0x0F710600 0x80010000 0x003C0000, .imax (hV 6) .n64 (V 2) (V 4)),
   (w3 0x10710300 0x40000000 0x00300000, .iabs (hV 3) .s32 (V 1)),
   (w3 0x11710400 0x80000000 0x00380000, .ineg (hV 4) .s64 (V 2)),
   (w3 0x12710300 0x40DFC000 0x00300000, .iadds (hV 3) .s32 (V 1) (K 0x7F)),
   (w3 0x13710400 0x40008000 0xC0209001, .idot4 (hV 4) .s8 .n8 true (V 1) (V 2) (V 3)),
   (w3 0x14710300 0x40008000 0x00000000, .and (hV 3) false (V 1) (V 2)),
   (w3 0x15710600 0x80010000 0x00000001, .or (hV 6) true (V 2) (V 4)),
   (w3 0x16710300 0x40E44000 0x00000000, .xor (hV 3) false (V 1) (K 0x91)),
   (w3 0x17710300 0x40000000 0x00000000, .not (hV 3) false (V 1)),
   (w3 0x18710400 0x40008000 0xC00000E8, .bool3 (hV 4) false 0xE8 (V 1) (V 2) (V 3))]
theorem test_words_integers : decodes words_integers = true := by decide +kernel

def words_shifts : List (IWord × Instr) :=
  [(w3 0x19710300 0x40008000 0x00000000, .shl (hV 3) false (V 1) (V 2)),
   (w3 0x1A710600 0x80010000 0x00000001, .shr (hV 6) true (V 2) (V 4)),
   (w3 0x1B710300 0x40C14000 0x00000000, .sar (hV 3) false (V 1) (K 5)),
   (w3 0x1C710300 0x40008000 0x00000000, .rot (hV 3) false (V 1) (V 2)),
   (w3 0x1D710400 0x40008000 0xC0000000, .fshl (hV 4) (V 1) (V 2) (V 3)),
   (w3 0x1E710400 0x40008000 0xC0000000, .fshr (hV 4) (V 1) (V 2) (V 3)),
   (w3 0x1F710400 0x40008000 0xC0340000, .bfe (hV 4) .n32 (V 1) (V 2) (V 3)),
   (w3 0x20710400 0x40008000 0xC0000000, .bfi (hV 4) (V 1) (V 2) (V 3)),
   (w3 0x21710300 0x40000000 0x00000000, .popc (hV 3) false (V 1)),
   (w3 0x22710400 0x80000000 0x00000001, .clz (hV 4) true (V 2)),
   (w3 0x23710300 0x40000000 0x00000000, .ctz (hV 3) false (V 1)),
   (w3 0x24710300 0x40000000 0x00000000, .brev (hV 3) false (V 1)),
   (w3 0x25710400 0x40008000 0xC0000000, .bperm (hV 4) (V 1) (V 2) (V 3)),
   (w3 0x26730300 0x40008000 0x0024CB00, .ipred (hP 3) .lt .or .s32 ⟨true, 3⟩ (V 1) (V 2)),
   (w3 0x27710300 0x40008000 0x0050D700, .icmp (hV 3) .ge .n32 (V 1) (V 2)),
   (w3 0x28710600 0x80010000 0x00000043, .lea (hV 6) 3 true (V 2) (V 4)),
   (w3 0x29710300 0x40000000 0x00000008, .sxt (hV 3) 8 (V 1)),
   (w3 0x2A710300 0x40000000 0x00000020, .zxt (hV 3) 32 (V 1))]
theorem test_words_shifts : decodes words_shifts = true := by decide +kernel

def words_control : List (IWord × Instr) :=
  [(w3 0x30A000FF 0xFFFFFB00 0x00000000, .bra { hN with guard := ⟨true, 2⟩ } 0x1FFFFFFF 3),
   (w3 0x31700000 0x40408000 0x00000004, .brx hN 4 (V 1) (S 2)),
   (w3 0x32700000 0x80000000 0x00000000, .jmp hN (V 2)),
   (w3 0x33710200 0x00000800 0x00000000, .call (hV 2) 1 0),
   (w3 0x34710201 0x00000000 0x00000000, .callx (hV 2) (V 4)),
   (w3 0x35780040 0x80000000 0x00000000, .ret { hN with u := true } (S 2)),
   (w3 0x36700000 0x00000000 0x00000000, .exit hN),
   (w3 0x37700020 0x50400000 0x00800000, .regn ⟨0, 8⟩ ⟨20, 4⟩ ⟨0, 0⟩ ⟨0, 0⟩ true),
   (w3 0x38700000 0x00000000 0x00000000, .yield hN),
   (w3 0x397000CF 0xC0000000 0x00000000, .sleep hN (K 63)),
   (w3 0x3A700001 0x40000000 0x00000000, .wait hN (some (V 5))),
   (w3 0x3A700000 0x00000000 0x00000001, .wait hN none),
   (w3 0x3B750800 0x00001101 0x00000002, .rcall { hV 8 with ws := true } 2 2 1 (V 4)),
   (w3 0x3C750800 0x00000000 0x00000002, .rret { hV 8 with ws := true } 2),
   (w3 0x3D700000 0x00000000 0x07000000, .bkpt hN 7),
   (w3 0x3E700000 0x00000001 0x00000000, .trap hN 0x100),
   (w3 0x3F700000 0x00000000 0x00000002, .rte hN .region)]
theorem test_words_control : decodes words_control = true := by decide +kernel

def words_lanes : List (IWord × Instr) :=
  [(w3 0x40730400 0x00000000 0x00927080, .pbool (hP 4) ⟨true, 1⟩ ⟨false, 2⟩ ⟨false, 7⟩ 0x80),
   (w3 0x41710300 0x00000000 0x00000000, .pmov (hV 3) 0 none),
   (w3 0x41700000 0xC0000000 0x00005501, .pmov hN 0x55 (some (V 3))),
   (w3 0x42710300 0x00000000 0x000000A2, .poll (hV 3) .mask ⟨true, 2⟩),
   (w3 0x43710300 0x40008000 0x00000003, .lxch (hV 3) .flip false (V 1) (V 2)),
   (w3 0x44710300 0x40000000 0x00008000, .lred (hV 3) .f32 .rtz .add (V 1)),
   (w3 0x45710300 0x40000000 0x00340012, .lscan (hV 3) .n32 .rne true .max (V 1)),
   (w3 0x46710300 0x40000000 0x00000001, .peers (hV 3) true false (V 1)),
   (w3 0x47730500 0x00000000 0x00000000, .lead (hP 5)),
   (w3 0x487000C0 0xC0000000 0x00000000, .partset hN (K 3)),
   (w3 0x49710600 0x80010000 0x00000001, .lperm (hV 6) true (V 2) (V 4)),
   (w3 0x4A710300 0x40000000 0x00000003, .had (hV 3) true true (V 1))]
theorem test_words_lanes : decodes words_lanes = true := by decide +kernel

def words_floats : List (IWord × Instr) :=
  [(w3 0x50710300 0x40E08000 0x00200000, .fadd (hV 3) .rtz (V 1) (K 0x82)),
   (w3 0x51710300 0x40E08000 0x00200000, .fsub (hV 3) .rtz (V 1) (K 0x82)),
   (w3 0x52710300 0x40E08000 0x00200000, .fmul (hV 3) .rtz (V 1) (K 0x82)),
   (w3 0x53710400 0x40008000 0xC2A00000, .ffma (hV 4) .rdyn (V 1) (V 2) { V 3 with neg := true }),
   (w3 0x54710300 0x40008000 0x00000000, .fmin (hV 3) (V 1) (V 2)),
   (w3 0x55710300 0x40008000 0x00000000, .fmax (hV 3) (V 1) (V 2)),
   (w3 0x56710300 0x40008000 0x00000000, .fminn (hV 3) (V 1) (V 2)),
   (w3 0x57710300 0x40008000 0x00000000, .fmaxn (hV 3) (V 1) (V 2)),
   (w3 0x5E710300 0x40008000 0x00000000, .fcopysign (hV 3) (V 1) (V 2)),
   (w3 0x58730300 0x40008000 0x00780100, .fpred (hP 3) .nan .xor ⟨false, 1⟩ (V 1) (V 2)),
   (w3 0x59710300 0x40008000 0x00200700, .fcmp (hV 3) .lt (V 1) (V 2)),
   (w3 0x5A710300 0x40000000 0x00000000, .fclass (hV 3) (V 1)),
   (w3 0x5B710300 0x40000000 0x00400000, .frnd (hV 3) .rdn (V 1)),
   (w3 0x5C710300 0x40008000 0x00000000, .fscale (hV 3) .rne (V 1) (V 2)),
   (w3 0x5D710300 0x40000000 0x00000000, .fexp (hV 3) (V 1)),
   (w3 0x60710300 0x40008000 0x00600000, .pkaddh (hV 3) .rup (V 1) (V 2)),
   (w3 0x61710300 0x40008000 0x00600000, .pkmulh (hV 3) .rup (V 1) (V 2)),
   (w3 0x62710400 0x40008000 0xC0800000, .pkfmah (hV 4) .rna (V 1) (V 2) (V 3)),
   (w3 0x63710400 0x40008000 0xC0800000, .pkfmab (hV 4) .rna (V 1) (V 2) (V 3)),
   (w3 0x64710400 0x40008000 0xC0100000, .pkdoth (hV 4) .rne true (V 1) (V 2) (V 3)),
   (w3 0x65710400 0x40008000 0xC0EE2200, .b8dot4 (hV 4) (.b8 true true 3) (.b8 false false 2) .rtz (V 1) (V 2) (V 3)),
   (w3 0x66710600 0x80010000 0x00000000, .dadd (hV 6) .rne (V 2) (V 4)),
   (w3 0x67710600 0x80010000 0x00000000, .dmul (hV 6) .rne (V 2) (V 4)),
   (w3 0x68710600 0x80010002 0x00000000, .dfma (hV 6) .rne (V 2) (V 4) (V 8)),
   (w3 0x69730100 0x80010000 0x00600700, .dpred (hP 1) .num .and ⟨false, 7⟩ (V 2) (V 4))]
theorem test_words_floats : decodes words_floats = true := by decide +kernel

def words_conversions : List (IWord × Instr) :=
  [(w3 0x70710300 0x40000000 0x00300380, .cvt (hV 3) .s32 .f32 .rtz .trap (V 1)),
   (w3 0x71710300 0x40000000 0x0002B068, .cvtc (hV 3) .f32 (.b8 false true 3) .rne .sat true 5 (V 1)),
   (w3 0x72710400 0x40008000 0xC0EC0481, .pack8 (hV 4) (.b8 true true 3) .rdn .inf true (V 1) (V 2) (V 3)),
   (w3 0x73710300 0x40000000 0x0002B003, .unpack8 (hV 3) (.b8 false true 3) 3 (V 1)),
   (w3 0x74710300 0x40000000 0x00000000, .rcp (hV 3) (V 1)),
   (w3 0x75710300 0x40000000 0x00000000, .rsq (hV 3) (V 1)),
   (w3 0x77710300 0x40000000 0x00000000, .exp2 (hV 3) (V 1)),
   (w3 0x78710300 0x40000000 0x00000000, .log2 (hV 3) (V 1)),
   (w3 0x79710300 0x40000000 0x00000000, .sin (hV 3) (V 1)),
   (w3 0x7A710300 0x40000000 0x00000000, .cos (hV 3) (V 1)),
   (w3 0x7B710300 0x40000000 0x00000000, .tanh (hV 3) (V 1)),
   (w3 0x7C710300 0x40000000 0x00000000, .sigm (hV 3) (V 1)),
   (w3 0x76710300 0x40000000 0x00600000, .sqrt (hV 3) .rup (V 1)),
   (w3 0x7D710300 0x40000000 0x00000006, .act (hV 3) 6 (V 1))]
theorem test_words_conversions : decodes words_conversions = true := by decide +kernel

def words_memory : List (IWord × Instr) :=
  [(w3 0x80710400 0x800000FF 0xFFF8024D, .ld (hV 4) (V 2) 0xFFFFF8 ⟨.w64, .global, .acq, .group, .dflt, .c⟩),
   (w3 0x81700040 0x80020000 0x0040F596, .st hN (S 2) (V 8) 0x40 ⟨.w128, .localw, .rel, .sys, .keep, .h⟩),
   (w3 0x82720540 0x80000000 0x00040804, .ldu (hS 5) (S 2) 4 ⟨.w32, .generic, .plain, .warp, .stream, .c⟩),
   (w3 0x83710500 0x80000000 0x00001819, .lda (hV 5) (V 2) 0 ⟨.s8, .groupw, .plain, .warp, .nol1, .c⟩),
   (w3 0x84700000 0x80000000 0x00000000, .pref hN (V 2) 0 ⟨.n8, .generic, .plain, .warp, .dflt, .c⟩),
   (w3 0x85780040 0x80000000 0x00000007, .ipref { hN with u := true } 7 (S 2)),
   (w3 0x86700000 0x80000000 0x08000000, .l1Inv hN (V 2) 8 ⟨.n8, .generic, .plain, .warp, .dflt, .c⟩),
   (w3 0x86700000 0x80000000 0x08020000, .l2Wb hN (V 2) 8 ⟨.n8, .generic, .plain, .warp, .dflt, .c⟩),
   (w3 0x86700000 0x80000000 0x08030000, .l2WbInv hN (V 2) 8 ⟨.n8, .generic, .plain, .warp, .dflt, .c⟩),
   (w3 0x86700000 0x80000000 0x08040000, .icInv hN (V 2) 8 ⟨.n8, .generic, .plain, .warp, .dflt, .c⟩),
   (w3 0x86700000 0x00000000 0x00010000, .l1InvAll hN ⟨.n8, .generic, .plain, .warp, .dflt, .c⟩),
   (w3 0x86700000 0x00000000 0x00050000, .icInvAll hN ⟨.n8, .generic, .plain, .warp, .dflt, .c⟩),
   (w3 0x87710300 0x80014000 0x049404CC, .atom (hV 3) .fadd .f32 (V 2) (V 5) 4 ⟨.w32, .global, .acqrel, .dev, .dflt, .c⟩),
   (w3 0x88710800 0x80010000 0x0002000D, .atomc (hV 8) .n64 (V 2) (V 4) 0 ⟨.w64, .global, .plain, .warp, .dflt, .c⟩),
   (w3 0x89700000 0x800140FF 0xFC11000C, .red hN .min .s32 (V 2) (V 5) 0xFFFC ⟨.w32, .global, .plain, .warp, .dflt, .c⟩),
   (w3 0x8A700000 0x00000000 0x0000106C, .fence hN .dev .acq 0x83),
   (w3 0x8B700040 0x80C04000 0x0030034C, .watch hN .ge .n32 (S 2) (K 1) 0 ⟨.w32, .global, .acq, .slice, .dflt, .c⟩)]
theorem test_words_memory : decodes words_memory = true := by decide +kernel

def words_barriers : List (IWord × Instr) :=
  [(w3 0x90700040 0x8000C000 0x00000000, .bari hN (S 2) (V 3)),
   (w3 0x91710340 0x80000000 0x0000000B, .bara (hV 3) true 5 (S 2) none),
   (w3 0x917A0340 0x80C10000 0x00000000, .bara (hU 3) false 0 (S 2) (some (K 4))),
   (w3 0x92730140 0x8000C001 0x00000000, .barw (hP 1) (S 2) (V 3) (V 4)),
   (w3 0x93710340 0x80000001 0x00000000, .bart (hV 3) false 0 (S 2) none (V 4)),
   (w3 0x94700000 0x00000000 0x00000000, .tbar hN),
   (w3 0x957A04C0 0x80000000 0x00000000, .gjoin (hU 4) (K 2)),
   (w3 0x967000C0 0x80000000 0x00000000, .gleave hN (K 2)),
   (w3 0x977000C0 0x80000000 0x00000000, .gbar hN (K 2)),
   (w3 0x987104C0 0x80000000 0x00000003, .gqry (hV 4) .maskhi (K 2))]
theorem test_words_barriers : decodes words_barriers = true := by decide +kernel

def words_engines : List (IWord × Instr) :=
  [(w3 0xA0710440 0x80000000 0x00000013, .cpy (hV 4) 3 2 false (S 2)),
   (w3 0xA0700040 0x80000000 0x00000020, .cpy hN 0 0 true (S 2)),
   (w3 0xA1720400 0x00000000 0x0000001F, .cpyw (hS 4) 7 3),
   (w3 0xA2700000 0x00000000 0x00000009, .cpyc hN 1 1),
   (w3 0xA3710300 0x40008000 0x00000000, .tsub (hV 3) (V 1) (V 2)),
   (w3 0xA4720440 0xC0000000 0x00000000, .tokenQuery (hS 4) (S 3)),
   (w3 0xA4720440 0xC0000000 0x00000001, .tokenSignal (hS 4) (S 3)),
   (w3 0xA4720440 0xC0000000 0x00000002, .tokenCancel (hS 4) (S 3)),
   (w3 0xA57000C0 0xC0020000 0x00000007, .capp hN 7 (K 3) (V 8)),
   (w3 0xA67204C0 0x40000000 0x00000000, .quies (hS 4) (K 1)),
   (w3 0xA7710440 0x80C20000 0x00000000, .dcmp (hV 4) (S 2) (K 8)),
   (w3 0xA8700040 0x80000000 0x0000000D, .tbld hN 5 true (S 2))]
theorem test_words_engines : decodes words_engines = true := by decide +kernel

def words_graphics : List (IWord × Instr) :=
  [(w3 0xB0710800 0x40410000 0xC00000C9, .tex (hV 8) .lod true .d2 3 (V 1) (S 4) (some (V 3))),
   (w3 0xB0710800 0x40410000 0x00000010, .tex (hV 8) .implicit false .d3 0 (V 1) (S 4) none),
   (w3 0xB1710800 0x404100C0 0x00000070, .tld (hV 8) .d2arr 1 (V 1) (S 4) (K 0)),
   (w3 0xB2710800 0x004100C0 0x00000002, .tqry (hV 8) .fmt (S 4) (K 0)),
   (w3 0xB3711002 0x00410000 0x00000003, .trace (hV 16) true true (V 8) (S 4)),
   (w3 0xB4710804 0x00000000 0x00000004, .thit (hV 8) .leaf (V 16)),
   (w3 0xB5720500 0x00000000 0x00000000, .ringAcquire (hS 5)),
   (w3 0xB5700000 0x00414000 0x00000001, .ringRelease hN (S 5)),
   (w3 0xB6700002 0x00414000 0x00000007, .emit hN true 3 (V 8) (S 5)),
   (w3 0xB7710800 0x00000000 0x00000002, .vrd (hV 8) .deriv),
   (w3 0xB8700001 0x00000000 0x00000000, .pxw hN (V 4))]
theorem test_words_graphics : decodes words_graphics = true := by decide +kernel

def words_system : List (IWord × Instr) :=
  [(w3 0xC0710404 0x00000000 0x00000001, .rcq (hV 4) true (V 16)),
   (w3 0xC1700001 0xC0020000 0x00000000, .rct hN (V 7) (V 8)),
   (w3 0xC27000C1 0x00000000 0x00000000, .rcstep hN (K 4)),
   (w3 0xC3700000 0x00000000 0x00000000, .rcpub hN),
   (w3 0xC4700040 0x80000000 0x00000001, .rcrd hN true (S 2)),
   (w3 0xC5700040 0x80000000 0x00000000, .rccfg hN (S 2)),
   (w3 0xC8700041 0x80C08042 0x00000001, .gcfg hN true (S 6) (K 2) (S 8)),
   (w3 0xC9700040 0x80000000 0x00000000, .gld hN (S 2)),
   (w3 0xCA700040 0x80000000 0x00000000, .gclmp hN (S 2)),
   (w3 0xCB7104C2 0x40000000 0x00000000, .gswp (hV 4) (K 9)),
   (w3 0xCC700040 0x80000000 0x00000002, .grd hN .both (S 2)),
   (w3 0xCD720400 0x00000000 0x00000000, .gstat (hS 4)),
   (w3 0xD1700041 0x00000000 0x00000006, .mts hN 0x06 (S 4)),
   (w3 0xD2700000 0x00FFFFFF 0xFF000000, .esc hN 0xFFFFFFFF),
   (w3 0xD0710400 0x00000000 0x0000000E, .mfs (hV 4) 0x0E),
   (w3 0xD0720400 0x00000000 0x00000009, .mfs (hS 4) 0x09)]
theorem test_words_system : decodes words_system = true := by decide +kernel

/-- Words that a check of R92 to R114 refuses, in the order of its codes where one word serves each: reserved major, LD has no uniform form, vector source in a uniform form, REGN guarded, WS with DK = 0, IADD without a destination
and so on. -/
theorem test_refused_words : refused
  [(w3 0x2B700000 0x00000000 0x00000000, 1),
   (w3 0x807A0440 0x80000000 0x00000004, 2),
   (w3 0x047A0400 0x40408000 0x00000000, 2),
   (w3 0x37600020 0x00000000 0x00000000, 3),
   (w3 0x00740000 0x00000000 0x00000000, 4),
   (w3 0x04700000 0x40008000 0x00000000, 5),
   (w3 0x00700100 0x00000000 0x00000000, 6),
   (w3 0x26730800 0x40008000 0x0000C700, 6),
   (w3 0x06710500 0x80010000 0x00000000, 6),
   (w3 0x047A4040 0x40408000 0x00000000, 6),
   (w3 0x04710400 0x7C008000 0x00000000, 7),
   (w3 0x04710400 0x40E48000 0x00000000, 8),
   (w3 0x04710400 0x40E08000 0x00000000, 8),
   (w3 0x04710400 0x40C0C400 0x00000000, 8),
   (w3 0x01710400 0x42000000 0x00000000, 7),
   (w3 0x06710600 0xC0010000 0x00000000, 7),
   (w3 0x04710450 0x00008000 0x00000000, 7),
   (w3 0x04710481 0x40008000 0x00000000, 7),
   (w3 0x06710480 0x40008000 0x00000000, 21),
   (w3 0x04710400 0x40008000 0xC0000000, 9),
   (w3 0x807104C0 0xC0000000 0x00000004, 7),
   (w3 0x657104C0 0xC0008000 0xC0EFB000, 7),
   (w3 0x65710400 0x40008200 0xC0EE2000, 8),
   (w3 0x04710400 0x40008000 0x00000001, 10),
   (w3 0x0C710400 0x40008000 0x00000000, 10),
   (w3 0x0C710400 0x40008000 0x00100000, 10),
   (w3 0x50710400 0x40008000 0x00C00000, 10),
   (w3 0x29710400 0x40000000 0x00000021, 10),
   (w3 0x31700000 0x40408000 0x00000000, 10),
   (w3 0x80710400 0x80000000 0x00000007, 13),
   (w3 0x80710400 0x80000000 0x00000084, 13),
   (w3 0x80710400 0x80000000 0x00002004, 13),
   (w3 0x80710400 0x80000000 0x00000024, 13),
   (w3 0x86700000 0x80000000 0x00060000, 14),
   (w3 0x89700000 0x80010000 0x00600004, 14),
   (w3 0x87710400 0x80010000 0x00000005, 13),
   (w3 0x30700000 0x00000500 0x00000000, 15),
   (w3 0x37700300 0x00000000 0x00000000, 16),
   (w3 0x37700000 0x0000003E 0x88000000, 19),
   (w3 0x3B710800 0x00000001 0x00000000, 4),
   (w3 0x91710340 0x8000C000 0x00000000, 8),
   (w3 0xB0710800 0x40410000 0xC0000013, 10),
   (w3 0xB6700002 0x00414000 0x00000006, 10),
   (w3 0xD0710400 0x00000000 0x00000010, 10),
   (w3 0xD1700041 0x00000000 0x00000009, 10),
   (w3 0xD0720400 0x00000000 0x00000000, 5),
   (w3 0x41710400 0xC0000000 0x00000000, 7)] = true := by decide +kernel

/-- The checks on instructions as syntax: one term that each check refuses, and one that none does (03 R92-R98, R106-R113). -/
theorem test_wellformed : Instr.wellFormed (.iadd (hV 4) (V 1) (V 2)) = true
    ∧ Instr.wellFormed (.ld { hS 4 with u := true } (S 2) 0 ⟨.w32, .global, .plain, .warp, .dflt, .c⟩) = false
    ∧ Instr.wellFormed (.iadd (hU 4) (V 1) (S 2)) = false ∧ Instr.wellFormed (.nop { hN with ws := true }) = false
    ∧ Instr.wellFormed (.iadd hN (V 1) (V 2)) = false ∧ Instr.wellFormed (.iadd64 (hV 5) (V 2) (V 4)) = false
    ∧ Instr.wellFormed (.iadd (hU 64) (S 1) (S 2)) = false ∧ Instr.wellFormed (.lead (hP 8)) = false
    ∧ Instr.wellFormed (.iadd64 (hV 4) (V 3) (V 4)) = false ∧ Instr.wellFormed (.iadd (hV 4) (S 64) (V 4)) = false
    ∧ Instr.wellFormed (.iadd (hV 4) (K 0x92) (V 4)) = false ∧ Instr.wellFormed (.iadd (hV 4) (K 0x82) (V 4)) = false
    ∧ Instr.wellFormed (.iadd (hV 4) { K 1 with perm := .mirror } (V 4)) = false
    ∧ Instr.wellFormed (.mov (hV 4) false { V 1 with neg := true }) = false
    ∧ Instr.wellFormed (.iadd (hV 4) ⟨.latch 5, .none, false, false⟩ (V 4)) = false
    ∧ Instr.wellFormed (.ld (hV 4) (K 0) 0 ⟨.w32, .global, .plain, .warp, .dflt, .c⟩) = false
    ∧ Instr.wellFormed (.ld (hV 4) (V 2) 0 ⟨.w32, .global, .rel, .warp, .dflt, .c⟩) = false
    ∧ Instr.wellFormed (.imulh (hV 4) .s64 (V 1) (V 2)) = false ∧ Instr.wellFormed (.sxt (hV 4) 0 (V 1)) = false
    ∧ Instr.wellFormed (.red hN .exch .n32 (V 2) (V 4) 0 ⟨.w32, .global, .plain, .warp, .dflt, .c⟩) = false
    ∧ Instr.wellFormed (.atom (hV 4) .add .n64 (V 2) (V 4) 0 ⟨.w32, .global, .plain, .warp, .dflt, .c⟩) = false
    ∧ Instr.wellFormed (.bra hN 0 5) = false ∧ Instr.wellFormed (.regn ⟨250, 8⟩ ⟨0, 0⟩ ⟨0, 0⟩ ⟨0, 0⟩ false) = false
    ∧ Instr.wellFormed (.rcall (hV 8) 0 0 0 (V 1)) = false ∧ Instr.wellFormed (.mts hN 9 (S 4)) = false
    ∧ Instr.wellFormedIn 16 (.iadd (hV 16) (V 1) (V 2)) = false ∧ Instr.wellFormedIn 16 (.iadd (hV 15) (V 1) (V 2)) = true := by
  decide +kernel

/-! ### The worked line of 03 -/

/-- The 64 bytes of the worked line, as 03 prints them. -/
def workedLine : List Byte :=
  [0x51, 0x76, 0x00, 0x00, 0x00, 0x00, 0x00, 0x00, 0x00, 0x00, 0x00, 0x00, 0x20, 0x00, 0x70, 0x37,
   0x00, 0x00, 0x00, 0x00, 0x00, 0x88, 0x00, 0x40, 0x00, 0x04, 0x71, 0x04, 0x00, 0x00, 0x00, 0x00,
   0x00, 0xC0, 0x00, 0x40, 0x80, 0x05, 0x71, 0x05, 0x00, 0x00, 0x00, 0x00, 0x00, 0x00, 0x00, 0x00,
   0x00, 0x00, 0x70, 0x36, 0x00, 0x00, 0x00, 0x00, 0x00, 0x00, 0x00, 0x00, 0x00, 0x00, 0x70, 0x36]
/-- A line with its first bytes replaced. -/
def withHead (b : List Byte) : List Byte := b ++ workedLine.drop b.length
/-- What slot `i` of a line decodes to in a window of 16. -/
def slotOf (b : List Byte) (i : Nat) : Decoded := decodeSlot 16 (lineSlot b) (lineBind b) (lineMarked b) none i

/-- Its line word, its parities, and its five instructions. -/
theorem test_worked_line : lineWord workedLine = 0x7651 ∧ parityOk workedLine = true ∧ lineOk workedLine = true
    ∧ slotOf workedLine 0 = .ok (.regn ⟨0, 8⟩ ⟨0, 0⟩ ⟨0, 0⟩ ⟨0, 0⟩ false)
    ∧ slotOf workedLine 1 = .ok (.iadd (hV 4) (V 1) { V 2 with perm := .rot 1 })
    ∧ slotOf workedLine 2 = .ok (.isub (hV 5) ⟨.latch 1, .none, false, false⟩ (V 3))
    ∧ slotOf workedLine 3 = .ok (.exit hN) ∧ slotOf workedLine 4 = .ok (.exit hN) := by decide +kernel

/-- The four variants: TMASK bit 2 set, BIND bit 6 clear, PERM 15 in the IADD's B, one flipped bit of slot 1. -/
theorem test_worked_variants : lineOk (withHead [0x55, 0x76]) = false ∧ slotOf (withHead [0x11, 0x76]) 2 = .bad 21
    ∧ slotOf (workedLine.set 21 0xBC) 1 = .bad 8 ∧ parityOk (workedLine.set 17 0x01) = false := by decide +kernel

/-- A chained REGN must follow a REGN and stand in an unmarked slot (03 R103). -/
theorem test_chained_regn :
    let ws : Nat → IWord := fun k => if k ≤ 1 then w3 0x37700020 0 (if k = 1 then 0x00800000 else 0) else w3 0x36700000 0 0
    let late : Nat → IWord := fun k => if k = 2 then ws 1 else w3 0x36700000 0 0
    decodeSlot 16 ws (fun _ => false) (fun k => k == 0) none 1 = .ok (.regn ⟨0, 8⟩ ⟨0, 0⟩ ⟨0, 0⟩ ⟨0, 0⟩ true)
    ∧ decodeSlot 16 ws (fun _ => false) (fun k => k == 1) none 1 = .bad 20
    ∧ decodeSlot 16 late (fun _ => false) (fun _ => false) none 2 = .bad 20 := by decide +kernel

/-! ### Witnesses: states that meet the hypotheses of the statements

Each theorem below is named after the statement whose hypotheses its states and operands meet; `acts` says that an instruction is
ready with an active lane. -/

/-- A split of all lanes in slot 0 of the worked line, at 0x10004. -/
def sp0 : Split := { pc := 0x10004, mask := 0xFFFFFFFF, parts := [{ entry := 0x10004, mask := 0xFFFFFFFF }] }
def w0 : Warp := { n := 32, vregs := List.replicate 32 {}, trapvec := 0x10034, front := [sp0] }
def t0 : Team :=
  { id := 1, launch := 1, queue := 0, graph := 0, teamid := 0, cu := 0, pin := none, n := 32, scratchSize := 4096, warps := [w0] }
def x0 : Slice :=
  { lsl := 0, st := 1, teams := [t0]
    tlb := [{ vf := 0, cu := none, page := 0, size := 0x20000, pa := 0, w := true, x := true, ok := 0, nr := false }]
    icache := [{ cu := 0, pa := 0x10000, bytes := workedLine }] }
def s0 : State := { State.reset with slices := [x0], cur := some ⟨0, 1, 0, 0⟩, mem := Memory.writeBytes {} 0x10000 workedLine }
def r0 : WarpRef := ⟨0, 1, 0⟩
def q0 : SplitRef := ⟨0, 1, 0, 0⟩

/-- The state with its slice, its team, its warp or its split changed. -/
def sX (f : Slice → Slice) : State := s0.modSlice 0 f
def sT (f : Team → Team) : State := sX fun x => { x with teams := x.teams.map f }
def sW (f : Warp → Warp) : State := sT fun t => { t with warps := t.warps.map f }
def sS (f : Split → Split) : State := sW fun w => { w with front := w.front.map f }
/-- A warp with words in scalar registers, and with one word in all lanes of vector registers. -/
def sregs (l : List (Nat × Word)) (w : Warp) : Warp := { w with sregs := l.foldl (fun r e => r.set e.1 e.2) w.sregs }
def vregs (l : List (Nat × Word)) (w : Warp) : Warp :=
  { w with vregs := l.foldl (fun r e => r.set e.1 { words := List.replicate 32 e.2 }) w.vregs }
def one : Split → Split := fun p => { p with mask := 1 }

def met (i : Instr) (s : State) (p : View → Mask → Bool) : Bool := match ready i s with | some (v, a) => p v a | none => false
def acts (i : Instr) (s : State) : Bool := met i s fun _ a => a != 0
/-- The instruction acts, with an operand condition. -/
def actsIf (i : Instr) (s : State) (p : View → Mask → Bool) : Bool := met i s fun v a => a != 0 && p v a
def never (h : Hdr) : Hdr := { h with guard := ⟨true, 7⟩ }
def idles (i : Instr) (s : State) : Bool := met i s fun _ a => a == 0
def isOk {ε α : Type} : Except ε α → Bool | .ok _ => true | _ => false

/-- Every instruction of the word lists is ready in the one state: the statements' only hypothesis for most of them. -/
theorem witness_ready : (words_shifts ++ words_control).all (acts ·.2 s0) = true
    ∧ words_integers.all (acts ·.2 (sS fun p => { p with run := some { latches := [(1, List.replicate 32 0)] } })) = true
    ∧ (words_floats ++ words_conversions ++ words_memory).all (acts ·.2 s0) = true := by decide +kernel
theorem witness_ready_more : (words_lanes ++ words_barriers ++ words_engines).all (acts ·.2 s0) = true
    ∧ (words_graphics ++ words_system).all (acts ·.2 s0) = true := by decide +kernel
/-- With a guard that holds in no lane an instruction is ready too, and no lane is active. -/
theorem witness_guard_false : idles (.iadd (never (hV 4)) (V 1) (V 2)) s0 = true ∧ idles (.st (never hN) (S 2) (V 8) 0 ⟨.w32, .global, .plain, .warp, .dflt, .c⟩) s0 = true
    ∧ idles (.trap (never hN) 1) s0 = true := by decide +kernel

/-- Where every trap is disabled and no lane meets a range event, an operation is quiet. -/
theorem quiet_of_disabled (w : Warp) (h : Hdr) (act : Mask) (out : Nat → AluOut) (he : w.enables = 0) (ho : ∀ l, (out l).event = false) :
    Quiet w h act out := fun l _ => ⟨ho l, by rw [he]; exact BitVec.and_zero⟩
theorem ofW_event (x : Word × Flags) : (ofW x).event = false := rfl
/-- The hypothesis of the floating-point statements, met by FADD in the state of the others. -/
theorem witness_quiet : ∀ v act, ready (.fadd (hV 3) .rne (V 1) (V 2)) s0 = some (v, act) → v.wp.enables = 0 →
    Quiet v.wp (hV 3) act (out2 fadd32 .rne (.fadd (hV 3) .rne (V 1) (V 2)) v act) :=
  fun v act _ he => quiet_of_disabled v.wp _ act _ he fun _ => ofW_event _
theorem witness_disabled : actsIf (.fadd (hV 3) .rne (V 1) (V 2)) s0 (fun v _ => v.wp.enables == 0) = true
    ∧ actsIf (.idiv (hV 3) .s32 (V 1) (V 2)) s0 (fun v _ => v.wp.enables == 0) = true
    ∧ actsIf (.cvt (hV 3) .s32 .f32 .rtz .trap (V 1)) s0 (fun v act => (execLanes (hV 3) act).all fun l =>
        !(convert .s32 .rtz .trap false (valueOf .f32 (longA (.cvt (hV 3) .s32 .f32 .rtz .trap (V 1)) v act l).toNat)).event) = true := by
  decide +kernel

/-- The premises of the pure clauses on integers hold at the ends of their ranges. -/
theorem witness_integer_ranges : (64 ≤ 64 ∧ 63 < 64) ∧ Ty.n64 ∈ Sig.sn64 ∧ Ty.s32 ∈ Sig.sn64 ∧ Cond.ge ≠ .num ∧ Cond.ge ≠ .nan
    ∧ 1 ≤ (1 : BitVec 6).toNat ∧ (32 : BitVec 6).toNat ≤ 32 := by decide

/-- SoftmaxIdiomCompletes: the registers full and clean, no bound run. -/
theorem witness_softmax : ∃ v, s0.view = some v ∧ v.wp.enables = 0 ∧ v.wp.readP false 7 = none ∧ (idiomRun s0 v).isNone = true
    ∧ (∀ r ∈ ([1, 2, 3, 4, 5] : List Nat), (v.wp.vget r).tag = .full) ∧ (v.wp.vget 1).bad = 0 :=
  ⟨{ cur := ⟨0, 1, 0, 0⟩, sl := x0, tm := t0, wp := w0, sp := sp0 }, rfl, by decide, by decide, by decide +kernel, by decide, by decide⟩

/-- FpExceptionTraps: an enabled invalid operation of FADD, and a conversion out of range under policy TRAP. -/
theorem witness_fp_traps :
    (let s := sW fun w => { vregs [(1, 0x7F800000), (2, 0xFF800000)] w with fpctl := 0x7E0 }
     let i := Instr.fadd (hV 3) .rne (V 1) (V 2)
     actsIf i s fun v act => v.wp.enables.getLsbD 0 && (out2 fadd32 .rne i v act 0).fl.getLsbD 0 && !(out2 fadd32 .rne i v act 0).event
       && (execLanes (hV 3) act).head? == some 0) = true
    ∧ (let s := sW (vregs [(1, 0x7149F2CA)])
       let i := Instr.cvt (hV 3) .s32 .f32 .rtz .trap (V 1)
       actsIf i s fun v act => (convert .s32 .rtz .trap false (valueOf .f32 (longA i v act 0).toNat)).event
         && (execLanes (hV 3) act).head? == some 0) = true := by decide +kernel

/-- PARTSET at the ends of its range and beyond both; exchanges with a readable source; HAD that fits and one that does not. -/
theorem witness_lanes :
    actsIf (.partset hN (K 1)) s0 (fun v a => longA (.partset hN (K 1)) v a 0 == 1) = true
    ∧ actsIf (.partset hN (K 5)) s0 (fun v a => longA (.partset hN (K 5)) v a 0 == 5) = true
    ∧ actsIf (.partset hN (K 0)) s0 (fun v a => longA (.partset hN (K 0)) v a 0 == 0) = true
    ∧ actsIf (.partset hN (K 6)) s0 (fun v a => longA (.partset hN (K 6)) v a 0 == 6) = true
    ∧ (let i := Instr.lxch (hV 3) .flip false (V 1) (V 2)
       actsIf i s0 fun v a => match srcOf i 0 with
         | some x => (v.wp.readSrc v.sp.run (maskOf fun k => (laneList a).any fun l => exchangeLane v.wp .flip l (wordB i v a l).toNat == k) x).isNone
         | none => false) = true
    ∧ (let i := Instr.lperm (hV 3) false (V 1) (V 2)
       actsIf i s0 fun v a => match srcOf i 0 with
         | some x => (v.wp.readSrc v.sp.run (maskOf fun k => (laneList a).any fun l =>
             l / 2 ^ v.wp.part * 2 ^ v.wp.part + (wordB i v a l).toNat % 2 ^ v.wp.part == k) x).isNone
         | none => false) = true
    ∧ actsIf (.had (hV 3) true false (V 1)) s0 (fun v _ => 32 ≤ 2 ^ v.wp.part && v.wp.enables == 0) = true
    ∧ actsIf (.had (hV 3) false false (V 1)) (sW fun w => { w with part := 3 }) (fun v _ => decide (2 ^ v.wp.part < 16)) = true
    ∧ actsIf (.lred (hV 3) .n32 .rne .max (V 1)) s0 (fun v _ => v.wp.part ≤ 5) = true
    ∧ actsIf (.poll (hS 3) .mask ⟨false, 1⟩) s0 (fun _ _ => true) = true := by decide +kernel

/-- What BRX and the loads need: every address resolves, and every datum is read, through L1 or at its home. -/
def readsIn (i : Instr) (s : State) (u : Bool) (n : Nat) (sp : Space) (eas : View → Mask → List (Nat × DWord)) : Bool :=
  actsIf i s fun v a => match s.resolveAll v u n sp .move false (eas v a) with
    | .ok xs => [Through.l1, .home].all fun th => (match s.readAll v u n th xs with | (s1, .ok _) => { s1 with l1 := s.l1 } == s | _ => false)
    | _ => false

/-- Transfers: a table at an aligned address, at a misaligned one; a line-relative target. -/
theorem witness_transfers :
    (let i := Instr.brx hN 4 (V 1) (S 2)
     readsIn i s0 false 8 .generic fun v a => ((execLanes hN a).filter fun l => (wordA i v a l).toNat < 4).map fun l =>
       (l, longB i v a (leadLane a) + BitVec.ofNat 64 (8 * (wordA i v a l).toNat))) = true
    ∧ actsIf (.brx hN 4 (V 1) (S 2)) s0 (fun v a => (longB (.brx hN 4 (V 1) (S 2)) v a 0).toNat % 8 == 0) = true
    ∧ actsIf (.brx hN 4 (V 1) (S 2)) (sW (sregs [(2, 4)])) (fun v a => (longB (.brx hN 4 (V 1) (S 2)) v a 0).toNat % 8 != 0) = true
    ∧ idles (.brx (never hN) 4 (V 1) (S 2)) s0 = true ∧ ((0x10000 : DWord).toNat % 64 = 0 ∧ 4 < 5) := by decide +kernel

/-- RegionEntries and Waits: EXIT with and without lanes; SLEEP of 0 and of 63; WAIT with nothing and with something pending. -/
theorem witness_regions_and_waits :
    idles (.exit (never hN)) s0 = true ∧ acts (.exit hN) s0 = true ∧ acts (.regn ⟨0, 8⟩ ⟨0, 0⟩ ⟨0, 0⟩ ⟨0, 0⟩ true) s0 = true
    ∧ actsIf (.sleep hN (K 0)) s0 (fun v a => (execLanes hN a).all fun l => wordA (.sleep hN (K 0)) v a l == 0) = true
    ∧ actsIf (.sleep hN (K 63)) s0 (fun v a => (execLanes hN a).all (fun l => (wordA (.sleep hN (K 63)) v a l).toNat == 63) && !(execLanes hN a).isEmpty) = true
    ∧ actsIf (.wait hN none) s0 (fun v _ => v.wp.vregs.all (·.tag != .pending)) = true
    ∧ actsIf (.wait hN (some (V 5))) s0 (fun v _ => (v.wp.vget 5).tag != .pending) = true
    ∧ (let s := sW fun w => { w with vregs := w.vregs.set 5 { tag := .pending } }
       actsIf (.wait hN none) s (fun v _ => v.wp.vregs.any (·.tag == .pending)) = true
       ∧ actsIf (.wait hN (some (V 5))) s (fun v _ => (v.wp.vget 5).tag == .pending) = true) := by decide +kernel

/-- RegroupedCalls: an empty and a full return stack, a marked target, room in the pool, a handler. -/
theorem witness_calls :
    let h : Hdr := { hV 8 with ws := true }
    (let i := Instr.rcall h 2 0 4 (V 4)
     actsIf i s0 fun v a => v.wp.handler.isNone && (laneList a).all (fun l => (v.wp.returns.getD l []).length < 8)
       && (s0.checkTarget v (jTarget v.sp.pc 0 4)).isNone
       && (v.sl.append ((laneList a).map fun l => .regroup (regroupKey v l (jTarget v.sp.pc 0 4) (wordA i v a l))
            (callRec s0 v l h 2 (nextPc v.sp.pc :: v.wp.returns.getD l [])))).isSome) = true
    ∧ (let s := sW fun w => { w with returns := List.replicate 32 [0x10034] }
       actsIf (.rret h 2) s fun v a => (laneList a).all (fun l => v.wp.returns.getD l [] != [])
         && (v.sl.append ((laneList a).map fun l => .regroup (regroupKey v l ((v.wp.returns.getD l []).headD 0) 0)
              (callRec s v l h 2 (v.wp.returns.getD l []).tail))).isSome) = true
    ∧ actsIf (.rcall h 2 0 4 (V 4)) (sW fun w => { w with returns := List.replicate 32 (List.replicate 8 0) })
        (fun v a => (laneList a).any fun l => 8 ≤ (v.wp.returns.getD l []).length) = true
    ∧ actsIf (.rret h 2) s0 (fun v a => (laneList a).any fun l => v.wp.returns.getD l [] == []) = true := by decide +kernel

def h0 : Handler := { mask := 0xFFFFFFFF, parts := [{ entry := 0x10004, mask := 0xFFFFFFFF }], frozenFront := [], frozenWait := [] }
/-- TrapEntry, DoubleFaultEndsWarp and HandlerReturn: a warp with a vector, without one with an empty and a full mailbox, in a handler, and the
handler's last split. -/
theorem witness_traps :
    (match s0.view with | some v => v.wp.handler.isNone && v.wp.trapvec != 0 | none => false) = true
    ∧ (match (sW fun w => { w with trapvec := 0 }).view with | some v => v.wp.trapvec == 0 && v.sp.hold == .none && v.sl.escs.length < 64 | none => false) = true
    ∧ (let e : EscRec := { warp := r0, lane := 0, addr := 0, code := 0, inHandler := false, trappc := 0, cause := 0, info := 0 }
       match ((sW fun w => { w with trapvec := 0 }).modSlice 0 fun x => { x with escs := List.replicate 64 e }).view with
       | some v => v.wp.trapvec == 0 && v.wp.handler.isNone && 64 ≤ v.sl.escs.length | none => false) = true
    ∧ acts (.trap hN 0x123) s0 = true ∧ acts (.bkpt hN 7) s0 = true ∧ idles (.bkpt (never hN) 7) s0 = true
    ∧ (match (sW fun w => { w with handler := some h0 }).view with
       | some v => v.wp.handler.isSome && !v.wp.ended && v.sl.faultLog.length < 256 | none => false) = true
    ∧ actsIf (.rte hN .retry) s0 (fun v _ => v.wp.handler.isNone) = true
    ∧ actsIf (.rte hN .skip) (sW fun w => { w with handler := some h0 })
        (fun v a => a == v.sp.mask && v.wp.front == [v.sp] && v.wp.wait.isEmpty && v.wp.handler == some h0 && !h0.noVec) = true
    ∧ actsIf (.rte hN .region) (sW fun w => { w with handler := some h0, front := [{ sp0 with mask := 1 }, { sp0 with mask := 2, pc := 0x10010 }] })
        (fun v a => a == v.sp.mask && (v.wp.front.eraseIdx 0).any fun p => p.hold == .none) = true
    ∧ actsIf (.rte { hN with guard := ⟨false, 1⟩ } .skip) (sW fun w => { w with handler := some h0, preds := w.preds.set 1 1 })
        (fun v a => a != v.sp.mask && v.wp.handler.isSome) = true
    ∧ ((65535 < 65536 ∧ 31 < 32) ∧ TrapKind.fpExc ∈ [TrapKind.misalign, .fpExc]) := by decide +kernel

def mfW : MemFn := ⟨.w32, .global, .plain, .warp, .dflt, .c⟩
/-- LoadsComplete and StoresComplete: a load in global memory and in the local window, a store to each, and a datum that is poisoned. -/
theorem witness_memory :
    (let i := Instr.ld (hV 4) (V 2) 0x40 ⟨.w64, .global, .plain, .warp, .dflt, .c⟩
     readsIn i s0 false 8 .global fun v a => easOf i false v a (0x40 : BitVec 24)) = true
    ∧ (let i := Instr.ld (hV 4) (V 2) 0xFFC ⟨.w32, .localw, .plain, .warp, .dflt, .c⟩
       readsIn i s0 false 4 .localw fun v a => easOf i false v a (0xFFC : BitVec 24)) = true
    ∧ (let i := Instr.ldu (hS 4) (S 2) 4 mfW
       readsIn i s0 true 4 .global fun v a => easOf i true v a (4 : BitVec 24)) = true
    ∧ idles (.ld (never (hV 4)) (V 2) 0 mfW) s0 = true ∧ idles (.ldu (never (hS 4)) (S 2) 0 mfW) s0 = true
    ∧ (let i := Instr.st hN (V 2) (V 8) 0x40 mfW
       actsIf i s0 fun v a => s0.markers == 0 && s0.mem.wf && (match s0.resolveAll v false 4 .global .move true (easOf i false v a (0x40 : BitVec 24)) with
         | .ok xs => xs.all fun x => (match x.2.2 with | .glob pa _ => s0.phys pa true == .mem pa | _ => false) | _ => false)) = true
    ∧ (let i := Instr.st hN (V 2) (V 8) 0x40 ⟨.w32, .localw, .plain, .warp, .dflt, .c⟩
       actsIf i s0 fun v a => isOk (s0.resolveAll v false 4 .localw .move true (easOf i false v a (0x40 : BitVec 24)))) = true
    ∧ (s0.phys 0x40 false = .mem 0x40 ∧ lineOfKey 0x40 ∉ s0.mem.poison ∧ wordPoison (s0.scratchOf 0 1) 0 16 = false)
    ∧ (let s : State := { s0 with mem := { s0.mem with poison := [1] } }
       s.phys 0x80 false = .mem 0x80 ∧ lineOfKey 0x80 ∈ s.mem.poison) ∧ ((2 : DWord).toNat % 4 ≠ 0) := by decide +kernel

/-- A line of the acting CU's L1 that its home has outrun: it held 7 where the home holds 0. -/
def sOld : State := { s0 with l1 := [{ cu := 0, line := 0, old := some (7 :: List.replicate 127 0) }] }

/-- LoadsThroughL1: the line may be read as it was; an acquire and an atomic read the home; a store to the line is kept out of other CUs' lines. -/
theorem witness_l1 :
    actsIf (.ld (hV 4) (V 2) 0 mfW) sOld (fun v _ => sOld.actingCu v == 0
      && (match sOld.readAs v none 0 4 .home (.glob 0 0) with | (s1, .ok 0) => s1.l1.isEmpty | _ => false)
      && (sOld.acquire v true).l1.isEmpty && (sOld.l1Read v none 128 4 (.glob 128 0)).1.l1.length == 2) = true
    ∧ sOld.phys 0 false = .mem 0 ∧ lineOfKey 0 ∉ sOld.mem.poison
    ∧ (let t := ({ sOld with l1 := [{ cu := 1, line := 0 }] } : State).memPut 4 [9]
       t.mem = { sOld.mem.write 4 9 with home := (0, sOld.mem.readBytes 0 128) :: sOld.mem.home }
         ∧ t.l1 = [{ cu := 1, line := 0, old := some (sOld.mem.readBytes 0 128) }])
    ∧ acquires ⟨.w32, .global, .acq, .dev, .dflt, .c⟩ = true ∧ acquires ⟨.w32, .global, .acq, .team, .dflt, .c⟩ = false
    ∧ acquires ⟨.w32, .global, .acq, .team, .dflt, .x⟩ = true := by decide +kernel

/-- AsyncLoadsAndPrefetches and CacheControl: LDA, IPREF; addresses in the global space and outside it. -/
theorem witness_caches :
    acts (.lda (hV 5) (V 2) 0 mfW) s0 = true ∧ idles (.lda (never (hV 5)) (V 2) 0 mfW) s0 = true ∧ acts (.ipref hN 7 (S 2)) s0 = true
    ∧ idles (.ipref (never hN) 7 (S 2)) s0 = true
    ∧ (let m : MemFn := ⟨.n8, .generic, .plain, .warp, .dflt, .c⟩
       actsIf (.l1Inv hN (V 2) 8 m) s0 (fun v a => isOk (cacheOps (.l1Inv hN (V 2) 8 m) m (8 : BitVec 16) v a)) = true
       ∧ actsIf (.l2Wb hN (V 2) 8 m) s0 (fun v a => isOk (cacheOps (.l2Wb hN (V 2) 8 m) m (8 : BitVec 16) v a)) = true
       ∧ actsIf (.icInv hN (V 2) 8 m) s0 (fun v a => isOk (cacheOps (.icInv hN (V 2) 8 m) m (8 : BitVec 16) v a)) = true
       ∧ acts (.icInvAll hN m) s0 = true
       ∧ actsIf (.l2WbInv hN (V 2) 8 m) (sW (vregs [(3, 0xFFF00000)])) (fun v a => !isOk (cacheOps (.l2WbInv hN (V 2) 8 m) m (8 : BitVec 16) v a)) = true) := by
  decide +kernel

/-- What the statements on one atomic need of a lane. -/
def atomicIn (i : Instr) (bytes : Nat) (off : BitVec 16) : Bool :=
  let s := sS one
  actsIf i s fun v a => laneList a == [0] && s.mem.wf && s.markers == 0
    && (match s.resolveAll v false bytes .global .atomic true (easOf i false v a off) with
      | .ok [(0, _, .glob pa _)] => s.phys pa false == .mem pa && s.phys pa true == .mem pa && !s.mem.poison.contains (lineOfKey (pa + bytes - 1))
      | _ => false)
/-- AtomicsComplete and FencesAndWatches. -/
theorem witness_atomics :
    atomicIn (.atom (hV 3) .add .n32 (V 2) (V 5) 4 mfW) 4 4 = true
    ∧ atomicIn (.red hN .min .s64 (V 2) (V 6) 8 ⟨.w64, .global, .plain, .warp, .dflt, .c⟩) 8 8 = true
    ∧ atomicIn (.atomc (hV 8) .n64 (V 2) (V 4) 8 ⟨.w64, .global, .plain, .warp, .dflt, .c⟩) 8 8 = true
    ∧ (let i := Instr.atom (hV 3) .inc .n32 (V 2) (V 5) 4 mfW
       actsIf i s0 fun v a => match s0.resolveAll v false 4 .global .atomic true (easOf i false v a (4 : BitVec 16)) with
         | .ok xs => (s0.atomAll v 4 (fun l o => atomNew .inc .n32 o (wordsNat (wordsOf i 1 v a l))) xs).bad.isNone | _ => false) = true
    ∧ acts (.fence hN .sys .full 0) s0 = true ∧ acts (.fence hN .sys .rel 0) { s0 with markers := 1 } = true
    ∧ acts (.fence hN .sys .acq 0) { s0 with markers := 1 } = true
    ∧ (∀ k ∈ [K 0, K 1], (let i := Instr.watch hN .eq .n32 (S 2) k 0 mfW
       actsIf i s0 fun v a => v.sp.hold == .none && (match s0.resolve v none (longA i v a 0) 4 .global .atomic false with
         | .ok x => (match s0.readAs v none (longA i v a 0) 4 .home x with | (s1, .ok 0) => s1 == s0 | _ => false) | _ => false)) = true)
    ∧ watchHolds .eq .n32 0 0 = true ∧ watchHolds .eq .n32 0 1 = false := by decide +kernel

/-- A barrier object of 32 with 32 to come at scratchpad byte 16, and the local window's address in s2:3. -/
def sBar : State := sT fun t =>
  { t with scratch := Memory.writeN {} 16 16 (32 + 32 * 65536), warps := t.warps.map (sregs [(2, 16), (3, 0xFFF00000)]) }
def onObject (i : Instr) (d : Nat) (p : View → Mask → Bool) : Bool :=
  actsIf i sBar fun v a => (match sBar.resolve v none (longA i v a (leadLane a)) 16 .generic .barrier true with | .ok l => l == .scratch 0 1 16 | _ => false)
    && !wordPoison (sBar.scratchOf 0 1) 16 16 && (sBar.scratchOf 0 1).readN 16 16 == d && p v a
/-- TeamBarrier: an initialisation, an arrival with room and one without, waits that end and one that holds; TBAR alone and with a warp that has
not come. -/
theorem witness_barriers :
    onObject (.bari hN (S 2) (K 32)) (32 + 32 * 65536) (fun v a => (wordB (.bari hN (S 2) (K 32)) v a 0).toNat == 32) = true
    ∧ onObject (.bara (hV 3) true 5 (S 2) none) (32 + 32 * 65536) (fun v a => arrivals (.bara (hV 3) true 5 (S 2) none) (hV 3) v a == 32) = true
    ∧ (barArrive (barOf (32 + 32 * 65536)) 32 0).isSome = true ∧ (barArrive (barOf (32 + 32 * 65536)) 33 0).isNone = true
    ∧ onObject (.bara (hU 3) false 0 (S 2) (some (K 33))) (32 + 32 * 65536) (fun v a => arrivals (.bara (hU 3) false 0 (S 2) (some (K 33))) (hU 3) v a == 33) = true
    ∧ onObject (.bart (hV 3) false 0 (S 2) none (K 4)) (32 + 32 * 65536) (fun _ _ => true) = true
    ∧ onObject (.barw (hP 1) (S 2) (K 1) (K 0)) (32 + 32 * 65536) (fun _ _ => true) = true
    ∧ onObject (.barw (hP 1) (S 2) (K 0) (K 0)) (32 + 32 * 65536) (fun _ _ => true) = true
    ∧ onObject (.barw (hP 1) (S 2) (K 0) (K 63)) (32 + 32 * 65536) (fun _ _ => true) = true
    ∧ acts (.tbar hN) s0 = true
    ∧ (let tb : Warp := { w0 with front := [{ sp0 with hold := .tbar }] }
       ([tb, w0].all (·.arrived holdsTbar) = false) ∧ ([tb, { w0 with ended := true }].all (·.arrived holdsTbar) = true) ∧ ([tb].any fun w => !w.ended) = true) := by
  decide +kernel

/-- GroupInstructions: a group closed, open, joined already, with no free GROUPS slot, with all 64 members; a member and no member. -/
theorem witness_groups :
    let full : List Member := (List.range 64).map fun k => ⟨k, 9⟩
    let x : Slice := { x0 with groups := [(1, { open_ := true }), (2, { open_ := true, members := full }), (3, { open_ := true, closing := true })] }
    let s := sX fun y => { y with groups := x.groups }
    (x.group 0).open_ = false ∧ (x.group 3).closing = true
    ∧ (x.group 1).open_ = true ∧ (x.group 1).closing = false ∧ t0.memberOf 1 = none ∧ none ∈ t0.groups ∧ 0 ∉ (x.group 1).members.map (·.idx)
    ∧ (∀ m < 64, m ∈ (x.group 2).members.map (·.idx))
    ∧ (let t : Team := { t0 with groups := [some (1, 5), some (2, 0), some (4, 0), some (5, 0)] }
       t.memberOf 1 = some 5 ∧ t.memberOf 3 = none ∧ ∀ y ∈ t.groups, y ≠ none)
    ∧ acts (.gjoin (hV 4) (K 1)) s = true ∧ acts (.gleave hN (K 1)) s = true
    ∧ actsIf (.gbar hN (K 1)) s (fun v _ => (v.tm.memberOf 1).isNone) = true
    ∧ actsIf (.gbar hN (K 1)) (sT fun t => { t with groups := [some (1, 0), none, none, none] })
        (fun v a => a == v.sp.mask && (v.tm.memberOf 1).isSome) = true := by decide +kernel

/-- Bytes placed in global memory. -/
def sMem (l : List (Nat × List Byte)) (s : State) : State := { s with mem := l.foldl (fun m e => m.writeBytes e.1 e.2) s.mem }
def le (n v : Nat) : List Byte := leBytes n v
/-- A copy descriptor of one element of four bytes from 0x1000 to 0x2000 (06 R198). -/
def copyBytes : List Byte := le 8 0x1000 ++ le 8 0x2000 ++ le 8 0x21 ++ le 40 0 ++ le 8 (1 + 2 ^ 32) ++ le 8 0 ++ le 8 4 ++ le 8 4
def cmd0 : CopyCmd := { id := 7, slice := 0, desc := parseCopy copyBytes, comp := none, issuer := r0, vf := 0, cu := 0 }
/-- A format word of FP16 operands and result (02 R81): both types, and the result type at bit 14. -/
def fmtF16 : Word := 0x01 + 0x01 * 64 + 0x01 * 16384

/-- CopyCommands, TaskSubmission, CollatorAndTables. -/
theorem witness_engine_commands :
    (let s := sMem [(0x400, copyBytes)] (sW (sregs [(2, 0x400)]))
     actsIf (.cpy (hV 4) 3 2 false (S 2)) s fun v _ => (v.sl.channel 14).queue.length < 16
       && (match s.readDesc v 0x400 8, s.readDesc v 0x440 4 with
         | (s1, .bytes b0), (s2, .bytes b1) => s1 == s && s2 == s && b0 ++ b1 == copyBytes && copyOk (b0 ++ b1) && !(parseCopy (b0 ++ b1)).bind
         | _, _ => false)) = true
    ∧ actsIf (.dcmp (hV 4) (S 2) (K 8)) s0 (fun v _ => match s0.readDesc v 0 4 with
        | (s1, .bytes b) => s1 == s0 && fieldAt b 20 12 == 0 && fieldAt b 0 8 % 4 == 0 | _ => false) = true
    ∧ acts (.cpyc hN 1 1) s0 = true
    ∧ actsIf (.cpy hN 1 1 false (S 2)) (sX fun x => { x with channels := [(5, { queue := List.replicate 16 cmd0 })] })
        (fun v _ => 16 ≤ (v.sl.channel 5).queue.length) = true
    ∧ (([1, 65535, 0, 65536] : List Word).all fun t => acts (.tokenCancel (hS 4) (S 3)) (sW (sregs [(3, t)]))) = true
    ∧ (let s := (sW (vregs [(2, fmtF16)])).modSlice 0 fun x => { x with ring := some { base := 0x4000, slots := 4, spill := 0, nspill := 0 } }
       actsIf (.tsub (hV 3) (V 1) (V 2)) s fun v a => (laneList a).all (fun l => wordB (.tsub (hV 3) (V 1) (V 2)) v a l == fmtF16)
         && fmtBad fmtF16.toNat == none && (v.sl.ring.bind v.sl.freeSlot) == some 0
         && (match s.resolve v none 0x4000 16 .generic .move true with | .ok l => l == .glob 0x4000 0 | _ => false)) = true
    ∧ actsIf (.tsub (hV 3) (V 1) (V 2)) (sW fun w => { w with vregs := w.vregs.set 2 { words := [0, 1] ++ List.replicate 30 0 } })
        (fun v a => wordB (.tsub (hV 3) (V 1) (V 2)) v a 1 != wordB (.tsub (hV 3) (V 1) (V 2)) v a 0) = true := by decide +kernel

def nd0 : NodeDesc :=
  { target := 0x10004, trapvec := 0, timer := 5, scratch := 0, regs := 16, rsize := 8, gsize := 32, teamw := 1, graph := 1, zfill := true, cupin := 255,
    fpctl := 0, queue := 0 }
theorem witness_collator :
    (let s := sX fun x => { x with nodes := [(3, nd0)] }
     let i := Instr.capp hN 7 (K 3) (V 8)
     actsIf i s fun v a => (laneList a).all (fun l => (wordA i v a l).toNat == 3) && (7 + 1 ≤ nd0.rsize : Bool)
       && (v.sl.append ((laneList a).map fun l => .node 3 { time := 0, words := wordsOf i 1 v a l })).isSome) = true
    ∧ actsIf (.capp hN 7 (K 3) (V 8)) s0 (fun v _ => kget v.sl.nodes 3 == none) = true
    ∧ acts (.quies (hS 4) (S 3)) (sW (sregs [(3, 64)])) = true
    ∧ actsIf (.quies (hS 4) (K 63)) s0 (fun v _ => v.sl.quiescent 63 (some (1, 0))) = true
    ∧ actsIf (.quies (hS 4) (K 1)) (sX fun x => { x with teams := x.teams ++ [{ t0 with id := 2, graph := 1 }] })
        (fun v a => a == v.sp.mask && !v.sl.quiescent 1 (some (1, 0))) = true
    ∧ actsIf (.tbld hN 5 true (S 2)) s0 (fun v a => a == v.sp.mask && (longA (.tbld hN 5 true (S 2)) v a 0).toNat % 64 == 0) = true
    ∧ actsIf (.tbld hN 5 true (S 2)) (sW (sregs [(2, 32)])) (fun v a => (longA (.tbld hN 5 true (S 2)) v a 0).toNat % 64 != 0) = true := by
  decide +kernel

/-- A trace in flight for lane 0's entry 0, and a hit recorded there. -/
def flTrace : Flight := { id := 9, major := 0xB3, regs := [16, 17], lanes := 1, prior := [{}, {}], commit := false, kind := .trace 0 false false [(0, [])] [(0, 0, 0)] }
def hitW (w : Warp) : Warp := { w with hits := w.hits.map fun h => { h with k := 1, ents := h.ents.set 0 { valid := true, hit := true, prim := 5 } } }
def ren0 : Render :=
  { queue := 0, pkt := 0, vf := 0, surface := 0x1000, meta_ := 0, compressed := false, enc := false, x0 := 0, y0 := 0, width := 64, height := 64,
    surfW := 64, surfH := 64, vxs := 0, vys := 0, vxo := 0, vyo := 0, clear := 0, clearDepth := 0, binBase := 0x8000, binSize := 0x4000, tileArea := 0x4000,
    geo := {}, shade := {}, fpctl := 0, args := [], graph := 0, geoLaunch := 1 }
def geoState (f : Slice → Slice) : State := (sT fun t => { t with kind := .geometry }).modSlice 0 fun x => f { x with render := some ren0 }
def shadeState (b : Nat) : State :=
  (sT fun t => { t with kind := .shading 0 b }).modSlice 0 fun x => { x with render := some { ren0 with tiles := [{ num := 0, px := List.replicate 4096 0 }] } }

/-- TexturesAndTraversal: a descriptor read from memory, at an aligned and a misaligned address; a free and a busy hit entry; a handle with and without
a hit. -/
theorem witness_textures :
    (let i := Instr.tld (hV 8) .d2arr 1 (V 1) (S 4) (K 0)
     actsIf i s0 fun v a => match readTexDesc (preciseReader v none) (longB i v a 0) s0 with
       | (s1, .ok bs) => s1 == s0 && !(parseTex bs).valid && (longB i v a 0).toNat % 64 == 0 | _ => false) = true
    ∧ actsIf (.tqry (hV 8) .fmt (S 4) (K 0)) (sW (sregs [(4, 8)])) (fun v a => (longB (.tqry (hV 8) .fmt (S 4) (K 0)) v a 0).toNat % 64 != 0) = true
    ∧ acts (.tqry (hV 8) .fmt (S 4) (K 0)) s0 = true ∧ acts (.tex (hV 8) .implicit false .d3 0 (V 1) (S 4) none) s0 = true
    ∧ actsIf (.trace (hV 16) true true (V 8) (S 4)) s0 (fun v a => (laneList a).all fun l => !v.wp.traceInFlight l 0) = true
    ∧ actsIf (.trace (hV 16) true true (V 8) (S 4)) (sW fun w => { w with flights := [flTrace] }) (fun v _ => v.wp.traceInFlight 0 0) = true
    ∧ actsIf (.thit (hV 8) .prim (V 1)) (sW hitW) (fun v a => (laneList a).all fun l => (v.wp.hitItem .prim l 0).isSome) = true
    ∧ actsIf (.thit (hV 8) .prim (V 1)) s0 (fun v _ => (v.wp.hitItem .prim 0 0).isNone) = true := by decide +kernel

/-- PayloadsAndPixels: a slot held, free and none free; a handle that names a slot and one that does not; a shading warp at the last block. -/
theorem witness_payloads :
    actsIf (.ringAcquire (hS 5)) (geoState fun x => x.setPayload 0 3 { state := .held, team := 1 }) (fun v _ => v.geometry && v.ownSlot.isSome) = true
    ∧ actsIf (.ringAcquire (hS 5)) (geoState id) (fun v _ => v.geometry && v.ownSlot.isNone && (v.sl.payload 0 0).state == .free) = true
    ∧ actsIf (.ringAcquire (hS 5)) (geoState fun x => (List.range 4).foldl (fun y k => y.setPayload 0 k { state := .draining }) x)
        (fun v _ => v.ownSlot.isNone && (List.range 4).all fun k => (v.sl.payload 0 k).state == .draining) = true
    ∧ actsIf (.ringRelease hN (S 5)) (geoState fun x => x.setPayload 0 0 { state := .held, team := 1 }) (fun v a => (v.heldSlot (wordB (.ringRelease hN (S 5)) v a 0)) == some (0, 0)) = true
    ∧ actsIf (.emit hN true 3 (V 8) (S 5)) (geoState id) (fun v a => (v.heldSlot (wordB (.emit hN true 3 (V 8) (S 5)) v a 0)).isNone) = true
    ∧ actsIf (.emit hN false 7 (V 8) (S 5)) (geoState fun x => x.setPayload 0 0 { state := .held, team := 1 }) (fun v _ => (v.heldSlot 0) == some (0, 0)) = true
    ∧ actsIf (.ringAcquire (hS 5)) (geoState fun x => x.setPayload 7 3 { state := .held, team := 1 })
        (fun v _ => v.geometry && v.ownSlot == some (7, 3, { state := .held, team := 1 }) && v.heldSlot 3 == some (7, 3)) = true
    ∧ actsIf (.vrd (hV 8) .bary) (shadeState 63) (fun v _ => v.tm.kind == .shading 0 63 && v.sl.render.isSome) = true
    ∧ actsIf (.pxw hN (V 4)) (shadeState 63) (fun v _ => v.sl.render.any fun r => r.tiles.any fun t => t.num == 0 && t.px.length == 4096) = true
    ∧ actsIf (.ringAcquire (hS 5)) s0 (fun v _ => !v.geometry) = true ∧ actsIf (.pxw hN (V 4)) s0 (fun v _ => v.tm.kind == .plain) = true := by
  decide +kernel

/-- RadianceCommands and GibbsCommands: counts 0 and 4, aligned and misaligned addresses, a full queue, 0, 16 and 17 colours. -/
theorem witness_radiance_and_gibbs :
    acts (.rcq (hV 4) true (V 16)) s0 = true ∧ acts (.rct hN (V 7) (V 8)) s0 = true ∧ acts (.rcstep hN (K 0)) s0 = true
    ∧ actsIf (.rcpub hN) s0 (fun v a => a == v.sp.mask) = true
    ∧ actsIf (.rcrd hN true (S 2)) s0 (fun v a => a == v.sp.mask && (longA (.rcrd hN true (S 2)) v a 0).toNat % 64 == 0) = true
    ∧ actsIf (.rcrd hN true (S 2)) (sW (sregs [(2, 1)])) (fun v a => (longA (.rcrd hN true (S 2)) v a 0).toNat % 64 != 0) = true
    ∧ actsIf (.rccfg hN (S 2)) s0 (fun v a => a == v.sp.mask) = true
    ∧ (let e : GibbsEntry := { id := 0, cmd := .load 0, vf := 0, cu := 0, issuer := r0 }
       let s := sX fun x => { x with gibbs := { queue := List.replicate 16 e } }
       acts (.gld hN (S 2)) s = true ∧ actsIf (.gcfg hN true (S 6) (K 16) (S 8)) s0 (fun v _ => v.sl.gibbs.queue.length < 16) = true
       ∧ actsIf (.gclmp hN (S 2)) s (fun v _ => 16 ≤ v.sl.gibbs.queue.length) = true)
    ∧ acts (.gcfg hN true (S 6) (K 0) (S 8)) s0 = true ∧ acts (.gcfg hN true (S 6) (K 17) (S 8)) s0 = true
    ∧ acts (.gswp (hV 4) (K 9)) s0 = true ∧ actsIf (.grd hN .both (S 2)) s0 (fun v a => a == v.sp.mask) = true ∧ acts (.gstat (hS 4)) s0 = true := by
  decide +kernel

/-- SpecialRegistersAndEscalations: MTS at the ends of the legal values and beyond, ESC with room and without. -/
theorem witness_system :
    (∀ k ∈ ([1, 5, 0, 7] : List Nat), acts (.mts hN 6 (K (BitVec.ofNat 8 k))) s0 = true) ∧ acts (.mts hN 7 (K 4)) s0 = true ∧ acts (.mts hN 7 (K 5)) s0 = true
    ∧ acts (.mts hN 8 (S 4)) s0 = true ∧ actsIf (.esc hN 1) s0 (fun v _ => v.sl.escs.length < 64) = true
    ∧ (let e : EscRec := { warp := r0, lane := 0, addr := 0, code := 0, inHandler := false, trappc := 0, cause := 0, info := 0 }
       actsIf (.esc hN 1) (sX fun x => { x with escs := List.replicate 64 e }) (fun v _ => 64 ≤ v.sl.escs.length)) = true := by decide +kernel

/-! ### Witnesses: steps of other agents -/

def fl (major : Nat) (k : FlightKind) : Flight := { id := 9, major := major, regs := [16], lanes := 1, prior := [{}], commit := false, kind := k }
def gp0 : GParty := { lanes := 1, seen := [] }
def sFl (k : FlightKind) (major : Nat := 0x83) : State := sW fun w => { w with flights := [fl major k] }
def flies (s : State) (k : FlightKind) (major : Nat := 0x83) : Bool := s.flightOf r0 9 == some (fl major k)
/-- A valid 2D texture of one RGBA8 texel at address 0 (07 R216-R218). -/
def texBytes : List Byte := le 22 0 ++ le 2 (1 + 2 * 256) ++ le 40 0
/-- A radiance configuration of one level and one hidden layer (15 R347). -/
def radBytes : List Byte :=
  le 4 (1 + 1 * 16 + 0 * 128 + 4 * 512) ++ le 4 0 ++ le 12 0 ++ (le 4 0x3F800000 ++ le 4 0x3F800000 ++ le 4 0x3F800000) ++ le 2 1 ++ le 30 0
    ++ le 4 0x3A83126F ++ le 4 0x3F000000 ++ le 4 0x3F000000 ++ le 4 0x3F800000 ++ le 8 0x4000 ++ le 8 0x8000 ++ le 32 0

/-- WakesAndAnswers, the fills. -/
theorem witness_fills :
    (let k : FlightKind := .lda [(0, 0)] mfW []
     let s := sFl k
     flies s k = true ∧ (s.ldaLanes (s.producer r0 .c 9) mfW [(0, 0)]).2 = ([], [(0, .datum 0)])
       ∧ (match s.ldaLoc (s.producer r0 .c 9) 0 0 mfW with
         | (s1, .ok x) => !x.isSO && isOk (s1.readAs ((s.producer r0 .c 9).view s1) (some 0) 0 4 .l1 x).2 | _ => false) = true)
    ∧ (let k : FlightKind := .lda [(0, 2)] mfW []
       let s := sFl k
       flies s k = true ∧ (match s.ldaLoc (s.producer r0 .c 9) 0 2 mfW with | (_, .error (some _)) => true | _ => false) = true
         ∧ (match s.ldaLanes (s.producer r0 .c 9) mfW [(0, 2)] with | (_, [], [(0, .failed _)]) => true | _ => false) = true)
    ∧ (let k : FlightKind := .lda [(0, 0)] mfW []
       let s := (sFl k).modSlice 0 fun x => { x with tlb := x.tlb.map fun e => { e with ok := 1 } }
       flies s k = true ∧ (match s.ldaLoc (s.producer r0 .c 9) 0 0 mfW with | (_, .ok x) => x.isSO | _ => false) = true)
    ∧ (let k : FlightKind := .lda [(0, 0x40000000)] mfW []
       let s : State := { sFl k with xl := [(0, { fmode := true })] }
       flies s k = true ∧ (s.ldaLanes (s.producer r0 .c 9) mfW [(0, 0x40000000)]).2.1 = [(0, 0x40000000)])
    ∧ (let s := { sMem [(0, [1])] s0 with mem := { s0.mem with poison := [0] } }
       match s.ldaLoc (s.producer r0 .c 9) 0 0 mfW with
       | (s1, .ok x) => !x.isSO && !isOk (s1.readAs ((s.producer r0 .c 9).view s1) (some 0) 0 4 .l1 x).2 | _ => false) = true
    ∧ (let k : FlightKind := .tex .lod false .d2 0 (some texBytes) [(0, [0, 0])] [(0, [0])]
       let s := sFl k 0xB0
       flies s k 0xB0 = true ∧ (parseTex texBytes).valid = true ∧ (parseTex texBytes).dim = dimNum .d2
       ∧ isOk (overLanes (texLane (engReader gp0 (s.producer r0 .g 9)) (parseTex texBytes) .lod false [(0, [0, 0])] [(0, [0])]) (laneList 1) s).2 = true)
    ∧ flies (sFl (.tex .lod false .d2 32 none [] []) 0xB0) (.tex .lod false .d2 32 none [] []) 0xB0 = true
    ∧ flies (sFl (.trace 32 false false [] []) 0xB3) (.trace 32 false false [] []) 0xB3 = true ∧ (32 : DWord).toNat % 64 ≠ 0
    ∧ (let s := sFl (.rcq false [(0, List.replicate 14 0)] none 0) 0xC0
       flies s (.rcq false [(0, List.replicate 14 0)] none 0) 0xC0 = true ∧ (s.slice 0).radiance.blocks 0 = false ∧ (s.slice 0).radiance.config = none)
    ∧ radOk radBytes = true ∧ queryReads (parseRad radBytes) (List.replicate 14 0) [] = false
    ∧ flies (sFl (.engine (some 5))) (.engine (some 5)) = true ∧ (fl 0x83 (.engine none)).regs.Nodup ∧ ∀ r ∈ (fl 0x83 (.engine none)).regs, r < w0.vregs.length := by
  decide +kernel
def ray0 : List (Nat × List Word) := [(0, [0, 0, 0, 0x3F800000, 0x3F800000, 0x3F800000, 0, 0x42C80000])]
/-- A trace over a root without children. -/
theorem witness_trace_fill :
    (let s := sMem [(24, leBytes 8 (2 ^ 64 - 1))] (sFl (.trace 0 false false ray0 [(0, 0, 0)]) 0xB3)
     flies s (.trace 0 false false ray0 [(0, 0, 0)]) 0xB3
       && isOk (overLanes (fun l s => traceLane (engReader gp0 (s.producer r0 .g 9)) 0 false false ((kget ray0 l).getD []) s) (ray0.map (·.1)) s).2) = true := by
  decide +kernel

/-- A record pool whose 4,096 bins are all in use: 64 loads of 2,048 records of node 9 wait for room. -/
def fullPool (x : Slice) : Slice := { x with loads := List.replicate 64 (.node 9 (List.replicate 2048 { time := 0, words := [] })) }
def hR : Hdr := { hV 8 with ws := true }
/-- RegroupedCalls: the full pool, a target in a handler, an unmarked target on a mapped page; records appended to a bin that stays short of a load. -/
theorem witness_calls_turned_away :
    actsIf (.rcall hR 0 0 4 (V 4)) (sS one |>.modSlice 0 fullPool) (fun v a => v.wp.handler.isNone && (laneList a).all (fun l => (v.wp.returns.getD l []).length < 8)
       && ((sS one |>.modSlice 0 fullPool).checkTarget v (jTarget v.sp.pc 0 4)).isNone
       && (v.sl.append ((laneList a).map fun l => .regroup (regroupKey v l (jTarget v.sp.pc 0 4) (wordA (.rcall hR 0 0 4 (V 4)) v a l))
            (callRec s0 v l hR 0 (nextPc v.sp.pc :: v.wp.returns.getD l [])))).isNone) = true
    ∧ (let s := (sW fun w => { w with returns := List.replicate 32 [0x10034], front := w.front.map one }).modSlice 0 fullPool
       actsIf (.rret hR 0) s fun v a => (laneList a).all (fun l => v.wp.returns.getD l [] != [])
         && (v.sl.append ((laneList a).map fun l => .regroup (regroupKey v l ((v.wp.returns.getD l []).headD 0) 0)
              (callRec s v l hR 0 (v.wp.returns.getD l []).tail))).isNone) = true
    ∧ actsIf (.rcall hR 0 0 2 (V 4)) s0 (fun v _ => (match s0.lineAddr 0 0 0 (jTarget v.sp.pc 0 2) with | .ok .. => true | _ => false)
        && !s0.marked 0 0 0 (jTarget v.sp.pc 0 2) && v.wp.handler.isNone) = true
    ∧ actsIf (.rcall hR 0 0 4 (V 4)) (sW fun w => { w with handler := some h0 }) (fun v _ => v.wp.handler.isSome) = true
    ∧ (let r : BinRec := .node 3 { time := 0, words := [] }
       (x0.append [r, r]).isSome = true ∧ [r, r].length + x0.binned r.key < x0.loadSize r.key) := by decide +kernel

/-- The slot after a REGN and the first of a chain (RegionEntries); the line that an IPREF warms (AsyncLoadsAndPrefetches). -/
theorem witness_lines :
    s0.regnAt 0 t0 0x10010 = none ∧ s0.regnAt 0 t0 0x10004 = some ([⟨0, 8⟩], false)
    ∧ s0.lineAddr 0 0 0 0x10000 = .ok 0x10000 0 ∧ s0.phys 0x10000 false = .mem 0x10000 ∧ lineOfKey 0x10000 ∉ s0.mem.poison ∧ 0 < s0.slices.length := by
  decide +kernel

/-- The pages of kind SO; a split whose fabric stores await a marker; an LDA of its lanes still to be read. -/
def sSO (s : State) : State := s.modSlice 0 fun x => { x with tlb := x.tlb.map fun e => { e with ok := 1 } }
def sMark (f : Warp → Warp) : State := { (sW fun w => f { w with fabric := 1 }) with markers := 1 }
def mRel : MemFn := ⟨.w32, .global, .rel, .sys, .dflt, .c⟩
/-- StoresComplete, AtomicsComplete and FencesAndWatches: what awaits a marker and what does not; accesses to pages of kind SO; several lanes; path G. -/
theorem witness_markers_and_fences :
    (let i := Instr.st hN (V 2) (V 8) 0x40 mfW
     actsIf i (sSO s0) fun v a => !v.wp.ldaOpen v.sp.mask && !(sSO s0).needsMarker v
       && (match (sSO s0).resolveAll v false 4 .global .move true (easOf i false v a (0x40 : BitVec 24)) with
         | .ok xs => xs.any (·.2.2.isSO) | _ => false)) = true
    ∧ actsIf (.st hN (V 2) (V 8) 0x40 mfW) (sMark id) (fun v _ => (sMark id).needsMarker v) = true
    ∧ (let i := Instr.red hN .add .n32 (V 2) (V 5) 4 mRel
       actsIf i (sMark id) fun v a => (sMark id).needsMarker v && isOk ((sMark id).resolveAll v false 4 .global .atomic true (easOf i false v a (4 : BitVec 16)))) = true
    ∧ (let i := Instr.atom (hV 3) .add .n32 (V 2) (V 5) 4 mfW
       actsIf i (sSO s0) fun v a => !v.wp.ldaOpen v.sp.mask && (match (sSO s0).resolveAll v false 4 .global .atomic true (easOf i false v a (4 : BitVec 16)) with
         | .ok xs => xs.all (fun x => match x.2.2 with | .glob .. => x.2.2.isSO | _ => false)
             && (((sSO s0).acquire v true).atomAll v 4 (fun l o => atomNew .add .n32 o (wordsNat (wordsOf i 1 v a l))) xs).bad.isNone
         | _ => false)) = true
    ∧ idles (.red (never hN) .add .n32 (V 2) (V 5) 4 mRel) s0 = true
    ∧ actsIf (.fence hN .sys .full 0x08) s0 (fun v _ => !s0.needsMarker v) = true ∧ actsIf (.fence hN .sys .rel 0) (sMark id) (fun v _ => (sMark id).needsMarker v) = true
    ∧ actsIf (.fence hN .dev .full 0) (sMark id) (fun _ _ => true) = true
    ∧ actsIf (.watch hN .eq .n32 (S 2) (K 1) 0 mfW) (sS fun p => { p with hold := .watchRevoked }) (fun v _ => v.sp.hold == .watchRevoked) = true := by
  decide +kernel

/-- Groups with team 1 a member: its last phase, and one where another team has not come; a warp that has arrived; an LDA through the group's window. -/
def sGrp (ms : List Member) (h : Hold) : State :=
  (sT fun t => { t with groups := [some (1, 0), none, none, none], warps := t.warps.map fun w => { w with front := w.front.map fun p => { p with hold := h } } }).modSlice 0
    fun x => { x with groups := [(1, { open_ := true, members := ms })] }
theorem witness_group_phases :
    ((sGrp [⟨0, 1⟩] .none).slice 0).anyTeam 1 = some { t0 with groups := [some (1, 0), none, none, none] } ∧ ({ t0 with groups := [some (1, 0), none, none, none] } : Team).memberOf 1 = some 0
    ∧ (∀ ms ∈ [[⟨0, 1⟩], [⟨0, 1⟩, ⟨1, 7⟩]], (match ((sGrp ms (.gbar 1 0)).slice 0).anyTeam 1 with
        | some u => u.memberOf 1 == some 0 && u.warps.all (·.arrived (holdsGbar 1)) && u.warps.any (fun w => !w.ended) | none => false) = true
        ∧ (((sGrp ms (.gbar 1 0)).slice 0).group 1).members = ms)
    ∧ (∀ y ∈ ([⟨0, 1⟩] : List Member), y.idx ∈ [0]) ∧ (¬ ∀ y ∈ ([⟨0, 1⟩, ⟨1, 7⟩] : List Member), y.idx ∈ [0])
    ∧ (match ((sGrp [⟨0, 1⟩] .none).slice 0).anyTeam 1 with | some u => u.warps.any fun w => !w.arrived (holdsGbar 1) | none => false) = true
    ∧ (∃ y ∈ (((sGrp [⟨0, 1⟩] .none).slice 0).group 1).members, y.team = 1) ∧ (∀ y ∈ ((s0.slice 0).group 1).members, y.team ≠ 1)
    ∧ actsIf (.gleave hN (K 1)) (sGrp [⟨0, 1⟩] .none) (fun v _ => !v.tm.gleaveWaits 1) = true
    ∧ (let f : Flight := { id := 9, major := 0x83, regs := [16], lanes := 1, prior := [{}], commit := false,
                           kind := .lda [(0, 0)] ⟨.w32, .groupw, .plain, .warp, .dflt, .c⟩ [] }
       actsIf (.gleave hN (K 1)) (sT fun t => { t with groups := [some (1, 0), none, none, none], warps := t.warps.map fun w => { w with flights := [f], front := w.front.map fun p => { p with mask := 2 } } })
         (fun v _ => v.tm.gleaveWaits 1)) = true := by decide +kernel

/-- A write of another split that no fence has released, over the word at 0x40, and one that its writer and the reader have fenced (TexturesAndTraversal). -/
def sStale (rel : Option Nat) : State :=
  { sW (fun w => { w with gSeen := List.replicate 32 9 }) with gStale := [{ key := 0x40, old := [1, 2, 3, 4], writer := some (⟨0, 2, 0⟩, 1), stamp := 3, released := rel }] }
def reads (s : State) (p : View → Bool) : Bool := match s.view with
  | some v => p v && isGlobal 0x40 && (match s.resolve v none 0x40 4 .global .move false with | .ok x => x == .glob 0x40 0 | _ => false)
  | none => false
theorem witness_path_g :
    (∀ r ∈ [none, some 5], reads (sStale r) (fun v => (sStale r).gStale.all fun e => e.shows v.gParty == r.isSome) = true)
    ∧ (sStale none).phys 0x40 false = .mem 0x40 ∧ lineOfKey 0x40 ∉ (sStale none).mem.poison ∧ lineOfKey 0x43 ∉ (sStale none).mem.poison := by decide +kernel

/-- WakesAndAnswers: a query of a configured engine, with and without a lane that reads an uncorrectable word; a completed command; the registers of a producer. -/
theorem witness_answers :
    (let k : FlightKind := .rcq false [(0, List.replicate 14 0)] none 0
     let s := (sFl k 0xC0).modSlice 0 fun x => { x with radiance := { config := some (parseRad radBytes) } }
     flies s k 0xC0 = true ∧ (s.slice 0).radiance.blocks 0 = false ∧ (s.slice 0).radiance.config = some (parseRad radBytes) ∧ 0 < s.slices.length)
    ∧ (let f := fl 0xA0 (.engine (some 5))
       let w := { w0 with flights := [f] }
       w.flights.find? (·.id == f.id) = some f ∧ f.regs.Nodup ∧ ∀ r ∈ f.regs, r < w.vregs.length) := by decide +kernel

def watch0 : WatchReq := { id := 5, warp := r0, obj := none, addr := 0, cond := .eq, ty := .n32, value := 1, entry := true }
def esc0 : EscRec := { warp := r0, lane := 0, addr := 0x10004, code := 0, inHandler := false, trappc := 0, cause := 0, info := 0 }
def sHold (h : Hold) : State := sS fun p => { p with hold := h }
/-- The split of `q0` stands in a hold. -/
def holds (s : State) (h : Hold) : Bool := match s.splitAt q0 with | some (_, _, p) => p.hold == h | none => false

/-- WakesAndAnswers, the rest: a watch hit and revoked; a freed entry for the second of two requests; waits before and at their ends; answers to a split
outside a handler, to one in a handler, to a team that is gone; a line on its way; a warp whose lanes have all exited. -/
theorem witness_wakes :
    holds { sHold (.watch 5) with watches := [{ watch0 with hit := true }] } (.watch 5) = true
    ∧ holds { sHold (.watch 5) with watches := [{ watch0 with revoked := true }] } (.watch 5) = true
    ∧ (let a := { watch0 with entry := false, hit := true }
       let q := { watch0 with id := 6, entry := false }
       watchBank q.addr = watchBank 0 ∧ (a.entry = true ∨ a.hit = true) ∧ q.entry = false ∧ q.hit = false
         ∧ ([a, q].filter fun q => q.entry && q.obj.isNone && watchBank q.addr == 0).length < 2048)
    ∧ (∀ u ∈ [0, 1], holds (sHold (.sleep u)) (.sleep u) = true) ∧ s0.dtime < 1 ∧ 0 ≤ s0.dtime
    ∧ holds (sHold (.barw ⟨0, 1, 16⟩ 0 (some 1) (.pred 1) false 1)) (.barw ⟨0, 1, 16⟩ 0 (some 1) (.pred 1) false 1) = true
    ∧ ((sX fun x => { x with escs := [esc0] }).slice 0).escs = [esc0]
    ∧ (((sX fun x => { x with teams := [] }).slice 0).team esc0.warp.team).isNone = true
    ∧ (match (s0.slice 0).team 1 with | some t => (t.warp 0).any (·.handler.isNone) | none => false) = true
    ∧ (match ((sW fun w => { w with handler := some h0, escFrozen := true }).slice 0).team 1 with
       | some t => (t.warp 0).any fun w => w.handler.isSome && w.escFrozen | none => false) = true
    ∧ (let s := sX fun x => { x with fetches := [{ cu := 0, seq := 1, pa := 0x10000 }] }
       ((s.slice 0).fetches.find? fun f => f.cu == 0 && f.seq == 1).isSome = true ∧ s.phys 0x10000 false = .mem 0x10000 ∧ 0 < s.slices.length)
    ∧ (match (sW fun w => { w with front := [], exited := 0xFFFFFFFF }).warp r0 with
       | some x => x.allExited && !x.anyPending && !x.ended | none => false) = true := by decide +kernel

def word4 (l : List (Nat × Word)) : List Word := l.foldl (fun r e => r.set e.1 e.2) (List.replicate 32 0)
/-- A task of one row, one column and K = 1 in FP16 with an FP32 result, record at ring slot 0 (06 R204). -/
def task0 : Task :=
  { id := 3, words := word4 [(0, 1 + 256), (1, 1), (2, 0x1000), (4, 0x1100), (31, 0x01 + 0x01 * 64)], ringSlot := 0, comp := none, issuer := r0, vf := 0, cu := 0 }
def jobT : TbldJob := { id := 4, act := true, tabl := 2, addr := 0, issuer := r0, vf := 0, cu := 0 }
def sChan (q : CopyCmd) (s : State) : State := s.modSlice 0 fun x => { x with channels := [(5, { queue := [q] })] }
/-- The 1 KiB at an address can be read as a table image. -/
def flipImage (addr : Nat) : Bool :=
  isOk (s0.engBytes { slice := 0, team := 1, vf := 0, cu := 0, path := .a, id := 4 } (BitVec.ofNat 64 addr) 64 16).2

/-- CopyTaskAndTableSteps: an element lands and is the last; a command has ended; a task can start, has a K-block left, is drained, has failed, was
cancelled, awaits a cancelled token; a graph is quiescent; an image can be read, and lies outside the global space. -/
theorem witness_engine_steps :
    (let s := sChan cmd0 (sMem [(0x400, copyBytes)] s0)
     ((s.slice 0).channel 5).queue.head? = some cmd0 ∧ cmd0.ended = none ∧ cmd0.bobj = none
       ∧ (match landing s cmd0 with | .bytes _ _ _ false => true | _ => false) = true)
    ∧ ((sChan { cmd0 with ended := some 0 } s0).slice 0).channel 5 = { queue := [{ cmd0 with ended := some 0 }] }
    ∧ (let s := sX fun x => { x with ring := some { base := 0x4000, slots := 4, spill := 0x6000, nspill := 2 }, tasks := [task0] }
       let x := s.slice 0
       (x.tasks.find? x.startable).isSome = true ∧ (s.freeEngine 0).isSome = true ∧ (task0.spill <|> x.freeSpill).isSome = true)
    ∧ (let t : Task := { task0 with eng := some ⟨0, 0, none⟩, latched := List.replicate 4 .identity }
       let f := taskFmt t.words
       64 * t.kdone < taskK t.words
       ∧ (match readAin (t.agent 0) t.words (f.accm == 1) s0 with
          | (s1, .ok _) => (match readVecs (t.agent 0) f.atype f.cmpa .identity s1 (blockA t.words 0 1) with
            | (s2, .ok _) => isOk (readVecs (t.agent 0) f.btype f.cmpb .identity s2 (blockB t.words 0 1)).2 | _ => false)
          | _ => false) = true
       ∧ taskK t.words ≤ 64 * { t with kdone := 1 }.kdone)
    ∧ ({ task0 with failed := some (3, 1) }.failed = some (3, 1) ∧ { task0 with cancelled := true }.cancelled = true)
    ∧ (let t := { task0 with words := word4 [(29, 7)] }
       7 ∈ taskAwait t.words ∧ ((sX fun x => { x with tokens := [(7, .cancelled)] }).slice 0).token 7 = .cancelled)
    ∧ (s0.slice 0).quiescent 3 none = true
    ∧ (let x := (sX fun x => { x with tblds := [jobT] }).slice 0
       x.tblds.find? (fun j => j.act == true && j.tabl == 2) = some jobT ∧ x.bankHeld true 2 = false)
    ∧ isGlobal 0 = true ∧ isGlobal 0xFFF0000000000000 = false ∧ flipImage 0 = true := by decide +kernel

/-! ### Witnesses: the radiance engine and the Gibbs array -/

def radE (c : RadCmd) : RadEntry := { order := 5, cmd := c, vf := 0, cu := 0, issuer := r0 }
def sRad (r : Radiance) (s : State := s0) : State := s.modSlice 0 fun x => { x with radiance := r }
def rad0 : Radiance :=
  { config := some (parseRad radBytes), published := List.replicate (parseRad radBytes).params 0, shadow := List.replicate (parseRad radBytes).params 0,
    owner := some (0, r0), slots := [(0, { committed := true, features := List.replicate 14 0, targets := List.replicate 3 0 })] }
def gibE (c : GibbsCmd) : GibbsEntry := { id := 3, cmd := c, vf := 0, cu := 0, issuer := r0 }
def sGib (g : Gibbs) (s : State := s0) : State := s.modSlice 0 fun x => { x with gibbs := g }
def ended (r : State × Option (EngErr × DWord)) : Bool := r.2 == none

/-- RadianceAndGibbsSteps: deadlines, steps without committed slots, publishing, reading without a configuration, loads at a misaligned and an aligned
address; sweeps that are over, and clamps of an image of zeros. -/
theorem witness_radiance_steps :
    (deadlinePassed 5 (some 5) = true ∧ deadlinePassed 5 (some 6) = false ∧ deadlinePassed 5 none = false)
    ∧ (((sRad { queue := [radE (.step 2 (some 0))] }).rad 0).queue = [radE (.step 2 (some 0))] ∧ deadlinePassed s0.dtime (some 0) = true
       ∧ (({} : Radiance).slots.any (·.2.committed)) = false)
    ∧ ((sRad { queue := [radE (.pub 3)] }).slice 0).earlierRcq 5 = false
    ∧ ended ((sRad { queue := [radE (.rd 3 0x1000 false)] }).engStream ((radE (.rd 3 0x1000 false)).agent 0 3) 129 0x1000 (({} : Radiance).image false) []) = true
    ∧ ((0x1010 : DWord).toNat % 64 ≠ 0 ∧ (0x1000 : DWord).toNat % 64 = 0)
    ∧ (let s := sMem [(0x1000, radBytes)] s0
       let e := radE (.cfg 3 0x1000 0)
       (match s.engFetch (e.agent 0 3) 0x1000 64 2 with | (s1, .ok b) => s1 == s && radOk b && b == radBytes | _ => false) = true
       ∧ isOk (s.engFetch (e.agent 0 3) (BitVec.ofNat 64 (parseRad radBytes).param) 2 (parseRad radBytes).params).2 = true
       ∧ s.partPoison (e.agent 0 3) (parseRad radBytes).mom (8 * (parseRad radBytes).params) = false
       ∧ ended (s.engStream (e.agent 0 3) (8 * (parseRad radBytes).params) (BitVec.ofNat 64 (parseRad radBytes).mom)
           (List.replicate (8 * (parseRad radBytes).params) 0) []) = true) := by decide +kernel

/-- RadianceAndGibbsSteps: a step over one committed slot of zeros, its moments zero: every gradient is zero. -/
def sStep : State := sRad { rad0 with queue := [radE (.step 1 none)] }
def agStep : Agent := { slice := 0, team := 1, vf := 0, cu := 0, path := .a, id := 0 }
theorem getD_zero (l : List Word) (h : l.all (· == 0) = true) (i : Nat) : l.getD i 0 = 0 := by
  induction l generalizing i with
  | nil => rfl
  | cons x t ih => cases i <;> simp_all
theorem zero_gradients : (gradients (parseRad radBytes) rad0.shadow
    ((isort (fun (a b : Nat × RadSlot) => a.1 ≤ b.1) (rad0.slots.filter (·.2.committed))).map (·.2))).all (· == 0) = true := by decide +kernel
theorem leNat_zeros (n : Nat) : leNat (List.replicate n 0#8) = 0 := by
  induction n with
  | zero => rfl
  | succ n ih => simp [List.replicate_succ, leNat, ih]
theorem zero_moments (n : Nat) : (words4 (List.replicate n 0)).all (· == 0) = true := by
  simp [words4, leNat_zeros]
theorem zero_adam : adamOk (adam (parseRad radBytes) (fmulT 0 (parseRad radBytes).beta1) (fmulT 0 (parseRad radBytes).beta2) 0 0 0 0) = true := by decide +kernel
theorem witness_step_accesses : (sStep.rad 0).queue = [radE (.step 1 none)] ∧ (sStep.rad 0).slots.any (·.2.committed) = true
    ∧ (match (sStep.radCheck 0).engFetch agStep (BitVec.ofNat 64 (parseRad radBytes).mom) 4 (2 * (parseRad radBytes).params) with
      | (s1, .ok b) => b == List.replicate 2456 0 && isOk (s1.engCheck agStep none 4 true (2 * (parseRad radBytes).params) (BitVec.ofNat 64 (parseRad radBytes).mom)).2
      | _ => false) = true := by decide +kernel
theorem witness_optimiser_step (p : Nat) :
    let g := gradients (parseRad radBytes) rad0.shadow ((isort (fun (a b : Nat × RadSlot) => a.1 ≤ b.1) (rad0.slots.filter (·.2.committed))).map (·.2))
    ((List.range p).map fun i => adam (parseRad radBytes) (fmulT rad0.b1t (parseRad radBytes).beta1) (fmulT rad0.b2t (parseRad radBytes).beta2)
      (rad0.shadow.getD i 0) (g.getD i 0) ((words4 (List.replicate 2456 0)).getD i 0) ((words4 (List.replicate 2456 0)).getD (p + i) 0)).all adamOk = true := by
  intro g
  have hs : ∀ i, rad0.shadow.getD i 0 = 0 := fun i => by
    show (List.replicate (parseRad radBytes).params (0 : BitVec 16)).getD i 0 = 0
    simp [List.getD_eq_getElem?_getD, List.getElem?_replicate]; split <;> rfl
  simp only [List.all_map, List.all_eq_true, Function.comp]
  intro i _
  rw [hs, getD_zero g zero_gradients, getD_zero _ (zero_moments _), getD_zero _ (zero_moments _)]
  exact zero_adam

theorem witness_gibbs_steps :
    (let g : Gibbs := { queue := [gibE (.sweep 0 4 0 (r0, 9))] }
     ((sGib g).slice 0).gibbs.queue = [gibE (.sweep 0 4 0 (r0, 9))])
    ∧ (let g : Gibbs := { queue := [gibE (.sweep 1 4 0 (r0, 9))], ent := true, entFailed := some 0 }
       ((({ sGib g with dtime := 1000000 } : State).slice 0).gibbs.entFailed = some 0) ∧ (1 : Nat) ≠ 0 ∧ 0 + 1000000 ≤ ({ sGib g with dtime := 1000000 } : State).dtime)
    ∧ (s0.warp r0 = some w0)
    ∧ ((sGib { queue := [gibE (.cfg 1 16 0 false)] }).slice 0).gibbs.queue = [gibE (.cfg 1 16 0 false)]
    ∧ isOk (s0.imageRead ((gibE (.clmp 0x1000)).agent 0) 0x1000 128).2 = true
    ∧ (((({} : Gibbs).cells.all (fun c => !c.2.bad)) : Bool) = true) := by decide +kernel

/-! ### Witnesses: whole images of the Gibbs array -/

/-- A slice whose TLB maps the 8 MiB from 0, in a memory that lists nothing. -/
def xG : Slice := { x0 with tlb := [{ vf := 0, cu := none, page := 0, size := 0x800000, pa := 0, w := true, x := true, ok := 0, nr := false }] }
def sG : State := { State.reset with slices := [xG] }
def agG : Agent := { slice := 0, team := 1, vf := 0, cu := 0, path := .a, id := 3 }

theorem engLoc_mapped (s : State) (hs : s.slices = [xG]) (hk : s.kickVa = []) (a n : Nat) (wr : Bool) (ha : a < 0x800000) (hn : a % n = 0) :
    s.engLoc agG none (BitVec.ofNat 64 a) n wr = (s, .ok (.glob a 0)) := by
  have h1 : (BitVec.ofNat 64 a).toNat = a := by simp; omega
  have h2 : a / 2 ^ 48 = 0 := by omega
  have h3 : a % 2 ^ 48 = a := by omega
  have h4 : s.slice 0 = xG := by simp [State.slice, hs]
  have h5 : (agG.view s).cur.slice = 0 := rfl
  have h6 : tlbFind xG 0 (some (agG.view s).tm.cu) a = some { vf := 0, cu := none, page := 0, size := 0x800000, pa := 0, w := true, x := true, ok := 0, nr := false } := by
    simp [tlbFind, xG, x0, ha]
  have h7 : (agG.view s).tm.vf = 0 := rfl
  have h8 : s.slice agG.slice = xG := h4
  have h9 : (agG.view s).sp.hold = .none := rfl
  simp only [State.engLoc, State.resolve, h1, hn, spaceOf, h2, h3, State.kickAt, hk, kget, h7, h5, State.xlate, h4, h6, h8, h9]
  simp [judge, xG, x0]

theorem readN_empty (a n : Nat) : ({} : Memory).readN a n = 0 := by
  induction n generalizing a with
  | zero => rfl
  | succ n ih => simp [Memory.readN, ih, Memory.read, cellAt, Memory.init]

theorem engRead_zero (a : Nat) (ha : a < 0x800000) (hn : a % 64 = 0) : sG.engRead agG (BitVec.ofNat 64 a) 64 = (sG, .ok 0) := by
  have h : sG.phys a false = .mem a := by exact if_pos (show a < 0x6000000000 by omega)
  have h1 : sG.mem = {} := rfl
  simp [State.engRead, engLoc_mapped sG rfl rfl a 64 false ha hn, State.readLoc, State.physRead, h, h1, readN_empty]

theorem leBytes_zero (n : Nat) : leBytes n 0 = List.replicate n 0#8 := by
  apply List.ext_getElem <;> simp [leBytes]

theorem readChunks_zero (k : Nat) : ∀ i a : Nat, a + 64 * k ≤ 0x800000 → a % 64 = 0 →
    sG.readChunks agG (BitVec.ofNat 64 a) k i = (sG, .ok (List.replicate k (List.replicate 64 0#8))) := by
  induction k with
  | zero => intros; rfl
  | succ k ih =>
    intro i a ha hn
    have hs : BitVec.ofNat 64 a + 64 = BitVec.ofNat 64 (a + 64) := by rw [BitVec.ofNat_add]; rfl
    rw [State.readChunks, engRead_zero a (by omega) hn]
    simp only [hs, ih (i + 1) (a + 64) (by omega) (by omega)]
    rw [leBytes_zero]; simp only [List.replicate_succ (n := k)]

theorem engCheck_mapped (k : Nat) (wr : Bool) : ∀ a : Nat, a + 64 * k ≤ 0x800000 → a % 64 = 0 →
    ∃ xs, sG.engCheck agG none 64 wr k (BitVec.ofNat 64 a) = (sG, .ok xs) := by
  induction k with
  | zero => exact fun _ _ _ => ⟨[], rfl⟩
  | succ k ih =>
    intro a ha hn
    have hs : BitVec.ofNat 64 a + BitVec.ofNat 64 64 = BitVec.ofNat 64 (a + 64) := by rw [BitVec.ofNat_add]
    obtain ⟨xs, hx⟩ := ih (a + 64) (by omega) (by omega)
    rw [State.engCheck, engLoc_mapped sG rfl rfl a 64 wr (by omega) hn]
    simp only [hs, hx]
    exact ⟨_, rfl⟩

theorem imageRead_zero (k : Nat) (hk : 64 * k ≤ 0x800000) : sG.imageRead agG 0 k = (sG, .ok (List.replicate k (List.replicate 64 0#8))) := by
  obtain ⟨xs, hx⟩ := engCheck_mapped k false 0 (by omega) rfl
  have hr := readChunks_zero k 0 0 (by omega) rfl
  have h0 : ¬ ((0 : DWord).toNat % 64 ≠ 0 ∨ (!isGlobal 0) = true) := by decide
  rw [State.imageRead, if_neg h0]
  rw [show (0 : DWord) = BitVec.ofNat 64 0 from rfl, hx]
  exact hr
theorem zero_cellOk (i : Nat) : cellOk i (List.replicate 64 0#8) = true := by
  have h : ∀ o n, leNat (((List.replicate 64 0#8).drop o).take n) = 0 := fun o n => by
    rw [List.drop_replicate, List.take_replicate, leNat_zeros]
  unfold cellOk
  simp only [h]
  rfl
theorem zero_cells (n : Nat) : (List.replicate n (List.replicate 64 0#8)).zipIdx.find? (fun b => !cellOk b.2 b.1) = none := by
  rw [List.find?_eq_none]
  intro x hx
  obtain ⟨y, i⟩ := x
  have := List.fst_mem_of_mem_zipIdx hx
  simp only [List.mem_replicate] at this
  simp only [this.2, zero_cellOk, Bool.not_true]; decide
theorem zero_neighbours (n i : Nat) : ((List.replicate n ({} : GCell)).toArray.getD i {}).nbrs = [] := by simp [Array.getD]
theorem zero_clash (n : Nat) : colourClash (List.replicate n ({} : GCell)).toArray = none := by
  have hn : (fun i => ((((List.replicate n ({} : GCell)).toArray.getD i {}).nbrs.filter fun nw =>
      (((List.replicate n ({} : GCell)).toArray.getD nw.1 {}).colour == ((List.replicate n ({} : GCell)).toArray.getD i {}).colour)).map
        fun nw => min i nw.1).min?) = fun _ => none := by
    funext i; rw [zero_neighbours]; rfl
  unfold colourClash
  dsimp only
  rw [hn]
  simp
/-- RadianceAndGibbsSteps: an image of 4 MiB of zeros is read, its cells keep the rules, and no two neighbours share a colour. -/
theorem witness_image_load :
    sG.imageRead agG 0 gibbsCells = (sG, .ok (List.replicate gibbsCells (List.replicate 64 0#8)))
    ∧ (List.replicate gibbsCells (List.replicate 64 0#8)).zipIdx.find? (fun b => !cellOk b.2 b.1) = none
    ∧ colourClash ((List.replicate gibbsCells (List.replicate 64 0#8)).map parseCell).toArray = none := by
  have hp : parseCell (List.replicate 64 0#8) = {} := by decide
  have hg : 64 * gibbsCells ≤ 0x800000 := by decide
  generalize gibbsCells = k at *
  refine ⟨imageRead_zero k hg, zero_cells k, ?_⟩
  rw [List.map_replicate, hp]
  exact zero_clash k

theorem engPerform_keeps (s : State) (n d a : Nat) (ha : a < 0x800000) :
    (s.engPerform agG n d (.glob a 0)).slices = s.slices ∧ (s.engPerform agG n d (.glob a 0)).kickVa = s.kickVa := by
  have h : ∀ s : State, s.phys a true = .mem a := fun s => if_pos (show a < 0x6000000000 by omega)
  have h1 : ¬ sysBase ≤ a := by show ¬ 0x800000000000 ≤ a; omega
  have h2 : ¬ hostBase ≤ a := by have : hostBase = 2 ^ 44 := by decide
                                 omega
  have hp : s.engPerform agG n d (.glob a 0) = s.memPut a (leBytes n d) (agG.view s).writer := by
    simp [State.engPerform, State.writeLoc, State.acceptSO, State.noteAccess, State.post1, State.physWrite, h, h1, h2]
  obtain ⟨_, _, _, _, _, _, e⟩ := memPut_frame s a (leBytes n d) (agG.view s).writer
  rw [hp, e]
  exact ⟨rfl, rfl⟩

/-- RadianceAndGibbsSteps: a write of an image of any bytes at a mapped, aligned address meets no failure. -/
theorem witness_image_write (n : Nat) : ∀ (s : State) (a : Nat) (b : List Byte) done, s.slices = [xG] → s.kickVa = [] → a % 2 = 0 →
    (64 ≤ b.length → a % 64 = 0) → a + b.length ≤ 0x800000 → (s.engStream agG n (BitVec.ofNat 64 a) b done).2 = none := by
  induction n with
  | zero => intros; rfl
  | succ n ih =>
    intro s a b done hs hk h2 h64 hl
    rw [State.engStream]
    split
    · rfl
    · rename_i hb
      have hb : 0 < b.length := by cases b <;> simp_all
      have hg : isGlobal (BitVec.ofNat 64 a) = true := by
        have h1 : (BitVec.ofNat 64 a).toNat = a := by simp; omega
        simp only [isGlobal, h1]; simp; omega
      simp only [hg, if_true]
      by_cases hc : 64 ≤ b.length
      · simp only [ge_iff_le, hc, if_true, engLoc_mapped s hs hk a 64 true (by omega) (h64 hc)]
        have := engPerform_keeps s 64 (leNat (b.take 64)) a (by omega)
        rw [← BitVec.ofNat_add, if_neg (by simp [State.engAwaits, Loc.isSO])]
        exact ih _ (a + 64) _ _ (this.1.trans hs) (this.2.trans hk) (by omega) (by intro; omega) (by simp; omega)
      · simp only [ge_iff_le, hc, if_false, engLoc_mapped s hs hk a 2 true (by omega) h2]
        have := engPerform_keeps s 2 (leNat (b.take 2)) a (by omega)
        rw [← BitVec.ofNat_add, if_neg (by simp [State.engAwaits, Loc.isSO])]
        by_cases h1 : b.length = 1
        · have : b.drop 2 = [] := by simp; omega
          rw [this]
          cases n <;> rfl
        · exact ih _ (a + 2) _ _ (this.1.trans hs) (this.2.trans hk) (by omega) (by simp; omega) (by simp; omega)

/-- RadianceAndGibbsSteps: a seeded sweep stops at no phase. -/
theorem witness_sweep (slice : Nat) (fails : Nat → Bool) (n : Nat) : ∀ (g : Gibbs) (c : Nat) (a : Array GCell), g.ent = false → (phases g slice fails n c a).2.2 = none := by
  induction n with
  | zero => intros; rfl
  | succ n ih =>
    intro g c a h
    simp only [phases, h, Bool.false_and]
    exact ih _ _ _ rfl

/-! ### Witnesses: stops, restores, translation -/

/-- Two-level page tables with a 2 MiB leaf at 0 (root 0x3000, 0x4000, 0x5000), for function 0. -/
def sPte (leaf : Nat) (fmode : Bool) : State :=
  sMem [(0x3000, le 8 0x4001), (0x4000, le 8 0x5001), (0x5000, le 8 leaf)] { s0 with xl := [(0, { root := 0x3000, fmode := fmode })] }
def ent0 : FaultEnt := { id := 4, page := 0, path := .c, write := false, fetch := false, sub := 0, held := 1, cu := 0, vf := 0, dtime := 0, waiters := [7] }

/-- TranslationSteps: a team that can stop, a warp not in a run, a saved team with room, a scratchpad nothing holds; a fault entry; walks that find a leaf,
a replayable fault; an invalidation under way, a block that is free. -/
theorem witness_translation :
    ((s0.slice 0).team 1 = some t0 ∧ s0.stoppable 0 t0 = true ∧ s0.saveFits 0 t0 = true ∧ 0 < s0.slices.length)
    ∧ (((s0.slice r0.slice).anyTeam r0.team).bind (·.warp r0.warp) = some w0 ∧ w0.ended = false ∧ w0.inRun = false ∧ s0.warp r0 = some w0)
    ∧ (let s := sX fun x => { x with teams := [], saved := [t0] }
       (s.slice 0).saved.find? (·.id == 1) = some t0 ∧ t0.halted = false ∧ (s.slice 0).drain < 2 ∧ (pickCu (s.rooms 0 t0.need []) t0.need).isSome = true)
    ∧ s0.scratchHeld 0 2 = false
    ∧ ((sX fun x => { x with faults := [ent0] }).slice 0).faults.find? (·.id == 4) = some ent0 ∧ t0.vf = ent0.vf ∧ t0.warp 0 = some w0
    ∧ ((sPte 0xF false).slice 0).running.getD ((sPte 0xF false).slice 0).vf = 0
    ∧ walk (sPte 0xF false) 0 (0x12345 % 2 ^ 48) = .leaf 0 0x200000 0 true true 0 false
    ∧ walk (sPte 0 true) 0 (0x12345 % 2 ^ 48) = .fault 0 false ∧ (0 : Nat) ≠ 5 ∧ ((kget (sPte 0 true).xl 0).getD {}).fmode = true
    ∧ (((sPte 0 true).slice 0).faults.any fun e => e.page == 0x12000 && e.path == .c && e.vf == 0) = false ∧ ((sPte 0 true).slice 0).faults.length < 4096
    ∧ ((kget (sPte 0 true).xl 0).getD {}).busy = false
    ∧ ((kget ({ s0 with xl := [(0, { busy := true })] } : State).xl 0).getD {}).busy = true := by decide +kernel

/-! ### The image of a save area (R389-R391) -/

/-- A team saved with one register of 16 live, and a mark in its scratchpad. -/
def tSaved : Team :=
  let w : Warp := { n := 16, vregs := (List.replicate 16 {}).set 3 { words := List.replicate 32 7 }, trapvec := 0x10034, fpctl := 5,
                    origlane := (List.range 32).map fun l => BitVec.ofNat 32 l,
                    front := [{ sp0 with parts := [{ entry := 0x10004, mask := -1, livein := some [⟨3, 1⟩] }] }] }
  { t0 with n := 16, scratchSize := 256, scratch := t0.scratch.writeBytes 9 [0xAB], warps := [w.restart], halted := true }
def sSaved : State := sX fun x => { x with teams := [], saved := [tSaved], saveTime := 0x55 }

/-- MAGIC, VERSION, SAVETIME and END of the header; KIND and SIZE of the team record and of the warp record; the register's words. -/
theorem test_save_image :
    ([0, 4, 16, 24, 32].map fun o => leNat ((List.range 8).map fun k => sSaved.saveByte 0 (o + k))) =
        [0x1_64165A5E, 1, 0x55, 2, 4096 + 320 + 1152]
    ∧ ([4096, 4160 + 8, 4416, 4416 + 640, 4416 + 1024, 4416 + 1148].map fun o => leNat ((List.range 8).map fun k => sSaved.saveByte 0 (o + k))) =
        [2 + 320 * 2 ^ 32, 0xAB00, 1 + 1152 * 2 ^ 32, 8, 7 + 7 * 2 ^ 32, 7] := by decide +kernel
/-- A warp record whose FPCTL is written gives a warp with it; a team whose record's KIND is written is broken. -/
theorem test_save_edits :
    ((tSaved.warps.head?).bind fun w => (readWarp w 0 4096 0 ((w.record 0 4096).set 28 9)).map (·.fpctl)) = some 9
    ∧ (sSaved.editImage 0 tSaved [(4096, 3)]).broken = true := by decide +kernel

/-- TranslationSteps, the stops. -/
theorem witness_stops :
    s0.saveFits 0 t0 = true ∧ (sX fun x => { x with saved := List.replicate 16384 t0 }).saveFits 0 t0 = false
    ∧ (w0.flights.all (·.commit) = true ∧ w0.ended = false ∧ w0.savedRegs.getD 4 false = true
      ∧ ({ w0 with front := [{ sp0 with parts := [{ entry := 0x10004, mask := -1, livein := some [] }] }] } : Warp).savedRegs.getD 4 false = false)
    ∧ tSaved.halted = true ∧ (sSaved.slice 0).saved = [tSaved] ∧ ({ t0 with broken := true } : Team).broken = true := by decide +kernel

/-- SaveImage: a record with registers and no sections. -/
theorem witness_save_image : ∀ w ∈ tSaved.warps, w.splitField.length ≤ 512 ∧ w.sregs.length = 64 ∧ w.preds.length = 7 ∧ w.hasHits = false
    ∧ w.hasStack 0 = false ∧ (∀ n, n < w.n → (w.vget n).words.length = 32) ∧ 0 < w.kept.length ∧ w.kept.getD 0 0 < w.n ∧ ∀ n ∈ w.kept, n < w.n := by
  decide +kernel

/-! ### The litmus cases (09) -/

/-- A split of a team of slice 0 of device 0, on its own in it. -/
def lp (k : Nat) : Party := .split 0 0 k 0 0
def sto (k loc : Nat) (e : MemEvent := { party := lp k, act := .write }) : MemEvent := { e with party := lp k, act := .write, loc := loc }
def lod (k loc : Nat) (e : MemEvent := { party := lp k, act := .read }) : MemEvent := { e with party := lp k, act := .read, loc := loc }
def mk (a : Act) : MemEvent := { party := lp 0, act := a }
def eRel : MemEvent := { mk .write with rel := true }
def eAcq : MemEvent := { mk .read with acq := true }
def eTeam (e : MemEvent) : MemEvent := { e with scope := .team }
def eSys (e : MemEvent) : MemEvent := { e with scope := .sys }
def eUo (e : MemEvent) : MemEvent := { e with kind := .uo }
def eSo (e : MemEvent) : MemEvent := { e with kind := .so }
def eOn (p : Path) (e : MemEvent) : MemEvent := { e with path := p }
def eNames (l : List Path) (e : MemEvent) : MemEvent := { e with paths := l }
def fen (k : Nat) (acq rel : Bool) (l : List Path := []) : MemEvent := { party := lp k, act := .fence, acq := acq, rel := rel, paths := l }
/-- A command of P0, and the start of it at an engine of slice 0. -/
def cmd (k : Nat) (p : Path) : MemEvent := { party := lp k, act := .mark, rel := true, paths := [p] }
def start (p : Path) : MemEvent := { party := .engine 0 0 2, act := .mark, acq := true, path := p }
def eng (a : Act) (loc : Nat) (p : Path) (deps : List Nat := []) : MemEvent := { party := .engine 0 0 2, act := a, loc := loc, path := p, deps := deps }
def waits (k : Nat) (l : List Nat) : MemEvent := { party := lp k, act := .mark, obs := l }

/-- Case 1, its variants in order: x is location 1, y location 2. -/
theorem test_message_passing :
    ([allowed [sto 0 1, sto 0 2 eRel, lod 1 2 eAcq, lod 1 1] [none, none, some 1, none],
      allowed [sto 0 1, sto 0 2, lod 1 2 eAcq, lod 1 1] [none, none, some 1, none],
      allowed [sto 0 1, sto 0 2 (eTeam eRel), lod 1 2 (eTeam eAcq), lod 1 1] [none, none, some 1, none],
      allowed [sto 0 1 (eUo (mk .write)), sto 0 2 eRel, lod 1 2 eAcq, lod 1 1 (eUo (mk .read))] [none, none, some 1, none],
      allowed [sto 0 1 (eUo (mk .write)), fen 0 false true, sto 0 2 eRel, lod 1 2 eAcq, lod 1 1 (eUo (mk .read))] [none, none, none, some 2, none]])
    = [false, true, true, true, false] := by decide +kernel
/-- Cases 2 and 3. -/
theorem test_store_buffering_and_readers :
    ([allowed [sto 0 1 eRel, lod 0 2 eAcq, sto 1 2 eRel, lod 1 1 eAcq] [none, none, none, none],
      allowed [sto 0 1 eRel, fen 0 true true, lod 0 2 eAcq, sto 1 2 eRel, fen 1 true true, lod 1 1 eAcq] [none, none, none, none, none, none],
      allowed [sto 0 1 (eSo (mk .write)), lod 0 2 (eSo (mk .read)), sto 1 2 (eSo (mk .write)), lod 1 1 (eSo (mk .read))] [none, none, none, none]]
     ++ ([eAcq, mk .read].map fun r =>
      allowed [sto 0 1, sto 1 2, lod 2 1 r, lod 2 2 r, lod 3 2 r, lod 3 1 r] [none, none, some 0, none, some 1, none])
     ++ [allowed [sto 0 1 (eSo (mk .write)), sto 1 2 (eSo (mk .write)), lod 2 1 (eSo (mk .read)), lod 2 2 (eSo (mk .read)),
                  lod 3 2 (eSo (mk .read)), lod 3 1 (eSo (mk .read))] [none, none, some 0, none, some 1, none]])
    = [true, false, false, false, true, false] := by decide +kernel
/-- Case 4, and case 8 with its variant through a texture. -/
theorem test_cumulativity_and_coherence :
    [allowed [sto 0 1, lod 1 1, { sto 1 2 eRel with deps := [1] }, lod 2 2 eAcq, lod 2 1] [none, some 0, none, some 2, none],
     allowed [sto 0 1, sto 0 1, lod 1 1, lod 1 1] [none, none, some 1, some 0],
     allowed [sto 0 1, sto 0 1, lod 1 1, lod 1 1 (eOn .g (mk .read))] [none, none, some 1, some 0]]
    = [false, false, true] := by decide +kernel
/-- Case 5, its variants in order: the buffer is location 1, f location 2. -/
theorem test_copy_released :
    ([allowed [cmd 0 .x, start .x, eng .write 1 .x, waits 0 [2], sto 0 2 (eNames [.x] eRel), lod 1 2 eAcq, lod 1 1] [none, none, none, none, none, some 4, none] [(0, 1)],
      allowed [cmd 0 .x, start .x, eng .write 1 .x, waits 0 [2], sto 0 2 eRel, lod 1 2 eAcq, lod 1 1] [none, none, none, none, none, some 4, none] [(0, 1)],
      allowed [cmd 0 .x, start .x, eng .write 1 .x, sto 0 2 (eNames [.x] eRel), lod 1 2 eAcq, lod 1 1] [none, none, none, none, some 3, none] [(0, 1)],
      allowed [cmd 0 .x, start .x, eng .write 1 .x, waits 0 [2], fen 0 false true [.x], sto 0 2, lod 1 2 eAcq, lod 1 1]
        [none, none, none, none, none, none, some 5, none] [(0, 1)]])
    = [false, true, true, false] := by decide +kernel
/-- Case 6, its outcomes in order: A is location 1, f location 2, the output location 3. -/
theorem test_matrix_path :
    let run := fun (f : List MemEvent) (a : Option Nat) =>
      let evs := [sto 0 1, sto 0 2 eRel, lod 1 2 eAcq, cmd 1 .m, start .m, eng .read 1 .m, eng .write 3 .m [5], waits 1 [6]] ++ f ++ [lod 1 3]
      allowed evs ([none, none, some 1, none, none, a, none, none] ++ (f.map fun _ => none) ++ [none]) [(3, 4)]
    [allowed [sto 0 1, sto 0 2 eRel, lod 1 2 eAcq, cmd 1 .m, start .m, eng .read 1 .m] [none, none, some 1, none, none, none] [(3, 4)],
     run [fen 1 true false [.m]] (some 0), run [] (some 0), run [fen 1 true false] (some 0)] = [false, false, true, true] := by decide +kernel
/-- Case 7, its variants in order, and case 9 with its variant. -/
theorem test_fabric_and_registers :
    let p1 : Party := .split 1 0 0 0 0
    let run := fun (w r : MemEvent) => allowed [sto 0 1 (eOn .f (mk .write)), sto 0 2 (eOn .f w), { lod 1 2 r with party := p1 }, { lod 1 1 with party := p1 }]
      [none, none, some 1, none]
    let w1 : Party := .split 0 0 0 1 0
    let reg := fun (r : MemEvent) => allowed ([sto 0 1, sto 0 2 (eTeam eRel), { lod 1 2 r with party := w1 }, { lod 1 1 with party := w1 }].map
      fun e => { e with global := false }) [none, none, some 1, none]
    [run (eSys eRel) (eSys (eNames [.f] eAcq)), run (eSys eRel) (eSys eAcq), run eRel (eSys (eNames [.f] eAcq)), reg (eTeam eAcq), reg (mk .read)]
    = [false, true, true, false, true] := by decide +kernel
/-- OrderedReads: a message passed, a copy observed and released, two reads of one location, parties of one device. -/
theorem witness_ordered_reads :
    (let x : Execution := { evs := [sto 0 1, sto 0 2 eRel, lod 1 2 eAcq, lod 1 1], from_ := [none, none, some 1, some 0], co := [0, 1] }
     x.admitted && x.po 0 1 && x.po 2 3 && (x.ev 1).covers (x.ev 0).path && x.readsFrom 2 1 && (x.ev 2).covers (x.ev 1).path && (x.ev 1).holds (lp 1)
        && (x.ev 2).holds (lp 0) && (x.ev 2).covers (x.ev 3).path && !(x.ev 0).plainUo && !(x.ev 3).plainUo && (x.ev 0).loc == (x.ev 3).loc) = true
    ∧ (let x : Execution := { evs := [eng .write 1 .x, waits 0 [0], sto 0 2 (eNames [.x] eRel), lod 1 2 eAcq, lod 1 1],
                              from_ := [none, none, none, some 2, some 0], co := [0, 2] }
       x.admitted && x.po 1 2 && x.po 3 4 && (x.ev 1).obs.contains 0 && (x.ev 2).paths.contains .x && x.readsFrom 3 2 && (x.ev 3).covers (x.ev 2).path
        && (x.ev 2).holds (lp 1) && (x.ev 3).holds (lp 0) && (x.ev 3).covers (x.ev 4).path && (x.ev 0).path != .c) = true
    ∧ (let x : Execution := { evs := [sto 0 1, sto 0 1, lod 1 1, lod 1 1], from_ := [none, none, some 0, some 1], co := [0, 1] }
       x.admitted && x.po 2 3) = true
    ∧ (lp 0).dev = some 0 ∧ (lp 1).dev = some 0 ∧ lp 0 ≠ lp 1 := by decide +kernel

/-! ### Witnesses: queues, packets, placement -/

def raw (k fl node : Nat) (rest : List Byte) : List Byte := le 1 k ++ le 1 fl ++ le 1 0 ++ le 1 node ++ le 12 0 ++ rest
def krec (warps regs : Nat) : List Byte := le 8 0x10004 ++ le 8 0x10034 ++ le 2 warps ++ le 2 regs ++ le 4 0 ++ le 40 0
def rawLaunch (total fl : Nat) : List Byte := raw 1 0 0 (le 8 0x2000 ++ le 4 total ++ le 1 fl ++ le 1 255 ++ le 34 0)
def head0 (_ : Nat) (raw : List Byte) : Head := { idx := 5, raw := raw, args := some [], recs := some [krec 1 32] }
def que0 (h : Head) : Queue :=
  { en := true, pkts := [{ idx := 5, kind := pktKind h.raw, frame := some 2, frameno := 7, cmpl := false, caddr := 0 }], head := some h,
    frames := [{ seq := 2, deadline := 0, frameno := 7 }] }
def sQ (y : Queue) (s : State := s0) : State := s.modSlice 0 fun x => { x with queues := [(3, y)] }
/-- The packet stands taken at the head of queue 3 and may start. -/
def atHead (h : Head) (kind : Nat) (s : State := s0) : Bool :=
  let t := sQ (que0 h) s
  ((t.slice 0).queue 3).head == some h && pktKind h.raw == kind && (t.slice 0).ready 3 h
/-- A render descriptor (13 R316): 64 by 64 pixels, 1 MiB of bin memory. -/
def rdesc : List Byte :=
  le 16 0 ++ le 4 0 ++ le 2 64 ++ le 2 64 ++ le 24 0 ++ le 8 0x8000 ++ le 4 0x100000 ++ le 4 0 ++ le 8 0 ++ le 16 0 ++ le 2 64 ++ le 2 64 ++ le 164 0
def headR : Head := { idx := 5, raw := raw 2 0 0 (le 8 0x2000 ++ le 4 1 ++ le 36 0), args := some [], recs := some [rdesc, krec 1 32, krec 2 32] }
def waitRaw (cond : Nat) : List Byte := raw 4 0 0 (le 8 0x7000 ++ le 8 0 ++ le 1 cond ++ le 15 0)
def sigRaw (op : Nat) : List Byte := raw 5 0 0 (le 8 0x7000 ++ le 8 9 ++ le 1 op ++ le 15 0)
def readable (q : Option (Nat × Nat)) : Bool := match q with | some (a, n) => isOk (s0.escRead 0 3 a n).2 | none => false
def needOf (h : Head) : Launch := { id := 0, queue := 3, kind := .packet, krec := parseK ((h.recs.getD []).getD 0 []), total := fieldAt h.raw 24 4, co := nbit (byteAt h.raw 28) 0 }

/-- PlacementSteps, the packets: kicks; a kind above 7; launches that fit, that fit no empty CU, co-launched sets that fit and that do not, records
unread; a render; the other kinds; a completion without and with a record. -/
theorem witness_packets :
    (hiWord 16 = 0 ∧ (s0.slice 0).tsh = false ∧ (s0.slice 0).st ≠ 3)
    ∧ (let s := sMem [(0x4000, raw 9 0 0 (le 48 0))] (sQ { en := true, base := 0x4000, wridx := 1 })
       (match s.escRead 0 3 0x4000 64 with | (s1, .ok b) => s1 == s && b == raw 9 0 0 (le 48 0) && 8 ≤ pktKind b | _ => false) = true
         ∧ (s.slice 0).st = 1 ∧ (s.slice 0).drain = 0)
    ∧ (let h := head0 1 (rawLaunch 2 0)
       atHead h 1 = true ∧ pktIcinv h.raw = false ∧ (needOf h).need.fitsEmpty 12 = true ∧ (needOf h).co = false)
    ∧ (let h := head0 1 (rawLaunch 2 1)
       atHead h 1 = true ∧ (needOf h).need.fitsEmpty 12 = true ∧ (needOf h).co = true ∧ (needOf h).coFits 12 = true)
    ∧ (let h := { head0 1 (rawLaunch 13 1) with recs := some [krec 24 256] }
       atHead h 1 = true ∧ (needOf h).need.fitsEmpty 12 = true ∧ (needOf h).co = true ∧ (needOf h).coFits 12 = false)
    ∧ (let h := { head0 1 (rawLaunch 1 0) with recs := some [krec 32 256] }
       atHead h 1 = true ∧ (needOf h).need.fitsEmpty 12 = false ∧ s0.cuCount 0 = 12)
    ∧ atHead { head0 1 (rawLaunch 1 0) with recs := none } 1 = true
    ∧ (atHead headR 2 = true ∧ renderOk rdesc (krec 1 32) (krec 2 32) = true
       ∧ [krec 1 32, krec 2 32].all (fun b => let k := parseK b
           Need.fitsEmpty { warps := k.warps, regs := k.regs, scratch := k.scratch, pin := none } 12) = true)
    ∧ atHead (head0 3 (raw 3 0 0 (le 8 100 ++ le 4 7 ++ le 36 0))) 3 = true
    ∧ ((List.range 4).all fun c => atHead (head0 4 (waitRaw c)) 4) = true ∧ readable (some (0x7000, 8)) = true
    ∧ atHead (head0 5 (sigRaw 0)) 5 = true ∧ atHead (head0 5 (sigRaw 1)) 5 = true ∧ byteAt (sigRaw 1) 32 ≠ 0 ∧ byteAt (sigRaw 0) 32 = 0
    ∧ isOk (s0.escWrite 0 3 0x7000 (leBytes 8 9)).2 = true
    ∧ atHead (head0 6 (raw 6 0 3 (le 48 0))) 6 = true ∧ (parseNode ((raw 6 0 3 (le 48 0)).drop 16)).rsize = 0
    ∧ (parseNode ((raw 6 0 3 (le 26 0 ++ le 1 8 ++ le 21 0)).drop 16)).rsize = 8
    ∧ atHead (head0 7 (raw 7 0 0 (le 8 0x4000 ++ le 8 4 ++ le 8 0x10000 ++ le 2 6 ++ le 22 0))) 7 = true
    ∧ (let p : Pkt := { idx := 5, kind := 1, frame := none, frameno := 0, cmpl := true, caddr := 0x7000, status := some 0 }
       let s := sQ { pkts := [p] }
       ((s.slice 0).queue 3).pkts.find? (fun p => p.idx == 5 && p.status.isSome) = some p ∧ p.caddr % 64 = 0 ∧ isOk (s.escWrite 0 3 p.caddr (p.record 3 s.dtime)).2 = true) := by
  decide +kernel

def lau0 (warps regs total : Nat) (co : Bool) : Launch :=
  { id := 8, queue := 3, kind := .packet, krec := { entry := 0x10004, trapvec := 0, warps := warps, regs := regs, scratch := 0 }, total := total, co := co }
def candIs (s : State) (f : Cand → Bool) : Bool := match (s.slice 0).cand 3 with | some c => f c | none => false
def nrec : NodeRec := { words := List.replicate 8 0, time := 0 }
def rkey : RKey := { target := 0x10004, key := 1, n := 32, trapvec := 0, fpctl := 0, graph := 0, queue := 0 }
def rrec : RRec := { first := 8, words := [], orig := 0, stack := [], launch := 1, time := 0 }

/-- PlacementSteps, the rest: a team of a launch and a saved one to place; a co-launch that fits, one whose team fits no empty slice, one that does not fit
together; a missed frame; timers; a short pool; a load. -/
theorem witness_placement :
    (let s := sX fun x => { x with launches := [lau0 1 32 2 false] }
     (s.slice 0).st = 1 ∧ (s.slice 0).drain < 2 ∧ (s.slice 0).savedRender = none ∧ (s.slice 0).waitingQueues = [3] ∧ ((s.slice 0).queue 3).be = false
       ∧ candIs s (fun c => match c with | .fresh y => y == lau0 1 32 2 false && (s.placeCand 0 c []).isSome | _ => false) = true)
    ∧ (let s := sX fun x => { x with teams := [], saved := [{ t0 with queue := 3 }] }
       (s.slice 0).waitingQueues = [3] ∧ candIs s (fun c => match c with | .saved y => (y == { t0 with queue := 3 }) && (s.placeCand 0 c []).isSome | _ => false) = true)
    ∧ (let s := sX fun x => { x with launches := [lau0 1 32 2 true] }
       (s.slice 0).waitingQueues = [3] ∧ candIs s (fun c => match c with
         | .co y => y.need.fitsEmpty 12 && y.coFits 12 && (s.placeCand 0 c []).isSome | _ => false) = true)
    ∧ (let s := sX fun x => { x with launches := [lau0 32 256 1 true] }
       candIs s (fun c => match c with | .co y => !y.need.fitsEmpty 12 | _ => false) = true)
    ∧ (let s := sX fun x => { x with launches := [lau0 24 256 13 true] }
       candIs s (fun c => match c with | .co y => y.need.fitsEmpty 12 && !y.coFits 12 | _ => false) = true)
    ∧ (let y := que0 (head0 1 (rawLaunch 1 0))
       y.frames.find? (fun f => y.frameBusy f && !f.missed && f.deadline ≤ 0) = some { seq := 2, deadline := 0, frameno := 7 })
    ∧ (let s := { (sX fun x => { x with nodes := [(3, nd0)], nodeRecs := [(3, [nrec])] }) with dtime := 5 }
       kget (s.slice 0).nodes 3 = some nd0 ∧ (kget (s.slice 0).nodeRecs 3).getD [] = [nrec] ∧ nrec.time + nd0.timer ≤ s.dtime)
    ∧ (let s := { (sX fun x => { x with regroup := [(rkey, [rrec])] }) with dtime := 2000 }
       (s.slice 0).regroup[0]? = some (rkey, [rrec]) ∧ kget (s.slice 0).regroup rkey = some [rrec] ∧ rrec.time + (s.slice 0).rgtim ≤ s.dtime)
    ∧ (((sHold .pool).slice 0).poolShort = true)
    ∧ (let s := sX fun x => { x with nodes := [(3, nd0)], loads := [.node 3 [nrec]] }
       let y := (s.slice 0).loadLaunch s.nextId (.node 3 [nrec])
       (s.slice 0).loads = [.node 3 [nrec]] ∧ (pickCu (s.rooms 0 y.need []) y.need).isSome = true) := by decide +kernel

/-- A queue with a deadline has a team for CU 0 that fits only where team 1 stands. -/
def big : Launch := { lau0 29 256 1 false with pin := some 0, krec := { entry := 0x10004, trapvec := 0, warps := 29, regs := 256, scratch := 20480 } }
def sOut (f : Team → Team := id) (q : Queue := que0 (head0 1 (rawLaunch 1 0))) : State :=
  sX fun x => { x with queues := [(3, q)], launches := [big], teams := x.teams.map f }
/-- Pre-emption and its kin (TranslationSteps): a team whose save for room or a halt is awaited, one that the escapement's choice takes out, a draining slice, one
that stays; records that do not fit; an edited image; a broken one; one queue waiting for a saved team; a restored warp with its lanes in their parts. -/
theorem witness_preemption :
    (∀ why ∈ [SaveFor.stop, .halt, .room], let t := { t0 with saveFrom := some 0, saveFor := why }
      let s := sT fun _ => t
      (s.slice 0).team 1 = some t ∧ s.stoppable 0 t = true ∧ s.saveFits 0 t = true ∧ t.saveFrom ≠ none ∧ t.inRun = false ∧ s.scratchHeld 0 1 = false)
    ∧ (sOut.wantsOut 0 1 = true ∧ (sOut.slice 0).team 1 = some t0 ∧ sOut.stoppable 0 t0 = true ∧ sOut.saveFits 0 t0 = true)
    ∧ (s0.wantsOut 0 1 = false ∧ (s0.slice 0).drain = 0 ∧ 2 ≤ ((sX fun x => { x with drain := 2 }).slice 0).drain)
    ∧ (let s := sX fun x => { x with saved := [{ t0 with id := 7, scratchSize := 0x4000000 }] }
       (s.slice 0).team 1 = some t0 ∧ s.saveFits 0 t0 = false)
    ∧ ((sSaved.slice 0).saved = [tSaved] ∧ tSaved.halted = true ∧ (∀ y ∈ (sSaved.slice 0).saved, y.edits = [] ∧ y.headEdits = []))
    ∧ ({ t0 with broken := true }.broken = true)
    ∧ (let s := sX fun x => { x with teams := [], saved := [t0] }
       (s.slice 0).st = 1 ∧ (s.slice 0).leaving = false ∧ (s.slice 0).waitingQueues = [0] ∧ ((s.slice 0).queue 0).be = false
         ∧ (match (s.slice 0).cand 0 with | some (.saved t) => t == t0 | _ => false) = true)
    ∧ (w0.flights.all (·.commit) = true ∧ (w0.front ++ w0.wait).all (fun p => p.parts.all (fun q => q.mask &&& ~~~p.mask == 0)
        && (List.range 32).all fun l => !bit p.mask l || p.parts.any fun q => bit q.mask l) = true)
    ∧ (let x := task0; x.kdone = 0 ∧ s0.taskHalts 0 { x with eng := some ⟨0, 0, none⟩ } = false) := by decide +kernel

/-- The pages lie unmapped for function 0, whose faults are replayable, or not. -/
def sGone (fmode : Bool) (s : State) : State := ({ s with xl := [(0, { fmode := fmode })] } : State).modSlice 0 fun x => { x with tlb := [] }
def isWait {α : Type} : Except EngErr α → Bool | .error .wait => true | _ => false
/-- PlacementSteps, packets that fail or wait: a kick that is latched or names no queue; a ring slot that can be written; renders that break a rule or
fit no CU; a WAITV already met; words that cannot be accessed. -/
theorem witness_packets_turned_away :
    (((sX fun x => { x with st := 3 }).slice 0).st = 3 ∧ 64 ≤ 64 ∧ hiWord 0x100000001 ≠ 0)
    ∧ (let s := sMem [(0x4000, raw 9 0 0 (le 48 0))] (sQ { en := true, base := 0x4000, wridx := 1 })
       isOk (s.escWrite 0 3 0x4000 [0]).2 = true ∧ (s.escWrite 0 3 0x4000 [0]).1.slices.length = 1)
    ∧ (let d := rdesc.set 16 1
       atHead { headR with recs := some [d, krec 1 32, krec 2 32] } 2 = true ∧ renderOk d (krec 1 32) (krec 2 32) = false)
    ∧ (atHead { headR with recs := some [rdesc, krec 32 256, krec 2 32] } 2 = true ∧ renderOk rdesc (krec 32 256) (krec 2 32) = true
       ∧ Need.fitsEmpty { warps := (parseK (krec 32 256)).warps, regs := (parseK (krec 32 256)).regs, scratch := (parseK (krec 32 256)).scratch, pin := none } 12 = false)
    ∧ atHead { headR with recs := none } 2 = true
    ∧ atHead { head0 4 (waitRaw 0) with met := true } 4 = true
    ∧ (∀ m, atHead (head0 4 (waitRaw 0)) 4 (sGone m s0) = true ∧ isOk ((sQ (que0 (head0 4 (waitRaw 0))) (sGone m s0)).escRead 0 3 0x7000 8).2 = false)
    ∧ (∀ m, atHead (head0 5 (sigRaw 0)) 5 (sGone m s0) = true
        ∧ isWait ((sQ (que0 (head0 5 (sigRaw 0))) (sGone m s0)).escWrite 0 3 0x7000 (leBytes 8 9)).2 = m
        ∧ isOk ((sQ (que0 (head0 5 (sigRaw 0))) (sGone m s0)).escWrite 0 3 0x7000 (leBytes 8 9)).2 = false)
    ∧ (let p : Pkt := { idx := 5, kind := 1, frame := none, frameno := 0, cmpl := true, caddr := 0x7000, status := some 0 }
       isWait ((sGone true (sQ { pkts := [p] })).escWrite 0 3 p.caddr (p.record 3 0)).2 = true) := by decide +kernel

/-- PlacementSteps: pre-emption makes room, and does not; a load that comes next, and one that fits no empty CU. -/
theorem witness_placement_turned_away :
    (let s := sOut
     (s.slice 0).st = 1 ∧ (s.slice 0).savedRender = none ∧ (s.slice 0).waitingQueues = [3] ∧ ((s.slice 0).queue 3).be = false
       ∧ candIs s (fun c => (s.placeCand 0 c []).isNone && s.evicts 0 3 c [] == some [1]) = true)
    ∧ (let s := sOut id {}
       (s.slice 0).waitingQueues = [3] ∧ candIs s (fun c => (s.placeCand 0 c []).isNone && s.evicts 0 3 c [] == none) = true)
    ∧ (let s := sX fun x => { x with nodes := [(3, { nd0 with queue := 3 })], loads := [.node 3 [nrec]] }
       let y := (s.slice 0).loadLaunch s.nextId (.node 3 [nrec])
       y.need.fitsEmpty (s.cuCount 0) = true ∧ y.queue = 3 ∧ (s.slice 0).waitingQueues = [3] ∧ ((s.slice 0).queue 3).be = false
         ∧ candIs s (fun c => match c with | .load k z => k == 0 && z == (s.slice 0).loadLaunch 0 (.node 3 [nrec]) | _ => false) = true
         ∧ (pickCu (s.rooms 0 y.need []) y.need).isSome = true)
    ∧ (let s := sX fun x => { x with nodes := [(3, { nd0 with teamw := 32, regs := 256 })], loads := [.node 3 [nrec]] }
       ((s.slice 0).loadLaunch s.nextId (.node 3 [nrec])).need.fitsEmpty (s.cuCount 0) = false) := by decide +kernel

/-! ### Witnesses: rendering and the encoder lane -/

/-- A render of one block of one tile, and its state with the tile in a state. -/
def ren8 : Render := { ren0 with width := 8, height := 8, vxs := 0x3F800000, vys := 0x3F800000, clearDepth := 0x3F800000, geoLaunch := 99 }
def tile8 (st : TileSt) : RTile := { num := 0, st := st }
def sRen (r : Render) : State := sX fun x => { x with teams := [], render := some r }
def renT (u : RTile) : Render := { ren8 with tiles := [u] }
def tileAt (s : State) (st : TileSt) (r : Render) (u : RTile) : Bool := (s.slice 0).render == some r && r.tiles.find? (fun v => v.num == 0 && v.st == st) == some u
/-- The triangle (0, 0), (16, 0), (0, 16), binned and as a payload. -/
def tri : Prim := { xs := [0, 0x41800000, 0], ys := [0, 0, 0x41800000], zs := [0, 0, 0], ws := List.replicate 3 0x3F800000, order := 1, ref := 0, tiles := [0] }
def triSlot : Payload :=
  { state := .draining, vtx := [(0, [0, 0, 0, 0, 0x3F800000]), (1, [0, 0x41800000, 0, 0, 0x3F800000]), (2, [0, 0, 0x41800000, 0, 0x3F800000])],
    prims := [(0, [0, 0x20100, 1])], nv := some 0 }
def ids8 : List IdEnt := List.replicate 8 { depth := 0x3F800000, order := 0xFFFFFFFF, ref := 0xFFFFFFFF }

/-- EncoderSteps, the render: a slot with one primitive; the last batch; a partial render that is over; tiles in each state. -/
theorem witness_rendering :
    (let s := (sRen ren8).modSlice 0 fun x => { x with payloads := [(5, triSlot)] }
     (s.slice 0).renderDead ren8 = false ∧ ren8.partialRun = false ∧ ren8.lastBatch = false ∧ (s.slice 0).nextSlot = some (1, 1, 0) ∧ (s.slice 0).payload 1 1 = triSlot
     ∧ (match s.binSlot 0 triSlot (maxOf (triSlot.prims.map (·.1))) 257 0 with
        | (s1, .done) => ((s1.slice 0).render.map (·.prims.length)) == some 1 | _ => false) = true)
    ∧ (let s := sRen ren8
       (s.slice 0).renderDead ren8 = false ∧ ren8.reading = none ∧ (s.slice 0).nextSlot = none ∧ (s.slice 0).geometryOver ren8 = true)
    ∧ ({ ren8 with partialRun := true, tiles := [tile8 .idle] }.tiles.all (fun t => !t.due && !t.active) = true)
    ∧ (let r := renT (tile8 .loading)
       tileAt (sRen r) .loading r (tile8 .loading) = true ∧ (tile8 .loading).before = false
       ∧ (match (sRen r).loadBlocks (r.agent 0) r.surface r.meta_ r.compressed r.clear (r.surfBlock 0) (r.blocks 0) with
          | (_, some (bs, 0, 0)) => bs.length == 1 | _ => false) = true)
    ∧ (let r := renT (tile8 .resolving)
       tileAt (sRen r) .resolving r (tile8 .resolving) = true
       ∧ isOk ((sRen r).binRead (r.agent 0) (r.binUsed / 4096 + 2) r.binBase r.binUsed).2 = true)
    ∧ (let r := renT (tile8 .shading)
       tileAt (sRen r) .shading r (tile8 .shading) = true ∧ ((sRen r).slice 0).renderDead r = false ∧ ((sRen r).slice 0).launches = [])
    ∧ (let r := { renT (tile8 .writing) with lastBatch := true }
       tileAt (sRen r) .writing r (tile8 .writing) = true ∧ ((sRen r).writeBlocks r (r.agent 0) 0 [] (r.blocks 0)).2.isSome = true)
    ∧ (let r := renT (tile8 .writing)
       tileAt (sRen r) .writing r (tile8 .writing) = true ∧ isOk ((sRen r).rangeWrite (r.agent 0) (r.tileArea + 81920 * 0) []).2 = true) := by decide +kernel
/-- EncoderSteps: the saved entries and pixels of a tile of an earlier batch can be read; a block with a set entry. -/
theorem witness_tile_reload :
    let u := { tile8 .loading with before := true }
    let r := renT u
    tileAt (sRen r) .loading r u = true ∧ isOk ((sRen r).rangeRead (r.agent 0) (r.tileArea + 81920 * 0) 81920).2 = true := by decide +kernel
theorem witness_tile_resolve :
    (let u := { tile8 .resolving with ids := ids8 }
     let r := { renT u with prims := [tri] }
     let ids := r.resolveTile u
     ((r.blocks 0).filter fun b => (List.range 64).any fun m => ((ids[64 * (blockPixel b m).2 + (blockPixel b m).1]?).map (·.set)).getD false) = [0])
    ∧ (let u := tile8 .resolving
       let ids := (renT u).resolveTile u
       (((renT u).blocks 0).filter fun b => (List.range 64).any fun m => ((ids[64 * (blockPixel b m).2 + (blockPixel b m).1]?).map (·.set)).getD false) = []) := by
  decide +kernel

/-- An encoder frame of one tile, announced, taken. -/
def frame8 : EncFrame := { ren8.encFrame with announced := [0] }
def sEnc (e : Encoder) (s : State := s0) : State := s.modSlice 0 fun x => { x with encoder := e }
def enc8 (fs : List EncFrame) : Encoder := { regs := { w := 8, h := 8, rbase := 0x8000 }, frames := fs }
def unit8 (b : List Byte) : List Byte := unitRecord b 7 true false

/-- EncoderSteps: a first unit, which is a key frame; a payload beyond a budget of no bits. -/
theorem witness_unit_refused :
    (enc8 [frame8]).keyNext ≠ false ∧ frame8.inRing = none ∧ (enc8 []).regs.exp = false
    ∧ ({ enc8 [frame8] with regs := { kbps := 0 } } : Encoder).budget < 8 * [(1 : Byte)].length := by
  decide +kernel

/-- EncoderSteps: tiles to announce; a render that can be pre-empted, without and with a team; tiles to take; units with room, without room; records to
send, to a valid flow and to none. -/
theorem witness_encoder :
    (let s := sX fun x => { x with render := some (renT { tile8 .done with announced := false }), encoder := enc8 [{ frame8 with announced := [] }] }
     (s.slice 0).encoder.frames.findIdx? ((s.slice 0).announceable · 0) = some 0)
    ∧ (let s := sRen (renT (tile8 .shading))
       (s.slice 0).render = some (renT (tile8 .shading)) ∧ (renT (tile8 .shading)).tiles.all (fun t => t.st == .idle || t.st == .shading || t.st == .done) = true
         ∧ (s.slice 0).teams.all (fun t => !(t.queue == ren8.queue && t.kind != .plain)) = true)
    ∧ (let tm := { t0 with kind := .shading 0 0 }
       let s := sX fun x => { x with teams := [tm], render := some (renT (tile8 .shading)) }
       (s.slice 0).teams.filter (fun t => t.queue == ren8.queue && t.kind != .plain) = [tm] ∧ s.stoppable 0 tm = true)
    ∧ (let s := sEnc (enc8 [frame8])
       frame8.taken.length < frame8.ntiles ∧ frame8.taken.length ∈ frame8.announced
       ∧ (match s.loadBlocks { slice := 0, team := noTeam, vf := 0, cu := 0xFFFF, path := .e, id := 2 ^ 42 + 0 } frame8.surface frame8.meta_ false 0
            (frame8.block frame8.surfW 0) [0] with
          | (s1, some _) => s1 == s | _ => false) = true)
    ∧ (let f := { frame8 with announced := [], closed := true, damaged := true }
       f.taken.length < f.ntiles ∧ f.taken.length ∉ f.announced)
    ∧ (let f := { frame8 with taken := [(0, [])] }
       let s := sEnc (enc8 [f])
       f.ntiles ≤ f.taken.length ∧ (0 : Word).toNat + (unit8 [1, 2, 3]).length ≤ 2 ^ 20
       ∧ (match s.ringWrite ((s.slice 0).encAgent 0) 0x8000 (2 ^ 20) 1 0 (unit8 [1, 2, 3]) with
          | (s1, .ok _) => (s1.slice 0).encoder == enc8 [f] | _ => false) = true)
    ∧ (2 ^ 4 < (0 - 0 : Word).toNat + (unit8 [1, 2, 3]).length)
    ∧ (let s := sEnc { enc8 [] with toSend := [(0, 64)] } { s0 with flows := [(0, { valid := true, limit := 1400 })] }
       kget s.flows (s.slice 0).encoder.regs.flow = some { valid := true, limit := 1400 }
       ∧ (match s.ringRead ((s.slice 0).encAgent 0) 0x8000 (2 ^ 20) 1 0 with | (s1, .ok _) => s1 == s | _ => false) = true)
    ∧ (kget s0.flows 0).isNone = true := by decide +kernel

/-- EncoderSteps: a render killed before its end, with its tile in each state; bin memory that waits and that is not mapped. -/
theorem witness_render_dead :
    ([TileSt.loading, .resolving, .shading, .writing].all fun st =>
      let r := { renT (tile8 st) with code := 3 }
      ((sRen r).slice 0).renderDead r && tileAt (sRen r) st r (tile8 st)) = true
    ∧ (∀ m, let r := { renT (tile8 .resolving) with binUsed := 64 }
       let s := sGone m (sRen r)
       tileAt s .resolving r (tile8 .resolving) = true ∧ (s.slice 0).renderDead r = false
       ∧ (match (s.binRead (r.agent 0) (r.binUsed / 4096 + 2) r.binBase r.binUsed).2 with
          | .error e => (e == .wait) == m | _ => false) = true)
    ∧ ([TileSt.loading, .resolving, .shading, .writing].all fun st => !((sRen (renT (tile8 st))).slice 0).renderDead (renT (tile8 st))) = true := by
  decide +kernel

/-- EncoderSteps: quantisers in both settings; a record whose stores await markers or not, whose write waits or fails; one that stands in the ring; one that is within no
budget but the expert setting's, one that finds no room for the first time. -/
theorem witness_records :
    (let s := sMem [(0x3000, [7])] s0
     let r : EncRegs := { exp := true, qpm := 0x3000 }
     (match s.engRead { slice := 0, team := noTeam, vf := 0, cu := 0xFFFF, path := .e, id := 2 ^ 42 } (r.qpm + BitVec.ofNat 64 0) 1 with | (_, .ok q) => q == 7 | _ => false) = true)
    ∧ (let f := { frame8 with taken := [(0, [])] }
       let e := enc8 [f]
       f.inRing = none ∧ f.stalled = false ∧ 8 * [1, 2, 3].length ≤ e.budget ∧ e.regs.ringBytes = 2 ^ 20
       ∧ ({ e.regs with log2b := 16 } : EncRegs).ringBytes < (0 - 64 : Word).toNat + (unit8 [1, 2, 3]).length
       ∧ (sEnc e).engMarkers.contains (0, .e, (((sEnc e).slice 0).encAgent 0).id) = false
       ∧ ({ sEnc e with engMarkers := [(0, .e, 2 ^ 42 + 16)] } : State).engMarkers.contains (0, .e, (((sEnc e).slice 0).encAgent 0).id) = true
       ∧ ∀ m, (match ((sGone m (sEnc e)).ringWrite (((sEnc e).slice 0).encAgent 0) 0x8000 (2 ^ 20) 1 0 (unit8 [1, 2, 3])).2 with
          | .error x => (x == .wait) == m | _ => false) = true)
    ∧ (let f := { frame8 with taken := [(0, [])], inRing := some (64, 3) }
       f.ntiles ≤ f.taken.length ∧ f.inRing = some (64, 3)) := by decide +kernel

/-! ### Witnesses: registers, leases, errors, resets, fusing, sharing -/

/-- Sixteen slices after reset, changed by number. -/
def sR (f : Nat → Slice → Slice) : State := { State.reset with slices := State.reset.slices.mapIdx f }
/-- Slices 0 and 1 in service. -/
def s2 : State := sR fun n x => if n < 2 then { x with st := 1 } else x
def lease0 : Lease := { lender := 0, borrower := 1, engs := 5, meter := 100, expiry := 100 }
def sL (l : Lease) (s : State := s2) : State := { s with leases := [(3, l)] }
def single (s : State) (n : Nat) : Bool := n < s.slices.length && s.members n == [n] && (s.slice n).lsl == n

/-- Leases: registers of both states of EN; grants that are good, and bad for each reason; leases in each state; a task of no lease; causes. -/
theorem witness_leases :
    0 < s0.slices.length ∧ (s0.slice 0).counters.length = 7 ∧ ((sQ { en := true }).slice 0).queue 3 = { en := true } ∧ ((s0.slice 0).queue 3).en = false
    ∧ ((sEnc { regs := { en := true } }).slice 0).encoder.regs.en = true
    ∧ ((sL lease0).lease 3 = lease0 ∧ lease0.live = false ∧ (sL lease0).leaseBad 3 lease0 = false ∧ lease0.lender < (sL lease0).slices.length)
    ∧ (let bad := fun (l : Lease) => (sL l).leaseBad 3 l
       [{ lease0 with borrower := 0 }, { lease0 with engs := 0 }, { lease0 with meter := 0 }, { lease0 with expiry := 0 }, { lease0 with lender := 2 },
        { lease0 with borrower := 2 }].all bad = true
       ∧ ({ s2 with leases := [(3, lease0), (4, { lease0 with st := 1, engs := 4 })] } : State).leaseBad 3 lease0 = true)
    ∧ ([1, 2, 3].all fun st => ({ lease0 with st := st } : Lease).live) = true
    ∧ ((sL { lease0 with st := 2, meter := 0 }).lease 3).meter = 0
    ∧ ({ lease0 with expiry := 0 } : Lease).expiry ≤ s2.dtime
    ∧ (let b := s2.slice 1
       b.errDue = [] ∧ b.resetDue = false ∧ (s2.slice 0).resetDue = false ∧ s2.dtime < lease0.expiry)
    ∧ ((sR fun n x => if n = 1 then { x with errDue := [.firmware], resetDue := true } else x).slice 1).errDue ≠ []
    ∧ ((sL { lease0 with st := 3 }).slice 1).leaseTasks 3 = [] := by decide +kernel

/-- Leases: a lease charged for its running task, with clocks left and without. -/
def sLent (meter : Nat) : State :=
  { (sL { lease0 with st := 2, meter := meter } (sR fun n x => if n < 2 then { x with st := 1, tasks := if n = 1 then [{ task0 with eng := some ⟨0, 0, some 3⟩ }] else [] } else x))
    with dtime := 100 }
theorem witness_charges :
    ((sLent 1000).lease 3).meter ≠ 0 ∧ ((sLent 1000).chargeLease 3).lease 3 = { lease0 with st := 2, meter := 790 }
    ∧ ((sLent 200).lease 3).meter ≠ 0 ∧ ((sLent 200).chargeLease 3).lease 3 = { lease0 with st := 2, meter := 0 }
    ∧ (s2.slice (s2.lease 3).borrower).leaseTasks 3 = [] := by decide +kernel

/-- ErrorsAndResets: a slice in service with a poison error due, with no lease; a copy that hangs under both policies; a reset that can begin, that
ends, of a slice that stays and of one that leaves. -/
theorem witness_resets :
    ((s2.slice 0).lsl = 0 ∧ (s2.slice 0).st = 1 ∧ single s2 0 = true ∧ s2.leases = [] ∧ ((sL lease0).leases.map (·.1)).Nodup)
    ∧ (ErrCause.poison 64 ∈ ((sX fun x => { x with errDue := [.poison 64] }).slice 0).errDue ∧ (s0.slice 0).faultLog.length < 256)
    ∧ (let s := { (sChan cmd0 s0) with dtime := 100000000 }
       s.stuckFrom 0 (.hangCopy 0 5) = some 0 ∧ 0 + 1000000 * max 1 (s.slice 0).wdog ≤ s.dtime ∧ (s.slice 0).errpol = false)
    ∧ ((sX fun x => { x with errpol := true }).slice 0).errpol = true
    ∧ (s2.logicalOf 0 = 0 ∧ (s2.slice 0).st ≠ 3 ∧ (s2.slice 0).st ≠ 4)
    ∧ (let s := sR fun n x => if n = 1 then { x with st := 1, resetDue := true } else x
       single s 1 = true ∧ (s.slice 1).resetDue = true ∧ (s.slice 1).st = 1 ∧ s.leases = [])
    ∧ (let s := sR fun n x => if n = 1 then { x with st := 3, leaving := true, quietReset := true } else if n = 2 then { x with st := 3 } else if n = 3 then { x with st := 3, leaving := true } else x
       single s 1 = true ∧ (s.slice 1).st = 3 ∧ (s.slice 1).resetDue = false ∧ (s.slice 1).leaving = true ∧ (s.slice 1).quietReset = true
       ∧ single s 2 = true ∧ (s.slice 2).leaving = false ∧ single s 3 = true ∧ (s.slice 3).leaving = true ∧ (s.slice 3).quietReset = false) := by
  decide +kernel

/-- FusingAndSharing: a pair and four slices that can fuse, a pair that cannot (across dies; one in use), a fused pair, a fusion under way, a split under
way; a free slice; a slice that can be shared, and one at the end of its quantum; functions of slices. -/
theorem witness_fusing :
    (let can := fun (s : State) (n k : Nat) => n / 8 == (n + k - 1) / 8 && n + k ≤ 16 && (List.range k).all fun i =>
        s.fusable (n + i) && (s.slice (n + i)).lsl == n + i && (s.slice (n + i)).fus == 0 && (s.slice (n + i)).vf == (s.slice n).vf
     can s2 0 2 = true ∧ can s2 4 4 = true ∧ can s2 7 2 = false ∧ can (sR fun n x => if n = 1 then { x with vf := 3 } else x) 0 2 = false)
    ∧ (let s := sR fun n x => if n < 2 then { x with lsl := 0, fus := 1, st := 1 } else x
       (s.slice 0).lsl = 0 ∧ (s.slice 0).fus ≠ 0 ∧ s.members 0 = [0, 1] ∧ (s.members 0).all s.fusable = true)
    ∧ ((sR fun n x => if n < 2 then { x with st := 2, fusing := if n = 0 then some 2 else none } else x).slice 0).fusing = some 2
    ∧ (let s := sR fun n x => if n < 2 then { x with lsl := 0, fus := 1, st := 2, fusing := if n = 0 then some 1 else none } else x
       (s.slice 0).fusing = some 1 ∧ 0 ∈ s.members 0)
    ∧ ((s2.slice 5).st = 0 ∧ 5 < s2.slices.length)
    ∧ ((s2.slice 0).tsh = false ∧ (s2.slice 0).vf ∈ ([0, 3] : List Nat))
    ∧ (let x := { x0 with teams := [], tsh := true, sharers := [0, 3], running := some 0, quantum := 500 }
       x.tsh = true ∧ x.lsl = 0 ∧ x.st = 1 ∧ x.quantumFrom + 1000 * x.quantum ≤ 500000 ∧ x.channels = [] ∧ x.tblds = [] ∧ x.tasks = [] ∧ x.render = none)
    ∧ ((s2.slice 0).foreign = false ∧ ({ x0 with vf := 3 } : Slice).foreign = true ∧ ({ x0 with vf := 3 } : Slice).fn = 3)
    ∧ (sR fun n x => if n = 2 then { x with vf := 3, st := 1 } else x).logicalOf 2 = 2 := by decide +kernel

/-! ### Witnesses: the host, the fabric, the device -/

/-- HostFabricAndNetwork: a link up and down; a window of a queue; a host write that reaches memory; slices of a function; imports that admit and do not; a
split that awaits markers; a window of a peer; a grandmaster, with and without an unfinished frame. -/
theorem witness_host :
    (let s := { s0 with linkUp := true, crownOk := true, vfEnable := true }
     s.linkUp = true ∧ s.crownOk = true ∧ s0.crownOk = false ∧ s0.linkUp = false
     ∧ s.window 0 (0x100000 + 0x100000 * 0 + 0x1000 + 64 * 3) = some (0, 0x1000 + 64 * 3)
     ∧ (match s.hostTo 0 0x2000 true with | (s1, .mem pa) => s1 == s && pa == 0x2000 | _ => false) = true
     ∧ (s.sliceList 0)[0]? = some 0)
    ∧ (let e : Import := { valid := true, wr := true, peer := 9, base := 0x10000, size := 0x10000 }
       e.base ≤ 0x10100 ∧ 0x10100 + 8 ≤ e.base + e.size ∧ 0x10100 + 8 ≤ 0x6000000000 ∧ ({ e with wr := false } : Import).admits 9 0x10100 8 true = false)
    ∧ (∀ k, k < 8 → lineOfKey (0x10100 + k) ∉ s0.mem.poison)
    ∧ holds (sHold .marker) .marker = true
    ∧ s0.ports[35]? = some 4
    ∧ ({ s0 with grandmaster := true } : State).grandmaster = true
    ∧ (∀ x ∈ s0.slices, ∀ e ∈ x.queues, e.2.oldest = none)
    ∧ (∃ x ∈ (sQ (que0 (head0 1 (rawLaunch 1 0)))).slices, ∃ e ∈ x.queues, e.2.oldest ≠ none) := by
  refine ⟨by decide +kernel, by decide +kernel, by decide +kernel, by decide +kernel, by decide +kernel, by decide +kernel, by decide +kernel,
    ⟨_, List.mem_singleton.mpr rfl, (3, que0 (head0 1 (rawLaunch 1 0))), by decide +kernel, by decide +kernel⟩⟩

/-- HostFabricAndNetwork: a link with no posted write, and with one; device memory that a host write and a fabric access reach; a ring that is granted to a peer, and not; words that
no queue's ring or kick page holds; a release marker for a team. -/
def imp9 : Import := { valid := true, wr := true, peer := 9, base := 0, size := 0x100000 }
def sFab (acl : List (Nat × BitVec 128)) : State :=
  { (sX fun x => { x with queues := [(3, { en := true, base := 0x4000 })], acl := acl }) with imports := [(0, imp9)] }
theorem witness_fabric :
    (s0.posted = [] ∧ ({ s0 with posted := [{ slice := 0, pa := 0x400000000000, old := [1, 2], writer := none }] } : State).posted
      = [{ slice := 0, pa := 0x400000000000, old := [1, 2], writer := none }] ∧ 0 < s0.slices.length ∧ s0.mem.wf = true)
    ∧ (s0.slice 0).tsh = false
    ∧ ((sFab []).imports.all fun e => e.2.admits 9 0x2000 8 true && !e.2.admits 8 0x2000 8 false) = true
    ∧ ((sFab []).kickPhys 0x2000 = none ∧ (sFab []).ringsAt 0 0x2000 8 = [] ∧ (sFab []).ringsAt 0 0x4000 8 = [3] ∧ ((sFab []).slice 0).grants 9 3 1 = false)
    ∧ (let s := sFab [(0, 3 + 9 * 2 ^ 16 + 8 * 2 ^ 64)]
       s.ringsAt 0 0x4000 8 = [3] ∧ (s.slice 0).grants 9 3 1 = true ∧ s.kickPhys 0x4000 = none)
    ∧ (let s := { sFab [(0, 5 + 9 * 2 ^ 16 + 8 * 2 ^ 64)] with kickVa := [(0, 0x8000)] }
       s.kickPhys 0x8018 = some (0, 0, 24) ∧ (s.slice 0).grants 9 3 2 = true ∧ (s.slice 0).grants 9 4 2 = false)
    ∧ ((sFab []).readBytes 0x2000 (atomBytes .n32)).isSome = true
    ∧ ((s0.slice 0).team 1 = some t0 ∧ t0.warp 0 = some w0) := by decide +kernel

/-- DeviceSteps: a powered device with its crown core running, and one without power; clocks above and at the least; single slices. -/
theorem witness_device :
    (State.reset.powered = true ∧ ({ State.reset with crownOk := true } : State).crownOk = true ∧ 16 ≤ State.reset.slices.length)
    ∧ (({ State.reset with powered := false } : State).powered = false ∧ ({ State.reset with powered := false } : State).railFailed = false)
    ∧ State.reset.mem.home = [] ∧ State.reset.mem.wf = true
    ∧ single State.reset 15 = true ∧ State.reset.leases = []
    ∧ 800 < (State.reset.slice 0).fmhz ∧ State.reset.capWatts < 2201 ∧ 900 ≤ (State.reset.slice 0).clock
    ∧ (List.replicate 64 (0 : Byte)).length = 64 := by decide +kernel

/-! ### Witnesses: the machine as a whole -/

/-- StepRunsTurn: an issue turn whose split's line is cached and decodes; one whose word is illegal; one that awaits its line. -/
def sTurn : State := { s0 with agenda := [(3, .issue 0 0 0)], cur := none }
def cur0 : Cursor := ⟨0, 1, 0, 0⟩
theorem witness_turn :
    (let s1 : State := { sTurn.passTime 3 with agenda := [] }
     (s1.slice 0).fetches.any (fun f => f.cu == 0 && f.seq == 0) = false
     ∧ (match s1.candidates 0 0 0 with | (c, _) :: _ => c == cur0 | _ => false) = true
     ∧ (match ({ s1 with cur := some cur0 } : State).view with
        | some v => (match ({ s1 with cur := some cur0 } : State).fetch v with
          | .line s2 b => b == workedLine && (match s2.decodeAt v b with | .ok i => i.sig.isSome | _ => false) && !runBlocked v b
          | _ => false)
        | none => false) = true)
    ∧ (match step sTurn with | .next t => t.warp r0 != sTurn.warp r0 | _ => false) = true
    ∧ (let bad := le 4 0 ++ le 60 0xFF
       let s := { (sX fun x => { x with icache := [{ cu := 0, pa := 0x10000, bytes := bad }] }) with agenda := [(3, .issue 0 0 0)], cur := some cur0 }
       match s.view with
       | some v => (match s.fetch v with | .line s2 b => (match s2.decodeAt v b with | .bad _ => true | _ => false) | _ => false)
       | none => false) = true
    ∧ ((sX fun x => { x with fetches := [{ cu := 0, seq := 0, pa := 0x10000 }] }).slice 0).fetches.any (fun f => f.cu == 0 && f.seq == 0) = true
    ∧ s0.agenda = [] := by decide +kernel
/-- The worked line with a system release in its fourth slot, by a warp that has sent fabric stores. -/
def relLine : List Byte := workedLine.take 40 ++ le 12 (((encode (.st hN (V 2) (V 8) 0x40 mRel)).map BitVec.toNat).getD 0) ++ workedLine.drop 52
def sRelTurn : State :=
  { (sMark fun w => { w with front := [{ sp0 with pc := 0x10028 }] }).modSlice 0 (fun x => { x with icache := [{ cu := 0, pa := 0x10000, bytes := relLine }] })
    with agenda := [(3, .issue 0 0 0)], cur := none }
/-- StepRunsTurn: an instruction that changes its warp, and a release held for its markers. -/
theorem witness_turn_markers :
    (let s1 : State := { sTurn.passTime 3 with agenda := [], cur := some cur0 }
     (match s1.view with
      | some v =>
        let u := issued s1 v workedLine cur0
        (match exec (.regn ⟨0, 8⟩ ⟨0, 0⟩ ⟨0, 0⟩ ⟨0, 0⟩ false) u with
         | .next t => t.warp v.ref != u.warp v.ref && t.warp v.ref != some (v.wp.awaitingMarker 0 v.sp) | _ => false)
      | none => false) = true)
    ∧ (let s0 : State := { sRelTurn.passTime 3 with agenda := [] }
       (match s0.candidates 0 0 0 with | (c, _) :: _ => c == cur0 | _ => false) = true
       ∧ (match ({ s0 with cur := some cur0 } : State).view with
          | some v => (match ({ s0 with cur := some cur0 } : State).fetch v with
            | .line s1 b => b == relLine && (match s1.decodeAt v b with
              | .ok i => i == .st hN (V 2) (V 8) 0x40 mRel && i.releases
                && (let u := issued s1 v b cur0
                    match exec i u with | .next t => t.warp v.ref != u.warp v.ref && t.warp v.ref == some (v.wp.awaitingMarker 0 v.sp) | _ => false)
              | _ => false) && !runBlocked v b
            | _ => false)
          | none => false) = true)
    ∧ w0.ldaOpen sp0.mask = false
    ∧ (Instr.iadd (hV 4) (V 1) (V 2)).releases = false := by decide +kernel
/-- ClockNeverFalls, MemoryStaysCanonical: the state after reset steps on. -/
theorem witness_step : State.reset.mem.wf = true ∧ (match step { State.reset with agenda := [(3, .event .linkDown)] } with
    | .next t => decide (t.dtime = 3) | _ => false) = true ∧ (∃ i : Instr, i.sig.isSome = true) := ⟨by decide, by decide +kernel, .exit hN, by decide⟩
/-- EncodeThenDecode: an instruction that no check refuses. -/
theorem witness_encoding : (encode (.iadd (hV 4) (V 1) (V 2))).isSome = true ∧ (Instr.iadd (hV 4) (V 1) (V 2)).check 256 = []
    ∧ (Instr.iadd (hV 4) (V 1) (V 2)).wellFormed = true := by decide +kernel

/-! ### Results that the specification works out

The words of these tests stand in the worked examples and tables of spec/; a decimal number of theirs is written as its FP32 word. -/

/-- The warp after an instruction that ends in a next state. -/
def after (i : Instr) (s : State) (p : Warp → Bool) : Bool := match exec i s with | .next t => (match t.warp r0 with | some w => p w | none => false) | _ => false

def conv (t : Ty) (m : RM) (p : Ovp) (x : Word) (b : Nat) (f : Flags) : Bool := let c := convert t m p false (f32 false x); c.bits == b && c.fl == f
/-- 02, FP32 into b8p4se and b8p4sf. -/
theorem test_binary8_conversions : (
[conv (.b8 true true 3) .rne .sat 0x3E99999A 0x32 (16), conv (.b8 false true 3) .rne .sat 0x3E99999A 0x32 (16)].all id
    && [conv (.b8 true true 3) .rne .inf 0x3E99999A 0x32 (16), conv (.b8 false true 3) .rne .inf 0x3E99999A 0x32 (16)].all id
    && [conv (.b8 true true 3) .rne .nan 0x3E99999A 0x32 (16), conv (.b8 false true 3) .rne .nan 0x3E99999A 0x32 (16)].all id
    && [conv (.b8 true true 3) .rup .sat 0xBFC00000 0xC4 (0), conv (.b8 false true 3) .rup .sat 0xBFC00000 0xC4 (0)].all id
    && [conv (.b8 true true 3) .rne .sat 0x436B0000 0x7E (4 + 16 + 32), conv (.b8 false true 3) .rne .sat 0x436B0000 0x7F (16)].all id
    && [conv (.b8 true true 3) .rne .inf 0x436B0000 0x7F (4 + 16), conv (.b8 false true 3) .rne .inf 0x436B0000 0x7F (16)].all id
    && [conv (.b8 true true 3) .rtz .inf 0x436B0000 0x7E (16), conv (.b8 false true 3) .rtz .inf 0x436B0000 0x7E (16)].all id
    && [conv (.b8 true true 3) .rne .nan 0x43960000 0x80 (4 + 16 + 32), conv (.b8 false true 3) .rne .nan 0x43960000 0x80 (4 + 16 + 32)].all id
    && [conv (.b8 true true 3) .rne .sat 0x3A000000 0x00 (8 + 16), conv (.b8 false true 3) .rne .sat 0x3A000000 0x00 (8 + 16)].all id
    && [conv (.b8 true true 3) .rna .sat 0x3A000000 0x01 (8 + 16), conv (.b8 false true 3) .rna .sat 0x3A000000 0x01 (8 + 16)].all id
    && [conv (.b8 true true 3) .rne .sat 0x80000000 0x00 (0), conv (.b8 false true 3) .rne .sat 0x80000000 0x00 (0)].all id
    && [conv (.b8 true true 3) .rne .sat 0x7F800000 0x7F (0), conv (.b8 false true 3) .rne .sat 0x7F800000 0x7F (32)].all id
    && [conv (.b8 true true 3) .rne .sat 0x7FC00000 0x80 (0), conv (.b8 false true 3) .rne .sat 0x7FC00000 0x80 (0)].all id
    && [conv (.b8 true true 3) .rne .inf 0x7FC00000 0x80 (0), conv (.b8 false true 3) .rne .inf 0x7FC00000 0x80 (0)].all id
    && [conv (.b8 true true 3) .rne .nan 0x7FC00000 0x80 (0), conv (.b8 false true 3) .rne .nan 0x7FC00000 0x80 (0)].all id) = true
    ∧ (convert (.b8 true true 3) .rne .trap false (f32 false 0x43960000)).event = true ∧ (convert (.b8 false true 3) .rne .trap false (f32 false 0x43960000)).event = true := by decide +kernel
/-- 02 R66-R68: the segment x 4.0, y 2.0, slope 0.25, reciprocal 4.0, as every segment of a table. -/
def tab0 : List Byte := (List.replicate 16 (le 4 0x40800000 ++ le 4 0x40000000 ++ le 4 0x3E800000 ++ le 4 0x40800000)).flatten
theorem test_companding : (([(0x41200000, 0x40600000, 0x4E, 0x40600000, 0x41200000), (0x41100000, 0x40500000, 0x4D, 0x40500000, 0x41100000), (0x41180000, 0x40580000, 0x4E, 0x40600000, 0x41200000)]
    : List (Word × Word × Nat × Word × Word)).all fun r => curve false (.image tab0) r.1 == (r.2.1, 0) && (convert (.b8 true true 3) .rne .sat false (f32 false r.2.1)).bits == r.2.2.1
      && curve true (.image tab0) r.2.2.2.1 == (r.2.2.2.2, 0)) = true := by decide +kernel
/-- 02 R75-R80: one element, K = 8, in both modes; the exact one split in two tasks, its spill between. -/
def prods0 : List (Fp × Fp) := (([0x47000000, 0x3F800000, 0, 0, 0xC7000000, 0, 0, 0] : List Word).zip [0x47000000, 0x3F800000, 0, 0, 0x47000000, 0, 0, 0]).map
  fun p => (f32 false p.1, f32 false p.2)
theorem test_accumulators : (accRow false 2 0 prods0).1 = 0 ∧ (accRow true 2 0 prods0).1 = 0x00000000000000010000000000000000
    ∧ (accRow true 1 0 (prods0.take 4)).1 = 0x00000000400000010000000000000000 ∧ (accRow true 1 0x00000000400000010000000000000000 (prods0.drop 4)).1 = 0x00000000000000010000000000000000
    ∧ accOut true false 0x00000000000000010000000000000000 = (0x3F800000, 0)
    ∧ leBytes 16 0x00000000400000010000000000000000 = [0, 0, 0, 0, 0, 0, 0, 0, 1, 0, 0, 0x40, 0, 0, 0, 0] := by decide +kernel
/-- 02 R81. -/
theorem test_hash : hash 0 0 = 0 ∧ hash 1 0 = 0xE220A8397B1DCDAF ∧ hash 2 0 = 0x6E789E6AA1B965F4 ∧ hash 0 0x9E3779B97F4A7C15 = hash 1 0 := by decide
/-- 02 R82, R83. -/
theorem test_format_words : fmtBad 0x5EFB = none ∧ fmtBad 0x10005EFB = none ∧ fmtBad 0x40005EFB = some 30 ∧ fmtBad 0x30005EFB = some 28
    ∧ fmtBad 0x5ED3 = some 0 := by decide

/-- 04, a scan where order shows: PART 3, lane 6 inactive; NX is set. -/
def sScan : State := sW fun w =>
  { w with part := 3, preds := w.preds.set 2 0xBF, vregs := w.vregs.set 2 { words := [0x4B800000] ++ List.replicate 7 0x3F800000 ++ List.replicate 24 0 } }
def p2 (h : Hdr) : Hdr := { h with guard := ⟨false, 2⟩ }
theorem test_scan : after (.lscan (p2 (hV 1)) .f32 .rne false .add (V 2)) sScan (fun w =>
      (w.vget 1).words.take 8 == [0x4B800000, 0x4B800000, 0x4B800000, 0x4B800001, 0x4B800002, 0x4B800002, 0, 0x4B800002] && w.fpstat == 16) = true
    ∧ after (.lred (p2 (hV 1)) .f32 .rne .add (V 2)) sScan (fun w => (w.vget 1).words.take 8 == List.replicate 6 0x4B800002 ++ [0, 0x4B800002]) = true := by
  decide +kernel

/-- 05, a softmax section: PART 2, v8 = 1, 3, 2, 3; with TNX set and lane 2 at 2.5 the idiom traps whole. -/
def sSoft (x : Word) (fp : Word) : State := sW fun w =>
  { w with part := 2, fpctl := fp, vregs := w.vregs.set 8 { words := ((List.range 8).map fun _ => [0x3F800000, 0x40400000, x, 0x40400000]).flatten } }
def soft : Instr := .softmaxIdiom hN .rne .rne 8 9 10 11 12
theorem test_softmax : after soft (sSoft 0x40000000 0) (fun w => (w.vget 9).words.take 4 == List.replicate 4 0x40400000
      && (w.vget 10).words.take 4 == [0xC0000000, 0x00000000, 0xBF800000, 0x00000000] && (w.vget 11).words.take 4 == [0x3E800000, 0x3F800000, 0x3F000000, 0x3F800000]
      && (w.vget 12).words.take 4 == List.replicate 4 0x40300000 && w.fpstat == 0) = true
    ∧ after soft (sSoft 0x40200000 0x200) (fun w => w.trappc == 0x10004 && (w.vget 9).words == List.replicate 32 0 && w.fpstat == 0 && w.handler.isSome
        && w.trapcause.extractLsb' 0 14 == 0x2210) = true := by decide +kernel

/-- 19, a conversion trap of lane 3 in a split of lanes 0-15. -/
theorem test_conversion_trap :
    after (.cvt (hV 1) (.b8 true true 3) .f32 .rne .trap (V 2)) (sW fun w => { w with vregs := w.vregs.set 2 { words := List.replicate 3 0 ++ [0x43960000] ++ List.replicate 28 0 }, front := w.front.map fun p => { p with mask := 0xFFFF, parts := [{ entry := 0x10004, mask := 0xFFFF }] } })
      (fun w => w.trapcause == 0x0000230C && w.trapinfo == 3 && w.trappc == 0x10004 && (w.vget 1).words == List.replicate 32 0
        && w.front.map (·.pc) == [0x10034] && (w.handler.map (·.mask)) == some 0xFFFF && (w.handler.map fun h => h.parts.map (·.entry)) == some [0x10004]) = true := by
  decide +kernel

/-- 13, one bilinear footprint, filtered and sampled: texel (x, y) at 4·y + x of a 4 by 4 texture in its swizzled order. -/
def texel4 (x y : Nat) : Nat := 4 * blockIndex 3 x y
def tex4 : List Byte :=
  le 8 0x10000 ++ le 8 0 ++ le 2 3 ++ le 2 3 ++ le 2 0 ++ le 1 1 ++ le 1 2 ++ le 4 (4 + 8 + 1 * 512 + 1 * 2048) ++ le 4 0 ++ le 16 0 ++ le 8 1 ++ le 8 0
def sTex : State := { (sMem [(0x10000 + texel4 0 2, [0xFF]), (0x10000 + texel4 1 1, [0xFF]), (0x10000 + texel4 1 2, [0xFF])] s0) with cur := none }
def red (stoch : Bool) (ex : List Word) : Option Word :=
  match (texLane (engReader gp0 (sTex.producer r0 .g 9)) (parseTex tex4) .lod stoch [(0, [0x3E99999A, 0x3ECCCCCD])] [(0, ex)] 0 sTex).2 with | .ok (x :: _) => some x | _ => none
theorem test_bilinear : (parseTex tex4).valid = true ∧ red false [0] = some 0x3F3AD200 ∧ red true [0, 0] = some 0x3F800000 := by decide +kernel
/-- 15 R346: one level, two corners. -/
def cfgR : RadConfig :=
  { cfg := [], levels := 1, hidden := 1, width := 16, log2t := 4, boxMin := [0, 0, 0], boxMax := List.replicate 3 0x40800000, res := [4], lr := 0, beta1 := 0, beta2 := 0,
    eps := 0, param := 0, mom := 0 }
def parR : Params := (List.replicate 32 (0 : BitVec 16)).mapIdx fun k _ => if k = 24 then 0x3C00 else if k = 30 then 0x3800 else if k = 31 then 0x3400 else 0
theorem test_radiance_inputs : normPos cfgR [0x3FC00000, 0x40000000, 0x40400000] = [0x3EC00000, 0x3F000000, 0x3F400000] ∧ levelIn parR (corners cfgR 0 [0x3EC00000, 0x3F000000, 0x3F400000]) = [0x3F400000, 0x3E000000] := by decide +kernel
/-- 17 R361, R362: one cell at three temperatures, and the table. -/
def cell18 : GCell := { bias := -1, nbrs := [(0, 3), (1, 3), (2, 1), (3, 1)] }
def cells4 : Array GCell := #[{}, { spin := true }, {}, {}]
theorem test_gibbs_cell : cellField cells4 cell18 = -3 ∧ forced (cellK cells4 0xFFFF cell18) = some false ∧ cellK cells4 0x100 cell18 = -192 ∧ cellK cells4 0x40 cell18 = -48
    ∧ theta (-192) = 0x00A20BBC ∧ theta (-48) = 0x2EB3706B ∧ theta 0 = 0x80000000 ∧ seedWord 7 0 0 18 = (hash 7 0x12).toNat / 2 ^ 32 := by decide +kernel

/-- 07, four rays, one triangle: t, u, and that each lane's hit is entry 0 of its table, generation 0. -/
def ray (o : List Word) (dz : Word) : List Word := o ++ [0, 0, dz] ++ [0, 0x42C80000]
def bvh : List Byte :=
  (le 12 0 ++ le 4 0x40000000 ++ le 4 0x40000000 ++ le 4 0 ++ le 4 0x80000001 ++ le 4 0xFFFFFFFF ++ le 32 0)
  ++ (le 12 0 ++ le 4 0x40000000 ++ le 4 0x40000000 ++ le 4 0 ++ le 4 2 ++ le 4 1 ++ le 32 0)
  ++ (le 12 0 ++ le 4 0x40000000 ++ le 12 0 ++ le 4 0x40000000 ++ le 4 0 ++ le 4 7 ++ le 4 3 ++ le 20 0)
def sBvh : State := sMem [(0x4000, bvh)] (sW fun w =>
  let rays : List (List Word) := [ray [0x3F000000, 0x3F000000, 0x3F800000] 0xBF800000, ray [0x3F800000, 0x3F800000, 0x3F800000] 0xBF800000, ray [0x3FC00000, 0x3FC00000, 0x3F800000] 0xBF800000, ray [0x3F000000, 0x3F000000, 0xBF800000] 0x3F800000]
  let v := (List.range 8).foldl (fun (r : List VReg) k => r.set (8 + k) { words := rays.map (fun r => r.getD k 0) ++ List.replicate 28 0 }) w.vregs
  { w with sregs := w.sregs.set 4 0x4000, vregs := v, preds := w.preds.set 2 0xF })
def traced : State := match exec (.trace (p2 (hV 20)) false true (V 8) (S 4)) sBvh with
  | .next t => (match exec (.traceFill r0 0) t with | .next u => u | _ => t)
  | _ => sBvh
theorem test_traversal : (match traced.warp r0 with
      | some w => (w.vget 20).words.take 4 == [0x3F800000, 0x3F800000, 0x7F800000, 0x7F800000] && (w.vget 21).words.take 4 == [0xC0, 0xC0, 0, 0]
        && (w.vget 20).tag == .full
      | none => false) = true
    ∧ (match exec (.thit (p2 (hV 24)) .u (V 21)) { traced with cur := some ⟨0, 1, 0, 0⟩ } with
      | .next t => (match t.warp r0 with | some w => (w.vget 24).words.take 4 == [0x3E800000, 0x3F000000, 0, 0] | none => false)
      | _ => false) = true := by decide +kernel

/-- 12, the program's tile: nine vertices and three primitives binned and resolved to the identifiers of its table. -/
def slot12 : Payload :=
  let v : List (Nat × List Word) := [(0, [0, 0xBF800000, 0xBF800000, 0x3F000000, 0x3F800000]), (1, [0, 0x3F600000, 0xBF800000, 0x3F000000, 0x3F800000]), (2, [0, 0xBF800000, 0x3F600000, 0x3F000000, 0x3F800000]), (3, [0, 0xBE000000, 0xBF800000, 0x3E800000, 0x3F800000]), (4, [0, 0x3F800000, 0xBF800000, 0x3E800000, 0x3F800000]), (5, [0, 0x3F800000, 0x3E000000, 0x3E800000, 0x3F800000]), (6, [0, 0xBF800000, 0xBE000000, 0x3F000000, 0x3F800000]), (7, [0, 0xBF800000, 0x3F800000, 0x3F000000, 0x3F800000]), (8, [0, 0x3E000000, 0x3F800000, 0x3F000000, 0x3F800000])]
  { state := .draining, nv := some 0, vtx := v, prims := [(0, [0, 0x00020100, 0]), (1, [1, 0x00050403, 1]), (2, [2, 0x00080706, 2])] }
def ren12 : Render := { ren8 with vxs := 0x40800000, vys := 0x40800000, vxo := 0x40800000, vyo := 0x40800000 }
def tri12 : List Prim :=
  let w := List.replicate 3 0x3F800000
  [⟨[0x00000000, 0x40F00000, 0x00000000], [0x00000000, 0x00000000, 0x40F00000], [0x3F000000, 0x3F000000, 0x3F000000], w, 0, 0, [0]⟩, ⟨[0x40600000, 0x41000000, 0x41000000], [0x00000000, 0x00000000, 0x40900000], [0x3E800000, 0x3E800000, 0x3E800000], w, 1, 1, [0]⟩,
   ⟨[0x00000000, 0x00000000, 0x40900000], [0x40600000, 0x41000000, 0x41000000], [0x3F000000, 0x3F000000, 0x3F000000], w, 2, 2, [0]⟩]
def orders12 : List Word := [0, 0, 0, 0, 1, 1, 1, 1, 0, 0, 0, 0, 0, 1, 1, 1, 0, 0, 0, 0, 0, 0xFFFFFFFF, 1, 1, 0, 0, 0, 0, 0xFFFFFFFF, 0xFFFFFFFF, 0xFFFFFFFF, 1, 0, 0, 0, 0xFFFFFFFF, 0xFFFFFFFF, 0xFFFFFFFF, 0xFFFFFFFF, 0xFFFFFFFF, 0, 0, 0xFFFFFFFF, 0xFFFFFFFF, 0xFFFFFFFF, 0xFFFFFFFF, 0xFFFFFFFF, 0xFFFFFFFF, 0, 2, 2, 0xFFFFFFFF, 0xFFFFFFFF, 0xFFFFFFFF, 0xFFFFFFFF, 0xFFFFFFFF, 2, 2, 2, 2, 0xFFFFFFFF, 0xFFFFFFFF, 0xFFFFFFFF, 0xFFFFFFFF]
theorem test_binning : (match (sRen ren12).binSlot 0 slot12 2 257 0 with | (s1, .done) => (s1.slice 0).render.map (·.prims) == some tri12 | _ => false) = true := by
  decide +kernel
theorem test_visibility : ((List.range 64).all fun k =>
    (tri12.foldl (fun (e : IdEnt) p => p.resolve (((k % 8 : Nat) : Rat) + 1 / 2) (((k / 8 : Nat) : Rat) + 1 / 2) e)
      { depth := 0x3F800000, order := 0xFFFFFFFF, ref := 0xFFFFFFFF }).order == orders12.getD k 0) = true := by decide +kernel

/-- 12, the block written out: the mode byte 0x4E and the 115 packed bytes, and back; with T2's colour changed the block is raw. -/
def pixels12 : List Word := [0xFF5F4021, 0xFF5F4021, 0xFF5F4021, 0xFF5F4021, 0xFF5F4021, 0xFF5F4021, 0xFF5F4021, 0xFF5F4021, 0xFF5F4021, 0xFF5F4021, 0xFF5F4021, 0xFF5F4021, 0xFF5F4021, 0xFF5F4021, 0xFF5F4021, 0xFF5F4021, 0xFF5E4722, 0xFF5E4722, 0xFF5F4021, 0xFF5E4722, 0xFF5E4722, 0xFF5E4722, 0xFF5E4722, 0xFF5E4722, 0xFF5F4021, 0xFF604020, 0xFF604020, 0xFF604020, 0xFF5E4722, 0xFF5E4722, 0xFF604020, 0xFF5E4722, 0xFF5F4021, 0xFF5F4021, 0xFF5F4021, 0xFF5F4021, 0xFF5F4021, 0xFF604020, 0xFF604020, 0xFF604020, 0xFF5F4021, 0xFFE0391F, 0xFFE0391F, 0xFFE0391F, 0xFFE0391F, 0xFF604020, 0xFFE0391F, 0xFFE0391F, 0xFF604020, 0xFF604020, 0xFF604020, 0xFF604020, 0xFF604020, 0xFF604020, 0xFF604020, 0xFF604020, 0xFF604020, 0xFF604020, 0xFF604020, 0xFF604020, 0xFF604020, 0xFF604020, 0xFF604020, 0xFF604020]
def raw12 (f : Word → Word) : List Byte := (pixels12.map fun w => le 4 (f w).toNat).flatten
theorem test_delta_block : deltaEncode (raw12 id) = (0x4E, [0x21, 0x40, 0x5F, 0xFF, 0x00, 0x00, 0x00, 0x40, 0x51, 0x15, 0x7F, 0x1D, 0x00, 0x3F, 0xAA, 0xEB, 0xFF, 0xFF, 0xFF, 0x3F, 0x00, 0x00, 0x00, 0x00, 0x00, 0x00, 0x00, 0x70, 0x07, 0x77, 0x77, 0x07, 0x00, 0x70, 0x07, 0x07, 0x00, 0x00, 0x00, 0x00, 0x99, 0x99, 0x90, 0x09, 0x00, 0x00, 0x00, 0x00, 0x00, 0x00, 0x00, 0x00, 0x00, 0x00, 0x00, 0x00, 0x00, 0x00, 0x00, 0x00, 0x00, 0x00, 0x00, 0x00, 0x00, 0x00, 0x00, 0xFF, 0xFF, 0x00, 0xFF, 0xFF, 0xFF, 0xFF, 0xFF, 0x00, 0x01, 0x01, 0x01, 0xFF, 0xFF, 0x01, 0xFF, 0x00, 0x00, 0x00, 0x00, 0x00, 0x01, 0x01, 0x01, 0x00, 0x81, 0x81, 0x81, 0x81, 0x01, 0x81, 0x81, 0x01, 0x01, 0x01, 0x01, 0x01, 0x01, 0x01, 0x01, 0x01, 0x01, 0x01, 0x01, 0x01, 0x01, 0x01, 0x01]) ∧ deltaDecode 0x4E [0x21, 0x40, 0x5F, 0xFF, 0x00, 0x00, 0x00, 0x40, 0x51, 0x15, 0x7F, 0x1D, 0x00, 0x3F, 0xAA, 0xEB, 0xFF, 0xFF, 0xFF, 0x3F, 0x00, 0x00, 0x00, 0x00, 0x00, 0x00, 0x00, 0x70, 0x07, 0x77, 0x77, 0x07, 0x00, 0x70, 0x07, 0x07, 0x00, 0x00, 0x00, 0x00, 0x99, 0x99, 0x90, 0x09, 0x00, 0x00, 0x00, 0x00, 0x00, 0x00, 0x00, 0x00, 0x00, 0x00, 0x00, 0x00, 0x00, 0x00, 0x00, 0x00, 0x00, 0x00, 0x00, 0x00, 0x00, 0x00, 0x00, 0xFF, 0xFF, 0x00, 0xFF, 0xFF, 0xFF, 0xFF, 0xFF, 0x00, 0x01, 0x01, 0x01, 0xFF, 0xFF, 0x01, 0xFF, 0x00, 0x00, 0x00, 0x00, 0x00, 0x01, 0x01, 0x01, 0x00, 0x81, 0x81, 0x81, 0x81, 0x01, 0x81, 0x81, 0x01, 0x01, 0x01, 0x01, 0x01, 0x01, 0x01, 0x01, 0x01, 0x01, 0x01, 0x01, 0x01, 0x01, 0x01, 0x01] = raw12 id
    ∧ (deltaEncode (raw12 fun w => if w = 0xFFE0391F then 0xFFE0301F else w)).1 = 0 := by decide +kernel
/-- 06, a halo tile: the barrier object as BARI and BART leave it, at local offset 0. -/
def sLocal : State := sW (sregs [(5, 0xFFF00000), (6, 4624)])
theorem test_barrier_object : (match exec (.bari { hN with u := true } (S 4) (K 2)) sLocal with
    | .next t => ((t.scratchOf 0 1).readN 0 8 == 0x0000000000020002) && (match exec (.bart { hS 0 with u := true } false 7 (S 4) (some (K 1)) (S 6)) { t with cur := some ⟨0, 1, 0, 0⟩ } with
      | .next u => ((u.scratchOf 0 1).readN 0 8 == 0x0012100000010002) && (match u.warp r0 with | some w => w.sget 0 == 0 | none => false)
      | _ => false)
    | _ => false) = true := by decide +kernel
/-- 21, a page in a peer's memory: the window and the physical address. -/
theorem test_peer_window : (sysBase + 5 * 2 ^ 39 + 0x1234567000 = 0x829234567000)
    ∧ ({ s0 with sysWins := [(5, { valid := true, wr := true, peer := 0x0207 })] } : State).phys 0x829234567000 true
        = (if Config.peerRefuses 0 0x0207 0x1234567000 true then .nowhere else .mem (peerKey 0x0207 0x1234567000))
    ∧ ({ s0 with sysWins := [(5, { valid := true, wr := true, peer := 0x0207 })] } : State).phys (0x800000000000 + 5 * 2 ^ 39 + 0x6000000000) true = .nowhere := by
  refine ⟨by decide, ?_, by decide +kernel⟩
  cases h : Config.peerRefuses 0 0x0207 0x1234567000 true <;> simp [State.phys, hbmTop, hostBase, sysBase, kget, s0, State.reset, h]

/-- 20 R406: the device has sixteen slices. -/
theorem test_reset_has_sixteen_slices : State.reset.slices.length = 16 := by decide

end Sys2Proof.Tests
end

/-! ### Products and quotients (02 R46; 04 R122) -/

namespace Sys2Proof.Machine

theorem toNat_loWord (x : DWord) : (loWord x).toNat = x.toNat % 2 ^ 32 := by simp [loWord]

theorem toNat_zext64 (x : Word) : (zext64 x).toNat = x.toNat :=
  BitVec.toNat_setWidth_of_le (by decide)

@[simp] theorem loWord_zext64 (x : Word) : loWord (zext64 x) = x := by
  apply BitVec.eq_of_toNat_eq
  rw [toNat_loWord, toNat_zext64, Nat.mod_eq_of_lt x.isLt]

theorem ofNat_toNat_loWord (x : DWord) : BitVec.ofNat 32 x.toNat = loWord x := by
  apply BitVec.eq_of_toNat_eq
  rw [BitVec.toNat_ofNat, toNat_loWord]

/-- The low word of a number in 32 bits is the number taken in 32 bits. -/
theorem loWord_inW (n : Nat) : loWord (inW 32 n) = BitVec.ofNat 32 n := by
  apply BitVec.eq_of_toNat_eq
  simp [toNat_loWord, inW]

/-- Wrapping an integer takes it in the width, with zeros above. -/
theorem wrap_eq (w : Nat) (x : Int) : wrap w x = (BitVec.ofInt w x).setWidth 64 := by
  rw [wrap, intBits, ← BitVec.toNat_ofInt, BitVec.ofNat_toNat]

theorem loWord_wrap (x : Int) : loWord (wrap 32 x) = BitVec.ofInt 32 x := by
  rw [wrap_eq]
  exact loWord_zext64 _

theorem intOf_s32 (x : DWord) : intOf .s32 x = (loWord x).toInt := by
  rw [BitVec.toInt_eq_toNat_cond, toNat_loWord]
  simp only [intOf, Ty.bits, Ty.signed, Bool.true_and, decide_eq_true_eq, ge_iff_le]
  split <;> split <;> omega

theorem intOf_n32 (x : DWord) : intOf .n32 x = (loWord x).toNat := by
  rw [toNat_loWord]
  rfl

theorem intOf_s64 (x : DWord) : intOf .s64 x = x.toInt := by
  rw [BitVec.toInt_eq_toNat_cond]
  simp only [intOf, Ty.bits, Ty.signed, Bool.true_and, decide_eq_true_eq, ge_iff_le, Nat.mod_eq_of_lt x.isLt]
  split <;> split <;> omega

theorem intOf_n64 (x : DWord) : intOf .n64 x = x.toNat :=
  congrArg Nat.cast (Nat.mod_eq_of_lt x.isLt)

/-- Division by zero gives all ones, the dividend, and DZ. -/
theorem divInt_of_zero {t : Ty} {a b : DWord} (h : intOf t b = 0) :
    divInt t a b = ((BitVec.allOnes t.bits).setWidth 64, wrap t.bits (intOf t a), true) := by
  simp [divInt, h, wrap, ← BitVec.ofNat_toNat]

theorem divInt_of_ne_zero {t : Ty} {a b : DWord} (h : intOf t b ≠ 0) :
    divInt t a b = (wrap t.bits ((intOf t a).tdiv (intOf t b)), wrap t.bits ((intOf t a).tmod (intOf t b)), false) := by
  simp [divInt, h, wrap]

/-- Division of two signed values in the width of their type: the truncated quotient wraps, as `-2 ^ (w - 1)` by -1 does. -/
theorem divInt_signed {t : Ty} {a b : DWord} (x y : BitVec t.bits) (hx : intOf t a = x.toInt) (hy : intOf t b = y.toInt) :
    divInt t a b = ((if y = 0 then BitVec.allOnes t.bits else x.sdiv y).setWidth 64,
      (if y = 0 then x else x.srem y).setWidth 64, y == 0) := by
  by_cases h : y = 0
  · rw [divInt_of_zero (by rw [hy, h]; exact BitVec.toInt_zero), hx, wrap_eq, BitVec.ofInt_toInt, if_pos h, if_pos h, h, beq_self_eq_true]
  · have h0 : intOf t b ≠ 0 := fun e => h (BitVec.eq_of_toInt_eq (by rw [← hy, e]; exact BitVec.toInt_zero.symm))
    have hq : BitVec.ofInt t.bits (x.toInt.tdiv y.toInt) = x.sdiv y :=
      BitVec.eq_of_toInt_eq (by rw [BitVec.toInt_ofInt, BitVec.toInt_sdiv])
    have hr : BitVec.ofInt t.bits (x.toInt.tmod y.toInt) = x.srem y := by rw [← BitVec.toInt_srem, BitVec.ofInt_toInt]
    rw [divInt_of_ne_zero h0, hx, hy, wrap_eq, wrap_eq, hq, hr, if_neg h, if_neg h, beq_false_of_ne h]

/-- Division of two unsigned values in the width of their type. -/
theorem divInt_unsigned {t : Ty} {a b : DWord} (x y : BitVec t.bits) (hx : intOf t a = x.toNat) (hy : intOf t b = y.toNat) :
    divInt t a b = ((if y = 0 then BitVec.allOnes t.bits else x.udiv y).setWidth 64,
      (if y = 0 then x else x.umod y).setWidth 64, y == 0) := by
  have back : ∀ z : BitVec t.bits, BitVec.ofInt t.bits (z.toNat : Int) = z := fun z => by
    rw [BitVec.ofInt_natCast, BitVec.ofNat_toNat, BitVec.setWidth_eq]
  by_cases h : y = 0
  · rw [divInt_of_zero (by rw [hy, h]; rfl), hx, wrap_eq, back, if_pos h, if_pos h, h, beq_self_eq_true]
  · have h0 : intOf t b ≠ 0 := fun e => h (BitVec.eq_of_toNat_eq (Int.ofNat.inj (hy.symm.trans e)))
    have hq : BitVec.ofInt t.bits ((x.toNat : Int).tdiv y.toNat) = x.udiv y := by
      rw [← Int.ofNat_tdiv]
      exact back (x.udiv y)
    have hr : BitVec.ofInt t.bits ((x.toNat : Int).tmod y.toNat) = x.umod y := by
      rw [← Int.ofNat_tmod]
      exact back (x.umod y)
    rw [divInt_of_ne_zero h0, hx, hy, wrap_eq, wrap_eq, hq, hr, if_neg h, if_neg h, beq_false_of_ne h]

/-- Integer division gives the quotient and the remainder of 02 R46, and says whether the divisor was zero. -/
theorem divInt_eq {t : Ty} (ht : t ∈ Sig.sn64) (a b : DWord) :
    divInt t a b = (quotient t a b, remainder t a b, zeroDivisor t b) := by
  simp only [Sig.sn64, List.mem_cons, List.not_mem_nil, or_false] at ht
  rcases ht with rfl | rfl | rfl | rfl
  · exact divInt_signed (t := .s32) (loWord a) (loWord b) (intOf_s32 a) (intOf_s32 b)
  · exact divInt_unsigned (t := .n32) (loWord a) (loWord b) (intOf_n32 a) (intOf_n32 b)
  · rw [divInt_signed (t := .s64) a b (intOf_s64 a) (intOf_s64 b)]
    exact Prod.ext (BitVec.setWidth_eq _) (Prod.ext (BitVec.setWidth_eq _) rfl)
  · rw [divInt_unsigned (t := .n64) a b (intOf_n64 a) (intOf_n64 b)]
    exact Prod.ext (BitVec.setWidth_eq _) (Prod.ext (BitVec.setWidth_eq _) rfl)

theorem exec_idiv (h : Hdr) (t : Ty) (a b : Src) (s : State) : exec (.idiv h t a b) s = alu (.idiv h t a b)
    (fun _ _ xs => op2 (fun x y => { val := (divInt t x y).1, quiet := flIf (divInt t x y).2.2 flDZ }) xs) s := rfl

theorem exec_irem (h : Hdr) (t : Ty) (a b : Src) (s : State) : exec (.irem h t a b) s = alu (.irem h t a b)
    (fun _ _ xs => op2 (fun x y => { val := (divInt t x y).2.1, quiet := flIf (divInt t x y).2.2 flDZ }) xs) s := rfl

theorem operandsOf_idiv (h : Hdr) (t : Ty) (a b : Src) (v : View) (act : Mask) (l : Nat) :
    operandsOf (.idiv h t a b) v act l = [longA (.idiv h t a b) v act l, longB (.idiv h t a b) v act l] := rfl

theorem operandsOf_irem (h : Hdr) (t : Ty) (a b : Src) (v : View) (act : Mask) (l : Nat) :
    operandsOf (.irem h t a b) v act l = [longA (.irem h t a b) v act l, longB (.irem h t a b) v act l] := rfl

/-! The value of each product, in the model's terms and in those of bit vectors. -/

theorem imul_word (x y : DWord) : loWord (inW 32 (x.toNat * y.toNat)) = loWord x * loWord y := by
  rw [loWord_inW, BitVec.ofNat_mul, ofNat_toNat_loWord, ofNat_toNat_loWord]

theorem imulh_word_signed (x y : DWord) :
    loWord (wrap 32 (intOf .s32 x * intOf .s32 y / 2 ^ 32)) = BitVec.ofInt 32 ((loWord x).toInt * (loWord y).toInt / 2 ^ 32) := by
  rw [loWord_wrap, intOf_s32, intOf_s32]

theorem imulh_word_unsigned (x y : DWord) :
    loWord (wrap 32 (intOf .n32 x * intOf .n32 y / 2 ^ 32)) = BitVec.ofNat 32 ((loWord x).toNat * (loWord y).toNat / 2 ^ 32) := by
  rw [loWord_wrap, intOf_n32, intOf_n32]
  exact BitVec.ofInt_natCast 32 _

theorem imad_word (x y z : DWord) : loWord (inW 32 (x.toNat * y.toNat + z.toNat)) = loWord x * loWord y + loWord z := by
  rw [loWord_inW, BitVec.ofNat_add, BitVec.ofNat_mul, ofNat_toNat_loWord, ofNat_toNat_loWord, ofNat_toNat_loWord]

theorem imad64_long_signed (x y z : DWord) :
    wrap 64 (intOf .s32 x * intOf .s32 y + z.toNat) = (loWord x).signExtend 64 * (loWord y).signExtend 64 + z := by
  rw [wrap_eq, BitVec.setWidth_eq, intOf_s32, intOf_s32, BitVec.ofInt_add, BitVec.ofInt_mul, BitVec.ofInt_natCast,
    BitVec.ofNat_toNat, BitVec.setWidth_eq]
  rfl

theorem imad64_long_unsigned (x y z : DWord) :
    wrap 64 (intOf .n32 x * intOf .n32 y + z.toNat) = (loWord x).setWidth 64 * (loWord y).setWidth 64 + z := by
  rw [wrap_eq, BitVec.setWidth_eq, intOf_n32, intOf_n32]
  simp only [BitVec.ofInt_add, BitVec.ofInt_mul, BitVec.ofInt_natCast, BitVec.ofNat_toNat, BitVec.setWidth_eq]

/-- Settles O2: each product is a lane function without flags, and IDIV and IREM are the two sides of one division. -/
theorem productsAndQuotients : Obligations.ProductsAndQuotients := by
  unfold Obligations.ProductsAndQuotients
  refine ⟨fun h a b => ?imul, fun h a b => ?imulhSigned, fun h a b => ?imulhUnsigned, fun h a b c => ?imad,
    fun h a b c => ?imad64Signed, fun h a b c => ?imad64Unsigned, fun h t a b ht => ?idiv, fun h t a b ht => ?irem⟩
  case imul =>
    refine completes_val2 (i := .imul h a b) rfl _ (fun _ => rfl) (fun _ _ _ => rfl) fun v act l => ?_
    exact congrArg (fun x => [x]) (imul_word _ _)
  case imulhSigned =>
    refine completes_val2 (i := .imulh h .s32 a b) rfl _ (fun _ => rfl) (fun _ _ _ => rfl) fun v act l => ?_
    exact congrArg (fun x => [x]) (imulh_word_signed _ _)
  case imulhUnsigned =>
    refine completes_val2 (i := .imulh h .n32 a b) rfl _ (fun _ => rfl) (fun _ _ _ => rfl) fun v act l => ?_
    exact congrArg (fun x => [x]) (imulh_word_unsigned _ _)
  case imad =>
    refine completes_val3 (i := .imad h a b c) rfl _ (fun _ => rfl) (fun _ _ _ => rfl) fun v act l => ?_
    exact congrArg (fun x => [x]) (imad_word _ _ _)
  case imad64Signed =>
    refine completes_val3 (i := .imad64 h .s32 a b c) rfl _ (fun _ => rfl) (fun _ _ _ => rfl) fun v act l => ?_
    exact congrArg twoWords (imad64_long_signed _ _ _)
  case imad64Unsigned =>
    refine completes_val3 (i := .imad64 h .n32 a b c) rfl _ (fun _ => rfl) (fun _ _ _ => rfl) fun v act l => ?_
    exact congrArg twoWords (imad64_long_unsigned _ _ _)
  case idiv =>
    refine completes_aluFp (i := .idiv h t a b) rfl (exec_idiv h t a b) fun v act l => ?_
    rw [operandsOf_idiv, op2, divInt_eq ht]
  case irem =>
    refine completes_aluFp (i := .irem h t a b) rfl (exec_irem h t a b) fun v act l => ?_
    rw [operandsOf_irem, op2, divInt_eq ht]

end Sys2Proof.Machine

/-! ### Sections as runs of lanes (01 R15, R16) -/

namespace Sys2Proof.Machine

/-- A test that holds in an interval of a run of numbers, and nowhere else in it, selects the interval. -/
theorem filter_range'_interval {p : Nat → Bool} {s n a m : Nat} (hs : s ≤ a) (hn : a + m ≤ s + n)
    (hp : ∀ k, s ≤ k → k < s + n → (p k = true ↔ a ≤ k ∧ k < a + m)) : (List.range' s n).filter p = List.range' a m := by
  obtain ⟨d, rfl⟩ := Nat.exists_eq_add_of_le hs
  obtain ⟨r, rfl⟩ : ∃ r, n = d + (m + r) := ⟨n - d - m, by omega⟩
  have hsplit : List.range' s (d + (m + r)) = List.range' s d ++ (List.range' (s + d) m ++ List.range' (s + d + m) r) := by
    rw [List.range'_append_1, List.range'_append_1]
  have hbefore : (List.range' s d).filter p = [] := List.filter_eq_nil_iff.2 fun k hk => by
    rw [List.mem_range'_1] at hk
    rw [hp k (by omega) (by omega)]
    omega
  have hin : (List.range' (s + d) m).filter p = List.range' (s + d) m := List.filter_eq_self.2 fun k hk => by
    rw [List.mem_range'_1] at hk
    rw [hp k (by omega) (by omega)]
    omega
  have hafter : (List.range' (s + d + m) r).filter p = [] := List.filter_eq_nil_iff.2 fun k hk => by
    rw [List.mem_range'_1] at hk
    rw [hp k (by omega) (by omega)]
    omega
  rw [hsplit, List.filter_append, List.filter_append, hbefore, hin, hafter, List.nil_append, List.append_nil]

theorem width_pos (w : Warp) : 0 < w.width := Nat.two_pow_pos w.part

theorem base_add_pos (w : Warp) (l : Nat) : w.base l + w.pos l = l := Nat.div_add_mod' l w.width

theorem pos_lt_width (w : Warp) (l : Nat) : w.pos l < w.width := Nat.mod_lt l (width_pos w)

/-- With a legal PART a section lies within the 32 lanes. -/
theorem base_add_width_le {w : Warp} (hp : w.part ≤ 5) {l : Nat} (hl : l < 32) : w.base l + w.width ≤ 32 := by
  obtain ⟨c, hc⟩ : w.width ∣ 32 := Nat.pow_dvd_pow 2 hp
  have hblock : l / w.width < c := Nat.div_lt_of_lt_mul (hc ▸ hl)
  calc w.base l + w.width = (l / w.width + 1) * w.width := (Nat.succ_mul _ _).symm
    _ ≤ c * w.width := Nat.mul_le_mul_right _ hblock
    _ = 32 := by rw [Nat.mul_comm, ← hc]

/-- The active lanes of a section are those of the run of lanes that the section is. -/
theorem sect_eq {w : Warp} (hp : w.part ≤ 5) (act : Mask) {l : Nat} (hl : l < 32) :
    sect w act l = (List.range' (w.base l) w.width).filter (bit act) := by
  have hle := base_add_width_le hp hl
  have hblock : (List.range 32).filter (fun k => k / w.width == l / w.width) = List.range' (w.base l) w.width := by
    rw [List.range_eq_range']
    refine filter_range'_interval (Nat.zero_le _) (by omega) fun k _ _ => ?_
    have hw := width_pos w
    rw [beq_iff_eq, Nat.div_eq_iff hw]
    show w.base l ≤ k ∧ k ≤ w.base l + w.width - 1 ↔ _
    omega
  rw [← hblock, List.filter_filter]
  exact List.filter_congr fun k _ => Bool.and_comm _ _

/-- The number of positions of its section that a lane's scan takes in (04 R141). -/
def scanLength (w : Warp) (excl : Bool) (l : Nat) : Nat := if excl then w.pos l else w.pos l + 1

theorem scanLength_le (w : Warp) (excl : Bool) (l : Nat) : scanLength w excl l ≤ w.width := by
  have := pos_lt_width w l
  unfold scanLength
  split <;> omega

/-- The active lanes of a section that a lane's scan takes in. -/
theorem sect_below {w : Warp} (hp : w.part ≤ 5) (act : Mask) (excl : Bool) {l : Nat} (hl : l < 32) :
    (sect w act l).filter (fun k => k < l || !excl && k == l) = (List.range' (w.base l) (scanLength w excl l)).filter (bit act) := by
  have hle := scanLength_le w excl l
  have hpos := base_add_pos w l
  have hrun : (List.range' (w.base l) w.width).filter (fun k => k < l || !excl && k == l)
      = List.range' (w.base l) (scanLength w excl l) := by
    refine filter_range'_interval (Nat.le_refl _) (by omega) fun k _ _ => ?_
    cases excl <;> simp [scanLength] <;> omega
  rw [sect_eq hp act hl, ← hrun, List.filter_filter, List.filter_filter]
  exact List.filter_congr fun k _ => Bool.and_comm _ _

end Sys2Proof.Machine

/-! ### Trees (02 R73, R74; 04 R141) -/

namespace Sys2Proof.Machine

/-- A block joins the fold so far. -/
def joinBlock (op : Word → Word → Word × Flags) (run : Option Leaf) (b : Leaf) : Leaf := run.elim b fun r => treeStep op r b

theorem foldBlocks_zero (op : Word → Word → Word × Flags) (x : Nat → Leaf) (n pos : Nat) (run : Option Leaf) :
    foldBlocks op x n 0 pos run = if nbit n 0 then some (joinBlock op run (treeAt op x 0 pos)) else run := by
  cases run <;> rfl

theorem foldBlocks_succ (op : Word → Word → Word × Flags) (x : Nat → Leaf) (n k pos : Nat) (run : Option Leaf) :
    foldBlocks op x n (k + 1) pos run =
      if nbit n (k + 1) then foldBlocks op x n k (pos + 2 ^ (k + 1)) (some (joinBlock op run (treeAt op x (k + 1) pos)))
      else foldBlocks op x n k pos run := by
  cases run <;> rfl

/-- A number below `2 ^ (k + 1)` by its top bit and what stands below it. -/
theorem mod_two_pow_succ_of_nbit (n k : Nat) : n % 2 ^ (k + 1) = (if nbit n k then 2 ^ k else 0) + n % 2 ^ k := by
  have hbit := Nat.mod_two_eq_zero_or_one (n / 2 ^ k)
  rw [Nat.mod_pow_succ, Nat.add_comm]
  rcases hbit with h | h <;> simp [nbit, h]

/-- The fold of the words at `n` positions from `lo` on, in order. -/
def foldWords (f : Word → Word → Word) (e : Word) (x : Nat → Leaf) (lo n : Nat) : Word :=
  ((List.range' lo n).map fun j => (x j).word).foldl f e

/-- The word of the fold so far; the identity before the first block. -/
def runWord (e : Word) (run : Option Leaf) : Word := run.elim e Leaf.word

/-- An operation that raises no flag. -/
def unflagged (f : Word → Word → Word) (a b : Word) : Word × Flags := (f a b, 0)

/-- Folds whose steps agree on the list agree. -/
theorem foldl_congr_of_mem {α β : Type} {g k : β → α → β} {xs : List α} (h : ∀ b, ∀ x ∈ xs, g b x = k b x) (b : β) :
    xs.foldl g b = xs.foldl k b := by
  induction xs generalizing b with
  | nil => rfl
  | cons x xs ih =>
    rw [List.foldl_cons, List.foldl_cons, h b x List.mem_cons_self]
    exact ih (fun c y hy => h c y (List.mem_cons_of_mem x hy)) _

section Trees

variable {f : Word → Word → Word} {e : Word}

theorem foldWords_one [Std.LawfulIdentity f e] (x : Nat → Leaf) (lo : Nat) : foldWords f e x lo 1 = (x lo).word :=
  Std.LawfulLeftIdentity.left_id (op := f) _

theorem foldWords_add [Std.Associative f] [Std.LawfulIdentity f e] (x : Nat → Leaf) (lo m n : Nat) :
    foldWords f e x lo (m + n) = f (foldWords f e x lo m) (foldWords f e x (lo + m) n) := by
  simp only [foldWords, ← List.range'_append_1, List.map_append, List.foldl_append]
  rw [← List.foldl_assoc (op := f), Std.LawfulRightIdentity.right_id (op := f)]

theorem runWord_join [Std.LawfulIdentity f e] (run : Option Leaf) (b : Leaf) :
    (joinBlock (unflagged f) run b).word = f (runWord e run) b.word := by
  cases run with
  | none => exact (Std.LawfulLeftIdentity.left_id (op := f) b.word).symm
  | some r => rfl

/-- The tree of an associative operation is the fold of its positions. -/
theorem treeAt_word [Std.Associative f] [Std.LawfulIdentity f e] (x : Nat → Leaf) (k lo : Nat) :
    (treeAt (unflagged f) x k lo).word = foldWords f e x lo (2 ^ k) := by
  induction k generalizing lo with
  | zero => exact (foldWords_one x lo).symm
  | succ k ih =>
    show f (treeAt _ x k lo).word (treeAt _ x k (lo + 2 ^ k)).word = _
    rw [ih, ih, Nat.pow_succ, Nat.mul_two, foldWords_add]

/-- The fold by aligned blocks of an associative operation is the fold of its positions. -/
theorem foldBlocks_word [Std.Associative f] [Std.LawfulIdentity f e] (x : Nat → Leaf) (n k pos : Nat) (run : Option Leaf) :
    runWord e (foldBlocks (unflagged f) x n k pos run) = f (runWord e run) (foldWords f e x pos (n % 2 ^ (k + 1))) := by
  induction k generalizing pos run with
  | zero =>
    rw [foldBlocks_zero, mod_two_pow_succ_of_nbit, Nat.pow_zero, Nat.mod_one, Nat.add_zero]
    split
    · rw [foldWords_one]
      exact runWord_join run _
    · exact (Std.LawfulRightIdentity.right_id (op := f) _).symm
  | succ k ih =>
    rw [foldBlocks_succ, mod_two_pow_succ_of_nbit n (k + 1)]
    split
    · rw [ih, foldWords_add, ← treeAt_word, ← Std.Associative.assoc (op := f), ← runWord_join (f := f)]
      rfl
    · rw [ih, Nat.zero_add]

/-- The tree of operations that raise no flag over leaves without flags has none. -/
theorem treeAt_fl {x : Nat → Leaf} (hx : ∀ j, (x j).fl = 0) (k lo : Nat) : (treeAt (unflagged f) x k lo).fl = 0 := by
  induction k generalizing lo with
  | zero => exact hx lo
  | succ k ih => simp [treeAt, treeStep, unflagged, ih]

theorem joinBlock_fl {run : Option Leaf} (hrun : ∀ r ∈ run, r.fl = 0) {b : Leaf} (hb : b.fl = 0) :
    (joinBlock (unflagged f) run b).fl = 0 := by
  cases run with
  | none => exact hb
  | some r => simp [joinBlock, treeStep, unflagged, hb, hrun r rfl]

theorem foldBlocks_fl {x : Nat → Leaf} (hx : ∀ j, (x j).fl = 0) (n k pos : Nat) (run : Option Leaf) (hrun : ∀ r ∈ run, r.fl = 0) :
    ∀ r ∈ foldBlocks (unflagged f) x n k pos run, r.fl = 0 := by
  have hjoin : ∀ j, ∀ r ∈ some (joinBlock (unflagged f) run (treeAt (unflagged f) x j pos)), r.fl = 0 := fun j r hr =>
    Option.some.inj hr ▸ joinBlock_fl hrun (treeAt_fl hx j pos)
  induction k generalizing pos run with
  | zero =>
    rw [foldBlocks_zero]
    split
    · exact hjoin 0
    · exact hrun
  | succ k ih =>
    rw [foldBlocks_succ]
    split
    · exact ih _ _ (hjoin (k + 1)) fun j r hr => Option.some.inj hr ▸ joinBlock_fl (hjoin (k + 1)) (treeAt_fl hx j _)
    · exact ih _ _ hrun hjoin

/-- Identities in the place of inactive lanes leave the fold of the active lanes. -/
theorem foldWords_sectionLeaf [Std.LawfulIdentity f e] (w : Warp) (act : Mask) (l : Nat) (val : Nat → Word) (n : Nat) :
    foldWords f e (sectionLeaf w act l e val) 0 n
      = ((List.range' (w.base l) n).filter (bit act)).foldl (fun a k => f a (val k)) e := by
  rw [foldWords, ← List.range_eq_range', List.range'_eq_map_range, List.foldl_map, List.foldl_filter, List.foldl_map]
  refine foldl_congr_of_mem (fun a j _ => ?_) e
  simp only [sectionLeaf]
  split
  · rfl
  · exact Std.LawfulRightIdentity.right_id (op := f) a

end Trees

/-! ### Integer reductions (04 R141) -/

theorem reduceOp_int {t : Ty} (ht : t ≠ .f32) (op : RedOp) (mode : RM) (ftz : Bool) :
    reduceOp t op mode ftz = unflagged fun a b => (reduceOp t op .rne false a b).1 := by
  have : (t == .f32) = false := beq_false_of_ne ht
  funext a b
  cases op <;> simp [reduceOp, unflagged, this]

/-- The integer by which a reduction of an integer type orders words. -/
def orderKey (t : Ty) (a : Word) : Int := if t == .s32 then a.toInt else a.toNat

theorem orderKey_injective (t : Ty) : Function.Injective (orderKey t) := fun a b h => by
  unfold orderKey at h
  split at h
  · exact BitVec.eq_of_toInt_eq h
  · exact BitVec.eq_of_toNat_eq (Int.ofNat.inj h)

theorem orderKey_lt (t : Ty) (a b : Word) : (if t == .s32 then a.slt b else a.ult b) = decide (orderKey t a < orderKey t b) := by
  unfold orderKey
  split
  · rfl
  · simp [BitVec.ult]

theorem reduceOp_add {t : Ty} (ht : t ≠ .f32) (a b : Word) : (reduceOp t .add .rne false a b).1 = a + b := by
  simp [reduceOp, beq_false_of_ne ht]

theorem orderKey_min {t : Ty} (ht : t ≠ .f32) (a b : Word) :
    orderKey t (reduceOp t .min .rne false a b).1 = min (orderKey t a) (orderKey t b) := by
  simp only [reduceOp, beq_false_of_ne ht, orderKey_lt, decide_eq_true_eq, Bool.false_eq_true, if_false]
  split <;> omega

theorem orderKey_max {t : Ty} (ht : t ≠ .f32) (a b : Word) :
    orderKey t (reduceOp t .max .rne false a b).1 = max (orderKey t a) (orderKey t b) := by
  simp only [reduceOp, beq_false_of_ne ht, orderKey_lt, decide_eq_true_eq, Bool.false_eq_true, if_false]
  split <;> omega

theorem orderKey_n32 (a : Word) : orderKey .n32 a = (a.toNat : Int) := rfl

theorem reduceOp_min_n32 (a b : Word) : (reduceOp .n32 .min .rne false a b).1.toNat = min a.toNat b.toNat := by
  have h := orderKey_min (t := .n32) (by decide) a b
  rw [orderKey_n32, orderKey_n32, orderKey_n32] at h
  omega

theorem reduceOp_max_n32 (a b : Word) : (reduceOp .n32 .max .rne false a b).1.toNat = max a.toNat b.toNat := by
  have h := orderKey_max (t := .n32) (by decide) a b
  rw [orderKey_n32, orderKey_n32, orderKey_n32] at h
  omega

/-- The identity of a minimum is the greatest word. -/
theorem orderKey_le_identity {t : Ty} (ht : t ≠ .f32) (a : Word) : orderKey t a ≤ orderKey t (identityOf t .min) := by
  simp only [orderKey, identityOf, beq_false_of_ne ht, Bool.false_eq_true, if_false]
  split
  · exact Int.le_of_lt_add_one a.toInt_lt
  · exact Int.ofNat_le.2 (Nat.le_of_lt_succ a.isLt)

/-- The identity of a maximum is the least word. -/
theorem identity_le_orderKey {t : Ty} (ht : t ≠ .f32) (a : Word) : orderKey t (identityOf t .max) ≤ orderKey t a := by
  simp only [orderKey, identityOf, beq_false_of_ne ht, Bool.false_eq_true, if_false]
  split
  · exact a.le_toInt
  · exact Int.natCast_nonneg _

/-- The combinations of an integer type are associative. -/
theorem reduceOp_associative {t : Ty} (ht : t ≠ .f32) (op : RedOp) :
    Std.Associative fun a b => (reduceOp t op .rne false a b).1 := by
  constructor
  intro a b c
  cases op with
  | add => simp only [reduceOp_add ht, BitVec.add_assoc]
  | min => exact orderKey_injective t (by simp only [orderKey_min ht, Int.min_assoc])
  | max => exact orderKey_injective t (by simp only [orderKey_max ht, Int.max_assoc])
  | and => exact BitVec.and_assoc a b c
  | or => exact BitVec.or_assoc a b c
  | xor => exact BitVec.xor_assoc a b c

/-- The identity that an inactive lane gives leaves a word as it is. -/
theorem reduceOp_identity {t : Ty} (ht : t ≠ .f32) (op : RedOp) :
    Std.LawfulIdentity (fun a b => (reduceOp t op .rne false a b).1) (identityOf t op) where
  left_id a := by
    cases op with
    | add => simp [reduceOp_add ht, identityOf, beq_false_of_ne ht]
    | min => exact orderKey_injective t (by rw [orderKey_min ht, Int.min_eq_right (orderKey_le_identity ht a)])
    | max => exact orderKey_injective t (by rw [orderKey_max ht, Int.max_eq_right (identity_le_orderKey ht a)])
    | and => exact BitVec.allOnes_and
    | or => exact BitVec.zero_or
    | xor => exact BitVec.zero_xor
  right_id a := by
    cases op with
    | add => simp [reduceOp_add ht, identityOf, beq_false_of_ne ht]
    | min => exact orderKey_injective t (by rw [orderKey_min ht, Int.min_eq_left (orderKey_le_identity ht a)])
    | max => exact orderKey_injective t (by rw [orderKey_max ht, Int.max_eq_left (identity_le_orderKey ht a)])
    | and => exact BitVec.and_allOnes
    | or => exact BitVec.or_zero
    | xor => exact BitVec.xor_zero

/-- LRED of an integer type in a lane: the active lanes of its section combined in order, without flags. -/
theorem lredLane_word {t : Ty} (ht : t ≠ .f32) {w : Warp} (hp : w.part ≤ 5) (act : Mask) (rm : RM) (op : RedOp) (val : Nat → Word)
    {l : Nat} (hl : l < 32) :
    (lredLane w act t rm op val l).word
      = (sect w act l).foldl (fun x k => (reduceOp t op .rne false x (val k)).1) (identityOf t op) := by
  have := reduceOp_associative ht op
  have := reduceOp_identity ht op
  rw [lredLane, reduceOp_int ht, treeAt_word, foldWords_sectionLeaf, sect_eq hp act hl]
  rfl

theorem sectionLeaf_fl (w : Warp) (act : Mask) (l : Nat) (e : Word) (val : Nat → Word) (j : Nat) :
    (sectionLeaf w act l e val j).fl = 0 := by
  simp only [sectionLeaf]
  split <;> rfl

theorem lredLane_fl {t : Ty} (ht : t ≠ .f32) (w : Warp) (act : Mask) (rm : RM) (op : RedOp) (val : Nat → Word) (l : Nat) :
    (lredLane w act t rm op val l).fl = 0 := by
  rw [lredLane, reduceOp_int ht]
  exact treeAt_fl (sectionLeaf_fl w act l _ val) _ _

theorem lscanLane_eq (w : Warp) (act : Mask) (t : Ty) (rm : RM) (excl : Bool) (op : RedOp) (val : Nat → Word) (l : Nat) :
    lscanLane w act t rm excl op val l
      = (foldBlocks (reduceOp t op (w.rm rm) w.ftz) (sectionLeaf w act l (identityOf t op) val) (scanLength w excl l) 5 0 none).getD
          { word := identityOf t op, real := false } := rfl

theorem runWord_getD (e : Word) (run : Option Leaf) : (run.getD { word := e, real := false }).word = runWord e run := by
  cases run <;> rfl

theorem lscanLane_word {t : Ty} (ht : t ≠ .f32) {w : Warp} (hp : w.part ≤ 5) (act : Mask) (rm : RM) (excl : Bool) (op : RedOp)
    (val : Nat → Word) {l : Nat} (hl : l < 32) :
    (lscanLane w act t rm excl op val l).word
      = ((sect w act l).filter fun k => k < l || !excl && k == l).foldl
          (fun x k => (reduceOp t op .rne false x (val k)).1) (identityOf t op) := by
  have := reduceOp_associative ht op
  have hid := reduceOp_identity ht op
  have hn : scanLength w excl l < 2 ^ (5 + 1) := by
    have := scanLength_le w excl l
    have := base_add_width_le hp hl
    omega
  rw [lscanLane_eq, runWord_getD, reduceOp_int ht, foldBlocks_word, Nat.mod_eq_of_lt hn, foldWords_sectionLeaf, sect_below hp act excl hl]
  exact hid.left_id _

theorem lscanLane_fl {t : Ty} (ht : t ≠ .f32) (w : Warp) (act : Mask) (rm : RM) (excl : Bool) (op : RedOp) (val : Nat → Word) (l : Nat) :
    (lscanLane w act t rm excl op val l).fl = 0 := by
  rw [lscanLane_eq, reduceOp_int ht]
  have hfl := foldBlocks_fl (f := fun a b => (reduceOp t op .rne false a b).1)
    (sectionLeaf_fl w act l (identityOf t op) val) (scanLength w excl l) 5 0 none (by simp)
  generalize foldBlocks _ _ _ _ _ _ = run at hfl ⊢
  cases run with
  | none => rfl
  | some r => exact hfl r rfl

/-! ### Completion with words that are told in the lanes only -/

theorem leadLane_lt (act : Mask) : leadLane act < 32 := by
  unfold leadLane lowest
  cases h : (laneList act).head? with
  | none => exact Nat.zero_lt_succ 31
  | some l => exact ((mem_laneList act l).1 (List.mem_of_head? h)).1

/-- What is written depends on the words of the 32 lanes alone. -/
theorem Wrote.congr {w w' : Warp} {h : Hdr} {act : Mask} {vals vals' : Nat → List Word} (he : ∀ l, l < 32 → vals l = vals' l)
    (hw : Wrote w h act vals w') : Wrote w h act vals' w' := by
  have hld := he _ (leadLane_lt act)
  unfold Wrote at hw ⊢
  simp only [hld] at hw
  obtain ⟨hvec, hvec', hvreg, hscal, hscal', hpred, hpred', hq, hq'⟩ := hw
  refine ⟨fun n l hl => he l hl ▸ hvec n l hl, hvec', hvreg, hscal, hscal', fun k l hl => he l hl ▸ hpred k l hl, hpred', hq, hq'⟩

theorem Acted.congr {s t : State} {v : View} {w : Warp} {h : Hdr} {act : Mask} {vals vals' : Nat → List Word} {pc : Nat → DWord}
    (he : ∀ l, l < 32 → vals l = vals' l) (ha : Acted s v w h act vals pc t) : Acted s v w h act vals' pc t := by
  obtain ⟨w', honly, hregs, hwrote, hmoved⟩ := ha
  exact ⟨w', honly, hregs, hwrote.congr he, hmoved⟩

/-- An instruction whose lanes each give a word without flags does what the words say. -/
theorem does_unflagged {i : Instr} {h : Hdr} {ok : State → View → Mask → Prop} (out : View → Mask → Nat → AluOut)
    (word : View → Mask → Nat → Word)
    (he : ∀ s, exec i s = start i s fun v act => finishAlu s v h 1 act (out v act))
    (hf : ∀ v act l, (out v act l).fl = 0 ∧ (out v act l).quiet = 0 ∧ (out v act l).event = false)
    (hv : ∀ s v act l, ok s v act → l < 32 → loWord (out v act l).val = word v act l) :
    Does i h ok (fun _ v _ => v.wp) (fun _ v act l => [word v act l]) (fun v _ _ => nextPc v.sp.pc) := by
  intro s v act hr hok
  refine ⟨_, (he s).trans ((start_of_ready hr _).trans (finish_plain (hf v act))), ?_⟩
  exact (acted_result (view_of_ready hr) v.wp rfl rfl h act _).congr fun l hl => congrArg (fun x => [x]) (hv s v act l hok hl)

theorem exec_lred (h : Hdr) (t : Ty) (rm : RM) (op : RedOp) (a : Src) (s : State) :
    exec (.lred h t rm op a) s = start (.lred h t rm op a) s fun v act =>
      finishAlu s v h 1 act fun l => leafOut (lredLane v.wp act t rm op (wordA (.lred h t rm op a) v act) l) := rfl

theorem exec_lscan (h : Hdr) (t : Ty) (rm : RM) (excl : Bool) (op : RedOp) (a : Src) (s : State) :
    exec (.lscan h t rm excl op a) s = start (.lscan h t rm excl op a) s fun v act =>
      finishAlu s v h 1 act fun l => leafOut (lscanLane v.wp act t rm excl op (wordA (.lscan h t rm excl op a) v act) l) := rfl

/-- Settles O15: the combinations are associative and inactive lanes give the identity, so the trees are folds in lane order. -/
theorem integerReductions : Obligations.IntegerReductions := by
  unfold Obligations.IntegerReductions
  refine ⟨fun h t rm op a ht => ?lred, fun h t rm excl op a ht => ?lscan, fun t a b ht => ⟨reduceOp_add ht a b, rfl, rfl, rfl⟩,
    fun a b => ⟨orderKey_min (t := .s32) (by decide) a b, orderKey_max (t := .s32) (by decide) a b,
      reduceOp_min_n32 a b, reduceOp_max_n32 a b⟩⟩
  case lred =>
    refine does_unflagged _ _ (exec_lred h t rm op a) (fun v act l => ⟨lredLane_fl ht _ _ _ _ _ _, rfl, rfl⟩) fun s v act l hp hl => ?_
    exact (loWord_zext64 _).trans (lredLane_word ht hp act rm op _ hl)
  case lscan =>
    refine does_unflagged _ _ (exec_lscan h t rm excl op a) (fun v act l => ⟨lscanLane_fl ht _ _ _ _ _ _ _, rfl, rfl⟩)
      fun s v act l hp hl => ?_
    exact (loWord_zext64 _).trans (lscanLane_word ht hp act rm excl op _ hl)

end Sys2Proof.Machine

/-! ### Floating reductions and the transform (02 R70, R73, R74; 04 R141, R144) -/

namespace Sys2Proof.Machine

/-- An instruction that finishes with an answer in each lane completes where none of its lanes traps. -/
theorem acted_finishAlu {s : State} {v : View} (hv : s.view = some v) {h : Hdr} {act : Mask} {out : Nat → AluOut}
    (hq : Quiet v.wp h act out) : ∃ t, finishAlu s v h 1 act out = .next t
      ∧ Acted s v { v.wp with fpstat := v.wp.fpstat ||| (raised h act out).setWidth 32 } h act (fun l => [loWord (out l).val])
          (fun _ => nextPc v.sp.pc) t :=
  ⟨_, finish_quiet hq, acted_result hv (v.wp.raise (raised h act out)) rfl rfl h act _⟩

theorem mem_execLanes_lt {h : Hdr} {act : Mask} {l : Nat} (hl : l ∈ execLanes h act) : l < 32 := by
  unfold execLanes at hl
  split at hl
  · split at hl
    · cases hl
    · exact List.mem_singleton.1 hl ▸ leadLane_lt act
  · exact ((mem_laneList act l).1 hl).1

/-- Lanes that give the same answers trap alike and raise the same flags. -/
theorem Quiet.congr {w : Warp} {h : Hdr} {act : Mask} {out out' : Nat → AluOut} (he : ∀ l, l < 32 → out l = out' l)
    (hq : Quiet w h act out) : Quiet w h act out' := fun l hl => he l (mem_execLanes_lt hl) ▸ hq l hl

theorem raised_congr {h : Hdr} {act : Mask} {out out' : Nat → AluOut} (he : ∀ l, l < 32 → out l = out' l) :
    raised h act out = raised h act out' :=
  foldl_congr_of_mem (fun _ _ hl => by rw [he _ (mem_execLanes_lt hl)]) 0

/-- The answer of HAD in a lane: the transform of the lane's block, inactive lanes giving zero. -/
def hadOut (ftz size32 sideB : Bool) (n : Nat) (x : Nat → Word) (l : Nat) : AluOut :=
  ofW ((hadamard ftz size32 sideB ((List.range n).map fun j => x (l / n * n + j))).getD (l % n) (0, 0))

/-- The same answer, taken from a table of the transforms of the warp's blocks. -/
def hadTableOut (ftz size32 sideB : Bool) (n : Nat) (x : Nat → Word) (l : Nat) : AluOut :=
  let blocks := (List.range (32 / n)).map fun b => hadamard ftz size32 sideB ((List.range n).map fun i => x (n * b + i))
  ofW ((blocks.getD (l / n) []).getD (l % n) (0, 0))

/-- The table holds the transform of each lane's block. -/
theorem hadOut_eq_hadTableOut (ftz size32 sideB : Bool) {n : Nat} (hn : n ∣ 32) (x : Nat → Word) {l : Nat} (hl : l < 32) :
    hadOut ftz size32 sideB n x l = hadTableOut ftz size32 sideB n x l := by
  have hb : l / n < 32 / n := Nat.div_lt_div_of_lt_of_dvd hn hl
  simp only [hadTableOut, hadOut, List.getD_eq_getElem?_getD, List.getElem?_map, List.getElem?_range hb, Option.map_some,
    Option.getD_some, Nat.mul_comm n]

theorem exec_had (h : Hdr) (size32 sideB : Bool) (a : Src) (s : State) :
    exec (.had h size32 sideB a) s = start (.had h size32 sideB a) s fun v act =>
      let n := if size32 then 32 else 16
      if act ≠ 0 ∧ n > v.wp.width then .next (s.takeTrap v (illegal 10))
      else finishAlu s v h 1 act
        (hadTableOut v.wp.ftz size32 sideB n fun k => if bit act k then wordA (.had h size32 sideB a) v act k else 0) := rfl

/-- Settles O16: LRED, LSCAN and HAD each finish with an answer in each lane; HAD traps first where its blocks are too wide. -/
theorem floatingReductions : Obligations.FloatingReductions := by
  unfold Obligations.FloatingReductions
  refine ⟨fun h rm op a s v act hr hq => ?lred, fun h rm excl op a s v act hr hq => ?lscan, fun h size32 sideB a s v act => ?had,
    fun h size32 sideB a s v act hr hok => ?wide⟩
  case lred =>
    rw [exec_lred, start_of_ready hr]
    exact acted_finishAlu (view_of_ready hr) hq
  case lscan =>
    rw [exec_lscan, start_of_ready hr]
    exact acted_finishAlu (view_of_ready hr) hq
  case had =>
    intro i n x out hr hn hq
    have hdvd : n ∣ 32 := by cases size32 <;> decide
    have he : ∀ l, l < 32 → out l = hadTableOut v.wp.ftz size32 sideB n x l := fun l hl =>
      hadOut_eq_hadTableOut v.wp.ftz size32 sideB hdvd x hl
    rw [exec_had, start_of_ready hr, if_neg fun hw => Nat.not_lt.2 hn hw.2]
    obtain ⟨t, ht, ha⟩ := acted_finishAlu (view_of_ready hr) (hq.congr he)
    rw [← raised_congr he] at ha
    exact ⟨t, ht, ha.congr fun l hl => by rw [he l hl]⟩
  case wide =>
    rw [exec_had, start_of_ready hr]
    exact if_pos hok

end Sys2Proof.Machine

/-! ### FP32, packed, FP64 and dot products (05 R147-R155) -/

namespace Sys2Proof.Machine

/-- An instruction of one, two or three sources with flags completes where none of its lanes traps. -/
theorem completesFp_op1 {i : Instr} {g : Sig} (hg : i.sig = some g) (f : Warp → DWord → AluOut)
    (he : ∀ s, exec i s = alu i (fun w _ xs => op1 (f w) xs) s) (ho : ∀ v act l, operandsOf i v act l = [longA i v act l]) :
    CompletesFp i g.words fun v act l => f v.wp (longA i v act l) :=
  completes_aluFp hg he fun v act l => by rw [ho]; rfl

theorem completesFp_op2 {i : Instr} {g : Sig} (hg : i.sig = some g) (f : Warp → DWord → DWord → AluOut)
    (he : ∀ s, exec i s = alu i (fun w _ xs => op2 (f w) xs) s)
    (ho : ∀ v act l, operandsOf i v act l = [longA i v act l, longB i v act l]) :
    CompletesFp i g.words fun v act l => f v.wp (longA i v act l) (longB i v act l) :=
  completes_aluFp hg he fun v act l => by rw [ho]; rfl

theorem completesFp_op3 {i : Instr} {g : Sig} (hg : i.sig = some g) (f : Warp → DWord → DWord → DWord → AluOut)
    (he : ∀ s, exec i s = alu i (fun w _ xs => op3 (f w) xs) s)
    (ho : ∀ v act l, operandsOf i v act l = [longA i v act l, longB i v act l, longC i v act l]) :
    CompletesFp i g.words fun v act l => f v.wp (longA i v act l) (longB i v act l) (longC i v act l) :=
  completes_aluFp hg he fun v act l => by rw [ho]; rfl

/-- FP32 operations in the mode and under the FTZ in force. -/
theorem completesFp_fop1 {i : Instr} {g : Sig} (hg : i.sig = some g) (f : RM → Bool → Word → Word × Flags) (rm : RM)
    (he : ∀ s, exec i s = alu i (fop1 f rm) s) (ho : ∀ v act l, operandsOf i v act l = [longA i v act l]) :
    CompletesFp i g.words (out1 f rm i) :=
  completesFp_op1 hg (fun w x => ofW (f (w.rm rm) w.ftz (loWord x))) he ho

theorem completesFp_fop2 {i : Instr} {g : Sig} (hg : i.sig = some g) (f : RM → Bool → Word → Word → Word × Flags) (rm : RM)
    (he : ∀ s, exec i s = alu i (fop2 f rm) s) (ho : ∀ v act l, operandsOf i v act l = [longA i v act l, longB i v act l]) :
    CompletesFp i g.words (out2 f rm i) :=
  completesFp_op2 hg (fun w x y => ofW (f (w.rm rm) w.ftz (loWord x) (loWord y))) he ho

theorem completesFp_fop3 {i : Instr} {g : Sig} (hg : i.sig = some g) (f : RM → Bool → Word → Word → Word → Word × Flags) (rm : RM)
    (he : ∀ s, exec i s = alu i (fop3 f rm) s)
    (ho : ∀ v act l, operandsOf i v act l = [longA i v act l, longB i v act l, longC i v act l]) :
    CompletesFp i g.words (out3 f rm i) :=
  completesFp_op3 hg (fun w x y z => ofW (f (w.rm rm) w.ftz (loWord x) (loWord y) (loWord z))) he ho

/-- A comparison of two sources writes the combination of its result with a predicate. -/
theorem completesFp_predCmp {i : Instr} {g : Sig} (hg : i.sig = some g) (k : Comb) (cp : PRef) (f : Warp → DWord → DWord → Bool × Flags)
    (he : ∀ s, exec i s = predCmp i k cp f s) (ho : ∀ v act l, operandsOf i v act l = [longA i v act l, longB i v act l]) :
    CompletesFp i g.words fun v act l =>
      let r := f v.wp (longA i v act l) (longB i v act l)
      { val := ofB (combine k r.1 (v.wp.pref i.hdr.u cp l)), fl := r.2 } :=
  completes_aluFp hg he fun v act l => by rw [ho]; rfl

/-- A packed operation and an FP64 operation on the values of their sources. -/
theorem completesFp_packed {i : Instr} {g : Sig} (hg : i.sig = some g) (f : Fmt) (op : RM → List Fp → Fp × Flags) (rm : RM)
    (he : ∀ s, exec i s = alu i (packed f op rm) s) :
    CompletesFp i g.words fun v act l =>
      packedOut f v.wp rm fun m k => op m ((operandsOf i v act l).map fun x => halfVal f v.wp.ftz x k) :=
  completes_aluFp hg he fun _ _ _ => rfl

theorem completesFp_dop {i : Instr} {g : Sig} (hg : i.sig = some g) (op : RM → List Fp → Fp × Flags) (rm : RM)
    (he : ∀ s, exec i s = alu i (dop op rm) s) :
    CompletesFp i g.words fun v act l =>
      doubleOut v.wp rm fun m => op m ((operandsOf i v act l).map fun x => Fmt.f64.decode false x.toNat) :=
  completes_aluFp hg he fun _ _ _ => rfl

/-- The low word of a bitwise choice between the sign bit of one value and the rest of another. -/
theorem copysign_word (x y : DWord) :
    loWord ((x &&& 0x7FFFFFFF) ||| (y &&& 0x80000000)) = (loWord x &&& 0x7FFFFFFF) ||| (loWord y &&& 0x80000000) := by
  simp only [loWord, BitVec.extractLsb'_or, BitVec.extractLsb'_and]
  rfl

/-- Settles O7: each instruction is an FP32 operation on its sources. -/
theorem fp32Arithmetic : Obligations.Fp32Arithmetic := by
  unfold Obligations.Fp32Arithmetic
  refine ⟨fun h rm a b => ?fadd, fun h rm a b => ?fsub, fun h rm a b => ?fmul, fun h rm a b c => ?ffma, fun h rm a b => ?fscale,
    fun h a b => ?fmin, fun h a b => ?fmax, fun h a b => ?fminn, fun h a b => ?fmaxn, fun h rm a => ?frnd, fun h a => ?fexp⟩
  case fadd => exact completesFp_fop2 (i := .fadd h rm a b) rfl fadd32 rm (fun _ => rfl) fun _ _ _ => rfl
  case fsub => exact completesFp_fop2 (i := .fsub h rm a b) rfl fsub32 rm (fun _ => rfl) fun _ _ _ => rfl
  case fmul => exact completesFp_fop2 (i := .fmul h rm a b) rfl fmul32 rm (fun _ => rfl) fun _ _ _ => rfl
  case ffma => exact completesFp_fop3 (i := .ffma h rm a b c) rfl ffma32 rm (fun _ => rfl) fun _ _ _ => rfl
  case fscale => exact completesFp_fop2 (i := .fscale h rm a b) rfl fscale32 rm (fun _ => rfl) fun _ _ _ => rfl
  case fmin => exact completesFp_fop2 (i := .fmin h a b) rfl _ .rne (fun _ => rfl) fun _ _ _ => rfl
  case fmax => exact completesFp_fop2 (i := .fmax h a b) rfl _ .rne (fun _ => rfl) fun _ _ _ => rfl
  case fminn => exact completesFp_fop2 (i := .fminn h a b) rfl _ .rne (fun _ => rfl) fun _ _ _ => rfl
  case fmaxn => exact completesFp_fop2 (i := .fmaxn h a b) rfl _ .rne (fun _ => rfl) fun _ _ _ => rfl
  case frnd => exact completesFp_fop1 (i := .frnd h rm a) rfl frnd32 rm (fun _ => rfl) fun _ _ _ => rfl
  case fexp => exact completesFp_fop1 (i := .fexp h a) rfl _ .rne (fun _ => rfl) fun _ _ _ => rfl

/-- Settles O8: the comparisons write their result with its flags; FCLASS and FCOPYSIGN are functions of words without flags. -/
theorem fpComparesAndClasses : Obligations.FpComparesAndClasses := by
  unfold Obligations.FpComparesAndClasses
  refine ⟨fun h c k cp a b => ?fpred, fun h c a b => ?fcmp, fun h c k cp a b => ?dpred, fun h a => ?fclass, fun h a b => ?fcopysign⟩
  case fpred => exact completesFp_predCmp (i := .fpred h c k cp a b) rfl k cp (fcompare c) (fun _ => rfl) fun _ _ _ => rfl
  case fcmp =>
    exact completesFp_op2 (i := .fcmp h c a b) rfl (fun w x y => { val := ones32 (fcompare c w x y).1, fl := (fcompare c w x y).2 })
      (fun _ => rfl) fun _ _ _ => rfl
  case dpred =>
    exact completesFp_predCmp (i := .dpred h c k cp a b) rfl k cp
      (fun _ x y => compareFp c (Fmt.f64.decode false x.toNat) (Fmt.f64.decode false y.toNat)) (fun _ => rfl) fun _ _ _ => rfl
  case fclass =>
    refine completes_val1 (i := .fclass h a) rfl _ (fun _ => rfl) (fun _ _ _ => rfl) fun v act l => ?_
    exact congrArg (fun x => [x]) (loWord_zext64 _)
  case fcopysign =>
    refine completes_val2 (i := .fcopysign h a b) rfl _ (fun _ => rfl) (fun _ _ _ => rfl) fun v act l => ?_
    exact congrArg (fun x => [x]) (copysign_word _ _)

/-- Settles O9: packed and FP64 operations act on the values of their sources; the dot products are FP32 sums of products. -/
theorem packedDoubleDots : Obligations.PackedDoubleDots := by
  unfold Obligations.PackedDoubleDots
  refine ⟨fun h rm a b => ?pkaddh, fun h rm a b => ?pkmulh, fun h rm a b c => ?pkfmah, fun h rm a b c => ?pkfmab,
    fun h rm bf a b c => ?pkdoth, fun h ta tb rm a b c => ?b8dot4, fun h rm a b => ?dadd, fun h rm a b => ?dmul, fun h rm a b c => ?dfma⟩
  case pkaddh => exact completesFp_packed (i := .pkaddh h rm a b) rfl .f16 addList rm fun _ => rfl
  case pkmulh => exact completesFp_packed (i := .pkmulh h rm a b) rfl .f16 mulList rm fun _ => rfl
  case pkfmah => exact completesFp_packed (i := .pkfmah h rm a b c) rfl .f16 fmaList rm fun _ => rfl
  case pkfmab => exact completesFp_packed (i := .pkfmab h rm a b c) rfl .bf16 fmaList rm fun _ => rfl
  case pkdoth =>
    exact completesFp_op3 (i := .pkdoth h rm bf a b c) rfl (fun w x y z =>
      let f := if bf then Fmt.bf16 else Fmt.f16
      dotOut w rm z ((List.range 2).map fun i => (f.decode w.ftz (half x i), f.decode w.ftz (half y i))))
      (fun _ => rfl) fun _ _ _ => rfl
  case b8dot4 =>
    exact completesFp_op3 (i := .b8dot4 h ta tb rm a b c) rfl (fun w x y z =>
      dotOut w rm z ((List.range 4).map fun i => (valueOf ta (bits x.toNat (8 * i) 8), valueOf tb (bits y.toNat (8 * i) 8))))
      (fun _ => rfl) fun _ _ _ => rfl
  case dadd => exact completesFp_dop (i := .dadd h rm a b) rfl addList rm fun _ => rfl
  case dmul => exact completesFp_dop (i := .dmul h rm a b) rfl mulList rm fun _ => rfl
  case dfma => exact completesFp_dop (i := .dfma h rm a b c) rfl fmaList rm fun _ => rfl

end Sys2Proof.Machine

/-! ### Conversions, special functions and ACT (05 R156-R164) -/

namespace Sys2Proof.Machine

/-- An instruction of one word that gives each lane an answer of its own completes where none of its lanes traps. -/
theorem completesFp_finishAlu {i : Instr} {out : View → Mask → Nat → AluOut}
    (he : ∀ s, exec i s = start i s fun v act => finishAlu s v i.hdr 1 act (out v act)) : CompletesFp i 1 out := by
  intro s v act hr hq
  rw [he, start_of_ready hr]
  exact acted_finishAlu (view_of_ready hr) hq

/-- PACK8 as an operation of three sources. -/
theorem exec_pack8 (h : Hdr) (td : Ty) (rm : RM) (ovp : Ovp) (hi : Bool) (a b c : Src) (s : State) :
    exec (.pack8 h td rm ovp hi a b c) s = alu (.pack8 h td rm ovp hi a b c) (fun w _ xs => op3 (fun x y z =>
      let p := convert td (w.rm rm) ovp false (f32 false (loWord x))
      let q := convert td (w.rm rm) ovp false (f32 false (loWord y))
      let sh := if hi then 65536 else 1
      { val := BitVec.ofNat 64 ((p.bits + 256 * q.bits) * sh + (if hi then bits z.toNat 0 16 else bits z.toNat 16 16 * 65536))
        fl := p.fl ||| q.fl, event := p.event || q.event }) xs) s := rfl

theorem operandsOf_pack8 (h : Hdr) (td : Ty) (rm : RM) (ovp : Ovp) (hi : Bool) (a b c : Src) (v : View) (act : Mask) (l : Nat) :
    let i := Instr.pack8 h td rm ovp hi a b c
    operandsOf i v act l = [longA i v act l, longB i v act l, longC i v act l] := rfl

/-- The halves of PACK8, placed by a shift or side by side. -/
theorem pack8_halves (hi : Bool) (n z : Nat) :
    n * (if hi then 65536 else 1) + (if hi then bits z 0 16 else bits z 16 16 * 65536)
      = if hi then n * 65536 + bits z 0 16 else n + bits z 16 16 * 65536 := by
  cases hi
  · exact congrArg (· + _) (Nat.mul_one n)
  · rfl

/-- A special function is an FP32 operation of one source. -/
theorem completesFp_special {i : Instr} {g : Sig} (hg : i.sig = some g) (fn : SpecialFn) (rm : RM)
    (he : ∀ s, exec i s = alu i (special fn rm) s) (ho : ∀ v act l, operandsOf i v act l = [longA i v act l]) :
    CompletesFp i g.words (out1 (specialF fn) rm i) := completesFp_fop1 hg (specialF fn) rm he ho

/-- Settles O10: conversions and special functions are operations of one source; CVTC and ACT finish with a table's answer. -/
theorem conversionsAndFunctions : Obligations.ConversionsAndFunctions := by
  unfold Obligations.ConversionsAndFunctions
  refine ⟨fun h td ts rm ovp a => ?cvt, fun h td ts rm ovp tabl a => ?cvtcInverse, fun h td ts rm ovp tabl a => ?cvtcForward,
    fun h td rm ovp hi a b c => ?pack8, fun h ts elem a => ?unpack8, fun h a => ?rcp, fun h a => ?rsq, fun h rm a => ?sqrt,
    fun h a => ?exp2, fun h a => ?log2, fun h a => ?sin, fun h a => ?cos, fun h a => ?tanh, fun h a => ?sigm, fun h tabl a => ?act⟩
  case cvt =>
    exact completesFp_op1 (i := .cvt h td ts rm ovp a) rfl
      (fun w x => ofConv td (convert td (w.rm rm) ovp ts.isInt (valueOf ts x.toNat))) (fun _ => rfl) fun _ _ _ => rfl
  case cvtcInverse => exact completesFp_finishAlu (i := .cvtc h td ts rm ovp true tabl a) fun _ => rfl
  case cvtcForward => exact completesFp_finishAlu (i := .cvtc h td ts rm ovp false tabl a) fun _ => rfl
  case pack8 =>
    refine completes_aluFp (i := .pack8 h td rm ovp hi a b c) rfl (exec_pack8 h td rm ovp hi a b c) fun v act l => ?_
    rw [operandsOf_pack8, op3]
    simp only [pack8_halves]
    rfl
  case unpack8 =>
    exact completes_val1 (i := .unpack8 h ts elem a) rfl
      (fun x => placeOf .f32 (convert .f32 .rne .sat false (valueOf ts (bits x.toNat (8 * elem.toNat) 8))).bits)
      (fun _ => rfl) (fun _ _ _ => rfl) fun _ _ _ => rfl
  case rcp => exact completesFp_special (i := .rcp h a) rfl .rcp .rne (fun _ => rfl) fun _ _ _ => rfl
  case rsq => exact completesFp_special (i := .rsq h a) rfl .rsq .rne (fun _ => rfl) fun _ _ _ => rfl
  case sqrt => exact completesFp_special (i := .sqrt h rm a) rfl .sqrt rm (fun _ => rfl) fun _ _ _ => rfl
  case exp2 => exact completesFp_special (i := .exp2 h a) rfl .exp2 .rne (fun _ => rfl) fun _ _ _ => rfl
  case log2 => exact completesFp_special (i := .log2 h a) rfl .log2 .rne (fun _ => rfl) fun _ _ _ => rfl
  case sin => exact completesFp_special (i := .sin h a) rfl .sin .rne (fun _ => rfl) fun _ _ _ => rfl
  case cos => exact completesFp_special (i := .cos h a) rfl .cos .rne (fun _ => rfl) fun _ _ _ => rfl
  case tanh => exact completesFp_special (i := .tanh h a) rfl .tanh .rne (fun _ => rfl) fun _ _ _ => rfl
  case sigm => exact completesFp_special (i := .sigm h a) rfl .sigm .rne (fun _ => rfl) fun _ _ _ => rfl
  case act => exact completesFp_finishAlu (i := .act h tabl a) fun _ => rfl

end Sys2Proof.Machine

/-! ### The softmax idiom (05 R166, R167) -/

namespace Sys2Proof.Machine

theorem enables_writeDst (w : Warp) (h : Hdr) (act : Mask) (vals : Nat → List Word) : (w.writeDst h act vals).enables = w.enables := by
  rw [writeDst_onlyRegs]
  rfl

/-- With every trap disabled, a part of the idiom does not trap; it leaves them disabled. -/
theorem idiomPart_of_disabled {w : Warp} (he : w.enables = 0) (h : Hdr) (act : Mask) (dst : BitVec 8) {out : Nat → AluOut}
    (hev : ∀ l, (out l).event = false) : ∃ w', idiomPart w h act dst out = .ok w' ∧ w'.enables = 0 := by
  have hq : Quiet w h act out := fun l _ => ⟨hev l, by rw [he]; exact BitVec.and_zero⟩
  refine ⟨(w.raise (raised h act out)).writeDst { h with dst := .vec dst } act (outWords 1 out), ?_, ?_⟩
  · rw [idiomPart, aluFlags_quiet hq]
    rfl
  · exact (enables_writeDst _ _ _ _).trans he

/-- A full register without uncorrectable words can be read. -/
theorem readV_of_full {w : Warp} {n : Nat} (ht : (w.vget n).tag = .full) (hb : (w.vget n).bad = 0) (ls : List Nat) :
    w.readV ls n = none := by
  have hfind : ls.find? (bit (w.vget n).bad ·) = none := List.find?_eq_none.2 fun l _ => by simp [hb, bit]
  simp only [Warp.readV, ht, hfind]

/-- The idiom traps where the register of its sum lies at or above N, as I4 alone would (05 R166, R167). -/
theorem softmaxIdiom_sum_out_of_range {s : State} {v : View} (hv : s.view = some v) (he : v.wp.enables = 0) {h : Hdr} (rs ra : RM)
    {vx vm vd ve vs : BitVec 8} (hg : v.wp.readP false h.guard.num.toNat = none) (hrun : idiomRun s v = none)
    (hfull : ∀ r ∈ [vx, vm, vd, ve, vs], (v.wp.vget r.toNat).tag = .full) (hbad : (v.wp.vget vx.toNat).bad = 0)
    (hvs : v.wp.n ≤ vs.toNat) : exec (.softmaxIdiom h rs ra vx vm vd ve vs) s = .next (s.takeTrap v (illegal 6)) := by
  have hpend : [vx, vm, vd, ve, vs].any (fun r => (v.wp.vget r.toNat).tag == .pending) = false :=
    List.any_eq_false.2 fun r hr => by simp [hfull r hr]
  have hread : ∀ act : Mask, (if act = 0 then none else v.wp.readV (laneList act) vx.toNat) = none := fun act => by
    rw [readV_of_full (hfull vx (by simp)) hbad, ite_self]
  show execSoftmaxIdiom h rs ra vx vm vd ve vs s = _
  simp only [execSoftmaxIdiom, hv, hg, hrun, hpend, hread, Bool.or_false, Bool.false_eq_true, if_false]
  obtain ⟨w1, h1, he1⟩ := idiomPart_of_disabled he h (v.wp.active v.sp.mask h) vm
    (out := fun l => leafOut (lredLane v.wp (v.wp.active v.sp.mask h) .f32 .rne .max (v.wp.vlane vx.toNat) l)) fun _ => rfl
  obtain ⟨w2, h2, he2⟩ := idiomPart_of_disabled he1 h (v.wp.active v.sp.mask h) vd
    (out := fun l => ofW (fsub32 (w1.rm rs) w1.ftz (w1.vlane vx.toNat l) (w1.vlane vm.toNat l))) fun _ => rfl
  obtain ⟨w3, h3, -⟩ := idiomPart_of_disabled he2 h (v.wp.active v.sp.mask h) ve
    (out := fun l => ofW (specialF .exp2 .rne w2.ftz (w2.vlane vd.toNat l))) fun _ => rfl
  have hout : ¬ vs.toNat < v.wp.n := Nat.not_lt.2 hvs
  simp only [h1, h2, h3, bind, Except.bind, hout, if_false]

/-! The counterexample to O11: a warp of eight registers, all full, and an idiom whose sum goes to register 8. -/

def shortSplit : Split := { pc := 4, mask := 1, parts := [{ entry := 4, mask := 1 }] }
def shortWarp : Warp := { n := 8, vregs := List.replicate 8 {}, trapvec := 0x44, front := [shortSplit] }
def shortTeam : Team :=
  { id := 0, launch := 0, queue := 0, graph := 0, teamid := 0, cu := 0, pin := none, n := 8, scratchSize := 0, warps := [shortWarp] }
def shortState : State := { State.reset with slices := [{ lsl := 0, st := 1, teams := [shortTeam] }], cur := some ⟨0, 0, 0, 0⟩ }
def shortView : View := { cur := ⟨0, 0, 0, 0⟩, sl := shortState.slice 0, tm := shortTeam, wp := shortWarp, sp := shortSplit }
def idiomHdr : Hdr := { guard := .always, u := false, ws := false, dst := .vec 1 }

theorem view_shortState : shortState.view = some shortView := rfl

theorem idiomRun_shortState : idiomRun shortState shortView = none := by decide +kernel

theorem handler_takeTrap_shortState :
    ((shortState.takeTrap shortView (illegal 6)).warp shortView.ref).map (·.handler.isSome) = some true := by decide +kernel

/-- Refutes O11: the statement does not ask that the register of the sum lie below N, where the idiom traps as its fourth instruction
does (05 R166, R167). -/
theorem not_softmaxIdiomCompletes : ¬ Obligations.SoftmaxIdiomCompletes := by
  unfold Obligations.SoftmaxIdiomCompletes
  intro hall
  have hfull : ∀ r ∈ ([0, 1, 2, 3, 8] : List (BitVec 8)), (shortWarp.vget r.toNat).tag = .full := by decide
  obtain ⟨t, ht, w', ⟨-, hwarp, -⟩, honly, -⟩ := hall idiomHdr .rne .rne 0 1 2 3 8 shortState shortView view_shortState rfl rfl rfl
    rfl idiomRun_shortState hfull rfl
  have htrap := softmaxIdiom_sum_out_of_range view_shortState (h := idiomHdr) rfl .rne .rne rfl idiomRun_shortState hfull rfl (by decide)
  have hstate : shortState.takeTrap shortView (illegal 6) = t := Host.Outcome.next.inj (htrap.symm.trans ht)
  have hsome := handler_takeTrap_shortState
  rw [hstate, hwarp] at hsome
  have hnone : w'.handler = none := by
    rw [honly]
    rfl
  simp [hnone] at hsome

end Sys2Proof.Machine

/-! ### Starting a task (06 R206, R207) -/

namespace Sys2Proof.Machine

/-! The counterexample to O42: two waiting tasks of one name, whose records carry different flags in word 30. -/

def twinTask (w30 : Word) : Task :=
  { id := 0, words := (List.replicate 32 0).set 30 w30, ringSlot := 0, comp := none, issuer := ⟨0, 0, 0⟩, vf := 0, cu := 0 }
def twinState : State :=
  { State.reset with slices := [
    { lsl := 0, st := 1, ring := some { base := 0x4000, slots := 4, spill := 0x6000, nspill := 2 }
      tasks := [twinTask 0, twinTask 0x10000] }] }

/-- The flags of the tasks of slice 0 in the next state. -/
def nextTaskFlags : Res → List Flags
  | .next s => (s.slice 0).tasks.map (·.fl)
  | _ => []

theorem taskFlags_taskStart : nextTaskFlags (exec (.taskStart 0) twinState) = [0, 1] := by decide +kernel

theorem engine_twinState : twinState.freeEngine 0 = some ⟨0, 0, none⟩ := by decide +kernel

/-- Refutes O42: a start gives each task of the name the flags and held banks of its own record, and the statement those of the first
task, without the hypothesis that names differ (log 3 draws them fresh). -/
theorem not_copyTaskAndTableSteps : ¬ Obligations.CopyTaskAndTableSteps := by
  unfold Obligations.CopyTaskAndTableSteps
  rintro ⟨-, -, hstart, -⟩
  have h := hstart twinState 0 (twinTask 0) ⟨0, 0, none⟩ 0 rfl (by decide) rfl (by decide +kernel) engine_twinState (by decide +kernel)
  have hflags := congrArg nextTaskFlags h
  rw [taskFlags_taskStart] at hflags
  exact absurd hflags (by decide)

end Sys2Proof.Machine
